-- ==== Sys2Proof/Word.lean ====
section
/-! DEFINITION. The word types of the block: a byte, a 64-bit container of an
operand-register word of `XLEN` bits (R7, log 4),
a block of 16 bytes held as the 128-bit big-endian integer `int(X)` (R8, R9), and a command word (R80). -/

namespace Sys2Proof

/-- A byte (R8). -/
abbrev Byte := BitVec 8

/-- The container of an address, a length or an operand register (R7, R21): all its 64 bits at the default `XLEN`, its
low `XLEN` bits at a smaller one, the others 0 (log 4). -/
abbrev Word := BitVec 64

/-- A block: a 16-byte string `X` held as `int(X) = unbe(X)`, so that field bit `i` is integer bit `127 - i` (R9). -/
abbrev Block := BitVec 128

/-- A key-wrap semiblock: 8 bytes held as their big-endian integer (file 46, opening). -/
abbrev Semiblock := BitVec 64

/-- A command word, as written to `CMD` (R23, R80). -/
abbrev CmdWord := BitVec 32

end Sys2Proof
end

