-- ==== Sys2Proof/Config.lean ====
section
/-! DEFINITION. What an implementation fixes and the machine only calls (R5, R7, R42): the names of the external
capabilities, descriptors, the configuration record, and the opaque constants that stand for what the spec leaves
open. The default values of the record stand in Machine/Params.lean. -/

namespace Sys2Proof

/-- The names of the block-cipher capabilities that a descriptor or the direct engine can bind (R5, R30, R132). The spec
leaves open which capabilities there are; that they are these names and no more, one here, those of the default table, is
a DESIGN CHOICE (log 25). What a name stands for is the configuration's (`Cfg.bc`, `Cfg.bcKeylens`). -/
inductive BcName where
  | aes
  deriving DecidableEq, Repr

/-- The names of the MAC capabilities that a descriptor can bind (R5, R30): the four of the default table and no more, a
DESIGN CHOICE (log 25). What a name stands for is the configuration's (`Cfg.mac`, `Cfg.macLen`, `Cfg.macKeylen`). -/
inductive MacName where
  | hmacSha1
  | ssl3Sha1
  | hmacSha256
  | hmacMd5
  deriving DecidableEq, Repr

/-- The names of the stream-cipher capabilities that a descriptor can bind (R5, R30): the nonce-addressed one of descriptor
4, the stateful one of descriptor 5 and no more, a DESIGN CHOICE (log 25). What a name stands for is the configuration's
(`Cfg.scMap`, `Cfg.scNext`, `Cfg.scInit`). -/
inductive ScName where
  | nonceAddressed
  | stateful
  deriving DecidableEq, Repr

/-- A descriptor's `family` with the capabilities that family binds (R30). `block` is the cipher block size in bytes. -/
inductive Family where
  | gcm (bc : BcName)
  | cbcTls (bc : BcName) (mac : MacName) (block : Nat)
  | cbcSsl3 (bc : BcName) (mac : MacName) (block : Nat)
  | stream (sc : ScName) (mac : MacName) (exposesState : Bool)
  | keywrap (bc : BcName)
  deriving DecidableEq, Repr

/-- A descriptor (R30): the family with its bindings, the four advertised lengths in bytes, the part of the key that
is the MAC key (R206), and the one associated-data length the family accepts (`none` is "any"). -/
structure Descriptor where
  family : Family
  keyLen : Nat
  nonceLen : Nat
  overhead : Nat
  maxTagLen : Nat
  macKeyLen : Nat
  adLen : Option Nat
  deriving DecidableEq, Repr

/-- The length-preserving involution nearest to an arbitrary map of byte strings: where the map keeps the length and
undoes itself it is followed, elsewhere the string is kept. Every map that satisfies R5's two laws of `SC_s.xor` arises
so from itself, and every map gives one that satisfies them, so the laws hold by construction (log 7). -/
def selfInverse (f : List Byte → List Byte) (d : List Byte) : List Byte :=
  if (f d).length = d.length ∧ f (f d) = d then f d else d

/-- The configuration of a machine (R7): the widths (P1, P2), capabilities (P13 to P15), `PROBE` (P10), `CT_COUNT` (P12),
the free bytes of UD5, the descriptor table (P9), the bounds (P3 to P8) and `COMBINED_MIN_LEN` (P11). Which records are
configurations says `Cfg.Lawful`. The names of the capabilities are no part of it (log 25). -/
structure Cfg where
  /-- `XLEN`, at most the 64 bits of `Word` (R7, log 4). -/
  xlen : Nat
  /-- `N_CTX`, at most 256 (R7, R34). -/
  nCtx : Nat
  /-- The block cipher bound to the direct engine (R132). -/
  engBc : BcName
  /-- `BC.keylens`, in bytes (R5). -/
  bcKeylens : BcName → List Nat
  /-- `BC.E(key, ·)` with its inverse `BC.D(key, ·)`: a permutation of blocks for every key (R5, log 5). -/
  bc : BcName → List Byte → Equiv.Perm Block
  /-- `MAC_m.len` (R5). -/
  macLen : MacName → Nat
  /-- `MAC_m.keylen`, in bytes (R5, P14): the `mac_key_len` of a descriptor that binds the MAC (R30). -/
  macKeylen : MacName → Nat
  /-- `MAC_m.F(key, msg)`, of `MAC_m.len` bytes (R5, log 6). -/
  mac : (m : MacName) → List Byte → List Byte → Vector Byte (macLen m)
  /-- `SC_s.keylen`, in bytes (R5, P15): the `enc_key_len` of a descriptor that binds the stream cipher (R30). -/
  scKeylen : ScName → Nat
  /-- `SC_s.statelen` (R5, log 8). -/
  scStateLen : ScName → Nat
  /-- `SC_s.init(key)`, of `SC_s.statelen` bytes (R5). -/
  scInit : (c : ScName) → List Byte → Vector Byte (scStateLen c)
  /-- The map behind `SC_s.xor(state, nonce, ·)`; `selfInverse` of it is what the machine calls (R5, log 7). -/
  scMap : ScName → List Byte → List Byte → List Byte → List Byte
  /-- The next state of `SC_s.xor(state, nonce, data)`, from the state, the nonce and the data's length (P15, log 7). -/
  scNext : (c : ScName) → List Byte → List Byte → Nat → Vector Byte (scStateLen c)
  /-- `PROBE`, the capability-probe word (R5, R33, log 9). -/
  probe : BitVec 32
  /-- `CT_COUNT(d, L, adl)`, as the two counter registers hold it (R32, R222, log 10). -/
  ctCount : Descriptor → Nat → Nat → Word × Word
  /-- The stream of free bytes for UD5 (log 3). -/
  freeByte : Nat → Byte
  /-- `DESC_TABLE` (R30): the descriptor of id `d` is the entry at index `d`. -/
  table : List Descriptor
  /-- `MSG_MAX` (R7). -/
  msgMax : Nat
  /-- `AAD_MAX_BYTES` (R7). -/
  aadMax : Nat
  /-- `NONCE_MAX` (R7). -/
  nonceMax : Nat
  /-- `LEGACY_MAX_PT` (R7). -/
  legacyMaxPt : Nat
  /-- `KW_MAX_BYTES` (R7). -/
  kwMax : Nat
  /-- `KW_DEFAULT_IV` (R7, R242). -/
  kwDefaultIv : Semiblock
  /-- `COMBINED_MIN_LEN` (R7); no rule reads it (R195, P11, log 11). -/
  combinedMinLen : Nat

/-- The block cipher capability of the machine: nothing is known of it but that it is a permutation for each key
(R5, P13, log 5). -/
opaque Config.blockCipher : BcName → List Byte → Equiv.Perm Block

/-- The output lengths of the MACs of the default table (R30): SHA-1 20, SHA-256 32, MD5 16 bytes. -/
def Config.macLen : MacName → Nat
  | .hmacSha1 => 20
  | .ssl3Sha1 => 20
  | .hmacSha256 => 32
  | .hmacMd5 => 16

/-- The key lengths of the MACs of the default table (R30). -/
def Config.macKeylen : MacName → Nat
  | .hmacSha1 => 20
  | .ssl3Sha1 => 20
  | .hmacSha256 => 32
  | .hmacMd5 => 16

/-- The MAC capabilities of the machine: nothing is known of them but their output length (R5, P14, log 6). -/
opaque Config.macValue : (m : MacName) → List Byte → List Byte → Vector Byte (Config.macLen m)

/-- The key lengths of the stream ciphers of the default table (R30). -/
def Config.streamKeylen : ScName → Nat
  | .nonceAddressed => 32
  | .stateful => 16

/-- The lengths of the stream-cipher states, less one: the spec gives none (R5, N23, log 8). -/
opaque Config.streamStateExtra : ScName → Fin 18446744073709551615

/-- `SC_s.statelen`: at least 1, for every `SEAL` and `OPEN` mutates the state (R34), and below `2^64`, for `GETSTREAM`
writes it to `OUTLEN` (R228, log 8). -/
def Config.streamStateLen (c : ScName) : Nat := (Config.streamStateExtra c).val + 1

/-- The initial stream-cipher state of a key (R5, P15). -/
opaque Config.streamInit : (c : ScName) → List Byte → Vector Byte (Config.streamStateLen c)

/-- The map behind the stream ciphers' `xor` (R5, P15, log 7). -/
opaque Config.streamMap : ScName → List Byte → List Byte → List Byte → List Byte

/-- The next stream-cipher state (R5, P15, log 7). -/
opaque Config.streamNext : (c : ScName) → List Byte → List Byte → Nat → Vector Byte (Config.streamStateLen c)

/-- The capability-probe word: any constant (R33, P10, log 9). -/
opaque Config.probe : BitVec 32

/-- The counting function of a legacy `OPEN`, of public values only (R222, P12, log 10). -/
opaque Config.ctCount : Descriptor → Nat → Nat → Word × Word

/-- The shortest input of the combined fast path: not fixed, and no rule's result depends on it (R195, P11, log 11). -/
opaque Config.combinedMinLen : Nat

/-- Free bytes: what a legacy `OPEN` leaves between `OUTLEN` and `INL` (UD5, log 3). Nothing constrains them. -/
opaque Config.freeByte : Nat → Byte

end Sys2Proof
end

