-- ==== Sys2Proof/Machine/Params.lean ====
section
/-! DEFINITION. The default parameter values of R7 and the default descriptor table of R30, and the configuration the
machine runs with: the spec's defaults over the opaque capabilities (log 4). -/

namespace Sys2Proof.Machine

/-- The default descriptor table (R30): ids 0 to 7 in order. -/
def defaultTable : List Descriptor :=
  [ { family := .gcm .aes, keyLen := 16, nonceLen := 12, overhead := 16, maxTagLen := 16, macKeyLen := 0, adLen := none },
    { family := .gcm .aes, keyLen := 32, nonceLen := 12, overhead := 16, maxTagLen := 16, macKeyLen := 0, adLen := none },
    { family := .cbcTls .aes .hmacSha1 16, keyLen := 36, nonceLen := 16, overhead := 36, maxTagLen := 20,
      macKeyLen := 20, adLen := some 11 },
    { family := .cbcSsl3 .aes .ssl3Sha1 16, keyLen := 36, nonceLen := 16, overhead := 36, maxTagLen := 20,
      macKeyLen := 20, adLen := some 9 },
    { family := .stream .nonceAddressed .hmacSha256 false, keyLen := 64, nonceLen := 12, overhead := 32,
      maxTagLen := 32, macKeyLen := 32, adLen := some 11 },
    { family := .stream .stateful .hmacMd5 true, keyLen := 32, nonceLen := 0, overhead := 16, maxTagLen := 16,
      macKeyLen := 16, adLen := some 11 },
    { family := .keywrap .aes, keyLen := 16, nonceLen := 8, overhead := 8, maxTagLen := 8, macKeyLen := 0, adLen := some 0 },
    { family := .keywrap .aes, keyLen := 32, nonceLen := 8, overhead := 8, maxTagLen := 8, macKeyLen := 0, adLen := some 0 } ]

/-- The configuration of the machine: every parameter at the default of R7, every capability opaque (R5, log 4). -/
def std : Cfg where
  xlen := 64
  nCtx := 8
  engBc := .aes
  bcKeylens := fun _ => [16, 24, 32]
  bc := Config.blockCipher
  macLen := Config.macLen
  macKeylen := Config.macKeylen
  mac := Config.macValue
  scKeylen := Config.streamKeylen
  scStateLen := Config.streamStateLen
  scInit := Config.streamInit
  scMap := Config.streamMap
  scNext := Config.streamNext
  probe := Config.probe
  ctCount := Config.ctCount
  freeByte := Config.freeByte
  table := defaultTable
  msgMax := 2 ^ 36 - 32
  aadMax := 2 ^ 58
  nonceMax := 2 ^ 61 - 1
  legacyMaxPt := 65535
  kwMax := 2 ^ 31
  kwDefaultIv := 0xA6A6A6A6A6A6A6A6
  combinedMinLen := Config.combinedMinLen

/-- `DESC_TABLE[d]`; `none` for an id not in the table (R30, R31, R88). -/
def descriptor (κ : Cfg) (d : BitVec 8) : Option Descriptor := κ.table[d.toNat]?

/-- `d.mac_len` (R30): the output length of the MAC the family binds, 0 where it binds none. -/
def macLenOf (κ : Cfg) (d : Descriptor) : Nat :=
  match d.family with
  | .gcm _ => 0
  | .cbcTls _ m _ => κ.macLen m
  | .cbcSsl3 _ m _ => κ.macLen m
  | .stream _ m _ => κ.macLen m
  | .keywrap _ => 0

/-- `d.enc_key_len`: the key bytes after the MAC key (R30, R206). -/
def encKeyLen (d : Descriptor) : Nat := d.keyLen - d.macKeyLen

/-- Whether the family is `GCM` (R30). -/
def isGcm (d : Descriptor) : Bool :=
  match d.family with
  | .gcm _ => true
  | _ => false

/-- Whether the family is `KEYWRAP` (R30). -/
def isKeywrap (d : Descriptor) : Bool :=
  match d.family with
  | .keywrap _ => true
  | _ => false

end Sys2Proof.Machine
end

