-- ==== Sys2Proof/Syntax.lean ====
section
/-! DEFINITION. The commands of the block: one constructor per row of spec/opcode_table.json (R82). -/

namespace Sys2Proof

/-- A command (R80, R82). `ctx` is the slot number of bits 23:16, `desc` the descriptor id of bits 15:8, the
Boolean the one flag bit the row defines (`OPENDIR` of R85 for `init`, `FIXEDIV` of R86 for `seal_` and `open_`). -/
inductive Instr where
  /-- `NOP` (R89). -/
  | nop
  /-- `INIT` (R164). -/
  | init (ctx : BitVec 8) (desc : BitVec 8) (opendir : Bool)
  /-- `SEAL` (R167), `WRAP` on a key-wrap slot (R90). -/
  | seal_ (ctx : BitVec 8) (fixediv : Bool)
  /-- `OPEN` (R168), `UNWRAP` on a key-wrap slot (R90). -/
  | open_ (ctx : BitVec 8) (fixediv : Bool)
  /-- `CLEANUP` (R171). -/
  | cleanup (ctx : BitVec 8)
  /-- `GETSTREAM` (R228). -/
  | getstream (ctx : BitVec 8)
  /-- `SETIVFIXED` (R196). -/
  | setivfixed (ctx : BitVec 8)
  /-- `GCM_KEY` (R132). -/
  | gcmKey
  /-- `GCM_SETIV` (R133). -/
  | gcmSetiv
  /-- `GCM_AAD` (R136). -/
  | gcmAad
  /-- `GCM_ENC` (R137). -/
  | gcmEnc
  /-- `GCM_DEC` (R138). -/
  | gcmDec
  /-- `GCM_FINISH` (R142). -/
  | gcmFinish
  /-- `GCM_TAG` (R141). -/
  | gcmTag
  /-- `GCM_CLEAR` (R143). -/
  | gcmClear
  /-- `GH_LOADH` (R110). -/
  | ghLoadh
  /-- `GH_LOADX` (R111). -/
  | ghLoadx
  /-- `GH_MUL` (R112). -/
  | ghMul
  /-- `GH_HASH` (R113). -/
  | ghHash
  /-- `GH_STOREX` (R114). -/
  | ghStorex
  /-- `CTR_LOAD` (R124). -/
  | ctrLoad
  /-- `CTR_XOR` (R125). -/
  | ctrXor
  deriving DecidableEq, Repr

end Sys2Proof
end

