-- ==== Sys2Proof/WellFormed.lean ====
section
/-! DEFINITION. Which commands are legal beyond the match of their fixed bits: the value conditions (b) and (c) of
R83 on the slot number and the descriptor id (R84, R88); and which records are configurations of a machine (R30, file 93
section 1). -/

namespace Sys2Proof

/-- The field constraints of a descriptor (R30): the key is a MAC key of the bound MAC's length and an encryption key of a
length the bound cipher takes, and the overhead is the family's. A `CBC_*` block is a block of `BC`, 16 bytes (R5, R213),
and the advertised lengths and the tag length fit their registers (R26, R34). -/
def Descriptor.Lawful (κ : Cfg) (d : Descriptor) : Prop :=
  d.keyLen < 2 ^ κ.xlen ∧ d.nonceLen < 2 ^ κ.xlen ∧ d.overhead < 2 ^ κ.xlen ∧ d.maxTagLen < 2 ^ 8 ∧
  match d.family with
  | .gcm bc =>
    d.macKeyLen = 0 ∧ d.keyLen ∈ κ.bcKeylens bc ∧ d.overhead = 16 ∧ d.maxTagLen = 16 ∧ d.adLen = none
  | .cbcTls bc m b =>
    (∃ k ∈ κ.bcKeylens bc, d.keyLen = d.macKeyLen + k) ∧ d.macKeyLen = κ.macKeylen m ∧ b = 16 ∧
    d.overhead = κ.macLen m + b ∧ d.adLen ≠ none
  | .cbcSsl3 bc m b =>
    (∃ k ∈ κ.bcKeylens bc, d.keyLen = d.macKeyLen + k) ∧ d.macKeyLen = κ.macKeylen m ∧ b = 16 ∧
    d.overhead = κ.macLen m + b ∧ d.adLen ≠ none
  | .stream sc m _ =>
    d.keyLen = d.macKeyLen + κ.scKeylen sc ∧ d.macKeyLen = κ.macKeylen m ∧ d.overhead = κ.macLen m ∧ d.adLen ≠ none
  | .keywrap bc => d.macKeyLen = 0 ∧ d.keyLen ∈ κ.bcKeylens bc ∧ d.overhead = 8 ∧ d.adLen ≠ none

/-- The configurations of a machine: the constraints on P1 to P9 of file 93 section 1, with `XLEN` at most the width of
`Word` (log 4), and counts that fit the registers that hold them (R32, log 10). Those on P13 to P15 hold by the types of
the fields and by `selfInverse`; P8, P10 and P11 have none. -/
structure Cfg.Lawful (κ : Cfg) : Prop where
  xlen_min : 37 ≤ κ.xlen
  xlen_max : κ.xlen ≤ 64
  nCtx_min : 1 ≤ κ.nCtx
  nCtx_max : κ.nCtx ≤ 256
  msgMax_max : κ.msgMax ≤ (2 ^ 32 - 2) * 16
  aadMax_max : κ.aadMax ≤ 2 ^ 61 - 1
  nonceMax_max : κ.nonceMax ≤ 2 ^ 61 - 1
  legacyMaxPt_max : κ.legacyMaxPt ≤ 65535
  kwMax_whole : κ.kwMax % 8 = 0
  kwMax_max : 6 * κ.kwMax / 8 < 2 ^ 64
  table_max : κ.table.length ≤ 256
  table_lawful : ∀ d ∈ κ.table, d.Lawful κ
  ctCount_fits : ∀ d l a, (κ.ctCount d l a).1.toNat < 2 ^ κ.xlen ∧ (κ.ctCount d l a).2.toNat < 2 ^ κ.xlen

/-- Condition (b) of R83: a slot number below `N_CTX`. -/
def slotLegal (κ : Cfg) (c : BitVec 8) : Bool := decide (c.toNat < κ.nCtx)

/-- Condition (c) of R83: a descriptor id of `DESC_TABLE`. -/
def descLegal (κ : Cfg) (d : BitVec 8) : Bool := decide (d.toNat < κ.table.length)

/-- A command whose field values are legal under a configuration (R83 (b), (c)). The other conditions of R83 are on
must-be-zero bits, which an `Instr` does not have. -/
def Instr.wellFormedOn (κ : Cfg) : Instr → Bool
  | .nop => true
  | .init c d _ => slotLegal κ c && descLegal κ d
  | .seal_ c _ => slotLegal κ c
  | .open_ c _ => slotLegal κ c
  | .cleanup c => slotLegal κ c
  | .getstream c => slotLegal κ c
  | .setivfixed c => slotLegal κ c
  | .gcmKey => true
  | .gcmSetiv => true
  | .gcmAad => true
  | .gcmEnc => true
  | .gcmDec => true
  | .gcmFinish => true
  | .gcmTag => true
  | .gcmClear => true
  | .ghLoadh => true
  | .ghLoadx => true
  | .ghMul => true
  | .ghHash => true
  | .ghStorex => true
  | .ctrLoad => true
  | .ctrXor => true

/-- A command whose field values are legal in the machine (R83 (b), (c)). -/
def Instr.wellFormed (i : Instr) : Bool := i.wellFormedOn Machine.std

end Sys2Proof
end

