-- ==== Sys2Proof/Decode.lean ====
section
/-! DEFINITION. The decoder of command words (R80 to R88), total on all `2^32` words, and the encoder. -/

namespace Sys2Proof

/-- Why a word is no legal command; each is reported to the host as `E_BAD_COMMAND` (R83, R87, R88). -/
inductive DecodeError where
  /-- (a): the opcode is not in the table of R82 (R87). -/
  | unknownOpcode
  /-- (b): the row takes no slot and the `ctx` field is not 0. -/
  | ctxNotZero
  /-- (b): the slot number is not below `N_CTX`. -/
  | ctxOutOfRange
  /-- (c): the row takes no descriptor and the `desc` field is not 0. -/
  | descNotZero
  /-- (c): the descriptor id is not in `DESC_TABLE`. -/
  | descUnknown
  /-- (d): a flag bit the row does not define is 1. -/
  | flagsNotZero
  deriving DecidableEq, Repr

/-- `op = w[31:24]` (R80). -/
def opField (w : CmdWord) : BitVec 8 := w.extractLsb' 24 8

/-- `ctx = w[23:16]` (R80). -/
def ctxField (w : CmdWord) : BitVec 8 := w.extractLsb' 16 8

/-- `desc = w[15:8]` (R80). -/
def descField (w : CmdWord) : BitVec 8 := w.extractLsb' 8 8

/-- `flags = w[7:0]` (R80). -/
def flagsField (w : CmdWord) : BitVec 8 := w.extractLsb' 0 8

/-- A row that takes no slot, no descriptor and no flag (R84). -/
def decodePlain (w : CmdWord) (i : Instr) : Except DecodeError Instr :=
  if ctxField w ≠ 0 then .error .ctxNotZero
  else if descField w ≠ 0 then .error .descNotZero
  else if flagsField w ≠ 0 then .error .flagsNotZero
  else .ok i

/-- A row that takes a slot only (R84). -/
def decodeSlot (κ : Cfg) (w : CmdWord) (i : BitVec 8 → Instr) : Except DecodeError Instr :=
  if slotLegal κ (ctxField w) = false then .error .ctxOutOfRange
  else if descField w ≠ 0 then .error .descNotZero
  else if flagsField w ≠ 0 then .error .flagsNotZero
  else .ok (i (ctxField w))

/-- A row that takes a slot and flag bit 0 (R84, R86). -/
def decodeSlotFlag (κ : Cfg) (w : CmdWord) (i : BitVec 8 → Bool → Instr) : Except DecodeError Instr :=
  if slotLegal κ (ctxField w) = false then .error .ctxOutOfRange
  else if descField w ≠ 0 then .error .descNotZero
  else if flagsField w &&& 0xFE ≠ 0 then .error .flagsNotZero
  else .ok (i (ctxField w) ((flagsField w).getLsbD 0))

/-- `INIT`, the row that takes a slot, a descriptor and flag bit 0 (R84, R85). That `OPENDIR` may be 1 only for some
families is checked by the command itself (R164), before it changes anything (log 20). -/
def decodeInit (κ : Cfg) (w : CmdWord) : Except DecodeError Instr :=
  if slotLegal κ (ctxField w) = false then .error .ctxOutOfRange
  else if descLegal κ (descField w) = false then .error .descUnknown
  else if flagsField w &&& 0xFE ≠ 0 then .error .flagsNotZero
  else .ok (.init (ctxField w) (descField w) ((flagsField w).getLsbD 0))

/-- The decoder under a configuration (R82, R83): every word is one legal command or is rejected by name. -/
def decodeOn (κ : Cfg) (w : CmdWord) : Except DecodeError Instr :=
  match (opField w).toNat with
  | 0x00 => decodePlain w .nop
  | 0x01 => decodeInit κ w
  | 0x02 => decodeSlotFlag κ w .seal_
  | 0x03 => decodeSlotFlag κ w .open_
  | 0x04 => decodeSlot κ w .cleanup
  | 0x05 => decodeSlot κ w .getstream
  | 0x06 => decodeSlot κ w .setivfixed
  | 0x10 => decodePlain w .gcmKey
  | 0x11 => decodePlain w .gcmSetiv
  | 0x12 => decodePlain w .gcmAad
  | 0x13 => decodePlain w .gcmEnc
  | 0x14 => decodePlain w .gcmDec
  | 0x15 => decodePlain w .gcmFinish
  | 0x16 => decodePlain w .gcmTag
  | 0x17 => decodePlain w .gcmClear
  | 0x20 => decodePlain w .ghLoadh
  | 0x21 => decodePlain w .ghLoadx
  | 0x22 => decodePlain w .ghMul
  | 0x23 => decodePlain w .ghHash
  | 0x24 => decodePlain w .ghStorex
  | 0x30 => decodePlain w .ctrLoad
  | 0x31 => decodePlain w .ctrXor
  | _ => .error .unknownOpcode

/-- The decoder of the machine (R82, R83). -/
def decode (w : CmdWord) : Except DecodeError Instr := decodeOn Machine.std w

/-- The instruction of a table word: `w` numbered as spec/opcode_table.json numbers it, of which `nbits` bits are
given and the rest are 0. A command is one 32-bit word written to `CMD` as a number, so no byte order arises (R80). -/
def decodeTableWord (nbits w : Nat) : Option Instr :=
  match decode (BitVec.ofNat 32 (w % 2 ^ nbits)) with
  | .ok i => some i
  | .error _ => none

/-- The word of the four fields of R80. -/
def packWord (op ctx desc flags : BitVec 8) : CmdWord := op ++ ctx ++ desc ++ flags

/-- Flag bit 0 as the `flags` field (R85, R86). -/
def flagBit (b : Bool) : BitVec 8 := if b then 1 else 0

/-- The encoder (R80, R82, R90): the word of a command. -/
def encode : Instr → CmdWord
  | .nop => packWord 0x00 0 0 0
  | .init c d o => packWord 0x01 c d (flagBit o)
  | .seal_ c f => packWord 0x02 c 0 (flagBit f)
  | .open_ c f => packWord 0x03 c 0 (flagBit f)
  | .cleanup c => packWord 0x04 c 0 0
  | .getstream c => packWord 0x05 c 0 0
  | .setivfixed c => packWord 0x06 c 0 0
  | .gcmKey => packWord 0x10 0 0 0
  | .gcmSetiv => packWord 0x11 0 0 0
  | .gcmAad => packWord 0x12 0 0 0
  | .gcmEnc => packWord 0x13 0 0 0
  | .gcmDec => packWord 0x14 0 0 0
  | .gcmFinish => packWord 0x15 0 0 0
  | .gcmTag => packWord 0x16 0 0 0
  | .gcmClear => packWord 0x17 0 0 0
  | .ghLoadh => packWord 0x20 0 0 0
  | .ghLoadx => packWord 0x21 0 0 0
  | .ghMul => packWord 0x22 0 0 0
  | .ghHash => packWord 0x23 0 0 0
  | .ghStorex => packWord 0x24 0 0 0
  | .ctrLoad => packWord 0x30 0 0 0
  | .ctrXor => packWord 0x31 0 0 0

/-- A row of spec/opcode_table.json: the bits that are fixed and their values (R84). -/
structure TableRow where
  mask : CmdWord
  pattern : CmdWord
  deriving DecidableEq, Repr

/-- The row of a command (R84; spec/opcode_table.json `mask` and `match`). -/
def rowOf : Instr → TableRow
  | .nop => ⟨0xFFFFFFFF, 0x00000000⟩
  | .init _ _ _ => ⟨0xFF0000FE, 0x01000000⟩
  | .seal_ _ _ => ⟨0xFF00FFFE, 0x02000000⟩
  | .open_ _ _ => ⟨0xFF00FFFE, 0x03000000⟩
  | .cleanup _ => ⟨0xFF00FFFF, 0x04000000⟩
  | .getstream _ => ⟨0xFF00FFFF, 0x05000000⟩
  | .setivfixed _ => ⟨0xFF00FFFF, 0x06000000⟩
  | .gcmKey => ⟨0xFFFFFFFF, 0x10000000⟩
  | .gcmSetiv => ⟨0xFFFFFFFF, 0x11000000⟩
  | .gcmAad => ⟨0xFFFFFFFF, 0x12000000⟩
  | .gcmEnc => ⟨0xFFFFFFFF, 0x13000000⟩
  | .gcmDec => ⟨0xFFFFFFFF, 0x14000000⟩
  | .gcmFinish => ⟨0xFFFFFFFF, 0x15000000⟩
  | .gcmTag => ⟨0xFFFFFFFF, 0x16000000⟩
  | .gcmClear => ⟨0xFFFFFFFF, 0x17000000⟩
  | .ghLoadh => ⟨0xFFFFFFFF, 0x20000000⟩
  | .ghLoadx => ⟨0xFFFFFFFF, 0x21000000⟩
  | .ghMul => ⟨0xFFFFFFFF, 0x22000000⟩
  | .ghHash => ⟨0xFFFFFFFF, 0x23000000⟩
  | .ghStorex => ⟨0xFFFFFFFF, 0x24000000⟩
  | .ctrLoad => ⟨0xFFFFFFFF, 0x30000000⟩
  | .ctrXor => ⟨0xFFFFFFFF, 0x31000000⟩

end Sys2Proof
end

