-- ==== Sys2Proof/Machine/Bytes.lean ====
section
/-! DEFINITION. Byte strings and their integers: the notation of R8, R9 and the byte order of R63. -/

namespace Sys2Proof.Machine

/-- The `n`-byte big-endian encoding of `v`, most significant byte first; higher bytes of `v` are dropped (R8, R63). -/
def be : Nat → Nat → List Byte
  | 0, _ => []
  | n + 1, v => BitVec.ofNat 8 (v / 256 ^ n) :: be n v

/-- `be16(v)` (R8). -/
def be16 (v : Nat) : List Byte := be 2 v

/-- `be64(v)` (R8). -/
def be64 (v : Nat) : List Byte := be 8 v

/-- `unbe(B)`: the big-endian integer of a byte string (R8). -/
def unbe (b : List Byte) : Nat := b.foldl (fun v x => v * 256 + x.toNat) 0

/-- `zeros(n)` (R8). -/
def zeros (n : Nat) : List Byte := List.replicate n 0

/-- `pad16(B)`: zero bytes up to a multiple of 16 (R8). -/
def pad16 (b : List Byte) : List Byte := b ++ zeros ((16 - b.length % 16) % 16)

/-- The bytes of a block, first byte first (R8, R9). -/
def blockBytes (x : Block) : List Byte := be 16 x.toNat

/-- The block of 16 bytes (R8, R9). -/
def blockOf (b : List Byte) : Block := BitVec.ofNat 128 (unbe b)

/-- The key-wrap semiblock of 8 bytes (file 46). -/
def semiOf (b : List Byte) : Semiblock := BitVec.ofNat 64 (unbe b)

/-- The bytes of a key-wrap semiblock. -/
def semiBytes (x : Semiblock) : List Byte := be 8 x.toNat

/-- Exclusive or of byte strings, as long as the shorter (R8). -/
def xorBytes (a b : List Byte) : List Byte := List.zipWith (· ^^^ ·) a b

/-- The first `k` pieces of `w` bytes; the last piece may be shorter. -/
def pieces (w : Nat) : Nat → List Byte → List (List Byte)
  | 0, _ => []
  | k + 1, d => d.take w :: pieces w k (d.drop w)

/-- `D[0..w)`, `D[w..2w)`, …, the last piece shorter where `w` does not divide the length (R104, R121). -/
def chunks (w : Nat) (d : List Byte) : List (List Byte) := pieces w ((d.length + (w - 1)) / w) d

/-- The blocks of a byte string whose length is a multiple of 16 (R104, R213). -/
def blocks (d : List Byte) : List Block := (chunks 16 d).map blockOf

/-- The bytes of a sequence of blocks. -/
def bytesOfBlocks (bs : List Block) : List Byte := bs.flatMap blockBytes

/-- Byte `X[i]` of a block, `i` from 0 to 15 (R8, R9). -/
def getByte (x : Block) (i : Nat) : Byte := x.extractLsb' (8 * (15 - i)) 8

/-- `X` with byte `X[i]` replaced, `i` from 0 to 15 (R135). -/
def setByte (x : Block) (i : Nat) (b : Byte) : Block :=
  (x &&& ~~~((0xFF : Block) <<< (8 * (15 - i)))) ||| (b.setWidth 128 <<< (8 * (15 - i)))

end Sys2Proof.Machine
end

