-- ==== Sys2Proof/Machine/State.lean ====
section
/-! DEFINITION. The state of the block (10_state.md), the host's buffer memory and the host's pending bus accesses, the
reasons a step can stop, and the state after reset (R43). -/

namespace Sys2Proof.Machine

/-- No command of this block faults: "every command completes with a status" (R255, file 93 section 2), so there is no
fault reason and nothing raises one (safe). -/
inductive Fault where
  deriving DecidableEq, Repr

/-- Why a command has no meaning in the model. -/
inductive Refusal where
  /-- The instruction has no meaning in the model yet. Raised by no arm of `exec` in this model. Safe. -/
  | notModelled (mnemonic : String)
  /-- `SEAL` or `OPEN` whose destination overlaps the nonce or associated-data buffer, or fixed-IV `SEAL` whose nonce
  output overlaps another buffer: "a model must treat a command with such an overlap as outside the specified
  behaviour" (R68, UD4 "refuse"). Raised by `SEAL` and `OPEN` once every check has passed. Safe (log 14). -/
  | bufferOverlap
  deriving DecidableEq, Repr

/-- The operand registers `x[0]` to `x[10]` under their aliases (R21). -/
structure Regs where
  keyp : Word := 0
  keyl : Word := 0
  tagl : Word := 0
  nonp : Word := 0
  nonl : Word := 0
  inp : Word := 0
  inl : Word := 0
  adp : Word := 0
  adl : Word := 0
  outp : Word := 0
  outmax : Word := 0
  deriving DecidableEq, Repr

/-- `dir` of a slot (R34). -/
inductive Dir where
  | both
  | sealOnly
  | openOnly
  deriving DecidableEq, Repr

/-- `eng.phase` (R37, R130). -/
inductive Phase where
  | uninit
  | keyed
  | nonceSet
  | aad
  | payload
  | final
  deriving DecidableEq, Repr

/-- A 16-entry table of 128-bit integers (R105). -/
abbrev GhTable := Vector Block 16

/-- A context slot (R34). The default value of every field is its reset value (R43, R45); a byte string of a free slot
is empty (log 16). -/
structure Slot where
  live : Bool := false
  desc : BitVec 8 := 0
  dir : Dir := .both
  tagLen : BitVec 8 := 0
  impl : BitVec 4 := 0
  encKey : List Byte := []
  h : Block := 0
  htable : GhTable := Vector.replicate 16 0
  macKey : List Byte := []
  scState : List Byte := []
  /-- 4-byte fixed part in bits 95:64, 8-byte explicit counter in bits 63:0, each big-endian (R34, R197). -/
  ivFixed : BitVec 96 := 0
  ivFixedSet : Bool := false
  deriving DecidableEq, Repr

/-- The GCM engine state (R37), of the direct engine `eng` and of the working copies of R39. -/
structure Engine where
  phase : Phase := .uninit
  key : List Byte := []
  keylen : Word := 0
  h : Block := 0
  htable : GhTable := Vector.replicate 16 0
  xi : Block := 0
  cb : Block := 0
  ek0 : Block := 0
  alen : BitVec 64 := 0
  mlen : BitVec 64 := 0
  pbuf : Block := 0
  pfill : BitVec 4 := 0
  ks : Block := 0
  impl : BitVec 4 := 0
  deriving DecidableEq, Repr

/-- The direct multiplier unit (R40). -/
structure GhUnit where
  valid : Bool := false
  h : Block := 0
  htable : GhTable := Vector.replicate 16 0
  x : Block := 0
  impl : BitVec 4 := 0
  deriving DecidableEq, Repr

/-- The direct counter unit (R41). -/
structure CtrUnit where
  valid : Bool := false
  cb : Block := 0
  deriving DecidableEq, Repr

/-- Buffer memory (R60): the listed bytes, addresses strictly rising, none equal to what an unlisted address reads as. -/
abbrev Memory := List Host.Cell

/-- An access of the host, between commands (R26, R61, R280): what the outside world can do to the block. -/
inductive BusOp where
  /-- `RegWrite(n, v)` (R26); a write of number `0x10` executes a command (R23). -/
  | regWrite (n : Nat) (v : Word)
  /-- `RegRead(n)` (R26). -/
  | regRead (n : Nat)
  /-- The host writes a byte of its buffer memory (R60). -/
  | memWrite (a : Word) (b : Byte)
  /-- The host reads a byte of its buffer memory (R60). -/
  | memRead (a : Word)
  /-- The reset input (R280). -/
  | reset
  deriving DecidableEq, Repr

/-- The whole state (R20), with the host's buffer memory (R60) and three fields of the model's own: the host's bus
accesses still to come (log 1), the data of its last read (log 2), and the position in the stream of free bytes
(log 3). `CMD` holds nothing (R23); `CTXSTAT`, `ENGSTAT` and `DESC` are views (R28, R29, R31).
`ctx` has an entry for every value of the `ctx` field; the slots of a configuration are the first `N_CTX`, 8 in the
machine, and no command reaches another (R34, R88, log 4). -/
structure State where
  x : Regs := {}
  status : BitVec 8 := 0
  outlen : Word := 0
  cap : BitVec 32 := 0
  perfCompress : Word := 0
  perfMemacc : Word := 0
  ctx : Vector Slot 256 := Vector.replicate 256 {}
  eng : Engine := {}
  gh : GhUnit := {}
  ctr : CtrUnit := {}
  mem : Memory := []
  pending : List BusOp := []
  readData : Word := 0
  freeCount : Nat := 0
  deriving DecidableEq, Repr

/-- The state after reset: every bit of block state 0 (R43, R280), no byte of memory written, no bus access pending. -/
def State.reset : State := {}

end Sys2Proof.Machine
end

