-- ==== Sys2Proof/Machine/Flags.lean ====
section
/-! DEFINITION. The block has no flags or condition codes (R25). What a command leaves in their place is a status code
(R255); this file holds the codes and the packed read-only views of the state: `CAP` (R27), `CTXSTAT` (R28) and
`ENGSTAT` (R29). -/

namespace Sys2Proof.Machine

/-- The status codes (R255). -/
inductive StatusCode where
  | ok
  | badCommand
  | badAddress
  | state
  | badKeyLength
  | badNonceLength
  | badTagLength
  | badAdLength
  | badInputLength
  | bufferTooSmall
  | alias_
  | tooLarge
  | decrypt
  | direction
  | unsupported
  deriving DecidableEq, Repr

/-- The number of a status code (R255). -/
def StatusCode.code : StatusCode → BitVec 8
  | .ok => 0
  | .badCommand => 1
  | .badAddress => 2
  | .state => 3
  | .badKeyLength => 4
  | .badNonceLength => 5
  | .badTagLength => 6
  | .badAdLength => 7
  | .badInputLength => 8
  | .bufferTooSmall => 9
  | .alias_ => 10
  | .tooLarge => 11
  | .decrypt => 12
  | .direction => 13
  | .unsupported => 14

/-- The number of an engine phase (R37, R130). -/
def Phase.code : Phase → BitVec 3
  | .uninit => 0
  | .keyed => 1
  | .nonceSet => 2
  | .aad => 3
  | .payload => 4
  | .final => 5

/-- The number of a direction (R34). -/
def Dir.code : Dir → BitVec 2
  | .both => 0
  | .sealOnly => 1
  | .openOnly => 2

/-- A one-bit field. -/
def bit (b : Bool) : BitVec 1 := BitVec.ofBool b

/-- `CAP.VALID`, bit 31 (R27). -/
def capValid (cap : BitVec 32) : Bool := cap.getLsbD 31

/-- The latched `CAP` of a probe word: `(PROBE & 0x3) | 0x8000_0000` (R33). -/
def capOfProbe (probe : BitVec 32) : BitVec 32 := (probe &&& 0x3) ||| 0x80000000

/-- `select_impl() = CAP[1:0]`, 4 bits with bits 3:2 zero (R33). -/
def selectImpl (cap : BitVec 32) : BitVec 4 := (cap.extractLsb' 0 2).setWidth 4

/-- `CTXSTAT` of a slot (R28): bits 23:16 `tag_len`, 15:8 `desc`, 7:4 `impl`, 3 `iv_fixed_set`, 2:1 `dir`, 0 `live`;
the whole word 0 for a free slot. -/
def ctxStat (sl : Slot) : BitVec 32 :=
  if sl.live then
    (0 : BitVec 8) ++ sl.tagLen ++ sl.desc ++ sl.impl ++ bit sl.ivFixedSet ++ sl.dir.code ++ bit sl.live
  else 0

/-- `ENGSTAT` (R29): bits 15:12 `eng.impl`, 9 `ctr.valid`, 8 `gh.valid`, 7:4 `eng.pfill`, 2:0 `eng.phase`. -/
def engStat (e : Engine) (g : GhUnit) (c : CtrUnit) : BitVec 32 :=
  (0 : BitVec 16) ++ e.impl ++ (0 : BitVec 2) ++ bit c.valid ++ bit g.valid ++ e.pfill ++ (0 : BitVec 1) ++ e.phase.code

end Sys2Proof.Machine
end

