-- ==== Sys2Proof/Machine/Operands.lean ====
section
/-! DEFINITION. The operands of a command: buffers named by a pointer and a length register (R62), the aliasing rule
(R67), and the descriptor a slot is bound to (R35, R166). All checks are made on unbounded integers (R11). -/

namespace Sys2Proof.Machine

/-- The address check of R62: an empty buffer may have any pointer; otherwise `p + n ≤ 2^XLEN`. -/
def bufOk (κ : Cfg) (p n : Word) : Bool := decide (n = 0) || decide (p.toNat + n.toNat ≤ 2 ^ κ.xlen)

/-- `DISJOINT(ip, il, op, ol)` (R67). -/
def disjoint (ip il op ol : Word) : Bool :=
  decide (il = 0) || decide (ol = 0) || decide (ip.toNat + il.toNat ≤ op.toNat) || decide (op.toNat + ol.toNat ≤ ip.toNat)

/-- `ALIAS_OK(ip, il, op, ol)` (R67). -/
def aliasOk (ip il op ol : Word) : Bool := decide (op = ip) || disjoint ip il op ol

/-- The destination of a `SEAL` or `OPEN` overlaps its nonce or associated-data buffer: outside the specified behaviour
(R68, UD4, log 14). -/
def destOverlap (x : Regs) : Bool :=
  !disjoint x.nonp x.nonl x.outp x.outmax || !disjoint x.adp x.adl x.outp x.outmax

/-- The 8-byte nonce output of fixed-IV sealing overlaps the input or the associated data (R68, R197, UD4, log 14);
its overlap with the destination is in `destOverlap`. -/
def nonceOutOverlap (x : Regs) : Bool :=
  !disjoint x.nonp 8 x.inp x.inl || !disjoint x.nonp 8 x.adp x.adl

/-- The descriptor a live slot is bound to; `none` for a free slot (R35, R161, R166). No run reaches a live slot whose
`desc` is not in the table (R164); such a slot is treated as free (log 21). -/
def slotDesc (κ : Cfg) (sl : Slot) : Option Descriptor := if sl.live then descriptor κ sl.desc else none

/-- `RESOLVE_TAG(d, L)` (R162): the tag length of a requested length, `none` for `E_BAD_TAG_LENGTH`. -/
def resolveTag (d : Descriptor) (l : Nat) : Option Nat :=
  if l = 0 then some d.maxTagLen
  else if l > d.maxTagLen then none
  else if isGcm d then some l
  else if l = d.maxTagLen then some l
  else none

/-- `NONCE_OK(d, s, n, fixediv)` (R165). -/
def nonceOk (d : Descriptor) (n : Nat) (fixediv : Bool) : Bool :=
  if fixediv then decide (n = 8)
  else if isKeywrap d then decide (n = 8) || decide (n = 0)
  else decide (n = d.nonceLen)

/-- The tag length of `GCM_TAG` and `GCM_FINISH`: 0 asks for 16 (R141, R142). -/
def directTagLen (tagl : Word) : Nat := if tagl = 0 then 16 else tagl.toNat

end Sys2Proof.Machine
end

