-- ==== Sys2Proof/Machine/Ops.lean ====
section
/-! DEFINITION. The named operations over memory and registers: buffer memory in its canonical form (R60, R61, R69),
the slots (R34), the capability latch (R33), success (R258), and the failure protocol (R257), which is this block's
taking of an exception; there is no return from it (R259). -/

namespace Sys2Proof.Machine

/-- What an address that is not listed reads as: the spec gives no contents of buffer memory before the host writes
it; 0 is the model's DESIGN CHOICE (log 13). -/
def unlisted : Byte := 0

/-- One byte of memory (R61). -/
def Memory.read : Memory → Nat → Byte
  | [], _ => unlisted
  | (k, v) :: m, a => if a = k then v else if a < k then unlisted else Memory.read m a

/-- Writing one byte (R61), keeping the canonical form. -/
def Memory.write : Memory → Nat → Byte → Memory
  | [], a, b => if b = unlisted then [] else [(a, b)]
  | (k, v) :: m, a, b =>
    if a < k then (if b = unlisted then (k, v) :: m else (a, b) :: (k, v) :: m)
    else if a = k then (if b = unlisted then m else (a, b) :: m)
    else (k, v) :: Memory.write m a b

/-- Every listed address is at least `lo`, addresses strictly rise, and no entry equals what an unlisted address reads
as. -/
def Memory.wfFrom : Nat → Memory → Bool
  | _, [] => true
  | lo, (k, v) :: m => decide (lo ≤ k) && decide (v ≠ unlisted) && Memory.wfFrom (k + 1) m

/-- The canonical form of memory. -/
def Memory.wf (m : Memory) : Bool := Memory.wfFrom 0 m

/-- `MemRead(a, n)` (R61). -/
def Memory.readBytes (m : Memory) : Nat → Nat → List Byte
  | _, 0 => []
  | a, n + 1 => m.read a :: Memory.readBytes m (a + 1) n

/-- `MemWrite(a, len(v), v)` (R61). -/
def Memory.writeBytes : Memory → Nat → List Byte → Memory
  | m, _, [] => m
  | m, a, b :: bs => Memory.writeBytes (m.write a b) (a + 1) bs

/-- `MemRead(x[P], x[N])` of a buffer (R61). -/
def State.readBuf (s : State) (p n : Word) : List Byte := s.mem.readBytes p.toNat n.toNat

/-- `MemWrite(p, len(v), v)` (R61). -/
def State.writeBuf (s : State) (p : Word) (v : List Byte) : State := { s with mem := s.mem.writeBytes p.toNat v }

/-- Slot `c` (R34). -/
def State.slot (s : State) (c : BitVec 8) : Slot := s.ctx[c.toNat]'c.isLt

/-- Slot `c` replaced (R34). -/
def State.setSlot (s : State) (c : BitVec 8) (sl : Slot) : State := { s with ctx := s.ctx.set c.toNat sl c.isLt }

/-- `PERF_COMPRESS <- 0; PERF_MEMACC <- 0`: done by every command whose word is legal (R32, R257 (4)). -/
def State.clearPerf (s : State) : State := { s with perfCompress := 0, perfMemacc := 0 }

/-- The two counters set (R32, R222, log 10). -/
def State.setPerf (s : State) (p : Word × Word) : State := { s with perfCompress := p.1, perfMemacc := p.2 }

/-- "latch CAP if not yet valid" (R33). -/
def State.latchCap (κ : Cfg) (s : State) : State :=
  { s with cap := if capValid s.cap then s.cap else capOfProbe κ.probe }

/-- `STATUS <- OK; OUTLEN <- n` (R258). -/
def State.done (s : State) (n : Nat) : State := { s with status := StatusCode.ok.code, outlen := BitVec.ofNat 64 n }

/-- `ZeroFill()` (R69). -/
def State.zeroFill (s : State) : State := s.writeBuf s.x.outp (zeros s.x.outmax.toNat)

/-- Whether the failure protocol zero-fills: a `SEAL` or `OPEN` (`dest`) whose code is neither `E_BAD_COMMAND` nor
`E_BAD_ADDRESS` (R257). -/
def zeroFills (dest : Bool) (e : StatusCode) : Bool := dest && decide (e ≠ .badCommand) && decide (e ≠ .badAddress)

/-- The failure protocol `raise E_X` (R257): `STATUS` the code, `OUTLEN` 0, and for `SEAL` and `OPEN` (`dest`) the
destination zero-filled unless the code is `E_BAD_COMMAND` or `E_BAD_ADDRESS`; nothing else changes. -/
def State.raise (dest : Bool) (e : StatusCode) (s : State) : State :=
  { s with status := e.code, outlen := 0, mem := if zeroFills dest e then s.zeroFill.mem else s.mem }

/-- A command word that is not legal: `E_BAD_COMMAND` and nothing else changes (R83, R87, R88, R257). -/
def State.badCommand (s : State) : State := s.raise false .badCommand

/-- The status of the first failing check of a list, each a failure condition with its code (R163, R261). -/
def firstFailing : List (Bool × StatusCode) → Option StatusCode
  | [] => none
  | (bad, e) :: cs => if bad then some e else firstFailing cs

/-- The outcome of a step of the machine. -/
abbrev Result := Host.Outcome State Fault Refusal

/-- Make the checks in order on a state: the first that fails raises its code, otherwise the command goes on from that
state (R163, R257, R261). -/
def checked (dest : Bool) (cs : List (Bool × StatusCode)) (s : State) (go : State → Result) : Result :=
  match firstFailing cs with
  | some e => .next (s.raise dest e)
  | none => go s

/-- A command on slot `c`: the part every such command that needs a live slot has in common (R166, R196, R228). The
slot number is legal (R88), `PERF_*` are cleared, the buffers are in range (`E_BAD_ADDRESS`, R62), and the slot is live
(`E_STATE`); then `go` runs on the state, the slot and the slot's descriptor. -/
def onSlot (κ : Cfg) (dest : Bool) (bufs : List (Word × Word)) (c : BitVec 8) (s : State)
    (go : State → Slot → Descriptor → Result) : Result :=
  if c.toNat < κ.nCtx then
    if bufs.all (fun b => bufOk κ b.1 b.2) then
      match slotDesc κ (s.slot c) with
      | none => .next (s.clearPerf.raise dest .state)
      | some d => go s.clearPerf (s.slot c) d
    else .next (s.clearPerf.raise dest .badAddress)
  else .next s.badCommand

end Sys2Proof.Machine
end

