-- ==== Sys2Proof/Machine/Ctr.lean ====
section
/-! DEFINITION. U2, the counter-mode keystream driver (R120, R121) and the commands of the direct counter unit `ctr`
(R124, R125). A block cipher enters as the function `E` of blocks that `BC.E(key, ·)` is. -/

namespace Sys2Proof.Machine

/-- `INC32(CB)` (R120): the last 4 bytes plus 1 modulo `2^32`; the first 12 bytes are kept. -/
def inc32 (cb : Block) : Block := cb.extractLsb' 32 96 ++ (cb.extractLsb' 0 32 + 1)

/-- The loop of `GCTR` over the pieces of the data (R121). -/
def gctrLoop (E : Block → Block) : Block → List (List Byte) → List Byte × Block
  | c, [] => ([], c)
  | c, d :: ds =>
    let r := gctrLoop E (inc32 c) ds
    (xorBytes d (blockBytes (E c)) ++ r.1, r.2)

/-- `GCTR(key, CB, D)` with `E = BC.E(key, ·)` (R121): the output and the next counter block. -/
def gctr (E : Block → Block) (cb : Block) (d : List Byte) : List Byte × Block := gctrLoop E cb (chunks 16 d)

/-- `BC.E(eng.key, ·)`: the block cipher bound to the direct engine under its key (R41, R132). -/
def engCipher (κ : Cfg) (e : Engine) (b : Block) : Block := κ.bc κ.engBc e.key b

/-- `CTR_LOAD` under a configuration (R124). -/
def ctrLoadOn (κ : Cfg) (s : State) : Result :=
  let s := s.clearPerf
  checked false
    [ (decide (s.x.inl ≠ 16), .badInputLength),
      (!bufOk κ s.x.inp 16, .badAddress) ] s fun s =>
  .next ({ s with ctr := { valid := true, cb := blockOf (s.readBuf s.x.inp 16) } }.done 0)

/-- `CTR_LOAD` (R124). -/
def execCtrLoad (s : State) : Result := ctrLoadOn std s

/-- `CTR_XOR` under a configuration (R125). -/
def ctrXorOn (κ : Cfg) (s : State) : Result :=
  let s := s.clearPerf
  checked false
    [ (decide (s.eng.phase = .uninit) || !s.ctr.valid, .state),
      (!bufOk κ s.x.inp s.x.inl || !bufOk κ s.x.outp s.x.inl, .badAddress),
      (!aliasOk s.x.inp s.x.inl s.x.outp s.x.inl, .alias_) ] s fun s =>
  let r := gctr (engCipher κ s.eng) s.ctr.cb (s.readBuf s.x.inp s.x.inl)
  .next (({ s with ctr := { s.ctr with cb := r.2 } }.writeBuf s.x.outp r.1).done s.x.inl.toNat)

/-- `CTR_XOR` (R125). -/
def execCtrXor (s : State) : Result := ctrXorOn std s

end Sys2Proof.Machine
end

