-- ==== Sys2Proof/Machine/Gf.lean ====
section
/-! DEFINITION. The field arithmetic of U1 (R100 to R109): the product by definition, the 4-bit table method and the
carry-less-multiply method. Field bit `i` is the `i`-th bit of a block from the most significant end (R9). -/

namespace Sys2Proof.Machine

/-- `MULX(V)`: multiplication by `x` (R101). -/
def mulx (v : Block) : Block :=
  (v >>> 1) ^^^ (if v.getLsbD 0 then 0xE1000000000000000000000000000000 else 0)

/-- One turn of the loop of R100, for field bit `i` of `X`: the pair is `(Z, V)`. -/
def gfStep (x : Block) (zv : Block × Block) (i : Nat) : Block × Block :=
  (if x.getMsbD i then zv.1 ^^^ zv.2 else zv.1, mulx zv.2)

/-- `GFMUL(X, Y)` (R100). -/
def gfmul (x y : Block) : Block := ((List.range 128).foldl (gfStep x) (0, y)).1

/-- `GHASH(H, X0, D)` (R104), for `D` of a multiple of 16 bytes. -/
def ghash (h x0 : Block) (d : List Byte) : Block := (blocks d).foldl (fun x b => gfmul (x ^^^ b) h) x0

/-- `TABLE(H)` (R105): `T[8]`, `T[4]`, `T[2]`, `T[1]` are `H` times `1`, `x`, `x^2`, `x^3`; every other entry is the
sum `T[i] ⊕ T[j]` of the recipe. -/
def ghTable (h : Block) : GhTable :=
  let t8 := h
  let t4 := mulx t8
  let t2 := mulx t4
  let t1 := mulx t2
  let t3 := t2 ^^^ t1
  let t5 := t4 ^^^ t1
  let t6 := t4 ^^^ t2
  let t7 := t4 ^^^ t3
  #v[0, t1, t2, t3, t4, t5, t6, t7,
     t8, t8 ^^^ t1, t8 ^^^ t2, t8 ^^^ t3, t8 ^^^ t4, t8 ^^^ t5, t8 ^^^ t6, t8 ^^^ t7]

/-- The table `R4` of R106. -/
def r4 : Vector (BitVec 16) 16 :=
  #v[0x0000, 0x1C20, 0x3840, 0x2460, 0x7080, 0x6CA0, 0x48C0, 0x54E0,
     0xE100, 0xFD20, 0xD940, 0xC560, 0x9180, 0x8DA0, 0xA9C0, 0xB5E0]

/-- `MULX4(V)` (R106). -/
def mulx4 (v : Block) : Block :=
  (v >>> 4) ^^^ ((r4[(v.extractLsb' 0 4).toNat]'(v.extractLsb' 0 4).isLt).setWidth 128 <<< 112)

/-- Entry `T[n]` of a table for a 4-bit index. -/
def tableAt (t : GhTable) (n : BitVec 4) : Block := t[n.toNat]'n.isLt

/-- The two nibbles of byte `X[k]` folded in, low nibble first (R107). -/
def tableByte (t : GhTable) (x : Block) (z : Block) (k : Nat) : Block :=
  let lo := mulx4 z ^^^ tableAt t ((getByte x k).extractLsb' 0 4)
  mulx4 lo ^^^ tableAt t ((getByte x k).extractLsb' 4 4)

/-- `GFMUL_TABLE(X, T)`: Horner's rule from byte 15 down to byte 0 (R107). -/
def gfmulTable (x : Block) (t : GhTable) : Block := (List.range 16).reverse.foldl (tableByte t x) 0

/-- `refl(X)`: bit `i` of the result is field bit `i` of `X` (R109). -/
def refl (x : Block) : Block := x.reverse

/-- `clmul(a, b)`: the carry-less product of two 128-bit integers, of degree at most 254 (R109). -/
def clmul (a b : Block) : BitVec 256 :=
  (List.range 128).foldl (fun z i => if a.getLsbD i then z ^^^ (b.setWidth 256 <<< i) else z) 0

/-- `P = 2^128 + 2^7 + 2^2 + 2 + 1` (R109). -/
def clPoly : BitVec 256 := 0x100000000000000000000000000000087

/-- The remainder modulo `P` over GF(2): the terms of degree 255 down to 128 are cancelled in turn (R109). -/
def clMod (v : BitVec 256) : Block :=
  ((List.range 128).reverse.foldl (fun z i => if z.getLsbD (128 + i) then z ^^^ (clPoly <<< i) else z) v).setWidth 128

/-- `GFMUL_CLMUL(X, Y)` (R109); `refl` is its own inverse. -/
def gfmulClmul (x y : Block) : Block := refl (clMod (clmul (refl x) (refl y)))

end Sys2Proof.Machine
end

