-- ==== Sys2Proof/Machine/Gcm.lean ====
section
/-! DEFINITION. U3, the GCM engine: the functions over an engine state `e`, the same for the direct engine and for a
working copy (R130 to R140), the closed form of a record (R144), and the `GCM_*` commands on the direct engine
(R132 to R143). A block cipher enters as the function `E` of blocks that `BC.E(key, ·)` is. -/

namespace Sys2Proof.Machine

/-- Whether payload bytes are plaintext or ciphertext (R139). -/
inductive CryptDir where
  | encrypt
  | decrypt
  deriving DecidableEq, Repr

/-- `J0(H, N)`, the initial counter block (R134). -/
def j0 (h : Block) (n : List Byte) : Block :=
  if n.length = 12 then blockOf (n ++ be 4 1)
  else ghash h 0 (pad16 n ++ zeros 8 ++ be64 (8 * n.length))

/-- `SETIV(e, N)` (R133). -/
def engSetIv (E : Block → Block) (e : Engine) (n : List Byte) : Engine :=
  let j := j0 e.h n
  { e with xi := 0, alen := 0, mlen := 0, pbuf := 0, pfill := 0, ks := 0,
           ek0 := E j, cb := inc32 j, phase := .nonceSet }

/-- The partial-block buffer `p` folded into the running tag and emptied (R135). -/
def engFold (e : Engine) (p : Block) : Engine :=
  { e with xi := gfmul (e.xi ^^^ p) e.h, pbuf := 0, pfill := 0 }

/-- `ABSORB(e, b)` (R135). The fill count has 4 bits: a count of 15 is the one whose next byte fills the block. -/
def engAbsorb (e : Engine) (b : Byte) : Engine :=
  let p := setByte e.pbuf e.pfill.toNat b
  if e.pfill = 15 then engFold e p else { e with pbuf := p, pfill := e.pfill + 1 }

/-- `FLUSH(e)` (R135). -/
def engFlush (e : Engine) : Engine := if e.pfill = 0 then e else engFold e e.pbuf

/-- `AAD(e, A)` (R136). -/
def engAad (e : Engine) (a : List Byte) : Engine :=
  if a = [] then e
  else
    let e' := a.foldl engAbsorb e
    { e' with alen := e'.alen + BitVec.ofNat 64 a.length, phase := .aad }

/-- One byte of `PAYLOAD` (R139): the engine after it and the output byte. The byte folded into the tag is the
ciphertext byte in both directions. -/
def engPayloadByte (E : Block → Block) (dir : CryptDir) (e : Engine) (d : Byte) : Engine × Byte :=
  let k := e.mlen.toNat % 16
  let e1 := if k = 0 then { e with ks := E e.cb, cb := inc32 e.cb } else e
  let o := d ^^^ getByte e1.ks k
  let e2 := engAbsorb e1 (match dir with | .encrypt => o | .decrypt => d)
  ({ e2 with mlen := e2.mlen + 1 }, o)

/-- The loop of `PAYLOAD` over the data (R139). -/
def engPayloadLoop (E : Block → Block) (dir : CryptDir) : Engine → List Byte → Engine × List Byte
  | e, [] => (e, [])
  | e, d :: ds =>
    let r := engPayloadByte E dir e d
    let rs := engPayloadLoop E dir r.1 ds
    (rs.1, r.2 :: rs.2)

/-- `PAYLOAD(e, D, dir)` (R139): the first payload byte closes a partial associated-data block. -/
def engPayload (E : Block → Block) (dir : CryptDir) (e : Engine) (d : List Byte) : Engine × List Byte :=
  if d = [] then (e, [])
  else if e.phase = .nonceSet ∨ e.phase = .aad then
    engPayloadLoop E dir { engFlush e with phase := .payload } d
  else engPayloadLoop E dir e d

/-- The block of the two 64-bit bit-lengths, associated data first (R140). -/
def lengthBlock (alen mlen : Nat) : Block := blockOf (be64 (8 * alen) ++ be64 (8 * mlen))

/-- `FINALIZE(e)` (R140); the full 128-bit tag is `Xi` of the result. -/
def engFinalize (e : Engine) : Engine :=
  let f := engFlush e
  { f with xi := gfmul (f.xi ^^^ lengthBlock f.alen.toNat f.mlen.toNat) f.h ^^^ f.ek0, phase := .final }

/-- `GCM_RECORD(key, N, A, P)` with `E = BC.E(key, ·)`: the closed form of a sealed record, ciphertext and tag (R144).
No command calls it; it is what the engine's calls add up to. -/
def gcmRecord (E : Block → Block) (n a p : List Byte) : List Byte × Block :=
  let h := E 0
  let j := j0 h n
  let c := (gctr E (inc32 j) p).1
  let s := ghash h 0 (pad16 a ++ pad16 c ++ be64 (8 * a.length) ++ be64 (8 * c.length))
  (c, s ^^^ E j)

/-- `CT_EQ(a, b)` (R175): every byte is visited. -/
def ctEq (a b : List Byte) : Bool :=
  decide ((List.zipWith (· ^^^ ·) a b).foldl (fun acc d => acc ||| d) (0 : Byte) = 0)

/-- The phases in which data and finishing commands are legal (R131). -/
def dataPhase (e : Engine) : Bool :=
  decide (e.phase = .nonceSet) || decide (e.phase = .aad) || decide (e.phase = .payload)

/-- `GCM_KEY` under a configuration (R132): the probe is latched first, whether or not the checks then pass (R33). -/
def gcmKeyOn (κ : Cfg) (s : State) : Result :=
  let s := (s.latchCap κ).clearPerf
  checked false
    [ (!(κ.bcKeylens κ.engBc).contains s.x.keyl.toNat, .badKeyLength),
      (!bufOk κ s.x.keyp s.x.keyl, .badAddress) ] s fun s =>
  let k := s.readBuf s.x.keyp s.x.keyl
  let h : Block := κ.bc κ.engBc k 0
  let e : Engine := { phase := .keyed, key := k, keylen := s.x.keyl, h := h, htable := ghTable h, impl := selectImpl s.cap }
  .next ({ s with eng := e }.done 0)

/-- `GCM_KEY` (R132). -/
def execGcmKey (s : State) : Result := gcmKeyOn std s

/-- `GCM_SETIV` under a configuration (R133). -/
def gcmSetivOn (κ : Cfg) (s : State) : Result :=
  let s := s.clearPerf
  checked false
    [ (decide (s.eng.phase = .uninit), .state),
      (decide (s.x.nonl.toNat = 0) || decide (s.x.nonl.toNat > κ.nonceMax), .badNonceLength),
      (!bufOk κ s.x.nonp s.x.nonl, .badAddress) ] s fun s =>
  .next ({ s with eng := engSetIv (engCipher κ s.eng) s.eng (s.readBuf s.x.nonp s.x.nonl) }.done 0)

/-- `GCM_SETIV` (R133). -/
def execGcmSetiv (s : State) : Result := gcmSetivOn std s

/-- `GCM_AAD` under a configuration (R136). -/
def gcmAadOn (κ : Cfg) (s : State) : Result :=
  let s := s.clearPerf
  checked false
    [ (!(decide (s.eng.phase = .nonceSet) || decide (s.eng.phase = .aad)), .state),
      (!bufOk κ s.x.adp s.x.adl, .badAddress),
      (decide (s.eng.alen.toNat + s.x.adl.toNat > κ.aadMax), .tooLarge) ] s fun s =>
  .next ({ s with eng := engAad s.eng (s.readBuf s.x.adp s.x.adl) }.done 0)

/-- `GCM_AAD` (R136). -/
def execGcmAad (s : State) : Result := gcmAadOn std s

/-- `GCM_ENC` and `GCM_DEC`, which differ in the direction only (R137, R138). -/
def gcmCryptOn (κ : Cfg) (dir : CryptDir) (s : State) : Result :=
  let s := s.clearPerf
  checked false
    [ (!dataPhase s.eng, .state),
      (!bufOk κ s.x.inp s.x.inl || !bufOk κ s.x.outp s.x.inl, .badAddress),
      (!aliasOk s.x.inp s.x.inl s.x.outp s.x.inl, .alias_),
      (decide (s.eng.mlen.toNat + s.x.inl.toNat > κ.msgMax), .tooLarge) ] s fun s =>
  let r := engPayload (engCipher κ s.eng) dir s.eng (s.readBuf s.x.inp s.x.inl)
  .next (({ s with eng := r.1 }.writeBuf s.x.outp r.2).done s.x.inl.toNat)

/-- `GCM_ENC` (R137). -/
def execGcmEnc (s : State) : Result := gcmCryptOn std .encrypt s

/-- `GCM_DEC` (R138). -/
def execGcmDec (s : State) : Result := gcmCryptOn std .decrypt s

/-- `GCM_TAG` under a configuration (R141): the first `t` bytes of the tag are emitted. -/
def gcmTagOn (κ : Cfg) (s : State) : Result :=
  let s := s.clearPerf
  let t := directTagLen s.x.tagl
  checked false
    [ (!dataPhase s.eng, .state),
      (decide (t > 16), .badTagLength),
      (!bufOk κ s.x.outp (BitVec.ofNat 64 t), .badAddress) ] s fun s =>
  let e := engFinalize s.eng
  .next (({ s with eng := e }.writeBuf s.x.outp ((blockBytes e.xi).take t)).done t)

/-- `GCM_TAG` (R141). -/
def execGcmTag (s : State) : Result := gcmTagOn std s

/-- `GCM_FINISH` under a configuration (R142): the first `t` bytes of the tag are compared with those at `INP`; on a
mismatch `E_DECRYPT` is raised with the engine already in `FINAL`. -/
def gcmFinishOn (κ : Cfg) (s : State) : Result :=
  let s := s.clearPerf
  let t := directTagLen s.x.tagl
  checked false
    [ (!dataPhase s.eng, .state),
      (decide (t > 16), .badTagLength),
      (!bufOk κ s.x.inp (BitVec.ofNat 64 t), .badAddress) ] s fun s =>
  let expected := s.readBuf s.x.inp (BitVec.ofNat 64 t)
  let e := engFinalize s.eng
  let s' := { s with eng := e }
  checked false [ (!ctEq ((blockBytes e.xi).take t) expected, .decrypt) ] s' fun s =>
  .next (s.done 0)

/-- `GCM_FINISH` (R142). -/
def execGcmFinish (s : State) : Result := gcmFinishOn std s

/-- `GCM_CLEAR` (R143). -/
def execGcmClear (s : State) : Result := .next ({ s.clearPerf with eng := {}, ctr := {} }.done 0)

end Sys2Proof.Machine
end

