-- ==== Sys2Proof/Machine/AesGcm.lean ====
section
/-! DEFINITION. U5, the AES-GCM construction: the working copy (R39), the seal and open parts (R191, R192), the fixed-IV
nonces (R197, R198) and `SETIVFIXED` (R196). -/

namespace Sys2Proof.Machine

/-- The working copy of a slot (R39): phase `KEYED`, the slot's key, subkey, table and implementation id;
every other field 0. -/
def workingCopy (sl : Slot) : Engine :=
  { phase := .keyed, key := sl.encKey, h := sl.h, htable := sl.htable, impl := sl.impl }

/-- The working copy with nonce and associated data set, in either direction (R191, R192). -/
def gcmStart (κ : Cfg) (bc : BcName) (sl : Slot) (n a : List Byte) : Engine :=
  engAad (engSetIv (κ.bc bc sl.encKey) (workingCopy sl) n) a

/-- The seal part (R191): ciphertext and the first `tag_len` bytes of the tag. -/
def gcmSeal (κ : Cfg) (bc : BcName) (sl : Slot) (n a p : List Byte) : List Byte :=
  let r := engPayload (κ.bc bc sl.encKey) .encrypt (gcmStart κ bc sl n a) p
  r.2 ++ (blockBytes (engFinalize r.1).xi).take sl.tagLen.toNat

/-- The open part (R192): `none` when the tag does not compare equal. -/
def gcmOpen (κ : Cfg) (bc : BcName) (sl : Slot) (n a c : List Byte) : Option (List Byte) :=
  let k := c.length - sl.tagLen.toNat
  let r := engPayload (κ.bc bc sl.encKey) .decrypt (gcmStart κ bc sl n a) (c.take k)
  if ctEq ((blockBytes (engFinalize r.1).xi).take sl.tagLen.toNat) (c.drop k) then some r.2 else none

/-- The 12-byte nonce of the sealing side's fixed-IV mode: fixed part and current explicit counter (R197). -/
def fixedNonce (sl : Slot) : List Byte := be 12 sl.ivFixed.toNat

/-- The 4-byte fixed part of the fixed IV (R197, R198). -/
def fixedPart (sl : Slot) : List Byte := (fixedNonce sl).take 4

/-- The 8-byte explicit part of the fixed IV (R197). -/
def explicitPart (sl : Slot) : List Byte := (fixedNonce sl).drop 4

/-- The fixed IV after a successful fixed-IV seal: the counter plus 1 modulo `2^64`, the fixed part kept (R197). -/
def ivAdvance (iv : BitVec 96) : BitVec 96 := iv.extractLsb' 64 32 ++ (iv.extractLsb' 0 64 + 1)

/-- `SETIVFIXED` under a configuration (R196). -/
def setivfixedOn (κ : Cfg) (c : BitVec 8) (s : State) : Result :=
  onSlot κ false [(s.x.nonp, s.x.nonl)] c s fun s sl d =>
    checked false
      [ (!isGcm d, .unsupported),
        (decide (s.x.nonl ≠ 12), .badNonceLength) ] s fun s =>
    .next ((s.setSlot c { sl with
      ivFixed := BitVec.ofNat 96 (unbe (s.readBuf s.x.nonp 12)), ivFixedSet := true }).done 0)

/-- `SETIVFIXED` (R196). -/
def execSetivfixed (c : BitVec 8) (s : State) : Result := setivfixedOn std c s

end Sys2Proof.Machine
end

