-- ==== Sys2Proof/Machine/KeyWrap.lean ====
section
/-! DEFINITION. U7, the deterministic key-wrap construction (R242 to R246), over 8-byte semiblocks. `E` and `D` are
`BC.E(key, ·)` and `BC.D(key, ·)`. -/

namespace Sys2Proof.Machine

/-- The semiblocks of a byte string whose length is a multiple of 8 (R243). -/
def semiblocks (d : List Byte) : List Semiblock := (chunks 8 d).map semiOf

/-- `KW_IV(N)` (R242): the nonce itself, or the default initial value when none is supplied. -/
def kwIv (κ : Cfg) (n : List Byte) : Semiblock := if n.length = 8 then semiOf n else κ.kwDefaultIv

/-- One wrap round (R243): round `j` over the blocks `R_i, R_(i+1), …`, with `n` blocks in all. The result is the
register `A` and the new blocks. -/
def kwWrapRound (E : Block → Block) (n j : Nat) : Nat → Semiblock → List Semiblock → Semiblock × List Semiblock
  | _, a, [] => (a, [])
  | i, a, r :: rs =>
    let b := E (a ++ r)
    let q := kwWrapRound E n j (i + 1) (b.extractLsb' 64 64 ^^^ BitVec.ofNat 64 (n * j + i)) rs
    (q.1, b.extractLsb' 0 64 :: q.2)

/-- One unwrap round (R244): the same blocks in reverse order, the last block first. -/
def kwUnwrapRound (D : Block → Block) (n j : Nat) : Nat → Semiblock → List Semiblock → Semiblock × List Semiblock
  | _, a, [] => (a, [])
  | i, a, r :: rs =>
    let q := kwUnwrapRound D n j (i + 1) a rs
    let b := D ((q.1 ^^^ BitVec.ofNat 64 (n * j + i)) ++ r)
    (b.extractLsb' 64 64, b.extractLsb' 0 64 :: q.2)

/-- The rounds `j = 0 … 5` of a wrap (R243). -/
def kwWrapRounds (E : Block → Block) (n : Nat) (st : Semiblock × List Semiblock) : Semiblock × List Semiblock :=
  (List.range 6).foldl (fun p j => kwWrapRound E n j 1 p.1 p.2) st

/-- The rounds `j = 5 … 0` of an unwrap (R244). -/
def kwUnwrapRounds (D : Block → Block) (n : Nat) (st : Semiblock × List Semiblock) : Semiblock × List Semiblock :=
  (List.range 6).reverse.foldl (fun p j => kwUnwrapRound D n j 1 p.1 p.2) st

/-- `KW_WRAP(key, iv, P)` (R243). -/
def kwWrap (E : Block → Block) (iv : Semiblock) (p : List Byte) : List Byte :=
  let r := semiblocks p
  let q := kwWrapRounds E r.length (iv, r)
  semiBytes q.1 ++ q.2.flatMap semiBytes

/-- `KW_UNWRAP(key, iv, C)` (R244): `none` when the recovered integrity block is not `iv`. -/
def kwUnwrap (D : Block → Block) (iv : Semiblock) (c : List Byte) : Option (List Byte) :=
  let r := semiblocks (c.drop 8)
  let q := kwUnwrapRounds D r.length (semiOf (c.take 8), r)
  if ctEq (semiBytes q.1) (semiBytes iv) then some (q.2.flatMap semiBytes) else none

end Sys2Proof.Machine
end

