-- ==== Sys2Proof/Machine/Legacy.lean ====
section
/-! DEFINITION. U6, the legacy MAC-then-encrypt constructions (R206 to R226): record MAC, padding, cipher-block
chaining, padding removal, the open part of the block-cipher families and of the stream family, and `GETSTREAM`
(R228). -/

namespace Sys2Proof.Machine

/-- `MACIN(A, P)` (R210). -/
def macIn (a p : List Byte) : List Byte := a ++ be16 p.length ++ p

/-- `MAC.F(key, msg)` (R5). -/
def macF (κ : Cfg) (m : MacName) (key msg : List Byte) : List Byte := (κ.mac m key msg).toList

/-- `RECMAC(s, A, P)` (R210). -/
def recMac (κ : Cfg) (m : MacName) (sl : Slot) (a p : List Byte) : List Byte := macF κ m sl.macKey (macIn a p)

/-- `PADLEN(n)` for a MAC of `ml` bytes and blocks of `b` bytes (R211). -/
def padLen (ml b n : Nat) : Nat := b - (n + ml) % b

/-- `PADBYTES(n)` for `CBC_TLS` (R211): `PADLEN` copies of the padding-length byte. -/
def padBytesTls (ml b n : Nat) : List Byte := List.replicate (padLen ml b n) (BitVec.ofNat 8 (padLen ml b n - 1))

/-- `PADBYTES(n)` for `CBC_SSL3` (R211): zero filler and the padding-length byte. -/
def padBytesSsl3 (ml b n : Nat) : List Byte := zeros (padLen ml b n - 1) ++ [BitVec.ofNat 8 (padLen ml b n - 1)]

/-- The chain of `CBC_ENC` (R213): the argument block is the previous ciphertext block. -/
def cbcEncBlocks (E : Block → Block) : Block → List Block → List Block
  | _, [] => []
  | c, x :: xs => E (x ^^^ c) :: cbcEncBlocks E (E (x ^^^ c)) xs

/-- The chain of `CBC_DEC` (R213). -/
def cbcDecBlocks (D : Block → Block) : Block → List Block → List Block
  | _, [] => []
  | c, y :: ys => (D y ^^^ c) :: cbcDecBlocks D y ys

/-- `CBC_ENC(key, iv, X)` (R213). -/
def cbcEnc (E : Block → Block) (iv : Block) (x : List Byte) : List Byte := bytesOfBlocks (cbcEncBlocks E iv (blocks x))

/-- `CBC_DEC(key, iv, C)` (R213). -/
def cbcDec (D : Block → Block) (iv : Block) (c : List Byte) : List Byte := bytesOfBlocks (cbcDecBlocks D iv (blocks c))

/-- The padding-length byte `D[L - 1]`, untrusted (R217, R218). -/
def padByte (d : List Byte) : Byte := d.getLastD 0

/-- The content length after padding removal (R217, R218): with bad padding, as if there were none. -/
def contentLen (ml : Nat) (d : List Byte) (good : Bool) : Nat :=
  d.length - ml - (if good then (padByte d).toNat + 1 else 0)

/-- `PAD_TLS(D)` (R217): all positions of the window are scanned, the last `p + 1` must equal `p`. -/
def padTls (ml : Nat) (d : List Byte) : Bool × Nat :=
  let p := padByte d
  let fits := decide (ml + 1 + p.toNat ≤ d.length)
  let good := ((d.reverse.take 256).zipIdx).foldl
    (fun g q => g && !(decide (q.2 ≤ p.toNat) && decide (q.1 ≠ p))) fits
  (good, contentLen ml d good)

/-- `PAD_SSL3(D)` (R218): only the padding-length byte is checked, at most one block. -/
def padSsl3 (ml b : Nat) (d : List Byte) : Bool × Nat :=
  let p := padByte d
  let good := decide (ml + 1 + p.toNat ≤ d.length) && decide (p.toNat + 1 ≤ b)
  (good, contentLen ml d good)

/-- `MAC_CT(key, hdr, D, n)`: the value is that of the MAC of the header and the first `n` bytes (R220). -/
def macCt (κ : Cfg) (m : MacName) (key hdr d : List Byte) (n : Nat) : List Byte := macF κ m key (hdr ++ d.take n)

/-- The open part of the block-cipher families after padding removal (R219, R221): both checks are always computed and
combined in one Boolean, and the result alone decides. -/
def cbcVerify (κ : Cfg) (m : MacName) (sl : Slot) (a d : List Byte) (pad : Bool × Nat) : Option (List Byte) :=
  let n := pad.2
  let expected := macCt κ m sl.macKey (a ++ be16 (n % 2 ^ 16)) d n
  let given := (d.drop n).take (κ.macLen m)
  let macok := ctEq expected given
  if pad.1 && macok then some (d.take n) else none

/-- The seal part of the block-cipher families, for the padding bytes of the family (R214). -/
def cbcSeal (κ : Cfg) (bc : BcName) (m : MacName) (sl : Slot) (n a p padding : List Byte) : List Byte :=
  cbcEnc (κ.bc bc sl.encKey) (blockOf n) (p ++ recMac κ m sl a p ++ padding)

/-- The decrypted record of the block-cipher families (R219). -/
def cbcRecord (κ : Cfg) (bc : BcName) (sl : Slot) (n c : List Byte) : List Byte :=
  cbcDec (κ.bc bc sl.encKey).symm (blockOf n) c

/-- The data of `SC.xor(state, nonce, data)` (R5). -/
def scXor (κ : Cfg) (sc : ScName) (st n d : List Byte) : List Byte := selfInverse (κ.scMap sc st n) d

/-- The next state of `SC.xor(state, nonce, data)` (R5, P15). -/
def scNextState (κ : Cfg) (sc : ScName) (st n d : List Byte) : List Byte := (κ.scNext sc st n d.length).toList

/-- The seal part of `STREAM` (R215): the output and the next stream state. -/
def streamSeal (κ : Cfg) (sc : ScName) (m : MacName) (sl : Slot) (n a p : List Byte) : List Byte × List Byte :=
  let d := p ++ recMac κ m sl a p
  (scXor κ sc sl.scState n d, scNextState κ sc sl.scState n d)

/-- The open part of `STREAM` (R225): the plaintext unless the MAC is wrong, and the next stream state either way
(R226). -/
def streamOpen (κ : Cfg) (sc : ScName) (m : MacName) (sl : Slot) (n a c : List Byte) :
    Option (List Byte) × List Byte :=
  let d := scXor κ sc sl.scState n c
  let k := c.length - κ.macLen m
  let macok := ctEq (recMac κ m sl a (d.take k)) (d.drop k)
  (if macok then some (d.take k) else none, scNextState κ sc sl.scState n c)

/-- `GETSTREAM` under a configuration (R228): a read-only copy of the stream state of a slot that exposes it. -/
def getstreamOn (κ : Cfg) (c : BitVec 8) (s : State) : Result :=
  onSlot κ false [(s.x.outp, s.x.outmax)] c s fun s sl d =>
    match d.family with
    | .stream sc _ true =>
      checked false [ (decide (s.x.outmax.toNat < κ.scStateLen sc), .bufferTooSmall) ] s fun s =>
      .next ((s.writeBuf s.x.outp sl.scState).done (κ.scStateLen sc))
    | _ => .next (s.raise false .unsupported)

/-- `GETSTREAM` (R228). -/
def execGetstream (c : BitVec 8) (s : State) : Result := getstreamOn std c s

end Sys2Proof.Machine
end

