-- ==== Sys2Proof/Machine/Contract.lean ====
section
/-! DEFINITION. U4, the AEAD contract: `INIT`, `SEAL`, `OPEN`, `CLEANUP` (R160 to R175) with the dispatch on the family
(R160), and `NOP` (R89). -/

namespace Sys2Proof.Machine

/-- `NOP` (R89). -/
def execNop (s : State) : Result := .next (s.clearPerf.done 0)

/-- `dir` of a slot that `INIT` makes (R85, R164). -/
def initDir (d : Descriptor) (opendir : Bool) : Dir :=
  if isGcm d || isKeywrap d then .both else if opendir then .openOnly else .sealOnly

/-- The init part of the family, on the slot that `INIT` has filled so far (R160, R190, R207, R247). -/
def initPart (κ : Cfg) (d : Descriptor) (k : List Byte) (sl : Slot) : Slot :=
  match d.family with
  | .gcm bc =>
    let h : Block := κ.bc bc k 0
    { sl with encKey := k, h := h, htable := ghTable h, ivFixed := 0, ivFixedSet := false }
  | .cbcTls _ _ _ => { sl with macKey := k.take d.macKeyLen, encKey := k.drop d.macKeyLen }
  | .cbcSsl3 _ _ _ => { sl with macKey := k.take d.macKeyLen, encKey := k.drop d.macKeyLen }
  | .stream sc _ _ =>
    { sl with macKey := k.take d.macKeyLen, encKey := k.drop d.macKeyLen,
              scState := (κ.scInit sc (k.drop d.macKeyLen)).toList }
  | .keywrap _ => { sl with encKey := k }

/-- The slot a successful `INIT` makes (R164). -/
def initSlot (κ : Cfg) (id : BitVec 8) (d : Descriptor) (opendir : Bool) (t : Nat) (impl : BitVec 4)
    (k : List Byte) : Slot :=
  { initPart κ d k { desc := id, tagLen := BitVec.ofNat 8 t, impl := impl, dir := initDir d opendir } with live := true }

/-- `INIT` under a configuration (R164): an illegal slot, descriptor or `OPENDIR` changes nothing; otherwise the probe
is latched and the slot scrubbed before the checks. -/
def initOn (κ : Cfg) (c id : BitVec 8) (opendir : Bool) (s : State) : Result :=
  match descriptor κ id with
  | none => .next s.badCommand
  | some d =>
    if κ.nCtx ≤ c.toNat ∨ (opendir ∧ (isGcm d ∨ isKeywrap d)) then .next s.badCommand
    else
      let s := ((s.latchCap κ).clearPerf).setSlot c {}
      checked false
        [ (decide (s.x.keyl.toNat ≠ d.keyLen), .badKeyLength),
          ((resolveTag d s.x.tagl.toNat).isNone, .badTagLength),
          (!bufOk κ s.x.keyp s.x.keyl, .badAddress) ] s fun s =>
      .next ((s.setSlot c (initSlot κ id d opendir ((resolveTag d s.x.tagl.toNat).getD 0) (selectImpl s.cap)
        (s.readBuf s.x.keyp s.x.keyl))).done 0)

/-- `INIT` (R164). -/
def execInit (c d : BitVec 8) (opendir : Bool) (s : State) : Result := initOn std c d opendir s

/-- The buffers whose range `SEAL` and `OPEN` check first (R166). -/
def contractBufs (x : Regs) : List (Word × Word) :=
  [(x.nonp, x.nonl), (x.inp, x.inl), (x.adp, x.adl), (x.outp, x.outmax)]

/-- The checks of the common prologue after the slot is known to be live (R166): `wrongDir` is the code of a slot bound
to the other direction `other`. -/
def prologueChecks (x : Regs) (sl : Slot) (d : Descriptor) (fixediv : Bool) (other : Dir) (wrongDir : StatusCode) :
    List (Bool × StatusCode) :=
  [ (decide (sl.dir = other), wrongDir),
    (fixediv && !isGcm d, .unsupported),
    (fixediv && !sl.ivFixedSet, .state),
    (!nonceOk d x.nonl.toNat fixediv, .badNonceLength),
    (decide (d.adLen ≠ none ∧ d.adLen ≠ some x.adl.toNat), .badAdLength) ]

/-- `LIMIT_PT(d)` (R167). -/
def limitPt (κ : Cfg) (d : Descriptor) : Nat :=
  match d.family with
  | .gcm _ => κ.msgMax
  | .cbcTls _ _ _ => κ.legacyMaxPt
  | .cbcSsl3 _ _ _ => κ.legacyMaxPt
  | .stream _ _ _ => κ.legacyMaxPt
  | .keywrap _ => κ.kwMax

/-- The checks of `SEAL` (R166, R167), in the order of R163. -/
def sealChecks (κ : Cfg) (x : Regs) (sl : Slot) (d : Descriptor) (fixediv : Bool) : List (Bool × StatusCode) :=
  prologueChecks x sl d fixediv .openOnly .direction ++
  [ (isKeywrap d && (decide (x.inl.toNat % 8 ≠ 0) || decide (x.inl.toNat < 16)), .badInputLength),
    (decide (x.inl.toNat > limitPt κ d), .tooLarge),
    (isGcm d && decide (x.adl.toNat > κ.aadMax), .tooLarge),
    (decide (x.inl.toNat + d.overhead ≥ 2 ^ κ.xlen), .tooLarge),
    (decide (x.outmax.toNat < x.inl.toNat + d.overhead), .bufferTooSmall),
    (!aliasOk x.inp x.inl x.outp x.outmax, .alias_) ]

/-- The seal part of the family (R160, R191, R214, R215, R245): the output and the slot after it, which differs in the
stream state only (R226). -/
def sealPart (κ : Cfg) (d : Descriptor) (sl : Slot) (n a p : List Byte) : List Byte × Slot :=
  match d.family with
  | .gcm bc => (gcmSeal κ bc sl n a p, sl)
  | .cbcTls bc m b => (cbcSeal κ bc m sl n a p (padBytesTls (κ.macLen m) b p.length), sl)
  | .cbcSsl3 bc m b => (cbcSeal κ bc m sl n a p (padBytesSsl3 (κ.macLen m) b p.length), sl)
  | .stream sc m _ =>
    let r := streamSeal κ sc m sl n a p
    (r.1, { sl with scState := r.2 })
  | .keywrap bc => (kwWrap (κ.bc bc sl.encKey) (kwIv κ n) p, sl)

/-- The end of a `SEAL` with `FIXEDIV` (R197): the explicit part is written at `NONP` and the slot's counter advanced;
without the flag nothing more happens. -/
def sealFixed (c : BitVec 8) (sl : Slot) (fixediv : Bool) (s : State) : State :=
  if fixediv then
    (s.writeBuf s.x.nonp (explicitPart sl)).setSlot c { sl with ivFixed := ivAdvance sl.ivFixed }
  else s.setSlot c sl

/-- `SEAL` under a configuration (R167, R197). -/
def sealOn (κ : Cfg) (c : BitVec 8) (fixediv : Bool) (s : State) : Result :=
  onSlot κ true (contractBufs s.x) c s fun s sl d =>
    checked true (sealChecks κ s.x sl d fixediv) s fun s =>
    if destOverlap s.x || (fixediv && nonceOutOverlap s.x) then .refused .bufferOverlap
    else
      let n := if fixediv then fixedNonce sl else s.readBuf s.x.nonp s.x.nonl
      let r := sealPart κ d sl n (s.readBuf s.x.adp s.x.adl) (s.readBuf s.x.inp s.x.inl)
      .next ((sealFixed c r.2 fixediv (s.writeBuf s.x.outp r.1)).done r.1.length)

/-- `SEAL` (R167). -/
def execSeal (c : BitVec 8) (fixediv : Bool) (s : State) : Result := sealOn std c fixediv s

/-- `MIN_OPEN(d, s)` (R168). -/
def minOpen (κ : Cfg) (d : Descriptor) (sl : Slot) : Nat :=
  match d.family with
  | .gcm _ => sl.tagLen.toNat
  | .cbcTls _ m _ => κ.macLen m + 1
  | .cbcSsl3 _ m _ => κ.macLen m + 1
  | .stream _ m _ => κ.macLen m
  | .keywrap _ => 24

/-- `SHAPE_OK(d, INL)` (R168). -/
def shapeOk (d : Descriptor) (l : Nat) : Bool :=
  match d.family with
  | .gcm _ => true
  | .cbcTls _ _ b => decide (l % b = 0)
  | .cbcSsl3 _ _ b => decide (l % b = 0)
  | .stream _ _ _ => true
  | .keywrap _ => decide (l % 8 = 0)

/-- `TAKE(d, s)` (R168). -/
def takeLen (κ : Cfg) (d : Descriptor) (sl : Slot) : Nat :=
  match d.family with
  | .gcm _ => sl.tagLen.toNat
  | .cbcTls _ m _ => κ.macLen m + 1
  | .cbcSsl3 _ m _ => κ.macLen m + 1
  | .stream _ m _ => κ.macLen m
  | .keywrap _ => 8

/-- `NEED_OPEN(d, s, INL)` (R168). -/
def needOpen (d : Descriptor) (sl : Slot) (l : Nat) : Nat :=
  match d.family with
  | .gcm _ => l - sl.tagLen.toNat
  | .cbcTls _ _ _ => l
  | .cbcSsl3 _ _ _ => l
  | .stream _ _ _ => l
  | .keywrap _ => l - 8

/-- The checks of `OPEN` (R166, R168), in the order of R163. -/
def openChecks (κ : Cfg) (x : Regs) (sl : Slot) (d : Descriptor) (fixediv : Bool) : List (Bool × StatusCode) :=
  prologueChecks x sl d fixediv .sealOnly .decrypt ++
  [ (decide (x.inl.toNat < minOpen κ d sl) || !shapeOk d x.inl.toNat, .decrypt),
    (decide (x.inl.toNat - takeLen κ d sl > limitPt κ d), .tooLarge),
    (isGcm d && decide (x.adl.toNat > κ.aadMax), .tooLarge),
    (decide (x.outmax.toNat < needOpen d sl x.inl.toNat), .bufferTooSmall),
    (!aliasOk x.inp x.inl x.outp x.outmax, .alias_) ]

/-- What the open part of a family gives (R160). -/
structure Opened where
  /-- The plaintext, or `none` for failure. -/
  plain : Option (List Byte)
  /-- The slot after it, which differs in the stream state only (R226). -/
  slot : Slot
  /-- The two counters (R222). -/
  perf : Word × Word
  /-- How many bytes of the destination from its start the command may leave at any value beyond the plaintext: `INL`
  for the legacy families, none for the others (R168, UD5). -/
  reach : Nat

/-- The open part of the family (R160, R192, R219, R225, R246). -/
def openPart (κ : Cfg) (d : Descriptor) (sl : Slot) (n a c : List Byte) : Opened :=
  match d.family with
  | .gcm bc => { plain := gcmOpen κ bc sl n a c, slot := sl, perf := (0, 0), reach := 0 }
  | .cbcTls bc m _ =>
    let r := cbcRecord κ bc sl n c
    { plain := cbcVerify κ m sl a r (padTls (κ.macLen m) r), slot := sl,
      perf := κ.ctCount d c.length a.length, reach := c.length }
  | .cbcSsl3 bc m b =>
    let r := cbcRecord κ bc sl n c
    { plain := cbcVerify κ m sl a r (padSsl3 (κ.macLen m) b r), slot := sl,
      perf := κ.ctCount d c.length a.length, reach := c.length }
  | .stream sc m _ =>
    let r := streamOpen κ sc m sl n a c
    { plain := r.1, slot := { sl with scState := r.2 }, perf := (0, 0), reach := c.length }
  | .keywrap bc =>
    { plain := kwUnwrap (κ.bc bc sl.encKey).symm (kwIv κ n) c, slot := sl, perf := (0, 0), reach := 0 }

/-- `n` free bytes from position `k` of the stream of free bytes (UD5, log 3). -/
def freeBytes (κ : Cfg) : Nat → Nat → List Byte
  | _, 0 => []
  | k, n + 1 => κ.freeByte k :: freeBytes κ (k + 1) n

/-- The end of an `OPEN` (R168): success writes the plaintext and, for a legacy family, leaves the rest of the first
`INL` destination bytes free (UD5); failure is `E_DECRYPT`. The slot and the counters are written either way. -/
def openFinish (κ : Cfg) (c : BitVec 8) (r : Opened) (s : State) : State :=
  let s := (s.setSlot c r.slot).setPerf r.perf
  match r.plain with
  | none => s.raise true .decrypt
  | some p =>
    let free := r.reach - p.length
    ({ s with freeCount := s.freeCount + free }.writeBuf s.x.outp (p ++ freeBytes κ s.freeCount free)).done p.length

/-- `OPEN` under a configuration (R168, R198). -/
def openOn (κ : Cfg) (c : BitVec 8) (fixediv : Bool) (s : State) : Result :=
  onSlot κ true (contractBufs s.x) c s fun s sl d =>
    checked true (openChecks κ s.x sl d fixediv) s fun s =>
    if destOverlap s.x then .refused .bufferOverlap
    else
      let given := s.readBuf s.x.nonp s.x.nonl
      let n := if fixediv then fixedPart sl ++ given else given
      let r := openPart κ d sl n (s.readBuf s.x.adp s.x.adl) (s.readBuf s.x.inp s.x.inl)
      .next (openFinish κ c r s)

/-- `OPEN` (R168). -/
def execOpen (c : BitVec 8) (fixediv : Bool) (s : State) : Result := openOn std c fixediv s

/-- `CLEANUP` under a configuration (R171). -/
def cleanupOn (κ : Cfg) (c : BitVec 8) (s : State) : Result :=
  if c.toNat < κ.nCtx then .next ((s.clearPerf.setSlot c {}).done 0) else .next s.badCommand

/-- `CLEANUP` (R171). -/
def execCleanup (c : BitVec 8) (s : State) : Result := cleanupOn std c s

end Sys2Proof.Machine
end

