-- ==== Sys2Proof/Machine/Gh.lean ====
section
/-! DEFINITION. The commands of the direct multiplier unit `gh` (R110 to R115). None touches `eng`, `ctr` or a slot. -/

namespace Sys2Proof.Machine

/-- `GH_LOADH` under a configuration (R110): the probe is latched first, whether or not the checks then pass (R33). -/
def ghLoadhOn (κ : Cfg) (s : State) : Result :=
  let s := (s.latchCap κ).clearPerf
  checked false
    [ (decide (s.x.inl ≠ 16), .badInputLength),
      (!bufOk κ s.x.inp 16, .badAddress) ] s fun s =>
  let h := blockOf (s.readBuf s.x.inp 16)
  let g : GhUnit := { valid := true, h := h, htable := ghTable h, x := 0, impl := selectImpl s.cap }
  .next ({ s with gh := g }.done 0)

/-- `GH_LOADH` (R110). -/
def execGhLoadh (s : State) : Result := ghLoadhOn std s

/-- `GH_LOADX` under a configuration (R111). -/
def ghLoadxOn (κ : Cfg) (s : State) : Result :=
  let s := s.clearPerf
  checked false
    [ (!s.gh.valid, .state),
      (decide (s.x.inl ≠ 16), .badInputLength),
      (!bufOk κ s.x.inp 16, .badAddress) ] s fun s =>
  .next ({ s with gh := { s.gh with x := blockOf (s.readBuf s.x.inp 16) } }.done 0)

/-- `GH_LOADX` (R111). -/
def execGhLoadx (s : State) : Result := ghLoadxOn std s

/-- `GH_MUL` (R112). -/
def execGhMul (s : State) : Result :=
  let s := s.clearPerf
  checked false [ (!s.gh.valid, .state) ] s fun s =>
  .next ({ s with gh := { s.gh with x := gfmul s.gh.x s.gh.h } }.done 0)

/-- `GH_HASH` under a configuration (R113). -/
def ghHashOn (κ : Cfg) (s : State) : Result :=
  let s := s.clearPerf
  checked false
    [ (!s.gh.valid, .state),
      (decide (s.x.inl.toNat % 16 ≠ 0), .badInputLength),
      (!bufOk κ s.x.inp s.x.inl, .badAddress) ] s fun s =>
  .next ({ s with gh := { s.gh with x := ghash s.gh.h s.gh.x (s.readBuf s.x.inp s.x.inl) } }.done 0)

/-- `GH_HASH` (R113). -/
def execGhHash (s : State) : Result := ghHashOn std s

/-- `GH_STOREX` under a configuration (R114): 16 bytes are written at `OUTP`; `OUTMAX` is not read. -/
def ghStorexOn (κ : Cfg) (s : State) : Result :=
  let s := s.clearPerf
  checked false
    [ (!s.gh.valid, .state),
      (!bufOk κ s.x.outp 16, .badAddress) ] s fun s =>
  .next ((s.writeBuf s.x.outp (blockBytes s.gh.x)).done 16)

/-- `GH_STOREX` (R114). -/
def execGhStorex (s : State) : Result := ghStorexOn std s

end Sys2Proof.Machine
end

