-- ==== Sys2Proof/Machine/Dispatch.lean ====
section
/-! DEFINITION. The dispatch of a legal command to its meaning (R82). -/

namespace Sys2Proof.Machine

def exec (i : Instr) (s : State) : Host.Outcome State Fault Refusal :=
  match i with
  | .nop => Sys2Proof.Machine.execNop s
  | .init c d o => Sys2Proof.Machine.execInit c d o s
  | .seal_ c f => Sys2Proof.Machine.execSeal c f s
  | .open_ c f => Sys2Proof.Machine.execOpen c f s
  | .cleanup c => Sys2Proof.Machine.execCleanup c s
  | .getstream c => Sys2Proof.Machine.execGetstream c s
  | .setivfixed c => Sys2Proof.Machine.execSetivfixed c s
  | .gcmKey => Sys2Proof.Machine.execGcmKey s
  | .gcmSetiv => Sys2Proof.Machine.execGcmSetiv s
  | .gcmAad => Sys2Proof.Machine.execGcmAad s
  | .gcmEnc => Sys2Proof.Machine.execGcmEnc s
  | .gcmDec => Sys2Proof.Machine.execGcmDec s
  | .gcmFinish => Sys2Proof.Machine.execGcmFinish s
  | .gcmTag => Sys2Proof.Machine.execGcmTag s
  | .gcmClear => Sys2Proof.Machine.execGcmClear s
  | .ghLoadh => Sys2Proof.Machine.execGhLoadh s
  | .ghLoadx => Sys2Proof.Machine.execGhLoadx s
  | .ghMul => Sys2Proof.Machine.execGhMul s
  | .ghHash => Sys2Proof.Machine.execGhHash s
  | .ghStorex => Sys2Proof.Machine.execGhStorex s
  | .ctrLoad => Sys2Proof.Machine.execCtrLoad s
  | .ctrXor => Sys2Proof.Machine.execCtrXor s

end Sys2Proof.Machine
end

