-- ==== Sys2Proof/Machine/Bus.lean ====
section
/-! DEFINITION. The host interface: the register map (R26), a write of `CMD` (R23, R83), the host's accesses to its
buffer memory (R60), the reset input (R280), and how the model takes the host's accesses one at a time (log 1). Each is
given under a configuration `κ`, and what executes a decoded command is the argument `run`. -/

namespace Sys2Proof.Machine

/-- The register number of `CMD` (R26). -/
abbrev cmdReg : Nat := 0x10

/-- `DESC[d].k` (R31); 0 for an id not in the table. -/
def descWord (κ : Cfg) (d k : Nat) : Nat :=
  match κ.table[d]? with
  | none => 0
  | some r =>
    match k with
    | 0 => r.keyLen
    | 1 => r.nonceLen
    | 2 => r.overhead
    | _ => r.maxTagLen

/-- Operand register `n` (R21, R26). -/
def Regs.get (x : Regs) : Nat → Word
  | 0 => x.keyp
  | 1 => x.keyl
  | 2 => x.tagl
  | 3 => x.nonp
  | 4 => x.nonl
  | 5 => x.inp
  | 6 => x.inl
  | 7 => x.adp
  | 8 => x.adl
  | 9 => x.outp
  | 10 => x.outmax
  | _ => 0

/-- Operand register `n` written; any other number is ignored (R21, R26). -/
def Regs.put (x : Regs) (n : Nat) (v : Word) : Regs :=
  match n with
  | 0 => { x with keyp := v }
  | 1 => { x with keyl := v }
  | 2 => { x with tagl := v }
  | 3 => { x with nonp := v }
  | 4 => { x with nonl := v }
  | 5 => { x with inp := v }
  | 6 => { x with inl := v }
  | 7 => { x with adp := v }
  | 8 => { x with adl := v }
  | 9 => { x with outp := v }
  | 10 => { x with outmax := v }
  | _ => x

/-- `RegRead(n)` under a configuration (R26): a narrower register is zero-extended; `CMD` and every number not in the
table read 0 (R23, R26). With more than 32 slots the numbers of `CTXSTAT` reach those of `DESC`; the slot is read there
(log 4). -/
def regReadOn (κ : Cfg) (s : State) (n : Nat) : Word :=
  if n ≤ 0x0A then s.x.get n
  else if n = 0x11 then s.status.setWidth 64
  else if n = 0x12 then s.outlen
  else if n = 0x13 then s.cap.setWidth 64
  else if n = 0x14 then (engStat s.eng s.gh s.ctr).setWidth 64
  else if n = 0x15 then s.perfCompress
  else if n = 0x16 then s.perfMemacc
  else if 0x20 ≤ n ∧ n < 0x20 + κ.nCtx then (ctxStat (s.slot (BitVec.ofNat 8 (n - 0x20)))).setWidth 64
  else if 0x40 ≤ n then BitVec.ofNat 64 (descWord κ ((n - 0x40) / 4) ((n - 0x40) % 4))
  else 0

/-- `RegRead(n)` (R26). -/
def State.regRead (s : State) (n : Nat) : Word := regReadOn std s n

/-- The low `XLEN` bits of a word, all of them at the default (R21, R60). -/
def narrow (κ : Cfg) (v : Word) : Word := BitVec.ofNat 64 (v.toNat % 2 ^ κ.xlen)

/-- A host write of a word to `CMD` (R23): the command it encodes is executed; a word that is no legal command raises
`E_BAD_COMMAND` (R83). -/
def runCommandOn (κ : Cfg) (run : Instr → State → Result) (w : CmdWord) (s : State) : Result :=
  match decodeOn κ w with
  | .ok i => run i s
  | .error _ => .next s.badCommand

/-- `RegWrite(n, v)` (R26): `CMD` takes the low 32 bits of the value and executes them (log 15); an operand register is
written, with `XLEN` bits; a write to any other number is ignored. -/
def regWriteOn (κ : Cfg) (run : Instr → State → Result) (n : Nat) (v : Word) (s : State) : Result :=
  if n = cmdReg then runCommandOn κ run (v.setWidth 32) s
  else .next { s with x := s.x.put n (narrow κ v) }

/-- The reset input (R280): the block's state as after reset; buffer memory, the host's pending accesses, the host's
last read data and the position in the stream of free bytes are not the block's and stay. -/
def State.resetBlock (s : State) : State :=
  { State.reset with mem := s.mem, pending := s.pending, readData := s.readData, freeCount := s.freeCount }

/-- One access of the host (R26, R60, R280); a memory address has `XLEN` bits (R60). -/
def busAccessOn (κ : Cfg) (run : Instr → State → Result) (op : BusOp) (s : State) : Result :=
  match op with
  | .regWrite n v => regWriteOn κ run n v s
  | .regRead n => .next { s with readData := regReadOn κ s n }
  | .memWrite a b => .next { s with mem := s.mem.write (narrow κ a).toNat b }
  | .memRead a => .next { s with readData := (s.mem.read (narrow κ a).toNat).setWidth 64 }
  | .reset => .next s.resetBlock

/-- One step: the host's next access is taken; with none pending the block waits, unchanged, for it never acts on its own
(R23, R24, log 1). -/
def busStepOn (κ : Cfg) (run : Instr → State → Result) (s : State) : Result :=
  match s.pending with
  | [] => .next s
  | op :: ops => busAccessOn κ run op { s with pending := ops }

/-- One step of the machine, at the default configuration, whose commands `exec` executes (R23, R24, log 1). -/
def busStep (s : State) : Result := busStepOn std exec s

/-- The state in which the host's next access is a write of a table word to `CMD` (R23, log 1): of the word, `nbits`
bits are given and the rest are 0. -/
def State.placeCommand (s : State) (nbits w : Nat) : State :=
  { s with pending := .regWrite cmdReg (BitVec.ofNat 64 (w % 2 ^ nbits % 2 ^ 32)) :: s.pending }

end Sys2Proof.Machine
end

