-- ==== Sys2Proof/Machine/Step.lean ====
section
/-! DEFINITION. The step function: one access of the host (R23, R26), and how a command is placed as the next access. -/

namespace Sys2Proof.Machine

/-- One step of the machine (R23, R70). -/
def step (s : State) : Host.Outcome State Fault Refusal := busStep s

/-- The state whose next step executes the given command word. -/
def State.withFetchWord (s : State) (nbits w : Nat) : State := s.placeCommand nbits w

end Sys2Proof.Machine
end

