-- ==== Sys2Proof/Machine/Configured.lean ====
section
/-! DEFINITION. The machine under any configuration (R7, R42): every command and the step with the configuration as an
argument. `exec` and `step` are these at `std` (`execOn_std`, `stepOn_std`). -/

namespace Sys2Proof.Machine

/-- A command under a configuration (R82). -/
def execOn (κ : Cfg) (i : Instr) (s : State) : Result :=
  match i with
  | .nop => execNop s
  | .init c d o => initOn κ c d o s
  | .seal_ c f => sealOn κ c f s
  | .open_ c f => openOn κ c f s
  | .cleanup c => cleanupOn κ c s
  | .getstream c => getstreamOn κ c s
  | .setivfixed c => setivfixedOn κ c s
  | .gcmKey => gcmKeyOn κ s
  | .gcmSetiv => gcmSetivOn κ s
  | .gcmAad => gcmAadOn κ s
  | .gcmEnc => gcmCryptOn κ .encrypt s
  | .gcmDec => gcmCryptOn κ .decrypt s
  | .gcmFinish => gcmFinishOn κ s
  | .gcmTag => gcmTagOn κ s
  | .gcmClear => execGcmClear s
  | .ghLoadh => ghLoadhOn κ s
  | .ghLoadx => ghLoadxOn κ s
  | .ghMul => execGhMul s
  | .ghHash => ghHashOn κ s
  | .ghStorex => ghStorexOn κ s
  | .ctrLoad => ctrLoadOn κ s
  | .ctrXor => ctrXorOn κ s

/-- A step under a configuration (R23, R70). -/
def stepOn (κ : Cfg) (s : State) : Result := busStepOn κ (execOn κ) s

end Sys2Proof.Machine
end

