-- ==== Sys2Proof/Safety.lean ====
section
/-! DEFINITION. The terms in which the statements speak: buffers and stores, the code that decides a command (R163,
R261), the tables of R131 and R262, the invariants that every step keeps (R35, R38, R255), and the relations "equal but
for the implementation id" (R33), "equal but for key-dependent bits" (R28) and "equal in all public values" (R13).
A run is safe when every state of it meets `State.Inv`. Nothing here is called by the machine. -/

namespace Sys2Proof.Machine

/-! ## Buffers and stores -/

/-- A buffer in range (R62): empty, or ending at or below `2^XLEN`. -/
abbrev InRange (p n : Word) : Prop := n = 0 ∨ p.toNat + n.toNat ≤ 2 ^ 64

/-- `DISJOINT` (R67) of the ranges `[p, p + n)` and `[q, q + k)`. -/
abbrev Apart (p n q k : Nat) : Prop := n = 0 ∨ k = 0 ∨ p + n ≤ q ∨ q + k ≤ p

/-- `ALIAS_OK` of the input buffer and a destination of `k` bytes (R67). -/
abbrev AliasFree (x : Regs) (k : Word) : Prop := x.outp = x.inp ∨ Apart x.inp.toNat x.inl.toNat x.outp.toNat k.toNat

/-- The four buffers of `SEAL` and `OPEN` are in range (R166). -/
abbrev BufsInRange (x : Regs) : Prop :=
  InRange x.nonp x.nonl ∧ InRange x.inp x.inl ∧ InRange x.adp x.adl ∧ InRange x.outp x.outmax

/-- The destination is kept off the nonce and associated-data buffers, as the host must (R68, R285). -/
abbrev Separate (x : Regs) : Prop :=
  Apart x.nonp.toNat x.nonl.toNat x.outp.toNat x.outmax.toNat ∧ Apart x.adp.toNat x.adl.toNat x.outp.toNat x.outmax.toNat

/-- The 8-byte nonce output of a fixed-IV `SEAL` is kept off the input and the associated data (R68, R197). -/
abbrev NonceOutSeparate (x : Regs) : Prop :=
  Apart x.nonp.toNat 8 x.inp.toNat x.inl.toNat ∧ Apart x.nonp.toNat 8 x.adp.toNat x.adl.toNat

/-- `m'` is `m` with the byte string `bs` stored from address `a` on: each byte inside reads as stored, every byte
outside reads as before (R61). -/
def Stores (m m' : Memory) (a : Nat) (bs : List Byte) : Prop :=
  (∀ i, (h : i < bs.length) → m'.read (a + i) = bs[i]) ∧
  ∀ k, k < a ∨ a + bs.length ≤ k → m'.read k = m.read k

/-! ## Outcomes -/

/-- The state after a command that succeeds with `n` bytes of output and changes nothing else (R258, R32). -/
def State.succeeded (s : State) (n : Nat) : State :=
  { s with status := 0, outlen := BitVec.ofNat 64 n, perfCompress := 0, perfMemacc := 0 }

/-- The state after a legal command that fails with a code and changes nothing else (R257, R32). -/
def State.failed (s : State) (e : StatusCode) : State :=
  { s with status := e.code, outlen := 0, perfCompress := 0, perfMemacc := 0 }

/-- The state after an illegal command word (R83, R257): `STATUS` and `OUTLEN` only. -/
def State.illegal (s : State) : State := { s with status := 1, outlen := 0 }

/-- `CAP` after a command that latches it (R33). -/
def State.latched (s : State) : BitVec 32 :=
  if s.cap.getLsbD 31 then s.cap else (Config.probe &&& 0x3) ||| 0x80000000

/-- In `t` slot `c` is `sl` and every other slot is as in `s`. -/
def SlotReplaced (s t : State) (c : BitVec 8) (sl : Slot) : Prop :=
  t.slot c = sl ∧ ∀ c', c' ≠ c → t.slot c' = s.slot c'

/-- Slot `c` is live and bound to the descriptor `d` (R35, R161). -/
def BoundTo (s : State) (c : BitVec 8) (d : Descriptor) : Prop :=
  c.toNat < 8 ∧ (s.slot c).live = true ∧ descriptor std (s.slot c).desc = some d

/-! ## The code that decides a command -/

/-- The first failing check of `INIT` once its word is legal (R164, R162), `ok` when none fails. -/
def initCode (x : Regs) (d : Descriptor) : StatusCode :=
  if x.keyl.toNat ≠ d.keyLen then .badKeyLength
  else if x.tagl.toNat > d.maxTagLen then .badTagLength
  else if x.tagl ≠ 0 ∧ x.tagl.toNat ≠ d.maxTagLen ∧ isGcm d = false then .badTagLength
  else if ¬InRange x.keyp x.keyl then .badAddress
  else .ok

/-- The nonce length is refused (R165). -/
def nonceRefused (d : Descriptor) (n : Nat) (fixediv : Bool) : Bool :=
  if fixediv then n != 8 else if isKeywrap d then n != 8 && n != 0 else n != d.nonceLen

/-- The associated-data length is refused (R166). -/
def adRefused (d : Descriptor) (n : Nat) : Bool :=
  match d.adLen with
  | none => false
  | some k => n != k

/-- The largest plaintext of a descriptor (R7, R167). -/
def plaintextLimit (d : Descriptor) : Nat :=
  if isGcm d then 2 ^ 36 - 32 else if isKeywrap d then 2 ^ 31 else 65535

/-- The code of `SEAL` by the checks 2 to 11 of R163, `ok` when every check passes (R166, R167). -/
def sealCode (s : State) (c : BitVec 8) (fixediv : Bool) : StatusCode :=
  if ¬BufsInRange s.x then .badAddress
  else
    match descriptor std (s.slot c).desc with
    | none => .state
    | some d =>
      if (s.slot c).live = false then .state
      else if (s.slot c).dir = .openOnly then .direction
      else if fixediv = true ∧ isGcm d = false then .unsupported
      else if fixediv = true ∧ (s.slot c).ivFixedSet = false then .state
      else if nonceRefused d s.x.nonl.toNat fixediv = true then .badNonceLength
      else if adRefused d s.x.adl.toNat = true then .badAdLength
      else if isKeywrap d = true ∧ (s.x.inl.toNat % 8 ≠ 0 ∨ s.x.inl.toNat < 16) then .badInputLength
      else if s.x.inl.toNat > plaintextLimit d then .tooLarge
      else if isGcm d = true ∧ s.x.adl.toNat > 2 ^ 58 then .tooLarge
      else if s.x.inl.toNat + d.overhead ≥ 2 ^ 64 then .tooLarge
      else if s.x.outmax.toNat < s.x.inl.toNat + d.overhead then .bufferTooSmall
      else if ¬AliasFree s.x s.x.outmax then .alias_
      else .ok

/-- A row of the table of R168 for one input length. -/
structure OpenShape where
  /-- `MIN_OPEN`. -/
  minLen : Nat
  /-- `SHAPE_OK`. -/
  shapeOk : Bool
  /-- `TAKE`. -/
  take : Nat
  /-- `NEED_OPEN`. -/
  need : Nat

/-- The table of R168 at an input of `l` bytes. -/
def openShape (d : Descriptor) (sl : Slot) (l : Nat) : OpenShape :=
  match d.family with
  | .gcm _ => ⟨sl.tagLen.toNat, true, sl.tagLen.toNat, l - sl.tagLen.toNat⟩
  | .cbcTls _ m b => ⟨Config.macLen m + 1, l % b == 0, Config.macLen m + 1, l⟩
  | .cbcSsl3 _ m b => ⟨Config.macLen m + 1, l % b == 0, Config.macLen m + 1, l⟩
  | .stream _ m _ => ⟨Config.macLen m, true, Config.macLen m, l⟩
  | .keywrap _ => ⟨24, l % 8 == 0, 8, l - 8⟩

/-- The code of `OPEN` by the checks 2 to 11 of R163, `ok` when every check passes (R166, R168). -/
def openCode (s : State) (c : BitVec 8) (fixediv : Bool) : StatusCode :=
  if ¬BufsInRange s.x then .badAddress
  else
    match descriptor std (s.slot c).desc with
    | none => .state
    | some d =>
      let r := openShape d (s.slot c) s.x.inl.toNat
      if (s.slot c).live = false then .state
      else if (s.slot c).dir = .sealOnly then .decrypt
      else if fixediv = true ∧ isGcm d = false then .unsupported
      else if fixediv = true ∧ (s.slot c).ivFixedSet = false then .state
      else if nonceRefused d s.x.nonl.toNat fixediv = true then .badNonceLength
      else if adRefused d s.x.adl.toNat = true then .badAdLength
      else if s.x.inl.toNat < r.minLen ∨ r.shapeOk = false then .decrypt
      else if s.x.inl.toNat - r.take > plaintextLimit d then .tooLarge
      else if isGcm d = true ∧ s.x.adl.toNat > 2 ^ 58 then .tooLarge
      else if s.x.outmax.toNat < r.need then .bufferTooSmall
      else if ¬AliasFree s.x s.x.outmax then .alias_
      else .ok

/-- The codes a command can raise besides `OK` (R262), as numbers. -/
def codesOf : Instr → List Nat
  | .nop => [1]
  | .init _ _ _ => [1, 2, 4, 6]
  | .seal_ _ _ => [1, 2, 3, 5, 7, 8, 9, 10, 11, 13, 14]
  | .open_ _ _ => [1, 2, 3, 5, 7, 9, 10, 11, 12, 14]
  | .cleanup _ => [1]
  | .getstream _ => [1, 2, 3, 9, 14]
  | .setivfixed _ => [1, 2, 3, 5, 14]
  | .gcmKey => [1, 2, 4]
  | .gcmSetiv => [1, 2, 3, 5]
  | .gcmAad => [1, 2, 3, 11]
  | .gcmEnc => [1, 2, 3, 10, 11]
  | .gcmDec => [1, 2, 3, 10, 11]
  | .gcmFinish => [1, 2, 3, 6, 12]
  | .gcmTag => [1, 2, 3, 6]
  | .gcmClear => [1]
  | .ghLoadh => [1, 2, 8]
  | .ghLoadx => [1, 2, 3, 8]
  | .ghMul => [1, 3]
  | .ghHash => [1, 2, 3, 8]
  | .ghStorex => [1, 2, 3]
  | .ctrLoad => [1, 2, 8]
  | .ctrXor => [1, 2, 3, 10]

/-- The table of R131: the phase after a successful command, `none` for `E_STATE`; `adl` and `inl` are the lengths of
the command. A command that is no row of the table keeps the phase. -/
def phaseAfter (i : Instr) (adl inl : Word) (p : Phase) : Option Phase :=
  match i, p with
  | .gcmKey, _ => some .keyed
  | .gcmClear, _ => some .uninit
  | .gcmSetiv, .uninit => none
  | .gcmSetiv, _ => some .nonceSet
  | .gcmAad, .nonceSet => if adl = 0 then some .nonceSet else some .aad
  | .gcmAad, .aad => some .aad
  | .gcmAad, _ => none
  | .gcmEnc, .nonceSet => if inl = 0 then some .nonceSet else some .payload
  | .gcmEnc, .aad => if inl = 0 then some .aad else some .payload
  | .gcmEnc, .payload => some .payload
  | .gcmEnc, _ => none
  | .gcmDec, .nonceSet => if inl = 0 then some .nonceSet else some .payload
  | .gcmDec, .aad => if inl = 0 then some .aad else some .payload
  | .gcmDec, .payload => some .payload
  | .gcmDec, _ => none
  | .gcmTag, .nonceSet => some .final
  | .gcmTag, .aad => some .final
  | .gcmTag, .payload => some .final
  | .gcmTag, _ => none
  | .gcmFinish, .nonceSet => some .final
  | .gcmFinish, .aad => some .final
  | .gcmFinish, .payload => some .final
  | .gcmFinish, _ => none
  | _, p => some p

/-- The slot a command names (R82); `none` for a command that names none. -/
def slotOf : Instr → Option (BitVec 8)
  | .init c _ _ => some c
  | .seal_ c _ => some c
  | .open_ c _ => some c
  | .cleanup c => some c
  | .getstream c => some c
  | .setivfixed c => some c
  | _ => none

/-! ## Invariants -/

/-- The invariants of a live slot bound to `d` (R34, R35): a key and a MAC key of the descriptor's lengths; one tag
length for a family other than `GCM` (R162); a direction exactly for the legacy families; the fields of another family
0; for `GCM` the subkey and table that the key gives (R190); for `STREAM` a state of the cipher's length. -/
def Slot.LiveInv (sl : Slot) (d : Descriptor) : Prop :=
  sl.impl.toNat ≤ 3 ∧
  sl.encKey.length = d.keyLen - d.macKeyLen ∧ sl.macKey.length = d.macKeyLen ∧
  1 ≤ sl.tagLen.toNat ∧ sl.tagLen.toNat ≤ d.maxTagLen ∧
  match d.family with
  | .gcm bc =>
    sl.dir = .both ∧ sl.h = std.bc bc sl.encKey 0 ∧ sl.htable = ghTable sl.h ∧ sl.scState = [] ∧
    (sl.ivFixedSet = false → sl.ivFixed = 0)
  | .cbcTls _ _ _ =>
    sl.dir ≠ .both ∧ sl.h = 0 ∧ sl.htable = Vector.replicate 16 0 ∧ sl.scState = [] ∧
    sl.ivFixed = 0 ∧ sl.ivFixedSet = false ∧ sl.tagLen.toNat = d.maxTagLen
  | .cbcSsl3 _ _ _ =>
    sl.dir ≠ .both ∧ sl.h = 0 ∧ sl.htable = Vector.replicate 16 0 ∧ sl.scState = [] ∧
    sl.ivFixed = 0 ∧ sl.ivFixedSet = false ∧ sl.tagLen.toNat = d.maxTagLen
  | .stream sc _ _ =>
    sl.dir ≠ .both ∧ sl.h = 0 ∧ sl.htable = Vector.replicate 16 0 ∧
    sl.scState.length = Config.streamStateLen sc ∧
    sl.ivFixed = 0 ∧ sl.ivFixedSet = false ∧ sl.tagLen.toNat = d.maxTagLen
  | .keywrap _ =>
    sl.dir = .both ∧ sl.h = 0 ∧ sl.htable = Vector.replicate 16 0 ∧ sl.scState = [] ∧
    sl.ivFixed = 0 ∧ sl.ivFixedSet = false ∧ sl.tagLen.toNat = d.maxTagLen

/-- The invariants of a slot (R35): a free slot has every field 0; a live one is bound to a descriptor of the table. -/
def Slot.Inv (sl : Slot) : Prop :=
  if sl.live = true then ∃ d, descriptor std sl.desc = some d ∧ sl.LiveInv d else sl = {}

/-- The invariants of the direct engine (R38), with what its phases imply of the fields R133 and R136 zero. -/
def Engine.Inv (e : Engine) : Prop :=
  if e.phase = .uninit then e = {}
  else
    e.impl.toNat ≤ 3 ∧ e.key.length ∈ std.bcKeylens std.engBc ∧ e.keylen.toNat = e.key.length ∧
    e.h = std.bc std.engBc e.key 0 ∧ e.htable = ghTable e.h ∧
    e.alen.toNat ≤ 2 ^ 58 ∧ e.mlen.toNat ≤ 2 ^ 36 - 32 ∧
    (∀ i < 16, e.pfill.toNat ≤ i → getByte e.pbuf i = 0) ∧
    match e.phase with
    | .uninit => True
    | .keyed => e.xi = 0 ∧ e.cb = 0 ∧ e.ek0 = 0 ∧ e.alen = 0 ∧ e.mlen = 0 ∧ e.pfill = 0 ∧ e.ks = 0
    | .nonceSet => e.xi = 0 ∧ e.alen = 0 ∧ e.mlen = 0 ∧ e.pfill = 0 ∧ e.ks = 0
    | .aad => e.alen ≠ 0 ∧ e.mlen = 0 ∧ e.pfill.toNat = e.alen.toNat % 16 ∧ e.ks = 0
    | .payload => e.mlen ≠ 0 ∧ e.pfill.toNat = e.mlen.toNat % 16
    | .final => e.pfill = 0

/-- The invariants of the other registers and units: `STATUS` holds one of the 15 codes (R255); `CAP` is unlatched or
as latched from the probe (R33); a unit not loaded is 0 and a loaded multiplier's table is that of its subkey (R40,
R41, R110). -/
def State.UnitInv (s : State) : Prop :=
  s.status.toNat ≤ 14 ∧
  (s.cap = 0 ∨ s.cap = (Config.probe &&& 0x3) ||| 0x80000000) ∧
  (if s.gh.valid = true then s.gh.htable = ghTable s.gh.h ∧ s.gh.impl.toNat ≤ 3 else s.gh = {}) ∧
  (s.ctr.valid = false → s.ctr = {})

/-- What every state of a safe run meets. -/
def State.Inv (s : State) : Prop :=
  s.mem.wf = true ∧ (∀ c, (s.slot c).Inv) ∧ s.eng.Inv ∧ s.UnitInv

/-! ## Relations between states -/

/-- A slot without its implementation id. -/
def Slot.eraseImpl (sl : Slot) : Slot := { sl with impl := 0 }

/-- A state without `CAP` and every implementation id (R33). -/
def State.eraseImpl (s : State) : State :=
  { s with cap := 0, ctx := s.ctx.map Slot.eraseImpl, eng := { s.eng with impl := 0 }, gh := { s.gh with impl := 0 } }

/-- An outcome without the implementation ids of its state. -/
def eraseOutcome : Result → Result
  | .next s => .next s.eraseImpl
  | .fault r => .fault r
  | .refused r => .refused r

/-- A slot without its key-dependent bits (R28): keys, subkey and table, stream state, fixed IV. -/
def Slot.erase (sl : Slot) : Slot :=
  { sl with encKey := [], h := 0, htable := Vector.replicate 16 0, macKey := [], scState := [], ivFixed := 0 }

/-- A state without the key-dependent bits of its slots and units (R28, R275), and without memory. -/
def State.eraseSecrets (s : State) : State :=
  { s with
    ctx := s.ctx.map Slot.erase
    eng := { s.eng with key := [], h := 0, htable := Vector.replicate 16 0, xi := 0, cb := 0, ek0 := 0, pbuf := 0, ks := 0 }
    gh := { s.gh with h := 0, htable := Vector.replicate 16 0, x := 0 }
    ctr := { s.ctr with cb := 0 }
    mem := [] }

end Sys2Proof.Machine
end

