-- ==== Sys2Proof/Certificates/Slice0/Obligations.lean ====
section
/-! DEFINITION. The statements about the block, in the order of OBLIGATIONS.json: encoding and host interface, what every
command does, the field arithmetic, the units, the engine, the contract and its constructions, and the invariants. -/

open Sys2Proof Sys2Proof.Machine

/-! ## Encoding, host interface, reset -/

/-- Words written out from R80 and R82, some of them spelled in R164, R171, R207, R247 and R90, decode to the command
they stand for. -/
def Obligations.WordsOfTheTableDecode : Prop :=
  decodeTableWord 32 0x00000000 = some .nop ∧
  decodeTableWord 32 0x01010200 = some (.init 1 2 false) ∧
  decodeTableWord 32 0x01020201 = some (.init 2 2 true) ∧
  decodeTableWord 32 0x02070001 = some (.seal_ 7 true) ∧
  decodeTableWord 32 0x03040000 = some (.open_ 4 false) ∧
  decodeTableWord 32 0x04000000 = some (.cleanup 0) ∧
  decodeTableWord 32 0x15000000 = some .gcmFinish ∧
  decodeTableWord 32 0x24000000 = some .ghStorex ∧
  decodeTableWord 32 0x31000000 = some .ctrXor ∧
  decodeTableWord 32 0x02080000 = none ∧
  decodeTableWord 32 0x01000800 = none ∧
  decodeTableWord 32 0x07000000 = none

/-- Decoding the word of a well-formed command gives the command back, every field at every value it admits. -/
def Obligations.DecodeInvertsEncode : Prop :=
  ∀ i : Instr, i.wellFormed = true → decode (encode i) = .ok i

/-- Every word written to `CMD` is the word of exactly one well-formed command, which runs, or of none, and then it
changes `STATUS` and `OUTLEN` only (R83, R87, R88; the host's access and the low 32 bits: logs 1 and 15). -/
def Obligations.EveryWordIsOneCommandOrIllegal : Prop :=
  ∀ (s : State) (v : Word),
    (∃ i : Instr, (i.wellFormed = true ∧ encode i = v.setWidth 32 ∧
        ∀ j : Instr, j.wellFormed = true → encode j = v.setWidth 32 → j = i) ∧
      step { s with pending := .regWrite 0x10 v :: s.pending } = exec i s) ∨
    ((∀ i : Instr, i.wellFormed = true → encode i ≠ v.setWidth 32) ∧
      step { s with pending := .regWrite 0x10 v :: s.pending } = .next s.illegal)

/-- R88: a legal opcode with a must-be-zero field that is not zero, a slot number that is no slot, or a descriptor id
that is not in the table. (That a `CMD` write is a step of its own is the model's, log 1.) -/
def Obligations.IllegalFieldsRaiseBadCommand : Prop :=
  ∀ (i : Instr) (s : State) (v : Word),
    (v.setWidth 32 : CmdWord).extractLsb' 24 8 = (encode i).extractLsb' 24 8 →
    ((v.setWidth 32 : CmdWord) &&& (rowOf i).mask ≠ (rowOf i).pattern ∨
      ((slotOf i).isSome = true ∧ 8 ≤ ((v.setWidth 32 : CmdWord).extractLsb' 16 8).toNat) ∨
      ((∃ c d o, i = .init c d o) ∧ 8 ≤ ((v.setWidth 32 : CmdWord).extractLsb' 8 8).toNat)) →
    step { s with pending := .regWrite 0x10 v :: s.pending } = .next s.illegal

/-- A step whose access is a write of `CMD` runs the decoded command on the state without that access, and nothing is
added around it; with no access pending the block waits. (That the accesses wait in a list is the model's, log 1; that
the low 32 bits of the written value are the word, whatever its high bits, is read from R23 and R26, log 15.) -/
def Obligations.StepRunsTheDecodedCommand : Prop :=
  (∀ (s : State) (v : Word) (ops : List BusOp) (i : Instr),
    s.pending = .regWrite 0x10 v :: ops → decode (v.setWidth 32) = .ok i →
    step s = exec i { s with pending := ops }) ∧
  ∀ s : State, s.pending = [] → step s = .next s

/-- R43, R280: every bit of the block's state is 0 after reset, and the reset input puts the block into that state and
leaves buffer memory. (The host's list of accesses and its last read data are the model's, logs 1 to 3, 18.) -/
def Obligations.ResetZeroesTheBlock : Prop :=
  (∀ n ≤ 10, State.reset.x.get n = 0) ∧
  State.reset.status = 0 ∧ State.reset.outlen = 0 ∧ State.reset.cap = 0 ∧
  State.reset.perfCompress = 0 ∧ State.reset.perfMemacc = 0 ∧
  (∀ c : BitVec 8, State.reset.slot c =
    { live := false, desc := 0, dir := .both, tagLen := 0, impl := 0, encKey := [], h := 0,
      htable := Vector.replicate 16 0, macKey := [], scState := [], ivFixed := 0, ivFixedSet := false }) ∧
  State.reset.eng =
    { phase := .uninit, key := [], keylen := 0, h := 0, htable := Vector.replicate 16 0, xi := 0, cb := 0, ek0 := 0,
      alen := 0, mlen := 0, pbuf := 0, pfill := 0, ks := 0, impl := 0 } ∧
  State.reset.gh = { valid := false, h := 0, htable := Vector.replicate 16 0, x := 0, impl := 0 } ∧
  State.reset.ctr = { valid := false, cb := 0 } ∧
  ∀ (s : State) (ops : List BusOp), s.pending = .reset :: ops →
    step s = .next { State.reset with mem := s.mem, pending := ops, readData := s.readData, freeCount := s.freeCount }

/-- R26, R31: what each register number reads, what a write of each number but `CMD`'s changes, and that an operand
register reads back what was written while the others keep their values. (That an access is a step of its own and that a
read leaves its value in `readData` are the model's, logs 1 and 2.) -/
def Obligations.RegisterMap : Prop :=
  (∀ (s : State) (ops : List BusOp) (n : Nat), s.pending = .regRead n :: ops →
    step s = .next { s with
      pending := ops
      readData :=
        if n ≤ 0x0A then s.x.get n
        else if n = 0x11 then s.status.setWidth 64
        else if n = 0x12 then s.outlen
        else if n = 0x13 then s.cap.setWidth 64
        else if n = 0x14 then (engStat s.eng s.gh s.ctr).setWidth 64
        else if n = 0x15 then s.perfCompress
        else if n = 0x16 then s.perfMemacc
        else if 0x20 ≤ n ∧ n < 0x28 then (ctxStat (s.slot (BitVec.ofNat 8 (n - 0x20)))).setWidth 64
        else if 0x40 ≤ n ∧ n < 0x60 then
          BitVec.ofNat 64 (([16, 12, 16, 16, 32, 12, 16, 16, 36, 16, 36, 20, 36, 16, 36, 20,
            64, 12, 32, 32, 32, 0, 16, 16, 16, 8, 8, 8, 32, 8, 8, 8] : List Nat)[n - 0x40]?.getD 0)
        else 0 }) ∧
  (∀ (s : State) (ops : List BusOp) (n : Nat) (v : Word), s.pending = .regWrite n v :: ops → n ≠ 0x10 →
    step s = .next { s with pending := ops, x := if n ≤ 0x0A then s.x.put n v else s.x }) ∧
  ∀ (x : Regs) (n m : Nat) (v : Word), n ≤ 0x0A → m ≤ 0x0A → (x.put n v).get m = if m = n then v else x.get m

/-- R28, R29: the bits of `CTXSTAT[c]` and of `ENGSTAT`, and that no register's value depends on key-dependent bits. -/
def Obligations.StatusViewsShowNoKeyMaterial : Prop :=
  (∀ (s : State) (c : BitVec 8), c.toNat < 8 →
    let r := s.regRead (0x20 + c.toNat)
    if (s.slot c).live = true then
      r.extractLsb' 0 1 = 1 ∧ r.extractLsb' 1 2 = (s.slot c).dir.code ∧
      r.extractLsb' 3 1 = BitVec.ofBool (s.slot c).ivFixedSet ∧ r.extractLsb' 4 4 = (s.slot c).impl ∧
      r.extractLsb' 8 8 = (s.slot c).desc ∧ r.extractLsb' 16 8 = (s.slot c).tagLen ∧ r.extractLsb' 24 40 = 0
    else r = 0) ∧
  (∀ s : State,
    let r := s.regRead 0x14
    r.extractLsb' 0 3 = s.eng.phase.code ∧ r.extractLsb' 3 1 = 0 ∧ r.extractLsb' 4 4 = s.eng.pfill ∧
    r.extractLsb' 8 1 = BitVec.ofBool s.gh.valid ∧ r.extractLsb' 9 1 = BitVec.ofBool s.ctr.valid ∧
    r.extractLsb' 10 2 = 0 ∧ r.extractLsb' 12 4 = s.eng.impl ∧ r.extractLsb' 16 48 = 0) ∧
  ∀ (s t : State) (n : Nat), s.eraseSecrets = t.eraseSecrets → s.regRead n = t.regRead n

/-! ## What every command does -/

/-- Every command runs to completion with one of the 15 codes, `OUTLEN` 0 on every failure, and the operand registers
and the host's accesses as they were; the one exception is a `SEAL` or `OPEN` that passes every check with buffers
overlapping as R68 forbids, which the model refuses by name (log 14). -/
def Obligations.EveryCommandCompletes : Prop :=
  ∀ (i : Instr) (s : State),
    (∃ t, exec i s = .next t ∧ t.status.toNat ≤ 14 ∧ (t.status ≠ 0 → t.outlen = 0) ∧
      t.x = s.x ∧ t.pending = s.pending ∧ t.readData = s.readData) ∨
    (exec i s = .refused .bufferOverlap ∧
      ((∃ c f, i = .seal_ c f ∧ sealCode s c f = .ok ∧ (¬Separate s.x ∨ (f = true ∧ ¬NonceOutSeparate s.x))) ∨
       (∃ c f, i = .open_ c f ∧ openCode s c f = .ok ∧ ¬Separate s.x)))

/-- Which command can raise which code, as the table of 60_exceptions.md section 3 (R262, which the spec derives) has it;
`SEAL` raises `E_BAD_INPUT_LENGTH` only on a key-wrap slot. -/
def Obligations.CodesEachCommandCanRaise : Prop :=
  ∀ (i : Instr) (s t : State), exec i s = .next t →
    (t.status = 0 ∨ t.status.toNat ∈ codesOf i) ∧
    ∀ c f, i = .seal_ c f → t.status = 8 → ∃ d, BoundTo s c d ∧ isKeywrap d = true

/-- R257: a command that fails leaves its code, `OUTLEN` 0, the destination of a `SEAL` or `OPEN` zero (but for codes 1
and 2), and every other bit as it was, with exactly the four exceptions the rule lists: the latched `CAP`, the slot that a
failed `INIT` scrubs and the stream state that an `OPEN` which reached the construction leaves, the engine after
`GCM_FINISH`, and the counters. (Two points are the model's: a failing check raises its code also where the buffers overlap
as R68 forbids, log 14, and a live slot with an unknown descriptor id counts as free, log 21.) -/
def Obligations.FailureProtocol : Prop :=
  ∀ (i : Instr) (s t : State), s.mem.wf = true → exec i s = .next t → t.status ≠ 0 →
    t.outlen = 0 ∧ t.x = s.x ∧ t.gh = s.gh ∧ t.ctr = s.ctr ∧
    t.pending = s.pending ∧ t.readData = s.readData ∧ t.freeCount = s.freeCount ∧
    (if (∃ c f, i = .seal_ c f ∨ i = .open_ c f) ∧ t.status ≠ 1 ∧ t.status ≠ 2
      then Stores s.mem t.mem s.x.outp.toNat (zeros s.x.outmax.toNat) else t.mem = s.mem) ∧
    t.cap = (if (i = .gcmKey ∨ i = .ghLoadh ∨ ∃ c d o, i = .init c d o) ∧ t.status ≠ 1 then s.latched else s.cap) ∧
    (∀ c d o, i = .init c d o → t.status ≠ 1 → t.slot c = {}) ∧
    (∀ c f d sc m x, i = .open_ c f → openCode s c f = .ok → BoundTo s c d → d.family = .stream sc m x →
      t.slot c = { s.slot c with
        scState :=
          scNextState std sc (s.slot c).scState (s.readBuf s.x.nonp s.x.nonl) (s.readBuf s.x.inp s.x.inl) }) ∧
    (∀ c : BitVec 8, ¬(∃ d o, i = .init c d o ∧ t.status ≠ 1) →
      ¬(∃ f d sc m x, i = .open_ c f ∧ openCode s c f = .ok ∧ BoundTo s c d ∧ d.family = .stream sc m x) →
      t.slot c = s.slot c) ∧
    (i = .gcmFinish → t.status = 12 → t.eng = engFinalize s.eng ∧ t.eng.phase = .final) ∧
    (¬(i = .gcmFinish ∧ t.status = 12) → t.eng = s.eng) ∧
    (t.status = 1 → t.perfCompress = s.perfCompress ∧ t.perfMemacc = s.perfMemacc) ∧
    (∀ c f d bc m b, i = .open_ c f → openCode s c f = .ok → BoundTo s c d →
      d.family = .cbcTls bc m b ∨ d.family = .cbcSsl3 bc m b →
      t.perfCompress = (Config.ctCount d s.x.inl.toNat s.x.adl.toNat).1 ∧
      t.perfMemacc = (Config.ctCount d s.x.inl.toNat s.x.adl.toNat).2) ∧
    (t.status ≠ 1 →
      ¬(∃ c f d bc m b, i = .open_ c f ∧ openCode s c f = .ok ∧ BoundTo s c d ∧
        (d.family = .cbcTls bc m b ∨ d.family = .cbcSsl3 bc m b)) →
      t.perfCompress = 0 ∧ t.perfMemacc = 0)

/-- R163 for `SEAL`: the first failing check decides the code, and the destination is then zero (R172). (Two points are the
model's: that this is so also where the buffers overlap as R68 and UD4 forbid, which the spec leaves outside the specified
behaviour, is log 14; `E_STATE` for a live slot whose descriptor id is not in the table, which no run reaches, is
log 21.) -/
def Obligations.SealChecksInOrder : Prop :=
  ∀ (s : State) (c : BitVec 8) (f : Bool), s.mem.wf = true → c.toNat < 8 → sealCode s c f ≠ .ok →
    ∃ m, exec (.seal_ c f) s = .next { s.failed (sealCode s c f) with mem := m } ∧
      if sealCode s c f = .badAddress then m = s.mem else Stores s.mem m s.x.outp.toNat (zeros s.x.outmax.toNat)

/-- R163 for `OPEN`: the first failing check decides the code, and the destination is then zero (R172). (Two points are the
model's: that this is so also where the buffers overlap as R68 and UD4 forbid, which the spec leaves outside the specified
behaviour, is log 14; `E_STATE` for a live slot whose descriptor id is not in the table, which no run reaches, is
log 21.) -/
def Obligations.OpenChecksInOrder : Prop :=
  ∀ (s : State) (c : BitVec 8) (f : Bool), s.mem.wf = true → c.toNat < 8 → openCode s c f ≠ .ok →
    ∃ m, exec (.open_ c f) s = .next { s.failed (openCode s c f) with mem := m } ∧
      if openCode s c f = .badAddress then m = s.mem else Stores s.mem m s.x.outp.toNat (zeros s.x.outmax.toNat)

/-- `CAP` is latched from the probe by the first `INIT`, `GCM_KEY` or `GH_LOADH` whose word is legal, and no command
changes it otherwise (R33). -/
def Obligations.CapIsLatchedOnce : Prop :=
  ∀ (i : Instr) (s t : State), i.wellFormed = true → exec i s = .next t →
    t.cap = match i with
      | .init _ d true =>
        if ∃ r, descriptor std d = some r ∧ (isGcm r = true ∨ isKeywrap r = true) then s.cap else s.latched
      | .init _ _ false => s.latched
      | .gcmKey => s.latched
      | .ghLoadh => s.latched
      | _ => s.cap

/-- The implementation id never changes any value a rule computes (R33, R108, R195): two states equal but for `CAP` and
the ids give, under every command, outcomes equal but for `CAP` and the ids. -/
def Obligations.ImplementationIdChangesNothing : Prop :=
  ∀ (i : Instr) (s t : State), s.eraseImpl = t.eraseImpl → eraseOutcome (exec i s) = eraseOutcome (exec i t)

/-- Slots and units are isolated (R36, R40, R193): a command changes no slot but the one it names, a slot command
changes no direct unit, a `GH` or `CTR` command no other unit, a `GCM` command not `gh`; and of its slot a command other
than `INIT` and `CLEANUP` leaves binding, keys and tables alone (R35). -/
def Obligations.SlotsAndUnitsAreIsolated : Prop :=
  ∀ (i : Instr) (s t : State), exec i s = .next t →
    (∀ c, slotOf i ≠ some c → t.slot c = s.slot c) ∧
    (slotOf i ≠ none → t.eng = s.eng ∧ t.gh = s.gh ∧ t.ctr = s.ctr) ∧
    (i = .ghLoadh ∨ i = .ghLoadx ∨ i = .ghMul ∨ i = .ghHash ∨ i = .ghStorex → t.eng = s.eng ∧ t.ctr = s.ctr) ∧
    (i = .ctrLoad ∨ i = .ctrXor → t.eng = s.eng ∧ t.gh = s.gh) ∧
    (i = .gcmKey ∨ i = .gcmSetiv ∨ i = .gcmAad ∨ i = .gcmEnc ∨ i = .gcmDec ∨ i = .gcmTag ∨ i = .gcmFinish →
      t.gh = s.gh ∧ t.ctr = s.ctr) ∧
    (i = .gcmClear → t.gh = s.gh) ∧
    ((∀ c d o, i ≠ .init c d o) → (∀ c, i ≠ .cleanup c) → ∀ c,
      t.slot c = { s.slot c with
        scState := (t.slot c).scState, ivFixed := (t.slot c).ivFixed, ivFixedSet := (t.slot c).ivFixedSet })

/-! ## The field arithmetic -/

/-- R108: the table method, the carry-less method and the definition give the same product. -/
def Obligations.MultiplierMethodsAgree : Prop :=
  ∀ x h : Block, gfmulTable x (ghTable h) = gfmulClmul x h ∧ gfmulClmul x h = gfmul x h

/-- Entry `T[n]` of the table is the polynomial of the index times `H` (the spec's derived R105), and `MULX4` is `MULX`
four times with `R4` holding the four-fold `MULX` of the nibbles (the spec's derived R106). -/
def Obligations.TableEntriesAndNibbleShift : Prop :=
  (∀ (h : Block) (n : BitVec 4), tableAt (ghTable h) n = gfmul (n ++ (0 : BitVec 124)) h) ∧
  (∀ v : Block, mulx4 v = mulx (mulx (mulx (mulx v)))) ∧
  ∀ r : BitVec 4, (r4[r.toNat]'r.isLt).setWidth 128 <<< 112 = mulx (mulx (mulx (mulx (r.setWidth 128))))

/-- The laws of the product that the spec derives from R100 and R101 (R102). -/
def Obligations.ProductLaws : Prop :=
  (∀ x y : Block, gfmul x y = gfmul y x) ∧
  (∀ x y z : Block, gfmul (gfmul x y) z = gfmul x (gfmul y z)) ∧
  (∀ x w y : Block, gfmul (x ^^^ w) y = gfmul x y ^^^ gfmul w y) ∧
  (∀ x : Block, gfmul x 0 = 0) ∧
  (∀ x : Block, gfmul x 0x80000000000000000000000000000000 = x) ∧
  ∀ x : Block, gfmul x 0x40000000000000000000000000000000 = mulx x

/-- Folding in pieces equals folding at once (R104). -/
def Obligations.HashInPieces : Prop :=
  ∀ (h x0 : Block) (d e : List Byte), d.length % 16 = 0 →
    ghash h x0 [] = x0 ∧ ghash h x0 (d ++ e) = ghash h (ghash h x0 d) e

/-- Flipping one bit of the ciphertext, the tag or the associated data makes a `GCM` open with a 16-byte tag and a
subkey that is not 0 fail, as the spec derives in R176; for every configuration, whatever its block cipher. -/
def Obligations.FlippedBitFailsGcmOpen : Prop :=
  ∀ (κ : Cfg) (bc : BcName) (sl : Slot) (n a z p : List Byte),
    sl.tagLen = 16 → sl.h = κ.bc bc sl.encKey 0 → sl.h ≠ 0 →
    a.length ≤ 2 ^ 58 → 16 ≤ z.length → z.length ≤ 2 ^ 36 - 16 → gcmOpen κ bc sl n a z = some p →
    (∀ i k, (h : i < z.length) → k < 8 → gcmOpen κ bc sl n a (z.set i (z[i] ^^^ ((1 : Byte) <<< k))) = none) ∧
    ∀ i k, (h : i < a.length) → k < 8 → gcmOpen κ bc sl n (a.set i (a[i] ^^^ ((1 : Byte) <<< k))) z = none

/-! ## The direct multiplier unit -/

/-- R110: `GH_LOADH`. -/
def Obligations.GhLoadhBindsTheSubkey : Prop :=
  ∀ s : State,
    (s.x.inl = 16 → InRange s.x.inp 16 →
      ∃ g : GhUnit, exec .ghLoadh s = .next ({ s with cap := s.latched, gh := g }.succeeded 0) ∧
        g.valid = true ∧ blockBytes g.h = s.mem.readBytes s.x.inp.toNat 16 ∧ g.htable = ghTable g.h ∧ g.x = 0 ∧
        g.impl = (s.latched.extractLsb' 0 2).setWidth 4) ∧
    (s.x.inl ≠ 16 → exec .ghLoadh s = .next ({ s with cap := s.latched }.failed .badInputLength)) ∧
    (s.x.inl = 16 → ¬InRange s.x.inp 16 → exec .ghLoadh s = .next ({ s with cap := s.latched }.failed .badAddress))

/-- R111, R112, R113: `GH_LOADX`, `GH_MUL`, `GH_HASH` change `gh.X` only. -/
def Obligations.GhCommandsUpdateTheAccumulator : Prop :=
  ∀ s : State,
    (s.gh.valid = true → s.x.inl = 16 → InRange s.x.inp 16 →
      ∃ x, exec .ghLoadx s = .next ({ s with gh := { s.gh with x := x } }.succeeded 0) ∧
        blockBytes x = s.mem.readBytes s.x.inp.toNat 16) ∧
    (¬(s.gh.valid = true ∧ s.x.inl = 16 ∧ InRange s.x.inp 16) →
      exec .ghLoadx s = .next (s.failed
        (if s.gh.valid = false then .state else if s.x.inl ≠ 16 then .badInputLength else .badAddress))) ∧
    (s.gh.valid = true →
      exec .ghMul s = .next ({ s with gh := { s.gh with x := gfmul s.gh.x s.gh.h } }.succeeded 0)) ∧
    (s.gh.valid = false → exec .ghMul s = .next (s.failed .state)) ∧
    (s.gh.valid = true → s.x.inl.toNat % 16 = 0 → InRange s.x.inp s.x.inl →
      exec .ghHash s = .next ({ s with gh := { s.gh with
        x := ghash s.gh.h s.gh.x (s.mem.readBytes s.x.inp.toNat s.x.inl.toNat) } }.succeeded 0)) ∧
    (¬(s.gh.valid = true ∧ s.x.inl.toNat % 16 = 0 ∧ InRange s.x.inp s.x.inl) →
      exec .ghHash s = .next (s.failed
        (if s.gh.valid = false then .state else if s.x.inl.toNat % 16 ≠ 0 then .badInputLength else .badAddress)))

/-- R114: `GH_STOREX`. -/
def Obligations.GhStorexStoresTheAccumulator : Prop :=
  ∀ s : State, s.mem.wf = true →
    (s.gh.valid = true → InRange s.x.outp 16 →
      ∃ m, exec .ghStorex s = .next ({ s with mem := m }.succeeded 16) ∧
        Stores s.mem m s.x.outp.toNat (blockBytes s.gh.x)) ∧
    (s.gh.valid = false → exec .ghStorex s = .next (s.failed .state)) ∧
    (s.gh.valid = true → ¬InRange s.x.outp 16 → exec .ghStorex s = .next (s.failed .badAddress))

/-! ## The counter unit -/

/-- R120: `INC32` on the bytes of a counter block. -/
def Obligations.CounterIncrementBytes : Prop :=
  ∀ b : List Byte, b.length = 16 →
    blockBytes (inc32 (blockOf b)) = b.take 12 ++ be 4 ((unbe (b.drop 12) + 1) % 2 ^ 32)

/-- R121: `GCTR` byte by byte, the counter after it, and that it undoes itself. -/
def Obligations.CounterModeStream : Prop :=
  ∀ (E : Block → Block) (cb : Block) (d : List Byte),
    (gctr E cb d).1.length = d.length ∧
    (gctr E cb d).2 = inc32^[(d.length + 15) / 16] cb ∧
    (∀ i, (h : i < d.length) →
      (gctr E cb d).1[i]? = some (d[i] ^^^ getByte (E (inc32^[i / 16] cb)) (i % 16))) ∧
    gctr E cb [] = ([], cb) ∧
    (gctr E cb (gctr E cb d).1).1 = d

/-- No counter block repeats within `2^32` blocks, as the spec derives in R123, and the first 12 bytes never change
(R120). -/
def Obligations.CounterBlocksNeverRepeat : Prop :=
  ∀ (cb : Block) (i j : Nat), i < j → j < 2 ^ 32 →
    inc32^[i] cb ≠ inc32^[j] cb ∧ (inc32^[i] cb).extractLsb' 32 96 = cb.extractLsb' 32 96

/-- R124: `CTR_LOAD`. -/
def Obligations.CtrLoadSetsTheCounter : Prop :=
  ∀ s : State,
    (s.x.inl = 16 → InRange s.x.inp 16 →
      ∃ cb, exec .ctrLoad s = .next ({ s with ctr := { valid := true, cb := cb } }.succeeded 0) ∧
        blockBytes cb = s.mem.readBytes s.x.inp.toNat 16) ∧
    (s.x.inl ≠ 16 → exec .ctrLoad s = .next (s.failed .badInputLength)) ∧
    (s.x.inl = 16 → ¬InRange s.x.inp 16 → exec .ctrLoad s = .next (s.failed .badAddress))

/-- R125: `CTR_XOR`. -/
def Obligations.CtrXorAppliesTheKeystream : Prop :=
  ∀ s : State, s.mem.wf = true →
    let d := s.mem.readBytes s.x.inp.toNat s.x.inl.toNat
    let r := gctr (std.bc std.engBc s.eng.key) s.ctr.cb d
    (s.eng.phase ≠ .uninit → s.ctr.valid = true → InRange s.x.inp s.x.inl → InRange s.x.outp s.x.inl →
      AliasFree s.x s.x.inl →
      ∃ m, exec .ctrXor s = .next ({ s with ctr := { s.ctr with cb := r.2 }, mem := m }.succeeded s.x.inl.toNat) ∧
        Stores s.mem m s.x.outp.toNat r.1) ∧
    (¬(s.eng.phase ≠ .uninit ∧ s.ctr.valid = true ∧ InRange s.x.inp s.x.inl ∧ InRange s.x.outp s.x.inl ∧
        AliasFree s.x s.x.inl) →
      exec .ctrXor s = .next (s.failed
        (if s.eng.phase = .uninit ∨ s.ctr.valid = false then .state
         else if ¬(InRange s.x.inp s.x.inl ∧ InRange s.x.outp s.x.inl) then .badAddress else .alias_)))

/-! ## The GCM engine -/

/-- The phase after every command: the table of R131, `E_STATE` where it says so with the engine unchanged, and a failed
command keeps the phase but for `GCM_FINISH` that raises `E_DECRYPT` (R142). -/
def Obligations.PhaseTable : Prop :=
  ∀ (i : Instr) (s t : State), exec i s = .next t →
    (t.status = 0 → phaseAfter i s.x.adl s.x.inl s.eng.phase = some t.eng.phase) ∧
    (phaseAfter i s.x.adl s.x.inl s.eng.phase = none → t.status = 3 ∧ t.eng = s.eng) ∧
    (t.status ≠ 0 → t.eng.phase = s.eng.phase ∨ (i = .gcmFinish ∧ t.status = 12 ∧ t.eng.phase = .final))

/-- R132: `GCM_KEY` with the default block cipher, AES. -/
def Obligations.GcmKeyBindsTheKey : Prop :=
  ∀ s : State,
    let k := s.mem.readBytes s.x.keyp.toNat s.x.keyl.toNat
    let h : Block := std.bc .aes k 0
    (s.x.keyl = 16 ∨ s.x.keyl = 24 ∨ s.x.keyl = 32 → InRange s.x.keyp s.x.keyl →
      exec .gcmKey s = .next ({ s with
        cap := s.latched
        eng := { phase := .keyed, key := k, keylen := s.x.keyl, h := h, htable := ghTable h, xi := 0, cb := 0, ek0 := 0,
                 alen := 0, mlen := 0, pbuf := 0, pfill := 0, ks := 0,
                 impl := (s.latched.extractLsb' 0 2).setWidth 4 } }.succeeded 0)) ∧
    (¬(s.x.keyl = 16 ∨ s.x.keyl = 24 ∨ s.x.keyl = 32) →
      exec .gcmKey s = .next ({ s with cap := s.latched }.failed .badKeyLength)) ∧
    (s.x.keyl = 16 ∨ s.x.keyl = 24 ∨ s.x.keyl = 32 → ¬InRange s.x.keyp s.x.keyl →
      exec .gcmKey s = .next ({ s with cap := s.latched }.failed .badAddress))

/-- R133, R134: `GCM_SETIV`. -/
def Obligations.GcmSetivStartsARecord : Prop :=
  ∀ s : State,
    let n := s.mem.readBytes s.x.nonp.toNat s.x.nonl.toNat
    let j := if s.x.nonl = 12 then blockOf (n ++ [0, 0, 0, 1])
      else ghash s.eng.h 0 (pad16 n ++ zeros 8 ++ be64 (8 * s.x.nonl.toNat))
    (s.eng.phase ≠ .uninit → s.x.nonl ≠ 0 → s.x.nonl.toNat ≤ 2 ^ 61 - 1 → InRange s.x.nonp s.x.nonl →
      exec .gcmSetiv s = .next ({ s with eng := { s.eng with
        xi := 0, alen := 0, mlen := 0, pbuf := 0, pfill := 0, ks := 0,
        ek0 := std.bc std.engBc s.eng.key j, cb := inc32 j, phase := .nonceSet } }.succeeded 0)) ∧
    (¬(s.eng.phase ≠ .uninit ∧ s.x.nonl ≠ 0 ∧ s.x.nonl.toNat ≤ 2 ^ 61 - 1 ∧ InRange s.x.nonp s.x.nonl) →
      exec .gcmSetiv s = .next (s.failed
        (if s.eng.phase = .uninit then .state
         else if s.x.nonl = 0 ∨ s.x.nonl.toNat > 2 ^ 61 - 1 then .badNonceLength else .badAddress)))

/-- R136: `GCM_AAD`, and that associated data in two calls counts as one call on the concatenation. -/
def Obligations.GcmAadAbsorbsAssociatedData : Prop :=
  ∀ s : State,
    let a := s.mem.readBytes s.x.adp.toNat s.x.adl.toNat
    (s.eng.phase = .nonceSet ∨ s.eng.phase = .aad → InRange s.x.adp s.x.adl →
      s.eng.alen.toNat + s.x.adl.toNat ≤ 2 ^ 58 →
      ∃ e, exec .gcmAad s = .next ({ s with eng := e }.succeeded 0) ∧
        (if s.x.adl = 0 then e = s.eng
         else e = { a.foldl engAbsorb s.eng with alen := e.alen, phase := .aad } ∧
           e.alen.toNat = s.eng.alen.toNat + s.x.adl.toNat)) ∧
    (¬((s.eng.phase = .nonceSet ∨ s.eng.phase = .aad) ∧ InRange s.x.adp s.x.adl ∧
        s.eng.alen.toNat + s.x.adl.toNat ≤ 2 ^ 58) →
      exec .gcmAad s = .next (s.failed
        (if ¬(s.eng.phase = .nonceSet ∨ s.eng.phase = .aad) then .state
         else if ¬InRange s.x.adp s.x.adl then .badAddress else .tooLarge))) ∧
    ∀ (e : Engine) (a b : List Byte), engAad (engAad e a) b = engAad e (a ++ b)

/-- R137, R138: `GCM_ENC` and `GCM_DEC`, with `PAYLOAD` of R139. -/
def Obligations.GcmEncAndDecProcessPayload : Prop :=
  ∀ (s : State) (i : Instr) (dir : CryptDir), s.mem.wf = true →
    (i = .gcmEnc ∧ dir = .encrypt) ∨ (i = .gcmDec ∧ dir = .decrypt) →
    let live := s.eng.phase = .nonceSet ∨ s.eng.phase = .aad ∨ s.eng.phase = .payload
    let r := engPayload (std.bc std.engBc s.eng.key) dir s.eng (s.mem.readBytes s.x.inp.toNat s.x.inl.toNat)
    (live → InRange s.x.inp s.x.inl → InRange s.x.outp s.x.inl → AliasFree s.x s.x.inl →
      s.eng.mlen.toNat + s.x.inl.toNat ≤ 2 ^ 36 - 32 →
      ∃ m, exec i s = .next ({ s with eng := r.1, mem := m }.succeeded s.x.inl.toNat) ∧
        Stores s.mem m s.x.outp.toNat r.2 ∧ r.2.length = s.x.inl.toNat ∧
        r.1.mlen.toNat = s.eng.mlen.toNat + s.x.inl.toNat ∧ (s.x.inl = 0 → r.1 = s.eng)) ∧
    (¬(live ∧ InRange s.x.inp s.x.inl ∧ InRange s.x.outp s.x.inl ∧ AliasFree s.x s.x.inl ∧
        s.eng.mlen.toNat + s.x.inl.toNat ≤ 2 ^ 36 - 32) →
      exec i s = .next (s.failed
        (if ¬live then .state
         else if ¬(InRange s.x.inp s.x.inl ∧ InRange s.x.outp s.x.inl) then .badAddress
         else if ¬AliasFree s.x s.x.inl then .alias_ else .tooLarge)))

/-- R141: `GCM_TAG`; with nothing absorbed the tag is `EK0`. -/
def Obligations.GcmTagEmitsTheTag : Prop :=
  ∀ s : State, s.mem.wf = true →
    let live := s.eng.phase = .nonceSet ∨ s.eng.phase = .aad ∨ s.eng.phase = .payload
    let t := if s.x.tagl = 0 then 16 else s.x.tagl
    let e := engFinalize s.eng
    (live → t.toNat ≤ 16 → InRange s.x.outp t →
      ∃ m, exec .gcmTag s = .next ({ s with eng := e, mem := m }.succeeded t.toNat) ∧ e.phase = .final ∧
        Stores s.mem m s.x.outp.toNat ((blockBytes e.xi).take t.toNat)) ∧
    (s.eng.phase = .nonceSet → s.eng.Inv → e.xi = s.eng.ek0) ∧
    (¬(live ∧ t.toNat ≤ 16 ∧ InRange s.x.outp t) →
      exec .gcmTag s = .next (s.failed
        (if ¬live then .state else if t.toNat > 16 then .badTagLength else .badAddress)))

/-- R142: `GCM_FINISH`. -/
def Obligations.GcmFinishComparesTheTag : Prop :=
  ∀ s : State,
    let live := s.eng.phase = .nonceSet ∨ s.eng.phase = .aad ∨ s.eng.phase = .payload
    let t := if s.x.tagl = 0 then 16 else s.x.tagl
    let e := engFinalize s.eng
    let same := (blockBytes e.xi).take t.toNat = s.mem.readBytes s.x.inp.toNat t.toNat
    (live → t.toNat ≤ 16 → InRange s.x.inp t → same →
      exec .gcmFinish s = .next ({ s with eng := e }.succeeded 0) ∧ e.phase = .final) ∧
    (live → t.toNat ≤ 16 → InRange s.x.inp t → ¬same →
      exec .gcmFinish s = .next ({ s with eng := e }.failed .decrypt) ∧ e.phase = .final) ∧
    (¬(live ∧ t.toNat ≤ 16 ∧ InRange s.x.inp t) →
      exec .gcmFinish s = .next (s.failed
        (if ¬live then .state else if t.toNat > 16 then .badTagLength else .badAddress)))

/-- Whatever the pieces in which associated data and payload come, the engine's calls (R133 to R140) give the closed form
of the record that the spec derives in R144, and decrypting pieces of the ciphertext gives the payload back with the same
tag. -/
def Obligations.RecordInPiecesIsTheClosedForm : Prop :=
  ∀ (E : Block → Block) (e : Engine) (n : List Byte) (as ps : List (List Byte)),
    e.h = E 0 → as.flatten.length ≤ 2 ^ 58 → ps.flatten.length ≤ 2 ^ 36 - 32 →
    let start := as.foldl engAad (engSetIv E e n)
    let run := fun (dir : CryptDir) (ds : List (List Byte)) =>
      ds.foldl (fun q d => ((engPayload E dir q.1 d).1, q.2 ++ (engPayload E dir q.1 d).2)) (start, ([] : List Byte))
    let r := gcmRecord E n as.flatten ps.flatten
    (run .encrypt ps).2 = r.1 ∧ (engFinalize (run .encrypt ps).1).xi = r.2 ∧
    ∀ cs : List (List Byte), cs.flatten = r.1 →
      (run .decrypt cs).2 = ps.flatten ∧ (engFinalize (run .decrypt cs).1).xi = r.2

/-! ## The contract and its constructions -/

/-- R89, R171, R143: `NOP`, `CLEANUP` and `GCM_CLEAR` never fail; what they scrub and what they leave. -/
def Obligations.NopCleanupAndClearNeverFail : Prop :=
  (∀ s : State, exec .nop s = .next (s.succeeded 0)) ∧
  (∀ (s : State) (c : BitVec 8), c.toNat < 8 →
    ∃ t, exec (.cleanup c) s = .next t ∧ t = { s.succeeded 0 with ctx := t.ctx } ∧ SlotReplaced s t c {} ∧
      t.regRead (0x20 + c.toNat) = 0) ∧
  ∀ s : State, exec .gcmClear s = .next ({ s with eng := {}, ctr := {} }.succeeded 0)

/-- R164 with R162, R85, R190, R207 and R247: `INIT`. -/
def Obligations.InitBindsTheSlot : Prop :=
  ∀ (s : State) (c id : BitVec 8) (o : Bool) (d : Descriptor), c.toNat < 8 → descriptor std id = some d →
    let both := isGcm d = true ∨ isKeywrap d = true
    let k := s.mem.readBytes s.x.keyp.toNat s.x.keyl.toNat
    let new : Slot :=
      { live := true, desc := id, impl := (s.latched.extractLsb' 0 2).setWidth 4
        dir := if both then .both else if o = true then .openOnly else .sealOnly
        tagLen := BitVec.ofNat 8 (if s.x.tagl = 0 then d.maxTagLen else s.x.tagl.toNat)
        encKey := k.drop d.macKeyLen, macKey := k.take d.macKeyLen }
    (¬(o = true ∧ both) → initCode s.x d = .ok →
      ∃ t, exec (.init c id o) s = .next t ∧ t = { s.succeeded 0 with cap := s.latched, ctx := t.ctx } ∧
        SlotReplaced s t c (match d.family with
          | .gcm bc => { new with h := std.bc bc k 0, htable := ghTable (std.bc bc k 0) }
          | .stream sc _ _ => { new with scState := (Config.streamInit sc (k.drop d.macKeyLen)).toList }
          | .cbcTls _ _ _ => new
          | .cbcSsl3 _ _ _ => new
          | .keywrap _ => new)) ∧
    (¬(o = true ∧ both) → initCode s.x d ≠ .ok →
      ∃ t, exec (.init c id o) s = .next t ∧
        t = { s.failed (initCode s.x d) with cap := s.latched, ctx := t.ctx } ∧ SlotReplaced s t c {}) ∧
    (o = true → both → exec (.init c id o) s = .next s.illegal)

/-- R191 with R167: `SEAL` on a `GCM` slot writes the closed form's ciphertext and truncated tag. -/
def Obligations.SealOnGcm : Prop :=
  ∀ (s : State) (c : BitVec 8) (d : Descriptor) (bc : BcName), s.mem.wf = true → (s.slot c).Inv → BoundTo s c d →
    d.family = .gcm bc → sealCode s c false = .ok → Separate s.x →
    let sl := s.slot c
    let r := gcmRecord (std.bc bc sl.encKey) (s.readBuf s.x.nonp s.x.nonl) (s.readBuf s.x.adp s.x.adl)
      (s.readBuf s.x.inp s.x.inl)
    let out := r.1 ++ (blockBytes r.2).take sl.tagLen.toNat
    ∃ m, exec (.seal_ c false) s = .next ({ s with mem := m }.succeeded (s.x.inl.toNat + sl.tagLen.toNat)) ∧
      out.length = s.x.inl.toNat + sl.tagLen.toNat ∧ Stores s.mem m s.x.outp.toNat out

/-- R197: `SEAL` with `FIXEDIV` seals under the slot's nonce, writes its explicit part at `NONP` and advances the
counter by one. -/
def Obligations.SealWithFixedIv : Prop :=
  ∀ (s : State) (c : BitVec 8) (d : Descriptor) (bc : BcName), s.mem.wf = true → (s.slot c).Inv → BoundTo s c d →
    d.family = .gcm bc → sealCode s c true = .ok → Separate s.x → NonceOutSeparate s.x →
    let sl := s.slot c
    let n := be 12 sl.ivFixed.toNat
    let r := gcmRecord (std.bc bc sl.encKey) n (s.readBuf s.x.adp s.x.adl) (s.readBuf s.x.inp s.x.inl)
    let out := r.1 ++ (blockBytes r.2).take sl.tagLen.toNat
    ∃ t iv m, exec (.seal_ c true) s = .next t ∧
      t = { s.succeeded (s.x.inl.toNat + sl.tagLen.toNat) with mem := t.mem, ctx := t.ctx } ∧
      Stores s.mem m s.x.outp.toNat out ∧ Stores m t.mem s.x.nonp.toNat (n.drop 4) ∧
      SlotReplaced s t c { sl with ivFixed := iv } ∧
      be 12 iv.toNat = n.take 4 ++ be64 ((unbe (n.drop 4) + 1) % 2 ^ 64)

/-- R192, R198 with R168: `OPEN` on a `GCM` slot, with or without `FIXEDIV`. -/
def Obligations.OpenOnGcm : Prop :=
  ∀ (s : State) (c : BitVec 8) (f : Bool) (d : Descriptor) (bc : BcName), s.mem.wf = true → (s.slot c).Inv →
    BoundTo s c d → d.family = .gcm bc → openCode s c f = .ok → Separate s.x →
    let sl := s.slot c
    let E := std.bc bc sl.encKey
    let given := s.readBuf s.x.nonp s.x.nonl
    let n := if f = true then (be 12 sl.ivFixed.toNat).take 4 ++ given else given
    let input := s.readBuf s.x.inp s.x.inl
    let k := s.x.inl.toNat - sl.tagLen.toNat
    let p := (gctr E (inc32 (j0 (E 0) n)) (input.take k)).1
    let tag := (gcmRecord E n (s.readBuf s.x.adp s.x.adl) p).2
    ((blockBytes tag).take sl.tagLen.toNat = input.drop k →
      ∃ m, exec (.open_ c f) s = .next ({ s with mem := m }.succeeded k) ∧ p.length = k ∧
        Stores s.mem m s.x.outp.toNat p) ∧
    ((blockBytes tag).take sl.tagLen.toNat ≠ input.drop k →
      ∃ m, exec (.open_ c f) s = .next ({ s with mem := m }.failed .decrypt) ∧
        Stores s.mem m s.x.outp.toNat (zeros s.x.outmax.toNat))

/-- R214 with R210, R211 and R213: `SEAL` on a slot of a block-cipher legacy family. -/
def Obligations.SealOnCbc : Prop :=
  ∀ (s : State) (c : BitVec 8) (d : Descriptor) (bc : BcName) (mac : MacName) (b : Nat) (ssl3 : Bool),
    s.mem.wf = true → BoundTo s c d → d.family = (if ssl3 = true then .cbcSsl3 bc mac b else .cbcTls bc mac b) →
    sealCode s c false = .ok → Separate s.x →
    let sl := s.slot c
    let p := s.readBuf s.x.inp s.x.inl
    let a := s.readBuf s.x.adp s.x.adl
    let tag := (std.mac mac sl.macKey (a ++ be16 p.length ++ p)).toList
    let q := b - (s.x.inl.toNat + Config.macLen mac) % b
    let padding : List Byte :=
      if ssl3 = true then zeros (q - 1) ++ [BitVec.ofNat 8 (q - 1)] else List.replicate q (BitVec.ofNat 8 (q - 1))
    let out := cbcEnc (std.bc bc sl.encKey) (blockOf (s.readBuf s.x.nonp s.x.nonl)) (p ++ tag ++ padding)
    ∃ m, exec (.seal_ c false) s = .next ({ s with mem := m }.succeeded out.length) ∧
      out.length = s.x.inl.toNat + Config.macLen mac + q ∧ out.length % b = 0 ∧
      out.length ≤ s.x.inl.toNat + d.overhead ∧ Stores s.mem m s.x.outp.toNat out

/-- R219 to R222 with R168: `OPEN` on a slot of a block-cipher legacy family. On success the bytes from `OUTLEN` to `INL`
are unspecified (UD5, log 3), so nothing is said of them, nor of the model's count of free bytes. -/
def Obligations.OpenOnCbc : Prop :=
  ∀ (s : State) (c : BitVec 8) (d : Descriptor) (bc : BcName) (mac : MacName) (b : Nat) (ssl3 : Bool),
    s.mem.wf = true → BoundTo s c d → d.family = (if ssl3 = true then .cbcSsl3 bc mac b else .cbcTls bc mac b) →
    openCode s c false = .ok → Separate s.x →
    let sl := s.slot c
    let a := s.readBuf s.x.adp s.x.adl
    let rec_ := cbcDec (std.bc bc sl.encKey).symm (blockOf (s.readBuf s.x.nonp s.x.nonl)) (s.readBuf s.x.inp s.x.inl)
    let pad := if ssl3 = true then padSsl3 (Config.macLen mac) b rec_ else padTls (Config.macLen mac) rec_
    let n := pad.2
    let macok := (std.mac mac sl.macKey (a ++ be16 n ++ rec_.take n)).toList = (rec_.drop n).take (Config.macLen mac)
    let counts := Config.ctCount d s.x.inl.toNat s.x.adl.toNat
    (pad.1 = true → macok →
      ∃ t, exec (.open_ c false) s = .next t ∧
        t = { s.succeeded n with
          mem := t.mem, perfCompress := counts.1, perfMemacc := counts.2, freeCount := t.freeCount } ∧
        n + Config.macLen mac + 1 ≤ s.x.inl.toNat ∧ t.mem.readBytes s.x.outp.toNat n = rec_.take n ∧
        ∀ k, k < s.x.outp.toNat ∨ s.x.outp.toNat + s.x.inl.toNat ≤ k → t.mem.read k = s.mem.read k) ∧
    (¬(pad.1 = true ∧ macok) →
      ∃ m, exec (.open_ c false) s = .next { s.failed .decrypt with
          mem := m, perfCompress := counts.1, perfMemacc := counts.2 } ∧
        Stores s.mem m s.x.outp.toNat (zeros s.x.outmax.toNat))

/-- R215, R225, R226 with R168: `SEAL` and `OPEN` on a `STREAM` slot; the stream state moves on in every case. -/
def Obligations.SealAndOpenOnStream : Prop :=
  ∀ (s : State) (c : BitVec 8) (d : Descriptor) (sc : ScName) (mac : MacName) (x : Bool),
    s.mem.wf = true → BoundTo s c d → d.family = .stream sc mac x → Separate s.x →
    let sl := s.slot c
    let input := s.readBuf s.x.inp s.x.inl
    let a := s.readBuf s.x.adp s.x.adl
    let n := s.readBuf s.x.nonp s.x.nonl
    let recMac := fun p : List Byte => (std.mac mac sl.macKey (a ++ be16 p.length ++ p)).toList
    let plain := input ++ recMac input
    let out := scXor std sc sl.scState n plain
    let rec_ := scXor std sc sl.scState n input
    let k := s.x.inl.toNat - Config.macLen mac
    (sealCode s c false = .ok →
      ∃ t, exec (.seal_ c false) s = .next t ∧
        t = { s.succeeded (s.x.inl.toNat + Config.macLen mac) with mem := t.mem, ctx := t.ctx } ∧
        out.length = s.x.inl.toNat + Config.macLen mac ∧ Stores s.mem t.mem s.x.outp.toNat out ∧
        SlotReplaced s t c { sl with scState := scNextState std sc sl.scState n plain }) ∧
    (openCode s c false = .ok → recMac (rec_.take k) = rec_.drop k →
      ∃ t, exec (.open_ c false) s = .next t ∧
        t = { s.succeeded k with mem := t.mem, ctx := t.ctx, freeCount := t.freeCount } ∧
        t.mem.readBytes s.x.outp.toNat k = rec_.take k ∧
        (∀ j, j < s.x.outp.toNat ∨ s.x.outp.toNat + s.x.inl.toNat ≤ j → t.mem.read j = s.mem.read j) ∧
        SlotReplaced s t c { sl with scState := scNextState std sc sl.scState n input }) ∧
    (openCode s c false = .ok → recMac (rec_.take k) ≠ rec_.drop k →
      ∃ t, exec (.open_ c false) s = .next t ∧ t = { s.failed .decrypt with mem := t.mem, ctx := t.ctx } ∧
        Stores s.mem t.mem s.x.outp.toNat (zeros s.x.outmax.toNat) ∧
        SlotReplaced s t c { sl with scState := scNextState std sc sl.scState n input })

/-- R245, R246 with R242: `SEAL` and `OPEN` on a `KEYWRAP` slot. -/
def Obligations.SealAndOpenOnKeywrap : Prop :=
  ∀ (s : State) (c : BitVec 8) (d : Descriptor) (bc : BcName),
    s.mem.wf = true → BoundTo s c d → d.family = .keywrap bc → Separate s.x →
    let E := std.bc bc (s.slot c).encKey
    let input := s.readBuf s.x.inp s.x.inl
    let iv := if s.x.nonl = 0 then 0xA6A6A6A6A6A6A6A6 else semiOf (s.readBuf s.x.nonp s.x.nonl)
    (sealCode s c false = .ok →
      ∃ m, exec (.seal_ c false) s = .next ({ s with mem := m }.succeeded (s.x.inl.toNat + 8)) ∧
        (kwWrap E iv input).length = s.x.inl.toNat + 8 ∧ Stores s.mem m s.x.outp.toNat (kwWrap E iv input)) ∧
    (openCode s c false = .ok → ∀ p, kwUnwrap E.symm iv input = some p →
      ∃ m, exec (.open_ c false) s = .next ({ s with mem := m }.succeeded (s.x.inl.toNat - 8)) ∧
        p.length = s.x.inl.toNat - 8 ∧ Stores s.mem m s.x.outp.toNat p) ∧
    (openCode s c false = .ok → kwUnwrap E.symm iv input = none →
      ∃ m, exec (.open_ c false) s = .next ({ s with mem := m }.failed .decrypt) ∧
        Stores s.mem m s.x.outp.toNat (zeros s.x.outmax.toNat))

/-- R228: `GETSTREAM`. -/
def Obligations.GetstreamCopiesTheStreamState : Prop :=
  ∀ (s : State) (c : BitVec 8), s.mem.wf = true → c.toNat < 8 →
    (∀ d sc m, (s.slot c).Inv → BoundTo s c d → d.family = .stream sc m true → InRange s.x.outp s.x.outmax →
      Config.streamStateLen sc ≤ s.x.outmax.toNat →
      ∃ mem, exec (.getstream c) s = .next ({ s with mem := mem }.succeeded (Config.streamStateLen sc)) ∧
        (s.slot c).scState.length = Config.streamStateLen sc ∧ Stores s.mem mem s.x.outp.toNat (s.slot c).scState) ∧
    (¬InRange s.x.outp s.x.outmax → exec (.getstream c) s = .next (s.failed .badAddress)) ∧
    (InRange s.x.outp s.x.outmax → (s.slot c).live = false → exec (.getstream c) s = .next (s.failed .state)) ∧
    (∀ d, InRange s.x.outp s.x.outmax → BoundTo s c d → (∀ sc m, d.family ≠ .stream sc m true) →
      exec (.getstream c) s = .next (s.failed .unsupported)) ∧
    (∀ d sc m, InRange s.x.outp s.x.outmax → BoundTo s c d → d.family = .stream sc m true →
      s.x.outmax.toNat < Config.streamStateLen sc → exec (.getstream c) s = .next (s.failed .bufferTooSmall))

/-- R196: `SETIVFIXED`. -/
def Obligations.SetivfixedLoadsTheFixedIv : Prop :=
  ∀ (s : State) (c : BitVec 8), c.toNat < 8 →
    (∀ d, InRange s.x.nonp s.x.nonl → BoundTo s c d → isGcm d = true → s.x.nonl = 12 →
      ∃ t iv, exec (.setivfixed c) s = .next t ∧ t = { s.succeeded 0 with ctx := t.ctx } ∧
        SlotReplaced s t c { s.slot c with ivFixed := iv, ivFixedSet := true } ∧
        be 12 iv.toNat = s.mem.readBytes s.x.nonp.toNat 12) ∧
    (¬InRange s.x.nonp s.x.nonl → exec (.setivfixed c) s = .next (s.failed .badAddress)) ∧
    (InRange s.x.nonp s.x.nonl → (s.slot c).live = false → exec (.setivfixed c) s = .next (s.failed .state)) ∧
    (∀ d, InRange s.x.nonp s.x.nonl → BoundTo s c d → isGcm d = false →
      exec (.setivfixed c) s = .next (s.failed .unsupported)) ∧
    (∀ d, InRange s.x.nonp s.x.nonl → BoundTo s c d → isGcm d = true → s.x.nonl ≠ 12 →
      exec (.setivfixed c) s = .next (s.failed .badNonceLength))

/-! ## Properties of the contract and the constructions -/

/-- R175: `CT_EQ` is equality of strings of equal length. -/
def Obligations.ConstantTimeEqualityIsEquality : Prop :=
  ∀ a b : List Byte, a.length = b.length → (ctEq a b = true ↔ a = b)

/-- R217, R218: when padding is valid and the content length it gives. -/
def Obligations.PaddingRemoval : Prop :=
  ∀ (ml b : Nat) (d : List Byte) (p : Byte), ml + 1 ≤ d.length → d.getLast? = some p →
    ((padTls ml d).1 = true ↔ ml + 1 + p.toNat ≤ d.length ∧ ∀ i ≤ p.toNat, d[d.length - 1 - i]? = some p) ∧
    (padTls ml d).2 = d.length - ml - (if (padTls ml d).1 = true then p.toNat + 1 else 0) ∧
    ((padSsl3 ml b d).1 = true ↔ ml + 1 + p.toNat ≤ d.length ∧ p.toNat + 1 ≤ b) ∧
    (padSsl3 ml b d).2 = d.length - ml - (if (padSsl3 ml b d).1 = true then p.toNat + 1 else 0)

/-- Unwrapping inverts wrapping (R243, R244; the spec derives it in R248), and another initial value fails. -/
def Obligations.UnwrapInvertsWrap : Prop :=
  ∀ (π : Equiv.Perm Block) (iv iv' : Semiblock) (p : List Byte), p.length % 8 = 0 →
    (kwWrap π iv p).length = p.length + 8 ∧ kwUnwrap π.symm iv (kwWrap π iv p) = some p ∧
    (iv' ≠ iv → kwUnwrap π.symm iv' (kwWrap π iv p) = none)

/-- The round trip that the spec derives in R174, for every family: what `SEAL` writes, `OPEN` on a slot of the same descriptor, keys, tag length and stream state
gives back, whenever the checks of `OPEN` pass. (They need not: `LargestCbcRecordDoesNotOpen`, log 24.) -/
def Obligations.OpenRecoversTheSealedRecord : Prop :=
  ∀ (s : State) (c : BitVec 8) (d : Descriptor), s.mem.wf = true → (s.slot c).Inv → BoundTo s c d →
    sealCode s c false = .ok → Separate s.x →
    ∃ t, exec (.seal_ c false) s = .next t ∧ t.status = 0 ∧
      ∀ (u : State) (c' : BitVec 8), u.mem.wf = true → (u.slot c').Inv → BoundTo u c' d →
        (u.slot c').encKey = (s.slot c).encKey → (u.slot c').macKey = (s.slot c).macKey →
        (u.slot c').tagLen = (s.slot c).tagLen → (u.slot c').scState = (s.slot c).scState →
        openCode u c' false = .ok → Separate u.x →
        u.readBuf u.x.nonp u.x.nonl = s.readBuf s.x.nonp s.x.nonl →
        u.readBuf u.x.adp u.x.adl = s.readBuf s.x.adp s.x.adl →
        u.readBuf u.x.inp u.x.inl = t.readBuf s.x.outp t.outlen →
        ∃ v, exec (.open_ c' false) u = .next v ∧ v.status = 0 ∧ v.outlen = s.x.inl ∧
          v.readBuf u.x.outp v.outlen = s.readBuf s.x.inp s.x.inl

/-- The largest plaintext of a block-cipher legacy family seals, to 65 568 bytes, and a record of that length raises
`E_TOO_LARGE` on `OPEN` (R167, R168, R212; log 24). -/
def Obligations.LargestCbcRecordDoesNotOpen : Prop :=
  ∀ (s : State) (c : BitVec 8) (d : Descriptor) (bc : BcName) (mac : MacName) (b : Nat),
    s.mem.wf = true → BoundTo s c d → d.family = .cbcTls bc mac b ∨ d.family = .cbcSsl3 bc mac b →
    (sealCode s c false = .ok → Separate s.x → s.x.inl = 65535 →
      ∃ t, exec (.seal_ c false) s = .next t ∧ t.status = 0 ∧ t.outlen = 65568) ∧
    ((s.slot c).dir = .openOnly → BufsInRange s.x → s.x.nonl = 16 → d.adLen = some s.x.adl.toNat → s.x.inl = 65568 →
      ∃ t, exec (.open_ c false) s = .next t ∧ t.status = 11)

/-- `OPEN` tells of a record only whether it is good (R173, R222, R256): on two states with the same registers and the
same public slot fields the counters agree, the codes agree unless they are `OK` and `E_DECRYPT`, and two records that
fail with `E_DECRYPT` leave the same `OUTLEN` and destination. -/
def Obligations.OpenRevealsOneBit : Prop :=
  ∀ (s s' t t' : State) (c : BitVec 8) (f : Bool), c.toNat < 8 → s.mem.wf = true → s'.mem.wf = true →
    s.x = s'.x → (s.slot c).erase = (s'.slot c).erase →
    exec (.open_ c f) s = .next t → exec (.open_ c f) s' = .next t' →
    t.perfCompress = t'.perfCompress ∧ t.perfMemacc = t'.perfMemacc ∧
    (t.status = t'.status ∨ (t.status = 0 ∧ t'.status = 12) ∨ (t.status = 12 ∧ t'.status = 0)) ∧
    (t.status = 12 → t'.status = 12 → t.outlen = t'.outlen ∧
      t.readBuf s.x.outp s.x.outmax = t'.readBuf s.x.outp s.x.outmax)

/-! ## Invariants -/

/-- Every step keeps memory in its canonical form: addresses rising, no entry equal to the 0 that an unlisted byte reads.
The form and the 0 are the model's DESIGN CHOICE (log 13), not the spec's; R60, R61 and R69 say only what is written. -/
def Obligations.EveryStepKeepsMemoryCanonical : Prop :=
  ∀ s t : State, s.mem.wf = true → step s = .next t → t.mem.wf = true

/-- Every step keeps the slot invariants (R35). -/
def Obligations.EveryStepKeepsSlots : Prop :=
  ∀ s t : State, (∀ c, (s.slot c).Inv) → step s = .next t → ∀ c, (t.slot c).Inv

/-- Every step keeps the engine invariants that the spec derives in R38. -/
def Obligations.EveryStepKeepsTheEngine : Prop :=
  ∀ s t : State, s.eng.Inv → step s = .next t → t.eng.Inv

/-- Every step keeps the invariants of the registers and of the direct multiplier and counter units (R255, R33, R40). -/
def Obligations.EveryStepKeepsTheUnits : Prop :=
  ∀ s t : State, s.UnitInv → step s = .next t → t.UnitInv

/-- The state after reset meets every invariant. -/
def Obligations.ResetMeetsTheInvariants : Prop := State.reset.Inv

/-- Under every configuration (R7), whatever its `XLEN` and `N_CTX`, a step keeps every operand register below `2^XLEN`
(R21) and every slot from number `N_CTX` on as after reset (R34, R88). That a register stands in a container of 64 bits and
the slots in one of 256, with what is beyond the configuration 0, is the model's choice (log 4). -/
def Obligations.EveryStepKeepsTheConfiguredWidths : Prop :=
  ∀ (κ : Cfg) (s t : State),
    (∀ n ≤ 10, (s.x.get n).toNat < 2 ^ κ.xlen) → (∀ c : BitVec 8, κ.nCtx ≤ c.toNat → s.slot c = {}) →
    stepOn κ s = .next t →
    (∀ n ≤ 10, (t.x.get n).toNat < 2 ^ κ.xlen) ∧ ∀ c : BitVec 8, κ.nCtx ≤ c.toNat → t.slot c = {}
end

