-- ==== Sys2Proof/Laws/Memory.lean ====
section
/-! SUPPORT. The laws of buffer memory (R61): a write is read back, a write leaves every other byte alone, every memory
operation keeps the canonical form, and two memories in canonical form that read alike are equal. -/

namespace Sys2Proof.Machine

/-- A listed address at or above the bound is the only kind a canonical memory has. -/
theorem Memory.read_below (m : Memory) (lo a : Nat) (h : Memory.wfFrom lo m = true) (ha : a < lo) :
    Memory.read m a = unlisted := by
  cases m with
  | nil => rfl
  | cons kv m =>
    obtain ⟨k, v⟩ := kv
    simp only [Memory.wfFrom, Bool.and_eq_true, decide_eq_true_eq] at h
    have h1 : a ≠ k := by omega
    have h2 : a < k := by omega
    simp [Memory.read, h1, h2]

/-- The canonical form from a bound holds from every lower bound. -/
theorem Memory.wfFrom_mono (m : Memory) (lo lo' : Nat) (h : Memory.wfFrom lo m = true) (hl : lo' ≤ lo) :
    Memory.wfFrom lo' m = true := by
  cases m with
  | nil => rfl
  | cons kv m =>
    obtain ⟨k, v⟩ := kv
    simp only [Memory.wfFrom, Bool.and_eq_true, decide_eq_true_eq] at h ⊢
    exact ⟨⟨by omega, h.1.2⟩, h.2⟩

/-- A byte just written reads as written (R61). -/
theorem Memory.read_write_same (m : Memory) (lo a : Nat) (b : Byte) (h : Memory.wfFrom lo m = true) :
    Memory.read (Memory.write m a b) a = b := by
  induction m generalizing lo with
  | nil =>
    by_cases hb : b = unlisted <;> simp [Memory.write, Memory.read, hb]
  | cons kv m ih =>
    obtain ⟨k, v⟩ := kv
    simp only [Memory.wfFrom, Bool.and_eq_true, decide_eq_true_eq] at h
    unfold Memory.write
    split
    · by_cases hb : b = unlisted
      · have h1 : a ≠ k := by omega
        simp_all [Memory.read]
      · simp [hb, Memory.read]
    · split
      · by_cases hb : b = unlisted
        · rw [if_pos hb, hb]
          exact Memory.read_below m (k + 1) a h.2 (by omega)
        · simp [hb, Memory.read]
      · have h1 : a ≠ k := by omega
        have h2 : ¬ a < k := by omega
        simp only [Memory.read, h1, h2, if_false]
        exact ih (k + 1) h.2

/-- A write leaves every other byte alone (R61). -/
theorem Memory.read_write_ne (m : Memory) (lo a a' : Nat) (b : Byte) (h : Memory.wfFrom lo m = true) (hne : a' ≠ a) :
    Memory.read (Memory.write m a b) a' = Memory.read m a' := by
  induction m generalizing lo with
  | nil =>
    by_cases hb : b = unlisted <;> simp [Memory.write, Memory.read, hb, hne]
  | cons kv m ih =>
    obtain ⟨k, v⟩ := kv
    simp only [Memory.wfFrom, Bool.and_eq_true, decide_eq_true_eq] at h
    unfold Memory.write
    split
    · by_cases hb : b = unlisted
      · simp [hb]
      · rw [if_neg hb]
        by_cases hlt : a' < a
        · have h1 : a' ≠ k := by omega
          have h2 : a' < k := by omega
          simp [Memory.read, hne, hlt, h1, h2]
        · simp [Memory.read, hne, hlt]
    · split
      · rename_i hk
        by_cases hb : b = unlisted
        · rw [if_pos hb]
          by_cases hlt : a' < k
          · have h1 : a' ≠ k := by omega
            simp only [Memory.read, h1, hlt, if_false, if_true]
            exact Memory.read_below m (k + 1) a' h.2 (by omega)
          · have h1 : a' ≠ k := by omega
            simp [Memory.read, h1, hlt]
        · rw [if_neg hb]
          subst hk
          simp [Memory.read, hne]
      · by_cases h1 : a' = k
        · simp [Memory.read, h1]
        · by_cases h2 : a' < k
          · simp [Memory.read, h1, h2]
          · simp only [Memory.read, h1, h2, if_false]
            exact ih (k + 1) h.2

/-- A write at or above the bound keeps the canonical form from the bound. -/
theorem Memory.wfFrom_write (m : Memory) (lo a : Nat) (b : Byte) (h : Memory.wfFrom lo m = true) (ha : lo ≤ a) :
    Memory.wfFrom lo (Memory.write m a b) = true := by
  induction m generalizing lo with
  | nil =>
    by_cases hb : b = unlisted <;> simp [Memory.write, Memory.wfFrom, hb, ha]
  | cons kv m ih =>
    obtain ⟨k, v⟩ := kv
    have h' := h
    simp only [Memory.wfFrom, Bool.and_eq_true, decide_eq_true_eq] at h
    unfold Memory.write
    split
    · by_cases hb : b = unlisted
      · rw [if_pos hb]; exact h'
      · rw [if_neg hb]
        simp only [Memory.wfFrom, Bool.and_eq_true, decide_eq_true_eq]
        exact ⟨⟨ha, hb⟩, ⟨by omega, h.1.2⟩, h.2⟩
    · split
      · by_cases hb : b = unlisted
        · rw [if_pos hb]; exact Memory.wfFrom_mono m (k + 1) lo h.2 (by omega)
        · rw [if_neg hb]
          simp only [Memory.wfFrom, Bool.and_eq_true, decide_eq_true_eq]
          refine ⟨⟨ha, hb⟩, ?_⟩
          exact Memory.wfFrom_mono m (k + 1) (a + 1) h.2 (by omega)
      · simp only [Memory.wfFrom, Bool.and_eq_true, decide_eq_true_eq]
        exact ⟨h.1, ih (k + 1) h.2 (by omega)⟩

/-- Writing one byte keeps the canonical form. -/
theorem Memory.wf_write (m : Memory) (a : Nat) (b : Byte) (h : Memory.wf m = true) :
    Memory.wf (Memory.write m a b) = true :=
  Memory.wfFrom_write m 0 a b h (Nat.zero_le a)

/-- Writing a byte string keeps the canonical form. -/
theorem Memory.wf_writeBytes (m : Memory) (a : Nat) (bs : List Byte) (h : Memory.wf m = true) :
    Memory.wf (Memory.writeBytes m a bs) = true := by
  induction bs generalizing m a with
  | nil => exact h
  | cons b bs ih => exact ih (m.write a b) (a + 1) (Memory.wf_write m a b h)

/-- A byte outside the written range keeps its value (R61). -/
theorem Memory.read_writeBytes_outside (m : Memory) (a : Nat) (bs : List Byte) (a' : Nat) (h : Memory.wf m = true)
    (ho : a' < a ∨ a + bs.length ≤ a') : Memory.read (Memory.writeBytes m a bs) a' = Memory.read m a' := by
  induction bs generalizing m a with
  | nil => rfl
  | cons b bs ih =>
    simp only [List.length_cons] at ho
    rw [Memory.writeBytes, ih (m.write a b) (a + 1) (Memory.wf_write m a b h) (by omega)]
    exact Memory.read_write_ne m 0 a a' b h (by omega)

/-- A byte inside the written range reads as written (R61). -/
theorem Memory.read_writeBytes_inside (m : Memory) (a : Nat) (bs : List Byte) (i : Nat) (h : Memory.wf m = true)
    (hi : i < bs.length) : Memory.read (Memory.writeBytes m a bs) (a + i) = bs[i] := by
  induction bs generalizing m a i with
  | nil => simp at hi
  | cons b bs ih =>
    cases i with
    | zero =>
      rw [Memory.writeBytes,
        Memory.read_writeBytes_outside (m.write a b) (a + 1) bs (a + 0) (Memory.wf_write m a b h) (by omega)]
      exact Memory.read_write_same m 0 a b h
    | succ i =>
      have e : a + (i + 1) = (a + 1) + i := by omega
      rw [Memory.writeBytes, e]
      simpa using ih (m.write a b) (a + 1) i (Memory.wf_write m a b h) (by simpa using hi)

/-- `MemRead(a, n)` gives `n` bytes (R61). -/
@[simp] theorem Memory.length_readBytes (m : Memory) (a n : Nat) : (Memory.readBytes m a n).length = n := by
  induction n generalizing a with
  | zero => rfl
  | succ n ih => simp [Memory.readBytes, ih]

/-- Byte `i` of `MemRead(a, n)` is the byte at `a + i` (R61). -/
theorem Memory.getElem_readBytes (m : Memory) (a n i : Nat) (h : i < (Memory.readBytes m a n).length) :
    (Memory.readBytes m a n)[i] = Memory.read m (a + i) := by
  induction n generalizing a i with
  | zero => simp [Memory.readBytes] at h
  | succ n ih =>
    cases i with
    | zero => rfl
    | succ i =>
      simp only [Memory.readBytes, List.getElem_cons_succ]
      rw [ih (a + 1) i (by simpa [Memory.readBytes] using h)]
      congr 1
      omega

/-- A byte string just written reads back whole (R61). -/
theorem Memory.readBytes_writeBytes (m : Memory) (a : Nat) (bs : List Byte) (h : Memory.wf m = true) :
    Memory.readBytes (Memory.writeBytes m a bs) a bs.length = bs := by
  apply List.ext_getElem (by simp)
  intro i h1 h2
  rw [Memory.getElem_readBytes, Memory.read_writeBytes_inside m a bs i h h2]

/-- A range disjoint from the written one reads as before (R61). -/
theorem Memory.readBytes_writeBytes_disjoint (m : Memory) (a : Nat) (bs : List Byte) (a' n : Nat)
    (h : Memory.wf m = true) (hd : a' + n ≤ a ∨ a + bs.length ≤ a') :
    Memory.readBytes (Memory.writeBytes m a bs) a' n = Memory.readBytes m a' n := by
  apply List.ext_getElem (by simp)
  intro i h1 h2
  rw [Memory.getElem_readBytes, Memory.getElem_readBytes]
  simp only [Memory.length_readBytes] at h1
  exact Memory.read_writeBytes_outside m a bs (a' + i) h (by omega)

/-- Memories in canonical form that read alike are equal data. -/
theorem Memory.ext_read (m m' : Memory) (lo : Nat) (h : Memory.wfFrom lo m = true) (h' : Memory.wfFrom lo m' = true)
    (hr : ∀ a, Memory.read m a = Memory.read m' a) : m = m' := by
  induction m generalizing m' lo with
  | nil =>
    cases m' with
    | nil => rfl
    | cons kv t =>
      obtain ⟨k, v⟩ := kv
      simp only [Memory.wfFrom, Bool.and_eq_true, decide_eq_true_eq] at h'
      have := hr k
      simp only [Memory.read, if_true] at this
      exact absurd this.symm h'.1.2
  | cons kv t ih =>
    obtain ⟨k, v⟩ := kv
    simp only [Memory.wfFrom, Bool.and_eq_true, decide_eq_true_eq] at h
    cases m' with
    | nil =>
      have := hr k
      simp only [Memory.read, if_true] at this
      exact absurd this h.1.2
    | cons kv' t' =>
      obtain ⟨k', v'⟩ := kv'
      simp only [Memory.wfFrom, Bool.and_eq_true, decide_eq_true_eq] at h'
      have hk : k = k' := by
        rcases Nat.lt_trichotomy k k' with hlt | heq | hgt
        · have := hr k
          have hne : k ≠ k' := by omega
          simp only [Memory.read, if_true, hne, hlt, if_false] at this
          exact absurd this h.1.2
        · exact heq
        · have := hr k'
          have hne : k' ≠ k := by omega
          simp only [Memory.read, if_true, hne, hgt, if_false] at this
          exact absurd this.symm h'.1.2
      subst hk
      have hv : v = v' := by simpa [Memory.read] using hr k
      subst hv
      congr 1
      refine ih t' (k + 1) h.2 h'.2 ?_
      intro a
      by_cases hlt : a < k + 1
      · rw [Memory.read_below t (k + 1) a h.2 hlt, Memory.read_below t' (k + 1) a h'.2 hlt]
      · have h1 : a ≠ k := by omega
        have h2 : ¬ a < k := by omega
        simpa [Memory.read, h1, h2] using hr a

end Sys2Proof.Machine
end

