-- ==== Sys2Proof/Laws/Bytes.lean ====
section
/-! SUPPORT. The laws of byte strings and blocks (R8, R9): lengths, encoding and decoding of integers, cutting into
blocks; that cipher-block chaining undoes itself (R213) and the stream cipher's law (R5). -/

namespace Sys2Proof.Machine

/-- A `be` encoding has its length (R8). -/
@[simp] theorem length_be (n v : Nat) : (be n v).length = n := by induction n with | zero => rfl | succ n ih => simp [be, ih]

/-- `unbe` of a longer string, from an accumulator. -/
theorem unbe_foldl (a : List Byte) (acc) : a.foldl (fun v (x:Byte) => v * 256 + x.toNat) acc = acc * 256 ^ a.length + unbe a := by
  induction a generalizing acc with
  | nil => simp [unbe]
  | cons b bs ih => simp only [List.foldl_cons, unbe, List.length_cons]; rw [ih, ih (0*256+_)]; ring

/-- `unbe` by its first byte. -/
theorem unbe_cons (b : Byte) (bs) : unbe (b :: bs) = b.toNat * 256 ^ bs.length + unbe bs := by
  simp only [unbe, List.foldl_cons]; rw [unbe_foldl]; simp [unbe]

/-- `unbe` is below `256^length`. -/
theorem unbe_lt (a : List Byte) : unbe a < 256 ^ a.length := by
  induction a with
  | nil => simp [unbe]
  | cons b bs ih => 
    rw [unbe_cons]; have := b.isLt
    simp only [List.length_cons, pow_succ]
    have h2 : b.toNat ≤ 255 := by omega
    nlinarith

/-- Encoding a decoded string gives it back (R8). -/
theorem be_unbe (a : List Byte) : be a.length (unbe a) = a := by
  induction a with
  | nil => rfl
  | cons b bs ih =>
    simp only [List.length_cons, be]
    rw [unbe_cons]
    have hp : 0 < 256 ^ bs.length := by positivity
    have h1 : (b.toNat * 256 ^ bs.length + unbe bs) / 256 ^ bs.length = b.toNat := by
      rw [mul_comm, Nat.mul_add_div hp, Nat.div_eq_of_lt (unbe_lt bs)]; simp
    rw [h1]
    have h2 : ∀ n v k, n ≤ k → be n (b.toNat * 256 ^ k + v) = be n v := by
      intro n
      induction n with
      | zero => intros; rfl
      | succ n ihn =>
        intro v k hk
        simp only [be]
        rw [ihn v k (by omega)]
        congr 1
        have : 256 ^ k = 256 ^ n * 256 ^ (k - n) := by rw [← pow_add]; congr 1; omega
        rw [this, show b.toNat * (256 ^ n * 256 ^ (k-n)) = 256 ^ n * (b.toNat * 256 ^ (k-n)) by ring, Nat.mul_add_div (by positivity)]
        obtain ⟨j, hj⟩ : ∃ j, k - n = j + 1 := ⟨k - n - 1, by omega⟩
        rw [hj, pow_succ]
        apply BitVec.eq_of_toNat_eq
        simp only [BitVec.toNat_ofNat]
        rw [show b.toNat * (256 ^ j * 256) + v / 256 ^ n = v / 256 ^ n + 2^8 * (b.toNat * 256 ^ j) by ring, Nat.add_mul_mod_self_left]
    rw [h2 _ _ _ (le_refl _), ih]
    simp

/-- Decoding an encoded integer gives it back modulo `256^n` (R8). -/
theorem unbe_be (n v : Nat) : unbe (be n v) = v % 256 ^ n := by
  induction n with
  | zero => simp [be, unbe, Nat.mod_one]
  | succ n ih =>
    simp only [be]
    rw [unbe_cons, length_be, ih, pow_succ, mul_comm (256^n) 256, Nat.mul_comm 256, Nat.mod_mul]
    simp
    ring

/-- The bytes of the block of 16 bytes. -/
theorem blockBytes_blockOf (b : List Byte) (h : b.length = 16) : blockBytes (blockOf b) = b := by
  unfold blockBytes blockOf
  have := unbe_lt b
  rw [h] at this
  rw [BitVec.toNat_ofNat, Nat.mod_eq_of_lt (by simpa using this), ← h, be_unbe]

/-- The block of the bytes of a block. -/
@[simp] theorem blockOf_blockBytes (b : Block) : blockOf (blockBytes b) = b := by
  unfold blockBytes blockOf
  rw [unbe_be]; apply BitVec.eq_of_toNat_eq; simp [BitVec.toNat_ofNat]; omega

/-- A block has 16 bytes. -/
@[simp] theorem length_blockBytes (b : Block) : (blockBytes b).length = 16 := length_be _ _

/-- The semiblock of the bytes of a semiblock. -/
@[simp] theorem semiOf_semiBytes (x : Semiblock) : semiOf (semiBytes x) = x := by
  unfold semiOf semiBytes
  rw [unbe_be]
  apply BitVec.eq_of_toNat_eq
  simp only [BitVec.toNat_ofNat]
  omega

/-- Cutting a block and more into pieces. -/
theorem chunks_block (b : Block) (rest : List Byte) :
    chunks 16 (blockBytes b ++ rest) = blockBytes b :: chunks 16 rest := by
  unfold chunks
  have h : ((blockBytes b ++ rest).length + (16 - 1)) / 16 = (rest.length + (16 - 1)) / 16 + 1 := by
    simp only [List.length_append, length_blockBytes]; omega
  rw [h]
  simp [pieces]

/-- The blocks of the bytes of blocks. -/
@[simp] theorem blocks_bytesOfBlocks (bs : List Block) : blocks (bytesOfBlocks bs) = bs := by
  induction bs with
  | nil => rfl
  | cons b bs ih =>
    have h : bytesOfBlocks (b :: bs) = blockBytes b ++ bytesOfBlocks bs := rfl
    rw [h]
    unfold blocks at ih ⊢
    rw [chunks_block]
    simp [ih]

/-- The bytes of the blocks of a string of whole blocks. -/
theorem bytesOfBlocks_blocks (d : List Byte) (h : d.length % 16 = 0) : bytesOfBlocks (blocks d) = d := by
  obtain ⟨n, hn⟩ : ∃ n, d.length = 16 * n := ⟨d.length / 16, by omega⟩
  clear h
  induction n generalizing d with
  | zero => rw [List.eq_nil_of_length_eq_zero (by omega : d.length = 0)]; rfl
  | succ n ih =>
    have h1 : (d.take 16).length = 16 := by simp; omega
    have h2 : blockBytes (blockOf (d.take 16)) = d.take 16 := blockBytes_blockOf _ h1
    have h3 : chunks 16 d = d.take 16 :: chunks 16 (d.drop 16) := by
      have h5 := chunks_block (blockOf (d.take 16)) (d.drop 16)
      rwa [h2, List.take_append_drop] at h5
    have h4 := ih (d.drop 16) (by simp; omega)
    unfold blocks at h4 ⊢
    unfold bytesOfBlocks at h4 ⊢
    rw [h3, List.map_cons, List.flatMap_cons, h2, h4, List.take_append_drop]

/-- A chain of blocks decrypted by the inverse permutation (R213). -/
theorem cbcDecBlocks_cbcEncBlocks (π : Equiv.Perm Block) (c : Block) (xs : List Block) :
    cbcDecBlocks π.symm c (cbcEncBlocks π c xs) = xs := by
  induction xs generalizing c with
  | nil => rfl
  | cons x xs ih => simp [cbcEncBlocks, cbcDecBlocks, ih]

/-- `CBC_DEC` undoes `CBC_ENC` on whole blocks (R213). -/
theorem cbcDec_cbcEnc (π : Equiv.Perm Block) (iv : Block) (x : List Byte) (h : x.length % 16 = 0) :
    cbcDec π.symm iv (cbcEnc π iv x) = x := by
  unfold cbcDec cbcEnc
  rw [blocks_bytesOfBlocks, cbcDecBlocks_cbcEncBlocks, bytesOfBlocks_blocks x h]

/-- Chaining keeps the number of blocks. -/
@[simp] theorem length_cbcEncBlocks (E : Block → Block) (c : Block) (xs : List Block) :
    (cbcEncBlocks E c xs).length = xs.length := by
  induction xs generalizing c with
  | nil => rfl
  | cons x xs ih => simp [cbcEncBlocks, ih]

/-- The length of the bytes of blocks. -/
@[simp] theorem length_bytesOfBlocks (bs : List Block) : (bytesOfBlocks bs).length = 16 * bs.length := by
  induction bs with
  | nil => rfl
  | cons b bs ih =>
    have h : bytesOfBlocks (b :: bs) = blockBytes b ++ bytesOfBlocks bs := rfl
    rw [h, List.length_append, ih, length_blockBytes, List.length_cons]
    omega

/-- `CBC_ENC` keeps the length of whole blocks (R213). -/
theorem length_cbcEnc (E : Block → Block) (iv : Block) (x : List Byte) (h : x.length % 16 = 0) :
    (cbcEnc E iv x).length = x.length := by
  unfold cbcEnc
  rw [length_bytesOfBlocks, length_cbcEncBlocks, ← length_bytesOfBlocks, bytesOfBlocks_blocks x h]

/-- The stream cipher's `xor` keeps the length (R5). -/
@[simp] theorem length_selfInverse (f : List Byte → List Byte) (d : List Byte) :
    (selfInverse f d).length = d.length := by
  unfold selfInverse
  split
  · rename_i h; exact h.1
  · rfl

/-- The stream cipher's `xor` undoes itself (R5). -/
@[simp] theorem selfInverse_selfInverse (f : List Byte → List Byte) (d : List Byte) :
    selfInverse f (selfInverse f d) = d := by
  by_cases h : (f d).length = d.length ∧ f (f d) = d
  · have h1 : selfInverse f d = f d := if_pos h
    have h2 : (f (f d)).length = (f d).length ∧ f (f (f d)) = f d := by rw [h.2]; exact ⟨h.1.symm, rfl⟩
    rw [h1]
    unfold selfInverse
    rw [if_pos h2, h.2]
  · have h1 : selfInverse f d = d := if_neg h
    rw [h1, h1]

end Sys2Proof.Machine
end

