-- ==== Sys2Proof/Laws/Configured.lean ====
section
/-! SUPPORT. The machine is the default configuration (R7): the widths of `std`, and `exec` and `step` as `execOn` and
`stepOn` at it. -/

namespace Sys2Proof.Machine

/-- `XLEN` (R7). -/
theorem std_xlen : std.xlen = 64 := rfl

/-- `N_CTX` (R7). -/
theorem std_nCtx : std.nCtx = 8 := rfl

/-- At the default width every bit is kept (R7, R21). -/
@[simp] theorem narrow_std (v : Word) : narrow std v = v := by
  simp [narrow, std_xlen, Nat.mod_eq_of_lt v.isLt]

/-- `narrow` keeps the value modulo `2^XLEN` (R21). -/
theorem toNat_narrow (κ : Cfg) (v : Word) : (narrow κ v).toNat = v.toNat % 2 ^ κ.xlen := by
  simp only [narrow, BitVec.toNat_ofNat]
  exact Nat.mod_eq_of_lt (Nat.lt_of_le_of_lt (Nat.mod_le _ _) v.isLt)

/-- The commands of the machine are those of the default configuration. -/
theorem execOn_std (i : Instr) (s : State) : execOn std i s = exec i s := by cases i <;> rfl

/-- The step of the machine is that of the default configuration. -/
theorem stepOn_std (s : State) : stepOn std s = step s := by
  have h : execOn std = exec := funext fun i => funext fun s => execOn_std i s
  rw [stepOn, h]
  rfl

/-- The default configuration meets every constraint (R30, file 93 section 1). -/
theorem std_lawful : std.Lawful where
  xlen_min := by decide
  xlen_max := by decide
  nCtx_min := by decide
  nCtx_max := by decide
  msgMax_max := by decide
  aadMax_max := by decide
  nonceMax_max := by decide
  legacyMaxPt_max := by decide
  kwMax_whole := by decide
  kwMax_max := by decide
  table_max := by decide
  table_lawful := by
    simp [std, defaultTable, Descriptor.Lawful, Config.macLen, Config.macKeylen, Config.streamKeylen]
  ctCount_fits := fun d l a => ⟨(Config.ctCount d l a).1.isLt, (Config.ctCount d l a).2.isLt⟩

end Sys2Proof.Machine
end

