-- ==== Sys2Proof/Laws/State.lean ====
section
/-! SUPPORT. One lemma per field of State per update, each true by rfl, so that no later proof unfolds a record update
(a row for each shared operation of Machine/Ops.lean and for the reset of Machine/Bus.lean). -/

namespace Sys2Proof.Machine

/-! `State.writeBuf`. -/

@[simp] theorem State.writeBuf_x (s : State) (p : Word) (v : List Byte) : (s.writeBuf p v).x = s.x := rfl
@[simp] theorem State.writeBuf_status (s : State) (p : Word) (v : List Byte) : (s.writeBuf p v).status = s.status := rfl
@[simp] theorem State.writeBuf_outlen (s : State) (p : Word) (v : List Byte) : (s.writeBuf p v).outlen = s.outlen := rfl
@[simp] theorem State.writeBuf_cap (s : State) (p : Word) (v : List Byte) : (s.writeBuf p v).cap = s.cap := rfl
@[simp] theorem State.writeBuf_perfCompress (s : State) (p : Word) (v : List Byte) : (s.writeBuf p v).perfCompress = s.perfCompress := rfl
@[simp] theorem State.writeBuf_perfMemacc (s : State) (p : Word) (v : List Byte) : (s.writeBuf p v).perfMemacc = s.perfMemacc := rfl
@[simp] theorem State.writeBuf_ctx (s : State) (p : Word) (v : List Byte) : (s.writeBuf p v).ctx = s.ctx := rfl
@[simp] theorem State.writeBuf_eng (s : State) (p : Word) (v : List Byte) : (s.writeBuf p v).eng = s.eng := rfl
@[simp] theorem State.writeBuf_gh (s : State) (p : Word) (v : List Byte) : (s.writeBuf p v).gh = s.gh := rfl
@[simp] theorem State.writeBuf_ctr (s : State) (p : Word) (v : List Byte) : (s.writeBuf p v).ctr = s.ctr := rfl
@[simp] theorem State.writeBuf_mem (s : State) (p : Word) (v : List Byte) : (s.writeBuf p v).mem = s.mem.writeBytes p.toNat v := rfl
@[simp] theorem State.writeBuf_pending (s : State) (p : Word) (v : List Byte) : (s.writeBuf p v).pending = s.pending := rfl
@[simp] theorem State.writeBuf_readData (s : State) (p : Word) (v : List Byte) : (s.writeBuf p v).readData = s.readData := rfl
@[simp] theorem State.writeBuf_freeCount (s : State) (p : Word) (v : List Byte) : (s.writeBuf p v).freeCount = s.freeCount := rfl

/-! `State.setSlot`. -/

@[simp] theorem State.setSlot_x (s : State) (c : BitVec 8) (sl : Slot) : (s.setSlot c sl).x = s.x := rfl
@[simp] theorem State.setSlot_status (s : State) (c : BitVec 8) (sl : Slot) : (s.setSlot c sl).status = s.status := rfl
@[simp] theorem State.setSlot_outlen (s : State) (c : BitVec 8) (sl : Slot) : (s.setSlot c sl).outlen = s.outlen := rfl
@[simp] theorem State.setSlot_cap (s : State) (c : BitVec 8) (sl : Slot) : (s.setSlot c sl).cap = s.cap := rfl
@[simp] theorem State.setSlot_perfCompress (s : State) (c : BitVec 8) (sl : Slot) : (s.setSlot c sl).perfCompress = s.perfCompress := rfl
@[simp] theorem State.setSlot_perfMemacc (s : State) (c : BitVec 8) (sl : Slot) : (s.setSlot c sl).perfMemacc = s.perfMemacc := rfl
@[simp] theorem State.setSlot_ctx (s : State) (c : BitVec 8) (sl : Slot) : (s.setSlot c sl).ctx = s.ctx.set c.toNat sl c.isLt := rfl
@[simp] theorem State.setSlot_eng (s : State) (c : BitVec 8) (sl : Slot) : (s.setSlot c sl).eng = s.eng := rfl
@[simp] theorem State.setSlot_gh (s : State) (c : BitVec 8) (sl : Slot) : (s.setSlot c sl).gh = s.gh := rfl
@[simp] theorem State.setSlot_ctr (s : State) (c : BitVec 8) (sl : Slot) : (s.setSlot c sl).ctr = s.ctr := rfl
@[simp] theorem State.setSlot_mem (s : State) (c : BitVec 8) (sl : Slot) : (s.setSlot c sl).mem = s.mem := rfl
@[simp] theorem State.setSlot_pending (s : State) (c : BitVec 8) (sl : Slot) : (s.setSlot c sl).pending = s.pending := rfl
@[simp] theorem State.setSlot_readData (s : State) (c : BitVec 8) (sl : Slot) : (s.setSlot c sl).readData = s.readData := rfl
@[simp] theorem State.setSlot_freeCount (s : State) (c : BitVec 8) (sl : Slot) : (s.setSlot c sl).freeCount = s.freeCount := rfl

/-! `State.clearPerf`. -/

@[simp] theorem State.clearPerf_x (s : State) : (s.clearPerf).x = s.x := rfl
@[simp] theorem State.clearPerf_status (s : State) : (s.clearPerf).status = s.status := rfl
@[simp] theorem State.clearPerf_outlen (s : State) : (s.clearPerf).outlen = s.outlen := rfl
@[simp] theorem State.clearPerf_cap (s : State) : (s.clearPerf).cap = s.cap := rfl
@[simp] theorem State.clearPerf_perfCompress (s : State) : (s.clearPerf).perfCompress = 0 := rfl
@[simp] theorem State.clearPerf_perfMemacc (s : State) : (s.clearPerf).perfMemacc = 0 := rfl
@[simp] theorem State.clearPerf_ctx (s : State) : (s.clearPerf).ctx = s.ctx := rfl
@[simp] theorem State.clearPerf_eng (s : State) : (s.clearPerf).eng = s.eng := rfl
@[simp] theorem State.clearPerf_gh (s : State) : (s.clearPerf).gh = s.gh := rfl
@[simp] theorem State.clearPerf_ctr (s : State) : (s.clearPerf).ctr = s.ctr := rfl
@[simp] theorem State.clearPerf_mem (s : State) : (s.clearPerf).mem = s.mem := rfl
@[simp] theorem State.clearPerf_pending (s : State) : (s.clearPerf).pending = s.pending := rfl
@[simp] theorem State.clearPerf_readData (s : State) : (s.clearPerf).readData = s.readData := rfl
@[simp] theorem State.clearPerf_freeCount (s : State) : (s.clearPerf).freeCount = s.freeCount := rfl

/-! `State.setPerf`. -/

@[simp] theorem State.setPerf_x (s : State) (q : Word × Word) : (s.setPerf q).x = s.x := rfl
@[simp] theorem State.setPerf_status (s : State) (q : Word × Word) : (s.setPerf q).status = s.status := rfl
@[simp] theorem State.setPerf_outlen (s : State) (q : Word × Word) : (s.setPerf q).outlen = s.outlen := rfl
@[simp] theorem State.setPerf_cap (s : State) (q : Word × Word) : (s.setPerf q).cap = s.cap := rfl
@[simp] theorem State.setPerf_perfCompress (s : State) (q : Word × Word) : (s.setPerf q).perfCompress = q.1 := rfl
@[simp] theorem State.setPerf_perfMemacc (s : State) (q : Word × Word) : (s.setPerf q).perfMemacc = q.2 := rfl
@[simp] theorem State.setPerf_ctx (s : State) (q : Word × Word) : (s.setPerf q).ctx = s.ctx := rfl
@[simp] theorem State.setPerf_eng (s : State) (q : Word × Word) : (s.setPerf q).eng = s.eng := rfl
@[simp] theorem State.setPerf_gh (s : State) (q : Word × Word) : (s.setPerf q).gh = s.gh := rfl
@[simp] theorem State.setPerf_ctr (s : State) (q : Word × Word) : (s.setPerf q).ctr = s.ctr := rfl
@[simp] theorem State.setPerf_mem (s : State) (q : Word × Word) : (s.setPerf q).mem = s.mem := rfl
@[simp] theorem State.setPerf_pending (s : State) (q : Word × Word) : (s.setPerf q).pending = s.pending := rfl
@[simp] theorem State.setPerf_readData (s : State) (q : Word × Word) : (s.setPerf q).readData = s.readData := rfl
@[simp] theorem State.setPerf_freeCount (s : State) (q : Word × Word) : (s.setPerf q).freeCount = s.freeCount := rfl

/-! `State.done`. -/

@[simp] theorem State.done_x (s : State) (n : Nat) : (s.done n).x = s.x := rfl
@[simp] theorem State.done_status (s : State) (n : Nat) : (s.done n).status = 0 := rfl
@[simp] theorem State.done_outlen (s : State) (n : Nat) : (s.done n).outlen = BitVec.ofNat 64 n := rfl
@[simp] theorem State.done_cap (s : State) (n : Nat) : (s.done n).cap = s.cap := rfl
@[simp] theorem State.done_perfCompress (s : State) (n : Nat) : (s.done n).perfCompress = s.perfCompress := rfl
@[simp] theorem State.done_perfMemacc (s : State) (n : Nat) : (s.done n).perfMemacc = s.perfMemacc := rfl
@[simp] theorem State.done_ctx (s : State) (n : Nat) : (s.done n).ctx = s.ctx := rfl
@[simp] theorem State.done_eng (s : State) (n : Nat) : (s.done n).eng = s.eng := rfl
@[simp] theorem State.done_gh (s : State) (n : Nat) : (s.done n).gh = s.gh := rfl
@[simp] theorem State.done_ctr (s : State) (n : Nat) : (s.done n).ctr = s.ctr := rfl
@[simp] theorem State.done_mem (s : State) (n : Nat) : (s.done n).mem = s.mem := rfl
@[simp] theorem State.done_pending (s : State) (n : Nat) : (s.done n).pending = s.pending := rfl
@[simp] theorem State.done_readData (s : State) (n : Nat) : (s.done n).readData = s.readData := rfl
@[simp] theorem State.done_freeCount (s : State) (n : Nat) : (s.done n).freeCount = s.freeCount := rfl

/-! `State.zeroFill`. -/

@[simp] theorem State.zeroFill_x (s : State) : (s.zeroFill).x = s.x := rfl
@[simp] theorem State.zeroFill_status (s : State) : (s.zeroFill).status = s.status := rfl
@[simp] theorem State.zeroFill_outlen (s : State) : (s.zeroFill).outlen = s.outlen := rfl
@[simp] theorem State.zeroFill_cap (s : State) : (s.zeroFill).cap = s.cap := rfl
@[simp] theorem State.zeroFill_perfCompress (s : State) : (s.zeroFill).perfCompress = s.perfCompress := rfl
@[simp] theorem State.zeroFill_perfMemacc (s : State) : (s.zeroFill).perfMemacc = s.perfMemacc := rfl
@[simp] theorem State.zeroFill_ctx (s : State) : (s.zeroFill).ctx = s.ctx := rfl
@[simp] theorem State.zeroFill_eng (s : State) : (s.zeroFill).eng = s.eng := rfl
@[simp] theorem State.zeroFill_gh (s : State) : (s.zeroFill).gh = s.gh := rfl
@[simp] theorem State.zeroFill_ctr (s : State) : (s.zeroFill).ctr = s.ctr := rfl
@[simp] theorem State.zeroFill_mem (s : State) : (s.zeroFill).mem = s.mem.writeBytes s.x.outp.toNat (zeros s.x.outmax.toNat) := rfl
@[simp] theorem State.zeroFill_pending (s : State) : (s.zeroFill).pending = s.pending := rfl
@[simp] theorem State.zeroFill_readData (s : State) : (s.zeroFill).readData = s.readData := rfl
@[simp] theorem State.zeroFill_freeCount (s : State) : (s.zeroFill).freeCount = s.freeCount := rfl

/-! `State.badCommand`. -/

@[simp] theorem State.badCommand_x (s : State) : (s.badCommand).x = s.x := rfl
@[simp] theorem State.badCommand_status (s : State) : (s.badCommand).status = 1 := rfl
@[simp] theorem State.badCommand_outlen (s : State) : (s.badCommand).outlen = 0 := rfl
@[simp] theorem State.badCommand_cap (s : State) : (s.badCommand).cap = s.cap := rfl
@[simp] theorem State.badCommand_perfCompress (s : State) : (s.badCommand).perfCompress = s.perfCompress := rfl
@[simp] theorem State.badCommand_perfMemacc (s : State) : (s.badCommand).perfMemacc = s.perfMemacc := rfl
@[simp] theorem State.badCommand_ctx (s : State) : (s.badCommand).ctx = s.ctx := rfl
@[simp] theorem State.badCommand_eng (s : State) : (s.badCommand).eng = s.eng := rfl
@[simp] theorem State.badCommand_gh (s : State) : (s.badCommand).gh = s.gh := rfl
@[simp] theorem State.badCommand_ctr (s : State) : (s.badCommand).ctr = s.ctr := rfl
@[simp] theorem State.badCommand_mem (s : State) : (s.badCommand).mem = s.mem := rfl
@[simp] theorem State.badCommand_pending (s : State) : (s.badCommand).pending = s.pending := rfl
@[simp] theorem State.badCommand_readData (s : State) : (s.badCommand).readData = s.readData := rfl
@[simp] theorem State.badCommand_freeCount (s : State) : (s.badCommand).freeCount = s.freeCount := rfl

/-! `State.resetBlock`. -/

@[simp] theorem State.resetBlock_x (s : State) : (s.resetBlock).x = ({} : Regs) := rfl
@[simp] theorem State.resetBlock_status (s : State) : (s.resetBlock).status = 0 := rfl
@[simp] theorem State.resetBlock_outlen (s : State) : (s.resetBlock).outlen = 0 := rfl
@[simp] theorem State.resetBlock_cap (s : State) : (s.resetBlock).cap = 0 := rfl
@[simp] theorem State.resetBlock_perfCompress (s : State) : (s.resetBlock).perfCompress = 0 := rfl
@[simp] theorem State.resetBlock_perfMemacc (s : State) : (s.resetBlock).perfMemacc = 0 := rfl
@[simp] theorem State.resetBlock_ctx (s : State) : (s.resetBlock).ctx = Vector.replicate 256 ({} : Slot) := rfl
@[simp] theorem State.resetBlock_eng (s : State) : (s.resetBlock).eng = ({} : Engine) := rfl
@[simp] theorem State.resetBlock_gh (s : State) : (s.resetBlock).gh = ({} : GhUnit) := rfl
@[simp] theorem State.resetBlock_ctr (s : State) : (s.resetBlock).ctr = ({} : CtrUnit) := rfl
@[simp] theorem State.resetBlock_mem (s : State) : (s.resetBlock).mem = s.mem := rfl
@[simp] theorem State.resetBlock_pending (s : State) : (s.resetBlock).pending = s.pending := rfl
@[simp] theorem State.resetBlock_readData (s : State) : (s.resetBlock).readData = s.readData := rfl
@[simp] theorem State.resetBlock_freeCount (s : State) : (s.resetBlock).freeCount = s.freeCount := rfl

/-! `State.raise`. -/

@[simp] theorem State.raise_x (s : State) (d : Bool) (e : StatusCode) : (s.raise d e).x = s.x := rfl
@[simp] theorem State.raise_status (s : State) (d : Bool) (e : StatusCode) : (s.raise d e).status = e.code := rfl
@[simp] theorem State.raise_outlen (s : State) (d : Bool) (e : StatusCode) : (s.raise d e).outlen = 0 := rfl
@[simp] theorem State.raise_cap (s : State) (d : Bool) (e : StatusCode) : (s.raise d e).cap = s.cap := rfl
@[simp] theorem State.raise_perfCompress (s : State) (d : Bool) (e : StatusCode) : (s.raise d e).perfCompress = s.perfCompress := rfl
@[simp] theorem State.raise_perfMemacc (s : State) (d : Bool) (e : StatusCode) : (s.raise d e).perfMemacc = s.perfMemacc := rfl
@[simp] theorem State.raise_ctx (s : State) (d : Bool) (e : StatusCode) : (s.raise d e).ctx = s.ctx := rfl
@[simp] theorem State.raise_eng (s : State) (d : Bool) (e : StatusCode) : (s.raise d e).eng = s.eng := rfl
@[simp] theorem State.raise_gh (s : State) (d : Bool) (e : StatusCode) : (s.raise d e).gh = s.gh := rfl
@[simp] theorem State.raise_ctr (s : State) (d : Bool) (e : StatusCode) : (s.raise d e).ctr = s.ctr := rfl
@[simp] theorem State.raise_mem (s : State) (d : Bool) (e : StatusCode) : (s.raise d e).mem = if zeroFills d e then s.mem.writeBytes s.x.outp.toNat (zeros s.x.outmax.toNat) else s.mem := rfl
@[simp] theorem State.raise_pending (s : State) (d : Bool) (e : StatusCode) : (s.raise d e).pending = s.pending := rfl
@[simp] theorem State.raise_readData (s : State) (d : Bool) (e : StatusCode) : (s.raise d e).readData = s.readData := rfl
@[simp] theorem State.raise_freeCount (s : State) (d : Bool) (e : StatusCode) : (s.raise d e).freeCount = s.freeCount := rfl

/-! `State.latchCap`. -/

@[simp] theorem State.latchCap_x (s : State) (κ : Cfg) : (s.latchCap κ).x = s.x := rfl
@[simp] theorem State.latchCap_status (s : State) (κ : Cfg) : (s.latchCap κ).status = s.status := rfl
@[simp] theorem State.latchCap_outlen (s : State) (κ : Cfg) : (s.latchCap κ).outlen = s.outlen := rfl
@[simp] theorem State.latchCap_cap (s : State) (κ : Cfg) : (s.latchCap κ).cap = if capValid s.cap then s.cap else capOfProbe κ.probe := rfl
@[simp] theorem State.latchCap_perfCompress (s : State) (κ : Cfg) : (s.latchCap κ).perfCompress = s.perfCompress := rfl
@[simp] theorem State.latchCap_perfMemacc (s : State) (κ : Cfg) : (s.latchCap κ).perfMemacc = s.perfMemacc := rfl
@[simp] theorem State.latchCap_ctx (s : State) (κ : Cfg) : (s.latchCap κ).ctx = s.ctx := rfl
@[simp] theorem State.latchCap_eng (s : State) (κ : Cfg) : (s.latchCap κ).eng = s.eng := rfl
@[simp] theorem State.latchCap_gh (s : State) (κ : Cfg) : (s.latchCap κ).gh = s.gh := rfl
@[simp] theorem State.latchCap_ctr (s : State) (κ : Cfg) : (s.latchCap κ).ctr = s.ctr := rfl
@[simp] theorem State.latchCap_mem (s : State) (κ : Cfg) : (s.latchCap κ).mem = s.mem := rfl
@[simp] theorem State.latchCap_pending (s : State) (κ : Cfg) : (s.latchCap κ).pending = s.pending := rfl
@[simp] theorem State.latchCap_readData (s : State) (κ : Cfg) : (s.latchCap κ).readData = s.readData := rfl
@[simp] theorem State.latchCap_freeCount (s : State) (κ : Cfg) : (s.latchCap κ).freeCount = s.freeCount := rfl

/-! The slots. -/

/-- A slot that was just written reads as written. -/
@[simp] theorem State.slot_setSlot_same (s : State) (c : BitVec 8) (sl : Slot) : (s.setSlot c sl).slot c = sl := by
  simp [State.slot, State.setSlot]

/-- Writing a slot leaves every other slot alone. -/
theorem State.slot_setSlot_ne (s : State) (c c' : BitVec 8) (sl : Slot) (h : c' ≠ c) :
    (s.setSlot c sl).slot c' = s.slot c' := by
  have hn : c.toNat ≠ c'.toNat := fun e => h (BitVec.eq_of_toNat_eq e.symm)
  simp [State.slot, State.setSlot, hn]

/-- A slot is a function of the slot vector alone. -/
theorem State.slot_congr (s t : State) (h : t.ctx = s.ctx) (c : BitVec 8) : t.slot c = s.slot c := by
  simp [State.slot, h]

/-- After reset every slot is free. -/
theorem State.slot_reset (c : BitVec 8) : State.reset.slot c = {} := by
  simp [State.slot, State.reset]

end Sys2Proof.Machine
end

