-- ==== Sys2Proof/Laws/Ops.lean ====
section
/-! SUPPORT. For each shared operation, one lemma that says once everything it can do; proofs about commands cite these
and do not unfold the operations. -/

namespace Sys2Proof.Machine

/-- No check fails exactly when every failure condition is false (R163). -/
theorem firstFailing_none (cs : List (Bool × StatusCode)) :
    firstFailing cs = none ↔ ∀ c ∈ cs, c.1 = false := by
  induction cs with
  | nil => simp [firstFailing]
  | cons c cs ih =>
    obtain ⟨b, e⟩ := c
    cases b <;> simp [firstFailing, ih]

/-- The first failing check decides the code (R163, R261). -/
theorem firstFailing_some (cs : List (Bool × StatusCode)) (e : StatusCode) :
    firstFailing cs = some e ↔ ∃ as bs, cs = as ++ (true, e) :: bs ∧ ∀ c ∈ as, c.1 = false := by
  induction cs with
  | nil => simp [firstFailing]
  | cons c cs ih =>
    obtain ⟨b, e'⟩ := c
    cases b with
    | true =>
      simp only [firstFailing, if_true, Option.some.injEq]
      constructor
      · rintro rfl
        exact ⟨[], cs, rfl, by simp⟩
      · rintro ⟨as, bs, h, ha⟩
        cases as with
        | nil => simpa using (List.cons.inj h).1
        | cons a as =>
          have h1 := (List.cons.inj h).1
          have h2 := ha a (by simp)
          rw [← h1] at h2
          exact absurd h2 (by simp)
    | false =>
      simp only [firstFailing, Bool.false_eq_true, if_false, ih]
      constructor
      · rintro ⟨as, bs, rfl, ha⟩
        exact ⟨(false, e') :: as, bs, rfl, by simpa using ha⟩
      · rintro ⟨as, bs, h, ha⟩
        cases as with
        | nil => simp at h
        | cons a as =>
          refine ⟨as, bs, (List.cons.inj h).2, ?_⟩
          intro c hc
          exact ha c (by simp [hc])

/-- A code raised by a list of checks is one the list names. -/
theorem firstFailing_mem (cs : List (Bool × StatusCode)) (e : StatusCode) (h : firstFailing cs = some e) :
    (true, e) ∈ cs := by
  obtain ⟨as, bs, rfl, -⟩ := (firstFailing_some cs e).1 h
  simp

/-- Everything `checked` can do: a failing check raises its code, or the command goes on. -/
theorem checked_cases (dest : Bool) (cs : List (Bool × StatusCode)) (s : State) (go : State → Result) :
    (∃ e, firstFailing cs = some e ∧ checked dest cs s go = .next (s.raise dest e)) ∨
    (firstFailing cs = none ∧ checked dest cs s go = go s) := by
  unfold checked
  cases h : firstFailing cs with
  | none => exact .inr ⟨rfl, rfl⟩
  | some e => exact .inl ⟨e, rfl, rfl⟩

/-- `checked` when no check fails. -/
theorem checked_none (dest : Bool) (cs : List (Bool × StatusCode)) (s : State) (go : State → Result)
    (h : firstFailing cs = none) : checked dest cs s go = go s := by
  simp [checked, h]

/-- `checked` when a check fails. -/
theorem checked_some (dest : Bool) (cs : List (Bool × StatusCode)) (s : State) (go : State → Result) (e : StatusCode)
    (h : firstFailing cs = some e) : checked dest cs s go = .next (s.raise dest e) := by
  simp [checked, h]

/-- Everything `onSlot` can do (R88, R62, R161): an illegal slot number, a buffer out of range, a free slot, or the
command's own part. -/
theorem onSlot_cases (κ : Cfg) (dest : Bool) (bufs : List (Word × Word)) (c : BitVec 8) (s : State)
    (go : State → Slot → Descriptor → Result) :
    (κ.nCtx ≤ c.toNat ∧ onSlot κ dest bufs c s go = .next s.badCommand) ∨
    (c.toNat < κ.nCtx ∧ bufs.all (fun b => bufOk κ b.1 b.2) = false ∧
      onSlot κ dest bufs c s go = .next (s.clearPerf.raise dest .badAddress)) ∨
    (c.toNat < κ.nCtx ∧ bufs.all (fun b => bufOk κ b.1 b.2) = true ∧ slotDesc κ (s.slot c) = none ∧
      onSlot κ dest bufs c s go = .next (s.clearPerf.raise dest .state)) ∨
    (∃ d, c.toNat < κ.nCtx ∧ bufs.all (fun b => bufOk κ b.1 b.2) = true ∧ slotDesc κ (s.slot c) = some d ∧
      onSlot κ dest bufs c s go = go s.clearPerf (s.slot c) d) := by
  by_cases hc : c.toNat < κ.nCtx
  · by_cases hb : bufs.all (fun b => bufOk κ b.1 b.2) = true
    · cases hd : slotDesc κ (s.slot c) with
      | none => exact .inr (.inr (.inl ⟨hc, hb, rfl, by simp [onSlot, hc, hb, hd]⟩))
      | some d => exact .inr (.inr (.inr ⟨d, hc, hb, rfl, by simp [onSlot, hc, hb, hd]⟩))
    · exact .inr (.inl ⟨hc, by simpa using hb, by simp [onSlot, hc, hb]⟩)
  · exact .inl ⟨by omega, by simp [onSlot, hc]⟩

/-- Everything a step can do under a configuration (R23, R26, R280): nothing is pending, a command word is written to
`CMD`, or another access is made. -/
theorem busStepOn_cases (κ : Cfg) (run : Instr → State → Result) (s : State) :
    (s.pending = [] ∧ busStepOn κ run s = .next s) ∨
    (∃ v ops i, s.pending = .regWrite cmdReg v :: ops ∧ decodeOn κ (v.setWidth 32) = .ok i ∧
      busStepOn κ run s = run i { s with pending := ops }) ∨
    (∃ v ops e, s.pending = .regWrite cmdReg v :: ops ∧ decodeOn κ (v.setWidth 32) = .error e ∧
      busStepOn κ run s = .next ({ s with pending := ops }).badCommand) ∨
    (∃ n v ops, s.pending = .regWrite n v :: ops ∧ n ≠ cmdReg ∧
      busStepOn κ run s = .next { s with pending := ops, x := s.x.put n (narrow κ v) }) ∨
    (∃ n ops, s.pending = .regRead n :: ops ∧
      busStepOn κ run s = .next { s with pending := ops, readData := regReadOn κ { s with pending := ops } n }) ∨
    (∃ a b ops, s.pending = .memWrite a b :: ops ∧
      busStepOn κ run s = .next { s with pending := ops, mem := s.mem.write (narrow κ a).toNat b }) ∨
    (∃ a ops, s.pending = .memRead a :: ops ∧
      busStepOn κ run s =
        .next { s with pending := ops, readData := (s.mem.read (narrow κ a).toNat).setWidth 64 }) ∨
    (∃ ops, s.pending = .reset :: ops ∧ busStepOn κ run s = .next ({ s with pending := ops }).resetBlock) := by
  cases hp : s.pending with
  | nil => exact .inl ⟨rfl, by simp [busStepOn, hp]⟩
  | cons op ops =>
    right
    cases op with
    | regWrite n v =>
      by_cases hn : n = cmdReg
      · subst hn
        cases hd : decodeOn κ (v.setWidth 32) with
        | ok i =>
          exact .inl ⟨v, ops, i, rfl, hd, by simp [busStepOn, hp, busAccessOn, regWriteOn, runCommandOn, hd]⟩
        | error e =>
          exact .inr (.inl ⟨v, ops, e, rfl, hd, by simp [busStepOn, hp, busAccessOn, regWriteOn, runCommandOn, hd]⟩)
      · exact .inr (.inr (.inl ⟨n, v, ops, rfl, hn, by simp [busStepOn, hp, busAccessOn, regWriteOn, hn]⟩))
    | regRead n => exact .inr (.inr (.inr (.inl ⟨n, ops, rfl, by simp [busStepOn, hp, busAccessOn]⟩)))
    | memWrite a b => exact .inr (.inr (.inr (.inr (.inl ⟨a, b, ops, rfl, by simp [busStepOn, hp, busAccessOn]⟩))))
    | memRead a => exact .inr (.inr (.inr (.inr (.inr (.inl ⟨a, ops, rfl, by simp [busStepOn, hp, busAccessOn]⟩)))))
    | reset => exact .inr (.inr (.inr (.inr (.inr (.inr ⟨ops, rfl, by simp [busStepOn, hp, busAccessOn]⟩)))))

/-- Everything a step of the machine can do (R23, R26, R280): nothing is pending, a command word is written to `CMD`, or another access
is made. -/
theorem step_cases (s : State) :
    (s.pending = [] ∧ step s = .next s) ∨
    (∃ v ops i, s.pending = .regWrite cmdReg v :: ops ∧ decode (v.setWidth 32) = .ok i ∧
      step s = exec i { s with pending := ops }) ∨
    (∃ v ops e, s.pending = .regWrite cmdReg v :: ops ∧ decode (v.setWidth 32) = .error e ∧
      step s = .next ({ s with pending := ops }).badCommand) ∨
    (∃ n v ops, s.pending = .regWrite n v :: ops ∧ n ≠ cmdReg ∧
      step s = .next { s with pending := ops, x := s.x.put n v }) ∨
    (∃ n ops, s.pending = .regRead n :: ops ∧
      step s = .next { s with pending := ops, readData := ({ s with pending := ops } : State).regRead n }) ∨
    (∃ a b ops, s.pending = .memWrite a b :: ops ∧
      step s = .next { s with pending := ops, mem := s.mem.write a.toNat b }) ∨
    (∃ a ops, s.pending = .memRead a :: ops ∧
      step s = .next { s with pending := ops, readData := (s.mem.read a.toNat).setWidth 64 }) ∨
    (∃ ops, s.pending = .reset :: ops ∧ step s = .next ({ s with pending := ops }).resetBlock) := by
  have h := busStepOn_cases std exec s
  simp only [narrow_std] at h
  exact h

end Sys2Proof.Machine
end

