-- ==== Sys2Proof/Laws/Contract.lean ====
section
/-! SUPPORT. The checks of the machine in the terms of Safety.lean, and everything `SEAL` and `OPEN` can do (R163 to
R168), said once. -/

namespace Sys2Proof.Machine

/-- The address check in the terms of the statements (R62). -/
theorem bufOk_true (p n : Word) : bufOk std p n = true ↔ InRange p n := by
  rw [bufOk, Bool.or_eq_true, decide_eq_true_iff, decide_eq_true_iff, std_xlen]

/-- The same as an equation. -/
theorem bufOk_eq (p n : Word) : bufOk std p n = decide (InRange p n) := by
  rw [Bool.eq_iff_iff, bufOk_true, decide_eq_true_iff]

/-- `DISJOINT` in the terms of the statements (R67). -/
theorem disjoint_true (a b c d : Word) : disjoint a b c d = true ↔ Apart a.toNat b.toNat c.toNat d.toNat := by
  simp only [disjoint, Apart, Bool.or_eq_true, decide_eq_true_eq]
  constructor
  · rintro (((h|h)|h)|h)
    · simp [h]
    · simp [h]
    · omega
    · omega
  · rintro (h|h|h|h)
    · left;left;left; exact BitVec.eq_of_toNat_eq h
    · left;left;right; exact BitVec.eq_of_toNat_eq h
    · omega
    · omega

/-- The same as an equation. -/
theorem disjoint_eq (a b c d : Word) : disjoint a b c d = decide (Apart a.toNat b.toNat c.toNat d.toNat) := by
  rw [Bool.eq_iff_iff, disjoint_true, decide_eq_true_iff]

/-- `ALIAS_OK` in the terms of the statements (R67). -/
theorem aliasOk_true (x : Regs) (k : Word) : aliasOk x.inp x.inl x.outp k = true ↔ AliasFree x k := by
  simp only [aliasOk, AliasFree, Bool.or_eq_true, decide_eq_true_eq, disjoint_true]

/-- The same as an equation. -/
theorem aliasOk_eq (x : Regs) (k : Word) : aliasOk x.inp x.inl x.outp k = decide (AliasFree x k) := by
  rw [Bool.eq_iff_iff, aliasOk_true, decide_eq_true_iff]

/-- Writing a byte string stores it (R61). -/
theorem stores_writeBytes (m : Memory) (a : Nat) (bs : List Byte) (h : m.wf = true) : Stores m (m.writeBytes a bs) a bs :=
  ⟨fun i hi => Memory.read_writeBytes_inside m a bs i h hi, fun k hk => Memory.read_writeBytes_outside m a bs k h hk⟩

/-- The capability latch in the terms of the statements (R33). -/
theorem latchCap_eq (s : State) : s.latchCap std = { s with cap := s.latched } := by
  simp [State.latchCap, State.latched, capValid, capOfProbe, std]

/-- `firstFailing` by its first check. -/
theorem firstFailing_cons (b : Bool) (e) (cs) : firstFailing ((b,e)::cs) = if b = true then some e else firstFailing cs := rfl

/-- The code of a chain of checks, `ok` when none fails. -/
theorem getD_code (p : Prop) [Decidable p] (e : StatusCode) (x : Option StatusCode) : (if p then some e else x).getD .ok = if p then e else x.getD .ok := by split <;> rfl

/-- `LIMIT_PT` in the terms of the statements (R167). -/
theorem limitPt_eq (d : Descriptor) : limitPt std d = plaintextLimit d := by
  unfold limitPt plaintextLimit isGcm isKeywrap std; cases d.family <;> rfl

/-- The nonce check in the terms of the statements (R165). -/
theorem nonceOk_eq (d) (n) (f) : (!nonceOk d n f) = nonceRefused d n f := by
  unfold nonceOk nonceRefused; cases f <;> cases isKeywrap d <;> simp [bne] <;> (try rfl)

/-- The associated-data check in the terms of the statements (R166). -/
theorem adRefused_eq (d : Descriptor) (n : Nat) : decide (d.adLen ≠ none ∧ d.adLen ≠ some n) = adRefused d n := by
  unfold adRefused; cases d.adLen <;> simp [bne, eq_comm]; rw [Bool.eq_iff_iff]; simp

/-- The code of `SEAL` on a live slot is that of its list of checks (R163). -/
theorem sealCode_eq (s : State) (c : BitVec 8) (f : Bool) (d : Descriptor) (h : descriptor std (s.slot c).desc = some d) (hl : (s.slot c).live = true) (hb : BufsInRange s.x) :
   sealCode s c f = (firstFailing (sealChecks std s.x (s.slot c) d f)).getD .ok := by
  have hb' : ¬¬ BufsInRange s.x := fun h => h hb
  unfold sealCode
  rw [if_neg hb', h]
  simp only [hl]
  simp only [sealChecks, prologueChecks, List.cons_append, List.nil_append, firstFailing_cons, getD_code, firstFailing, Option.getD_none, nonceOk_eq, adRefused_eq, limitPt_eq, aliasOk_eq, Bool.and_eq_true, Bool.or_eq_true, Bool.not_eq_true', decide_eq_true_eq, decide_eq_false_iff_not]
  simp
  rfl

/-- The code of `OPEN` on a live slot is that of its list of checks (R163). -/
theorem openCode_eq (s : State) (c : BitVec 8) (f : Bool) (d : Descriptor) (h : descriptor std (s.slot c).desc = some d) (hl : (s.slot c).live = true) (hb : BufsInRange s.x) :
   openCode s c f = (firstFailing (openChecks std s.x (s.slot c) d f)).getD .ok := by
  have hb' : ¬¬ BufsInRange s.x := fun h => h hb
  have e1 : minOpen std d (s.slot c) = (openShape d (s.slot c) s.x.inl.toNat).minLen := by
    unfold minOpen openShape; cases d.family <;> rfl
  have e2 : shapeOk d s.x.inl.toNat = (openShape d (s.slot c) s.x.inl.toNat).shapeOk := by
    unfold shapeOk openShape; cases d.family <;> rfl
  have e3 : takeLen std d (s.slot c) = (openShape d (s.slot c) s.x.inl.toNat).take := by
    unfold takeLen openShape; cases d.family <;> rfl
  have e4 : needOpen d (s.slot c) s.x.inl.toNat = (openShape d (s.slot c) s.x.inl.toNat).need := by
    unfold needOpen openShape; cases d.family <;> rfl
  unfold openCode
  rw [if_neg hb', h]
  simp only [hl]
  simp only [openChecks, prologueChecks, List.cons_append, List.nil_append, firstFailing_cons, getD_code, firstFailing, Option.getD_none, nonceOk_eq, adRefused_eq, limitPt_eq, aliasOk_eq, e1, e2, e3, e4, Bool.and_eq_true, Bool.or_eq_true, Bool.not_eq_true', decide_eq_true_eq, decide_eq_false_iff_not]
  simp
  rfl

/-- The address checks of `SEAL` and `OPEN` together (R166). -/
theorem contractBufs_all (x : Regs) : (contractBufs x).all (fun b => bufOk std b.1 b.2) = true ↔ BufsInRange x := by
  simp [contractBufs, bufOk_true, BufsInRange]

/-- No check of `SEAL` raises `ok`. -/
theorem sealChecks_ne_ok (x sl d f) : firstFailing (sealChecks std x sl d f) ≠ some .ok := by
  intro h; have := firstFailing_mem _ _ h; simp [sealChecks, prologueChecks] at this

/-- No check of `OPEN` raises `ok`. -/
theorem openChecks_ne_ok (x sl d f) : firstFailing (openChecks std x sl d f) ≠ some .ok := by
  intro h; have := firstFailing_mem _ _ h; simp [openChecks, prologueChecks] at this

/-- Everything `SEAL` can do: a code is raised, or every check passes and the family's part runs. -/
theorem seal_cases (s : State) (c : BitVec 8) (f : Bool) (hc : c.toNat < 8) :
   (sealCode s c f ≠ .ok ∧ sealCode s c f ≠ .badCommand ∧ exec (.seal_ c f) s = .next (s.clearPerf.raise true (sealCode s c f))) ∨
   ∃ d, sealCode s c f = .ok ∧ BoundTo s c d ∧ BufsInRange s.x ∧ firstFailing (sealChecks std s.x (s.slot c) d f) = none ∧
     exec (.seal_ c f) s = if destOverlap s.x || (f && nonceOutOverlap s.x) then .refused .bufferOverlap
    else
      let n := if f then fixedNonce (s.slot c) else s.readBuf s.x.nonp s.x.nonl
      let r := sealPart std d (s.slot c) n (s.readBuf s.x.adp s.x.adl) (s.readBuf s.x.inp s.x.inl)
      .next ((sealFixed c r.2 f (s.clearPerf.writeBuf s.x.outp r.1)).done r.1.length) := by
  by_cases hb : BufsInRange s.x
  · cases hd : descriptor std (s.slot c).desc with
    | none =>
      have e : sealCode s c f = .state := by unfold sealCode; rw [if_neg (fun h => h hb), hd]
      left; rw [e]; refine ⟨by decide, by decide, ?_⟩
      simp only [exec, execSeal, sealOn, onSlot, std_nCtx, hc, if_true, (contractBufs_all _).2 hb, slotDesc, hd, ite_self]
    | some d =>
      cases hl : (s.slot c).live with
      | false =>
        have e : sealCode s c f = .state := by unfold sealCode; rw [if_neg (fun h => h hb), hd]; simp [hl]
        left; rw [e]; refine ⟨by decide, by decide, ?_⟩
        simp only [exec, execSeal, sealOn, onSlot, std_nCtx, hc, if_true, (contractBufs_all _).2 hb, slotDesc, hl]
        rfl
      | true =>
        have e := sealCode_eq s c f d hd hl hb
        have ex : exec (.seal_ c f) s = checked true (sealChecks std s.x (s.slot c) d f) s.clearPerf (fun s' => if destOverlap s'.x || (f && nonceOutOverlap s'.x) then .refused .bufferOverlap
            else
              let n := if f then fixedNonce (s.slot c) else s'.readBuf s'.x.nonp s'.x.nonl
              let r := sealPart std d (s.slot c) n (s'.readBuf s'.x.adp s'.x.adl) (s'.readBuf s'.x.inp s'.x.inl)
              .next ((sealFixed c r.2 f (s'.writeBuf s'.x.outp r.1)).done r.1.length)) := by
          simp only [exec, execSeal, sealOn, onSlot, std_nCtx, hc, if_true, (contractBufs_all _).2 hb, slotDesc, hl, hd, State.clearPerf_x]
        cases hf : firstFailing (sealChecks std s.x (s.slot c) d f) with
        | none =>
          right
          refine ⟨d, by rw [e, hf]; rfl, ⟨hc, hl, hd⟩, hb, hf, ?_⟩
          rw [ex, checked_none _ _ _ _ hf]; rfl
        | some e' =>
          left
          rw [e, hf]
          have h1 := sealChecks_ne_ok s.x (s.slot c) d f
          have h2 := firstFailing_mem _ _ hf
          refine ⟨by simp; rintro rfl; exact h1 hf, by simp; rintro rfl; simp [sealChecks, prologueChecks] at h2, ?_⟩
          rw [ex, checked_some _ _ _ _ _ hf]; rfl
  · have e : sealCode s c f = .badAddress := by unfold sealCode; rw [if_pos hb]
    left; rw [e]; refine ⟨by decide, by decide, ?_⟩
    have : (contractBufs s.x).all (fun b => bufOk std b.1 b.2) = false := by rw [← Bool.not_eq_true, contractBufs_all]; exact hb
    simp only [exec, execSeal, sealOn, onSlot, std_nCtx, hc, if_true, this]; rfl

/-- Everything `OPEN` can do: a code is raised, or every check passes and the family's part runs. -/
theorem open_cases (s : State) (c : BitVec 8) (f : Bool) (hc : c.toNat < 8) :
   (openCode s c f ≠ .ok ∧ openCode s c f ≠ .badCommand ∧ exec (.open_ c f) s = .next (s.clearPerf.raise true (openCode s c f))) ∨
   ∃ d, openCode s c f = .ok ∧ BoundTo s c d ∧ BufsInRange s.x ∧ firstFailing (openChecks std s.x (s.slot c) d f) = none ∧
     exec (.open_ c f) s = if destOverlap s.x then .refused .bufferOverlap
    else
      let given := s.readBuf s.x.nonp s.x.nonl
      let n := if f then fixedPart (s.slot c) ++ given else given
      let r := openPart std d (s.slot c) n (s.readBuf s.x.adp s.x.adl) (s.readBuf s.x.inp s.x.inl)
      .next (openFinish std c r s.clearPerf) := by
  by_cases hb : BufsInRange s.x
  · cases hd : descriptor std (s.slot c).desc with
    | none =>
      have e : openCode s c f = .state := by unfold openCode; rw [if_neg (fun h => h hb), hd]
      left; rw [e]; refine ⟨by decide, by decide, ?_⟩
      simp only [exec, execOpen, openOn, onSlot, std_nCtx, hc, if_true, (contractBufs_all _).2 hb, slotDesc, hd, ite_self]
    | some d =>
      cases hl : (s.slot c).live with
      | false =>
        have e : openCode s c f = .state := by unfold openCode; rw [if_neg (fun h => h hb), hd]; simp [hl]
        left; rw [e]; refine ⟨by decide, by decide, ?_⟩
        simp only [exec, execOpen, openOn, onSlot, std_nCtx, hc, if_true, (contractBufs_all _).2 hb, slotDesc, hl]
        rfl
      | true =>
        have e := openCode_eq s c f d hd hl hb
        have ex : exec (.open_ c f) s = checked true (openChecks std s.x (s.slot c) d f) s.clearPerf (fun s' => if destOverlap s'.x then .refused .bufferOverlap
            else
              let given := s'.readBuf s'.x.nonp s'.x.nonl
              let n := if f then fixedPart (s.slot c) ++ given else given
              let r := openPart std d (s.slot c) n (s'.readBuf s'.x.adp s'.x.adl) (s'.readBuf s'.x.inp s'.x.inl)
              .next (openFinish std c r s')) := by
          simp only [exec, execOpen, openOn, onSlot, std_nCtx, hc, if_true, (contractBufs_all _).2 hb, slotDesc, hl, hd, State.clearPerf_x]
        cases hf : firstFailing (openChecks std s.x (s.slot c) d f) with
        | none =>
          right
          refine ⟨d, by rw [e, hf]; rfl, ⟨hc, hl, hd⟩, hb, hf, ?_⟩
          rw [ex, checked_none _ _ _ _ hf]; rfl
        | some e' =>
          left
          rw [e, hf]
          have h1 := openChecks_ne_ok s.x (s.slot c) d f
          have h2 := firstFailing_mem _ _ hf
          refine ⟨by simp; rintro rfl; exact h1 hf, by simp; rintro rfl; simp [openChecks, prologueChecks] at h2, ?_⟩
          rw [ex, checked_some _ _ _ _ _ hf]; rfl
  · have e : openCode s c f = .badAddress := by unfold openCode; rw [if_pos hb]
    left; rw [e]; refine ⟨by decide, by decide, ?_⟩
    have : (contractBufs s.x).all (fun b => bufOk std b.1 b.2) = false := by rw [← Bool.not_eq_true, contractBufs_all]; exact hb
    simp only [exec, execOpen, openOn, onSlot, std_nCtx, hc, if_true, this]; rfl

/-- The overlap of the destination in the terms of the statements (R68). -/
theorem destOverlap_eq (x : Regs) : destOverlap x = decide (¬ Separate x) := by
  simp only [destOverlap, disjoint_eq]; rw [Bool.eq_iff_iff]; simp [Separate]

/-- The overlap of the nonce output in the terms of the statements (R68). -/
theorem nonceOutOverlap_eq (x : Regs) : nonceOutOverlap x = decide (¬ NonceOutSeparate x) := by
  simp only [nonceOutOverlap, disjoint_eq]; rw [Bool.eq_iff_iff]; simp [NonceOutSeparate]

end Sys2Proof.Machine
end

