-- ==== Sys2Proof/Laws/PerInstr.lean ====
section
/-! SUPPORT. A law of every instruction as syntax: its encoding carries exactly the fixed bits that its row of the
opcode table gives (R84). -/

namespace Sys2Proof.Laws.EncodingMatchesTable

/-- The fixed bits of the encoding are those of the instruction's row (R84, spec/opcode_table.json). -/
def Statement (i : Instr) : Prop := encode i &&& (rowOf i).mask = (rowOf i).pattern

/-- Masking a packed word masks its fields. -/
theorem packWord_and (op c d f op' c' d' f' : BitVec 8) :
    packWord op c d f &&& packWord op' c' d' f' = packWord (op &&& op') (c &&& c') (d &&& d') (f &&& f') := by
  simp only [packWord]
  rw [BitVec.and_append, BitVec.and_append, BitVec.and_append]

/-- A flag is bit 0 of its field. -/
theorem flagBit_and (b : Bool) : flagBit b &&& 0xFE = 0 := by cases b <;> rfl

/-- A row that names a slot fixes every other field. -/
theorem slot_row (op c : BitVec 8) : packWord op c 0 0 &&& packWord 0xFF 0 0xFF 0xFF = packWord op 0 0 0 := by
  rw [packWord_and, show op &&& 0xFF = op from BitVec.and_allOnes]
  simp

/-- A row that names a slot and defines flag bit 0. -/
theorem slot_flag_row (op c : BitVec 8) (b : Bool) :
    packWord op c 0 (flagBit b) &&& packWord 0xFF 0 0xFF 0xFE = packWord op 0 0 0 := by
  rw [packWord_and, flagBit_and, show op &&& 0xFF = op from BitVec.and_allOnes]
  simp

/-- The row that names a slot and a descriptor and defines flag bit 0. -/
theorem slot_desc_flag_row (op c d : BitVec 8) (b : Bool) :
    packWord op c d (flagBit b) &&& packWord 0xFF 0 0 0xFE = packWord op 0 0 0 := by
  rw [packWord_and, flagBit_and, show op &&& 0xFF = op from BitVec.and_allOnes]
  simp

/-- `NOP`. -/
theorem nop : Statement .nop := rfl

/-- `INIT`. -/
theorem init (c d : BitVec 8) (o : Bool) : Statement (.init c d o) := slot_desc_flag_row 0x01 c d o

/-- `SEAL`. -/
theorem seal_ (c : BitVec 8) (f : Bool) : Statement (.seal_ c f) := slot_flag_row 0x02 c f

/-- `OPEN`. -/
theorem open_ (c : BitVec 8) (f : Bool) : Statement (.open_ c f) := slot_flag_row 0x03 c f

/-- `CLEANUP`. -/
theorem cleanup (c : BitVec 8) : Statement (.cleanup c) := slot_row 0x04 c

/-- `GETSTREAM`. -/
theorem getstream (c : BitVec 8) : Statement (.getstream c) := slot_row 0x05 c

/-- `SETIVFIXED`. -/
theorem setivfixed (c : BitVec 8) : Statement (.setivfixed c) := slot_row 0x06 c

/-- `GCM_KEY`. -/
theorem gcmKey : Statement .gcmKey := rfl

/-- `GCM_SETIV`. -/
theorem gcmSetiv : Statement .gcmSetiv := rfl

/-- `GCM_AAD`. -/
theorem gcmAad : Statement .gcmAad := rfl

/-- `GCM_ENC`. -/
theorem gcmEnc : Statement .gcmEnc := rfl

/-- `GCM_DEC`. -/
theorem gcmDec : Statement .gcmDec := rfl

/-- `GCM_FINISH`. -/
theorem gcmFinish : Statement .gcmFinish := rfl

/-- `GCM_TAG`. -/
theorem gcmTag : Statement .gcmTag := rfl

/-- `GCM_CLEAR`. -/
theorem gcmClear : Statement .gcmClear := rfl

/-- `GH_LOADH`. -/
theorem ghLoadh : Statement .ghLoadh := rfl

/-- `GH_LOADX`. -/
theorem ghLoadx : Statement .ghLoadx := rfl

/-- `GH_MUL`. -/
theorem ghMul : Statement .ghMul := rfl

/-- `GH_HASH`. -/
theorem ghHash : Statement .ghHash := rfl

/-- `GH_STOREX`. -/
theorem ghStorex : Statement .ghStorex := rfl

/-- `CTR_LOAD`. -/
theorem ctrLoad : Statement .ctrLoad := rfl

/-- `CTR_XOR`. -/
theorem ctrXor : Statement .ctrXor := rfl

end Sys2Proof.Laws.EncodingMatchesTable
end

