-- ==== Sys2Proof/Tests/Slice0.lean ====
section
/-! SUPPORT. Tests of one step each, with expected values from the spec's encodings (30_encoding.md) and worked examples
(95_test_vectors.md), and for every obligation with hypotheses a theorem `test_witness_<Name>` that shows states and
operands meeting them, one conjunct for each clause. -/

namespace Sys2Proof.Tests

open Sys2Proof Sys2Proof.Machine

set_option Elab.async false

/-! ## Well-formedness -/

/-- R34, R83 (b): slots 0 to 7. -/
theorem test_ill_formed_slot :
    (Instr.init 8 0 false).wellFormed = false ∧ (Instr.seal_ 8 true).wellFormed = false ∧
    (Instr.open_ 8 false).wellFormed = false ∧ (Instr.cleanup 8).wellFormed = false ∧
    (Instr.getstream 255).wellFormed = false ∧ (Instr.setivfixed 8).wellFormed = false := by decide +kernel

/-- R30, R83 (c): descriptor ids 0 to 7. -/
theorem test_ill_formed_descriptor : (Instr.init 0 8 false).wellFormed = false := by decide +kernel

theorem test_well_formed :
    (Instr.init 7 7 true).wellFormed = true ∧ (Instr.seal_ 7 true).wellFormed = true ∧
    Instr.ctrXor.wellFormed = true := by decide +kernel

/-! ## Decoding: words written out from the fields `op`, `ctx`, `desc`, `flags` of R80 and the table of R82 -/

theorem test_decode_nop : decode 0b00000000_00000000_00000000_00000000 = .ok .nop := by decide +kernel

theorem test_decode_init :
    decode 0b00000001_00000011_00000101_00000000 = .ok (.init 3 5 false) ∧
    decode 0b00000001_00000111_00000010_00000001 = .ok (.init 7 2 true) := by decide +kernel

theorem test_decode_contract :
    decode 0b00000010_00000001_00000000_00000000 = .ok (.seal_ 1 false) ∧
    decode 0b00000010_00000110_00000000_00000001 = .ok (.seal_ 6 true) ∧
    decode 0b00000011_00000010_00000000_00000000 = .ok (.open_ 2 false) ∧
    decode 0b00000011_00000101_00000000_00000001 = .ok (.open_ 5 true) ∧
    decode 0b00000100_00000100_00000000_00000000 = .ok (.cleanup 4) := by decide +kernel

theorem test_decode_side_doors :
    decode 0b00000101_00000011_00000000_00000000 = .ok (.getstream 3) ∧
    decode 0b00000110_00000111_00000000_00000000 = .ok (.setivfixed 7) := by decide +kernel

theorem test_decode_engine :
    decode 0b00010000_00000000_00000000_00000000 = .ok .gcmKey ∧
    decode 0b00010001_00000000_00000000_00000000 = .ok .gcmSetiv ∧
    decode 0b00010010_00000000_00000000_00000000 = .ok .gcmAad ∧
    decode 0b00010011_00000000_00000000_00000000 = .ok .gcmEnc ∧
    decode 0b00010100_00000000_00000000_00000000 = .ok .gcmDec ∧
    decode 0b00010101_00000000_00000000_00000000 = .ok .gcmFinish ∧
    decode 0b00010110_00000000_00000000_00000000 = .ok .gcmTag ∧
    decode 0b00010111_00000000_00000000_00000000 = .ok .gcmClear := by decide +kernel

theorem test_decode_multiplier :
    decode 0b00100000_00000000_00000000_00000000 = .ok .ghLoadh ∧
    decode 0b00100001_00000000_00000000_00000000 = .ok .ghLoadx ∧
    decode 0b00100010_00000000_00000000_00000000 = .ok .ghMul ∧
    decode 0b00100011_00000000_00000000_00000000 = .ok .ghHash ∧
    decode 0b00100100_00000000_00000000_00000000 = .ok .ghStorex := by decide +kernel

theorem test_decode_counter :
    decode 0b00110000_00000000_00000000_00000000 = .ok .ctrLoad ∧
    decode 0b00110001_00000000_00000000_00000000 = .ok .ctrXor := by decide +kernel

/-- Each way a word is not legal (R83, R87, R88). -/
theorem test_decode_rejects :
    decode 0x07000000 = .error .unknownOpcode ∧ decode 0xFF000000 = .error .unknownOpcode ∧
    decode 0x00010000 = .error .ctxNotZero ∧ decode 0x10000100 = .error .descNotZero ∧
    decode 0x31000080 = .error .flagsNotZero ∧ decode 0x02000002 = .error .flagsNotZero ∧
    decode 0x02080000 = .error .ctxOutOfRange ∧ decode 0x01000800 = .error .descUnknown ∧
    decode 0x04000001 = .error .flagsNotZero := by decide +kernel

/-! ## States for the tests -/

/-- Slot 0 as given, every other slot free, the other parts as after reset. -/
def st (x : Regs) (sl : Slot := {}) (m : Memory := []) : State :=
  { x := x, ctx := (Vector.replicate 256 {}).set 0 sl, mem := m }

/-- The slots of `st`. -/
theorem st_slot (x : Regs) (sl : Slot) (m : Memory) (c : BitVec 8) :
    (st x sl m).slot c = if c.toNat = 0 then sl else {} := by
  simp [st, State.slot, Vector.getElem_set, eq_comm]

/-- Whether an outcome is a next state with a property. -/
def after (r : Result) (p : State → Bool) : Bool :=
  match r with
  | .next t => p t
  | .fault _ => false
  | .refused _ => false

/-- An outcome that passes `after` is a next state with the property. -/
theorem next_of_after {r : Result} {P : State → Prop} [DecidablePred P] (h : after r (fun t => decide (P t)) = true) :
    ∃ t, r = .next t ∧ P t := by
  cases r with
  | next t => exact ⟨t, rfl, by simpa [after] using h⟩
  | fault r => simp [after] at h
  | refused r => simp [after] at h

/-- The buffer addresses of 95_test_vectors.md. -/
def bufs : Regs := { keyp := 0x1000, nonp := 0x1100, adp := 0x1200, inp := 0x2000, outp := 0x3000 }

/-- Sixteen zero bytes. -/
def key0 : List Byte := zeros 16

/-- A `GCM` slot of descriptor 0 under the zero key. -/
def gcmSlot : Slot :=
  { live := true, desc := 0, tagLen := 16, encKey := key0, h := Config.blockCipher .aes key0 0,
    htable := ghTable (Config.blockCipher .aes key0 0) }

/-- A slot of the block-cipher legacy descriptor 2 (`CBC_TLS`) or 3 (`CBC_SSL3`). -/
def cbcSlot (id : BitVec 8) (dir : Dir) : Slot :=
  { live := true, desc := id, dir := dir, tagLen := 20, encKey := key0, macKey := zeros 20 }

/-- A slot of the stream descriptor 5, which exposes its state. -/
def streamSlot (dir : Dir) : Slot :=
  { live := true, desc := 5, dir := dir, tagLen := 16, encKey := key0, macKey := key0,
    scState := (Config.streamInit .stateful key0).toList }

/-- A slot of the key-wrap descriptor 6. -/
def kwSlot : Slot := { live := true, desc := 6, tagLen := 8, encKey := key0 }

/-! ## Worked examples -/

/-- V-GH-1 (R100, R101). -/
theorem test_gfmul :
    gfmul 0x40000000000000000000000000000000 0x40000000000000000000000000000000 =
      0x20000000000000000000000000000000 ∧
    gfmul 0x00000000000000000000000000000001 0x40000000000000000000000000000000 =
      0xe1000000000000000000000000000000 ∧
    gfmul 0x0388dace60b6a392f328c2b971b2fe78 0x66e94bd4ef8a2c3b884cfa59ca342b2e =
      0x5e2ec746917062882c85b0685353deb7 := by decide +kernel

/-- V-GH-2 (R105, R106, R107, R109). -/
theorem test_gfmul_paths :
    gfmulTable 0x000102030405060708090a0b0c0d0e0f (ghTable 0xffeeddccbbaa99887766554433221100) =
      0x0ef18c114c9b6e7bab762996e91ccbfc ∧
    gfmulClmul 0x000102030405060708090a0b0c0d0e0f 0xffeeddccbbaa99887766554433221100 =
      0x0ef18c114c9b6e7bab762996e91ccbfc ∧
    tableAt (ghTable 0x66e94bd4ef8a2c3b884cfa59ca342b2e) 15 = 0x307a95b13e5cf4afdf7026a864e5b117 ∧
    mulx4 1 = 0x1c200000000000000000000000000000 := by decide +kernel

/-- V-CTR-3 (R120): the counter wraps in its last 4 bytes. -/
theorem test_inc32_wraps :
    inc32 0xa0a1a2a3a4a5a6a7a8a9aaabffffffff = 0xa0a1a2a3a4a5a6a7a8a9aaab00000000 := by decide +kernel

/-! ### One step of each command -/

/-- V-AEAD-4: `NOP` (R89). -/
theorem test_nop :
    after (exec .nop { State.reset with status := 12, perfMemacc := 7 })
      (fun t => t.status = 0 ∧ t.perfMemacc = 0) = true := by decide +kernel

/-- V-AEAD-1 rows 1, 2, 3, 7, 8 (R164): `STATUS` and `CTXSTAT`, with an id of 0 latched as there. -/
theorem test_init :
    let s := fun l g : Word => { st { bufs with keyl := l, tagl := g } kwSlot with cap := 0x80000000 }
    after (exec (.init 0 0 false) (s 16 0)) (fun t => t.status = 0 ∧ t.regRead 0x20 = 0x00100001) = true ∧
    after (exec (.init 0 0 false) (s 15 0)) (fun t => t.status = 4 ∧ t.regRead 0x20 = 0) = true ∧
    after (exec (.init 0 0 false) (s 16 17)) (fun t => t.status = 6 ∧ t.regRead 0x20 = 0) = true ∧
    after (exec (.init 3 6 false) (s 16 8)) (fun t => t.status = 0 ∧ t.regRead 0x23 = 0x00080601) = true ∧
    after (exec (.init 0 0 true) (s 16 0)) (fun t => t.status = 1 ∧ t.slot 0 = kwSlot) = true := by decide +kernel

/-- The toy block cipher of 95_test_vectors.md section 1. -/
def toyBc (k : List Byte) : Equiv.Perm Block :=
  ⟨fun x => x ^^^ blockOf (k.take 16), fun x => x ^^^ blockOf (k.take 16),
    fun x => by simp, fun x => by simp⟩

/-- The toy MAC of 95_test_vectors.md section 1. -/
def toyMac (k m : List Byte) : Vector Byte 4 :=
  let t := fun i => (m.zipIdx.filter (fun q => q.2 % 4 = i)).foldl (fun a q => a ^^^ q.1) (k.getD i 0)
  #v[t 0 ^^^ BitVec.ofNat 8 m.length, t 1, t 2, t 3]

/-- The toy stream cipher of 95_test_vectors.md section 1: the map of a state `k ‖ pos`. -/
def toyStream (s d : List Byte) : List Byte :=
  d.zipIdx.map (fun q => q.1 ^^^ s.getD (((s.getD 4 0).toNat + q.2) % 4) 0 ^^^ (s.getD 4 0 + BitVec.ofNat 8 q.2))

/-- The toy capabilities and `TOY_TABLE` of 95_test_vectors.md section 1. -/
def toy : Cfg :=
  { std with
    bc := fun _ => toyBc
    macLen := fun _ => 4
    macKeylen := fun _ => 4
    mac := fun _ => toyMac
    scKeylen := fun _ => 4
    scStateLen := fun _ => 5
    scInit := fun _ k => #v[k.getD 0 0, k.getD 1 0, k.getD 2 0, k.getD 3 0, 0]
    scMap := fun _ s _ d => toyStream s d
    scNext := fun _ s _ n => #v[s.getD 0 0, s.getD 1 0, s.getD 2 0, s.getD 3 0, s.getD 4 0 + BitVec.ofNat 8 n]
    table :=
      [ { family := .gcm .aes, keyLen := 16, nonceLen := 12, overhead := 16, maxTagLen := 16, macKeyLen := 0, adLen := none },
        { family := .cbcTls .aes .hmacSha1 16, keyLen := 20, nonceLen := 16, overhead := 20, maxTagLen := 4,
          macKeyLen := 4, adLen := some 11 },
        { family := .stream .stateful .hmacSha1 true, keyLen := 8, nonceLen := 0, overhead := 4, maxTagLen := 4,
          macKeyLen := 4, adLen := some 11 },
        { family := .keywrap .aes, keyLen := 16, nonceLen := 8, overhead := 8, maxTagLen := 8, macKeyLen := 0,
          adLen := some 0 } ] }

/-- The bytes `a`, `a + 1`, … . -/
def run (a n : Nat) : List Byte := (List.range n).map (fun i => BitVec.ofNat 8 (a + i))

/-- `hello`. -/
def hello : List Byte := [0x68, 0x65, 0x6c, 0x6c, 0x6f]

/-- `AD1` of 95_test_vectors.md. -/
def ad1 : List Byte := [0, 0, 0, 0, 0, 0, 0, 1, 0x17, 3, 1]

/-- A memory that holds byte strings at addresses. -/
def memOf (l : List (Nat × List Byte)) : Memory := l.foldl (fun m q => m.writeBytes q.1 q.2) []

/-- A slot of toy descriptor `id` with the key of the vectors. -/
def toySlot (id : BitVec 8) (dir : Dir) (tagLen : BitVec 8) (k mk sc : List Byte) : Slot :=
  { live := true, desc := id, dir := dir, tagLen := tagLen, encKey := k, macKey := mk, scState := sc,
    h := if id = 0 then blockOf k else 0, htable := if id = 0 then ghTable (blockOf k) else Vector.replicate 16 0 }

/-- The toy slot of the `GCM` vectors. -/
def toyGcm : Slot := toySlot 0 .both 16 (run 0 16) [] []

/-- V-AG-5: `SEAL` on a `GCM` slot (R191). -/
theorem test_seal_gcm :
    after (sealOn toy 0 false (st { bufs with nonl := 12, adl := 3, inl := 5, outmax := 21 } toyGcm
        (memOf [(0x1100, run 0xa0 12), (0x1200, [1, 2, 3]), (0x2000, hello)])))
      (fun t => t.status = 0 ∧ t.outlen = 21 ∧ t.mem.readBytes 0x3000 21 =
        [0xc8, 0xc5, 0xcc, 0xcc, 0xcf] ++ be 16 0x3e447865614d67e9fdd96f86e30ff622) = true := by decide +kernel

/-- V-TLS-3: `SEAL` on a block-cipher legacy slot (R214). -/
theorem test_seal_cbc :
    after (sealOn toy 0 false (st { bufs with nonl := 16, adl := 11, inl := 5, outmax := 25 }
        (toySlot 1 .sealOnly 4 (run 0 16) [0xc0, 0xc1, 0xc2, 0xc3] [])
        (memOf [(0x1100, run 0xf0 16), (0x1200, ad1), (0x2000, hello)])))
      (fun t => t.status = 0 ∧ t.outlen = 16 ∧
        t.mem.readBytes 0x3000 16 = be 16 0x98959c9c9f5c35565ef6f6f6f6f6f6f6) = true := by decide +kernel

/-- V-TLS-3: `OPEN` of that record, and of it with the last byte `f7` (R219). -/
theorem test_open_cbc :
    let s := fun c : Nat => st { bufs with nonl := 16, adl := 11, inl := 16, outmax := 16 }
      (toySlot 1 .openOnly 4 (run 0 16) [0xc0, 0xc1, 0xc2, 0xc3] [])
      (memOf [(0x1100, run 0xf0 16), (0x1200, ad1), (0x2000, be 16 c)])
    after (openOn toy 0 false (s 0x98959c9c9f5c35565ef6f6f6f6f6f6f6))
      (fun t => t.status = 0 ∧ t.outlen = 5 ∧ t.mem.readBytes 0x3000 5 = hello) = true ∧
    after (openOn toy 0 false (s 0x98959c9c9f5c35565ef6f6f6f6f6f6f7))
      (fun t => t.status = 12 ∧ t.outlen = 0 ∧ t.mem.readBytes 0x3000 16 = zeros 16) = true := by decide +kernel

/-- V-STR-2: `OPEN` on a stream slot (R225, R226). -/
theorem test_open_stream :
    after (openOn toy 0 false (st { bufs with adl := 11, inl := 9, outmax := 9 }
        (toySlot 2 .openOnly 4 [0x11, 0x22, 0x33, 0x44] [0xc0, 0xc1, 0xc2, 0xc3] [0x11, 0x22, 0x33, 0x44, 0])
        (memOf [(0x1200, ad1), (0x2000, be 9 0x79465d2b7a8bf0e5b7)])))
      (fun t => t.status = 0 ∧ t.outlen = 5 ∧ t.mem.readBytes 0x3000 5 = hello ∧
        (t.slot 0).scState = [0x11, 0x22, 0x33, 0x44, 9]) = true := by decide +kernel

/-- V-KW-4: wrapping with the toy cipher, and unwrapping (R243, R244). -/
theorem test_key_wrap :
    kwWrap (toyBc (run 0 16)) 0xA6A6A6A6A6A6A6A6 (be 16 0x00112233445566778899aabbccddeeff) =
      be 8 0xa6a6a6a6a6a6a6aa ++ be 16 0x00112233445566778899aabbccddeeff ∧
    kwUnwrap (toyBc (run 0 16)).symm 0xA6A6A6A6A6A6A6A6
      (be 8 0xa6a6a6a6a6a6a6aa ++ be 16 0x00112233445566778899aabbccddeeff) =
      some (be 16 0x00112233445566778899aabbccddeeff) := by decide +kernel

/-- V-AEAD-2, the row on a free slot: the destination is zero-filled (R257). -/
theorem test_seal_free_slot :
    after (exec (.seal_ 1 false) (st { bufs with nonl := 12, inl := 4, outmax := 20 } gcmSlot
        (memOf [(0x3000, List.replicate 32 0xEE)])))
      (fun t => t.status = 3 ∧ t.outlen = 0 ∧ t.mem.readBytes 0x3000 21 = zeros 20 ++ [0xEE]) = true := by
  decide +kernel

/-- V-AEAD-3: `CLEANUP` (R171). -/
theorem test_cleanup :
    after (exec (.cleanup 0) (st bufs kwSlot)) (fun t => t.status = 0 ∧ t.regRead 0x20 = 0 ∧ t.slot 0 = {}) = true := by
  decide +kernel

/-- V-STR-3: `GETSTREAM`, and a buffer one byte short (R228). -/
theorem test_getstream :
    let s := fun n : Word => st { bufs with outmax := n }
      (toySlot 2 .sealOnly 4 [0x11, 0x22, 0x33, 0x44] [0xc0, 0xc1, 0xc2, 0xc3] [0x11, 0x22, 0x33, 0x44, 0xf])
    after (getstreamOn toy 0 (s 5))
      (fun t => t.status = 0 ∧ t.outlen = 5 ∧ t.mem.readBytes 0x3000 5 = [0x11, 0x22, 0x33, 0x44, 0xf]) = true ∧
    after (getstreamOn toy 0 (s 4)) (fun t => t.status = 9 ∧ t.mem = []) = true := by decide +kernel

/-- V-AG-4: `SETIVFIXED`, seen in `CTXSTAT`, and with a nonce of 4 bytes (R196). -/
theorem test_setivfixed :
    after (exec (.setivfixed 0) (st { bufs with nonl := 12 } gcmSlot (memOf [(0x1100, be 12 0xdeadbeef0000000000000000)])))
      (fun t => t.status = 0 ∧ t.regRead 0x20 = 0x00100009 ∧ (t.slot 0).ivFixed = 0xdeadbeef0000000000000000) = true ∧
    after (exec (.setivfixed 0) (st { bufs with nonl := 4 } gcmSlot)) (fun t => t.status = 5) = true := by decide +kernel

/-- V-AG-4: a fixed-IV `SEAL` writes the explicit part and advances the counter, which wraps (R197). -/
theorem test_seal_fixediv :
    after (sealOn toy 0 true (st { bufs with nonl := 8, outmax := 18 }
        { toyGcm with ivFixed := 0xdeadbeefffffffffffffffff, ivFixedSet := true }))
      (fun t => t.status = 0 ∧ t.mem.readBytes 0x1100 8 = List.replicate 8 0xff ∧
        (t.slot 0).ivFixed = 0xdeadbeef0000000000000000) = true := by decide +kernel

/-- An engine under the toy key `00 … 0f`, in a phase. -/
def toyEng (p : Phase) : Engine :=
  { phase := p, key := run 0 16, keylen := 16, h := blockOf (run 0 16), htable := ghTable (blockOf (run 0 16)) }

/-- V-GCM-7: `GCM_KEY` with 20 bytes, and with 24 (R132). -/
theorem test_gcm_key :
    after (exec .gcmKey (st { bufs with keyl := 20 })) (fun t => t.status = 4 ∧ t.eng = {}) = true ∧
    after (exec .gcmKey (st { bufs with keyl := 24 })) (fun t => t.status = 0 ∧ t.eng.phase = .keyed) = true := by
  decide +kernel

/-- V-GCM-6: `GCM_SETIV` (R133, R134). -/
theorem test_gcm_setiv :
    after (gcmSetivOn toy { st { bufs with nonl := 12 } {} (memOf [(0x1100, run 0xa0 12)]) with eng := toyEng .keyed })
      (fun t => t.status = 0 ∧ t.eng.phase = .nonceSet ∧ t.eng.ek0 = 0xa0a0a0a0a0a0a0a0a0a0a0a00c0d0e0e ∧
        t.eng.cb = 0xa0a1a2a3a4a5a6a7a8a9aaab00000002) = true := by decide +kernel

/-- V-GCM-3: `GCM_AAD` of three bytes; V-GCM-7: not after payload (R136). -/
theorem test_gcm_aad :
    after (exec .gcmAad { st { bufs with adl := 3 } {} (memOf [(0x1200, [1, 2, 3])]) with eng := toyEng .nonceSet })
      (fun t => t.status = 0 ∧ t.eng.phase = .aad ∧ t.eng.alen = 3 ∧ t.eng.pfill = 3 ∧
        t.eng.pbuf = 0x01020300000000000000000000000000 ∧ t.eng.xi = 0) = true ∧
    after (exec .gcmAad { st { bufs with adl := 0 } with eng := toyEng .payload })
      (fun t => t.status = 3 ∧ t.eng = toyEng .payload) = true := by decide +kernel

/-- The engine of V-GCM-6 after its associated data. -/
def toyAad : Engine :=
  { toyEng .aad with
    cb := 0xa0a1a2a3a4a5a6a7a8a9aaab00000002, ek0 := 0xa0a0a0a0a0a0a0a0a0a0a0a00c0d0e0e, alen := 3, pfill := 3,
    pbuf := 0x01020300000000000000000000000000 }

/-- V-GCM-6: `GCM_ENC` and `GCM_DEC` of five bytes leave the same engine (R137, R138, R139). -/
theorem test_gcm_enc_dec :
    after (gcmCryptOn toy .encrypt { st { bufs with inl := 5 } {} (memOf [(0x2000, hello)]) with eng := toyAad })
      (fun t => t.status = 0 ∧ t.outlen = 5 ∧ t.mem.readBytes 0x3000 5 = [0xc8, 0xc5, 0xcc, 0xcc, 0xcf] ∧
        t.eng.xi = 0x0e0209c4080810000818200008081000 ∧ t.eng.pbuf = 0xc8c5cccccf0000000000000000000000) = true ∧
    after (gcmCryptOn toy .decrypt { st { bufs with inl := 5 } {} (memOf [(0x2000, [0xc8, 0xc5, 0xcc, 0xcc, 0xcf])])
        with eng := toyAad })
      (fun t => t.mem.readBytes 0x3000 5 = hello ∧ t.eng.pbuf = 0xc8c5cccccf0000000000000000000000) = true := by
  decide +kernel

/-- V-GCM-10: an output one byte into the input (R67, R137). -/
theorem test_gcm_enc_alias :
    after (exec .gcmEnc { st { bufs with inl := 16, outp := 0x2001 } with eng := toyAad })
      (fun t => t.status = 10 ∧ t.eng = toyAad) = true ∧
    after (exec .gcmDec { st { bufs with inp := 0xFFFFFFFFFFFFFFF8, inl := 16 } with eng := toyAad })
      (fun t => t.status = 2 ∧ t.eng = toyAad) = true := by decide +kernel

/-- The engine of V-GCM-6 after its payload. -/
def toyPayload : Engine :=
  { toyAad with
    phase := .payload, mlen := 5, pfill := 5, xi := 0x0e0209c4080810000818200008081000
    pbuf := 0xc8c5cccccf0000000000000000000000 }

/-- V-GCM-6, V-GCM-3: `GCM_TAG`, cut to 4 bytes, and of 17 bytes (R140, R141). -/
theorem test_gcm_tag :
    after (exec .gcmTag { st { bufs with tagl := 4 } with eng := toyPayload })
      (fun t => t.status = 0 ∧ t.outlen = 4 ∧ t.mem.readBytes 0x3000 5 = [0x3e, 0x44, 0x78, 0x65, 0] ∧
        t.eng.xi = 0x3e447865614d67e9fdd96f86e30ff622 ∧ t.eng.phase = .final) = true ∧
    after (exec .gcmTag { st { bufs with tagl := 17 } with eng := toyPayload })
      (fun t => t.status = 6 ∧ t.eng = toyPayload) = true := by decide +kernel

/-- V-GCM-8 on the engine of V-GCM-6: `GCM_FINISH` with the tag and with its last byte changed (R142). -/
theorem test_gcm_finish :
    after (exec .gcmFinish { st bufs {} (memOf [(0x2000, be 16 0x3e447865614d67e9fdd96f86e30ff622)]) with eng := toyPayload })
      (fun t => t.status = 0 ∧ t.eng.phase = .final) = true ∧
    after (exec .gcmFinish { st bufs {} (memOf [(0x2000, be 16 0x3e447865614d67e9fdd96f86e30ff623)]) with eng := toyPayload })
      (fun t => t.status = 12 ∧ t.eng.phase = .final) = true := by decide +kernel

/-- V-GCM-7: `GCM_CLEAR` (R143) scrubs the counter unit too. -/
theorem test_gcm_clear :
    after (exec .gcmClear { st bufs with eng := toyPayload, ctr := { valid := true, cb := 5 } })
      (fun t => t.status = 0 ∧ t.eng = {} ∧ t.ctr = {}) = true := by decide +kernel

/-- A multiplier unit with the subkey of V-GH-3. -/
def ghAes (x : Block) : GhUnit :=
  { valid := true, h := 0x66e94bd4ef8a2c3b884cfa59ca342b2e, htable := ghTable 0x66e94bd4ef8a2c3b884cfa59ca342b2e, x := x }

/-- V-GH-3 b and j (R110). -/
theorem test_gh_loadh :
    after (exec .ghLoadh (st { bufs with inl := 16 } {} (memOf [(0x2000, be 16 0x66e94bd4ef8a2c3b884cfa59ca342b2e)])))
      (fun t => t.status = 0 ∧ t.gh.valid ∧ t.gh.h = 0x66e94bd4ef8a2c3b884cfa59ca342b2e ∧ t.gh.x = 0) = true ∧
    after (exec .ghLoadh { st { bufs with inl := 32 } with gh := ghAes 7 })
      (fun t => t.status = 8 ∧ t.gh = ghAes 7) = true := by decide +kernel

/-- V-GH-3 c (R111). -/
theorem test_gh_loadx :
    after (exec .ghLoadx { st { bufs with inl := 16 } {} (memOf [(0x2000, be 16 0x0388dace60b6a392f328c2b971b2fe78)])
        with gh := ghAes 0 })
      (fun t => t.status = 0 ∧ t.gh = ghAes 0x0388dace60b6a392f328c2b971b2fe78) = true := by decide +kernel

/-- V-GH-3 a and d (R112). -/
theorem test_gh_mul :
    after (exec .ghMul State.reset) (fun t => t.status = 3) = true ∧
    after (exec .ghMul { st bufs with gh := ghAes 0x0388dace60b6a392f328c2b971b2fe78 })
      (fun t => t.status = 0 ∧ t.gh = ghAes 0x5e2ec746917062882c85b0685353deb7) = true := by decide +kernel

/-- V-GH-3 e (R114). -/
theorem test_gh_storex :
    after (exec .ghStorex { st bufs with gh := ghAes 0x5e2ec746917062882c85b0685353deb7 })
      (fun t => t.status = 0 ∧ t.outlen = 16 ∧ t.mem.readBytes 0x3000 16 = be 16 0x5e2ec746917062882c85b0685353deb7) =
      true := by decide +kernel

/-- V-GH-3 f and g (R113). -/
theorem test_gh_hash :
    after (exec .ghHash { st { bufs with inl := 16 } {} (memOf [(0x2000, be 16 0x80)])
        with gh := ghAes 0x5e2ec746917062882c85b0685353deb7 })
      (fun t => t.status = 0 ∧ t.gh = ghAes 0xf38cbb1ad69223dcc3457ae5b6b0f885) = true ∧
    after (exec .ghHash { st { bufs with inl := 8 } with gh := ghAes 7 })
      (fun t => t.status = 8 ∧ t.gh = ghAes 7) = true := by decide +kernel

/-- V-CTR-1, V-CTR-4 (R124). -/
theorem test_ctr_load :
    after (exec .ctrLoad (st { bufs with inl := 16 } {} (memOf [(0x2000, be 16 2)])))
      (fun t => t.status = 0 ∧ t.ctr = { valid := true, cb := 2 }) = true ∧
    after (exec .ctrLoad (st { bufs with inl := 12 })) (fun t => t.status = 8 ∧ t.ctr = {}) = true := by decide +kernel

/-- V-CTR-3 (R125), and V-CTR-4: before `CTR_LOAD`. -/
theorem test_ctr_xor :
    after (ctrXorOn toy { st { bufs with inl := 32 } {} (memOf [(0x2000, run 0x10 32)]) with
        eng := toyEng .keyed, ctr := { valid := true, cb := 0xa0a1a2a3a4a5a6a7a8a9aaabffffffff } })
      (fun t => t.status = 0 ∧ t.outlen = 32 ∧ t.ctr.cb = 0xa0a1a2a3a4a5a6a7a8a9aaab00000001 ∧
        t.mem.readBytes 0x3000 32 =
          be 32 0xb0b1b2b3b4b5b6b7b8b9babbefefefef808182838485868788898a8b20202020) = true ∧
    after (exec .ctrXor { st { bufs with inl := 1 } with eng := toyEng .keyed }) (fun t => t.status = 3) = true := by
  decide +kernel

/-! ### Another configuration (R7) -/

/-- The toy configuration with `XLEN` 37 and one slot. -/
def small : Cfg := { toy with xlen := 37, nCtx := 1, nonceMax := 1000 }

/-- R83 (b): slot 1 is legal in the machine and not with one slot. -/
theorem test_small_slots :
    decodeOn small 0x04010000 = .error .ctxOutOfRange ∧ decodeOn small 0x04000000 = .ok (.cleanup 0) ∧
    after (execOn small (.cleanup 1) State.reset) (fun t => t.status = 1) = true ∧
    regReadOn small (st {} kwSlot) 0x20 ≠ 0 := by decide +kernel

/-- R62, R21: a buffer that ends at `2^37` and one that ends beyond, and a register written with more than 37 bits. -/
theorem test_small_width :
    after (execOn small .ghLoadh (st { bufs with inp := 0x1FFFFFFFF0, inl := 16 })) (fun t => t.status = 0) = true ∧
    after (execOn small .ghLoadh (st { bufs with inp := 0x1FFFFFFFF1, inl := 16 })) (fun t => t.status = 2) = true ∧
    after (stepOn small { State.reset with pending := [.regWrite 3 0xFFFFFFFFFFFFFFFF] })
      (fun t => t.x.nonp = 0x1FFFFFFFFF) = true := by decide +kernel

/-! ## Witnesses for the obligations that have hypotheses -/

/-- Descriptors 0, 2, 3, 5 and 6 of the default table (R30). -/
def dGcm : Descriptor :=
  { family := .gcm .aes, keyLen := 16, nonceLen := 12, overhead := 16, maxTagLen := 16, macKeyLen := 0, adLen := none }

def dTls : Descriptor :=
  { family := .cbcTls .aes .hmacSha1 16, keyLen := 36, nonceLen := 16, overhead := 36, maxTagLen := 20,
    macKeyLen := 20, adLen := some 11 }

def dSsl3 : Descriptor :=
  { family := .cbcSsl3 .aes .ssl3Sha1 16, keyLen := 36, nonceLen := 16, overhead := 36, maxTagLen := 20,
    macKeyLen := 20, adLen := some 9 }

def dStream : Descriptor :=
  { family := .stream .stateful .hmacMd5 true, keyLen := 32, nonceLen := 0, overhead := 16, maxTagLen := 16,
    macKeyLen := 16, adLen := some 11 }

def dKw : Descriptor :=
  { family := .keywrap .aes, keyLen := 16, nonceLen := 8, overhead := 8, maxTagLen := 8, macKeyLen := 0, adLen := some 0 }

theorem bound_gcm (x : Regs) (m : Memory) : BoundTo (st x gcmSlot m) 0 dGcm := ⟨by decide, rfl, rfl⟩
theorem bound_tls (x : Regs) (dir : Dir) (m : Memory) : BoundTo (st x (cbcSlot 2 dir) m) 0 dTls := ⟨by decide, rfl, rfl⟩
theorem bound_ssl3 (x : Regs) (dir : Dir) (m : Memory) : BoundTo (st x (cbcSlot 3 dir) m) 0 dSsl3 := ⟨by decide, rfl, rfl⟩
theorem bound_stream (x : Regs) (dir : Dir) (m : Memory) : BoundTo (st x (streamSlot dir) m) 0 dStream :=
  ⟨by decide, rfl, rfl⟩
theorem bound_kw (x : Regs) (m : Memory) : BoundTo (st x kwSlot m) 0 dKw := ⟨by decide, rfl, rfl⟩

theorem gcmSlot_inv : gcmSlot.Inv :=
  ⟨dGcm, rfl, by decide, rfl, rfl, by decide, by decide, rfl, rfl, rfl, rfl, fun _ => rfl⟩
theorem kwSlot_inv : kwSlot.Inv :=
  ⟨dKw, rfl, by decide, rfl, rfl, by decide, by decide, rfl, rfl, rfl, rfl, rfl, rfl, rfl⟩
theorem streamSlot_inv : (streamSlot .sealOnly).Inv :=
  ⟨dStream, rfl, by decide, rfl, rfl, by decide, by decide, by decide, rfl, rfl, by simp [streamSlot], rfl, rfl, rfl⟩

/-- A state whose next access writes a word to `CMD`. -/
def cmd (s : State) (v : Word) : State := { s with pending := [.regWrite 0x10 v] }

theorem test_witness_DecodeInvertsEncode :
    (Instr.init 7 7 true).wellFormed = true ∧ Instr.ctrXor.wellFormed = true := by decide

theorem test_witness_IllegalFieldsRaiseBadCommand :
    (((0x00000001 : Word).setWidth 32 : CmdWord).extractLsb' 24 8 = (encode .nop).extractLsb' 24 8 ∧
      ((0x00000001 : Word).setWidth 32 : CmdWord) &&& (rowOf .nop).mask ≠ (rowOf .nop).pattern) ∧
    (((0x02080000 : Word).setWidth 32 : CmdWord).extractLsb' 24 8 = (encode (.seal_ 0 true)).extractLsb' 24 8 ∧
      (slotOf (.seal_ 0 true)).isSome = true ∧
      8 ≤ (((0x02080000 : Word).setWidth 32 : CmdWord).extractLsb' 16 8).toNat) ∧
    (((0x01000800 : Word).setWidth 32 : CmdWord).extractLsb' 24 8 = (encode (.init 0 0 false)).extractLsb' 24 8 ∧
      8 ≤ (((0x01000800 : Word).setWidth 32 : CmdWord).extractLsb' 8 8).toNat) := by decide

theorem test_witness_StepRunsTheDecodedCommand :
    (cmd State.reset 0x22000000).pending = .regWrite 0x10 0x22000000 :: [] ∧
    decode ((0x22000000 : Word).setWidth 32) = .ok .ghMul ∧ State.reset.pending = [] := ⟨rfl, by decide, rfl⟩

theorem test_witness_ResetZeroesTheBlock :
    10 ≤ 10 ∧ ({ st bufs kwSlot with pending := [.reset] } : State).pending = .reset :: [] := ⟨Nat.le_refl _, rfl⟩

theorem test_witness_RegisterMap :
    ({ State.reset with pending := [.regRead 0x5F] } : State).pending = .regRead 0x5F :: [] ∧
    ({ State.reset with pending := [.regWrite 0x0A 5, .reset] } : State).pending = .regWrite 0x0A 5 :: [.reset] ∧
    0x0A ≠ 0x10 ∧ 10 ≤ 0x0A := ⟨rfl, rfl, by decide, by decide⟩

theorem test_witness_StatusViewsShowNoKeyMaterial :
    ((0 : BitVec 8).toNat < 8 ∧ ((st bufs kwSlot).slot 0).live = true) ∧
    ((7 : BitVec 8).toNat < 8 ∧ ((st bufs kwSlot).slot 7).live = false) ∧
    (st bufs kwSlot).eraseSecrets = (st bufs { kwSlot with encKey := List.replicate 16 1 } [(0, 1)]).eraseSecrets := by
  refine ⟨by decide +kernel, by decide +kernel, ?_⟩
  have h : kwSlot.erase = ({ kwSlot with encKey := List.replicate 16 1 } : Slot).erase := rfl
  simp only [State.eraseSecrets, st, Vector.map_set, h]

theorem test_witness_CodesEachCommandCanRaise :
    (∃ t, exec (.seal_ 0 false) (st { bufs with inl := 8 } kwSlot) = .next t ∧ t.status = 8) ∧
    ∃ t, exec .ghMul State.reset = .next t ∧ t.status = 3 :=
  ⟨next_of_after (by decide +kernel), next_of_after (by decide +kernel)⟩

/-- One failure of each shape: an illegal slot number, no destination, `E_BAD_ADDRESS`, a zero-filled destination, a
scrubbed slot, a latched `CAP`, and `GCM_FINISH`. -/
theorem test_witness_FailureProtocol :
    (st bufs kwSlot).mem.wf = true ∧
    (∃ t, exec (.seal_ 8 false) (st bufs kwSlot) = .next t ∧ t.status ≠ 0) ∧
    (∃ t, exec .ghMul (st bufs kwSlot) = .next t ∧ t.status ≠ 0) ∧
    (∃ t, exec (.open_ 0 false) (st { bufs with outp := 0xFFFFFFFFFFFFFFF0, outmax := 17 } kwSlot) = .next t ∧
      t.status = 2) ∧
    (∃ t, exec (.open_ 0 false) (st { bufs with inl := 23, outmax := 32 } kwSlot) = .next t ∧ t.status = 12) ∧
    (∃ t, exec (.init 0 0 false) (st { bufs with keyl := 15 } kwSlot) = .next t ∧ t.status = 4) ∧
    (∃ t, exec .gcmKey (st { bufs with keyl := 15 } kwSlot) = .next t ∧ t.status = 4) ∧
    ∃ t, exec .gcmFinish { st bufs with eng := toyPayload } = .next t ∧ t.status = 12 :=
  ⟨rfl, next_of_after (by decide +kernel), next_of_after (by decide +kernel), next_of_after (by decide +kernel),
    next_of_after (by decide +kernel), next_of_after (by decide +kernel), next_of_after (by decide +kernel),
    next_of_after (by decide +kernel)⟩

theorem test_witness_SealChecksInOrder :
    (st bufs kwSlot).mem.wf = true ∧ (7 : BitVec 8).toNat < 8 ∧
    sealCode (st { bufs with outp := 0xFFFFFFFFFFFFFFFF, outmax := 2 } kwSlot) 7 false = .badAddress ∧
    sealCode (st { bufs with inl := 16, outmax := 23 } kwSlot) 0 false = .bufferTooSmall := by decide +kernel

theorem test_witness_OpenChecksInOrder :
    (st bufs kwSlot).mem.wf = true ∧ (7 : BitVec 8).toNat < 8 ∧
    openCode (st { bufs with outp := 0xFFFFFFFFFFFFFFFF, outmax := 2 } kwSlot) 7 false = .badAddress ∧
    openCode (st { bufs with inl := 24, outmax := 15 } kwSlot) 0 false = .bufferTooSmall := by decide +kernel

/-- One command for each arm of the statement. -/
theorem test_witness_CapIsLatchedOnce :
    (∀ i ∈ [Instr.init 0 0 true, .init 0 2 true, .init 0 0 false, .gcmKey, .ghLoadh, .nop], i.wellFormed = true) ∧
    (∃ t, exec (.init 0 0 true) State.reset = .next t ∧ t.status = 1) ∧
    (∃ t, exec (.init 0 2 true) State.reset = .next t ∧ t.status = 4) ∧
    (∃ t, exec (.init 0 0 false) State.reset = .next t ∧ t.status = 4) ∧
    (∃ t, exec .gcmKey State.reset = .next t ∧ t.status = 4) ∧
    (∃ t, exec .ghLoadh State.reset = .next t ∧ t.status = 8) ∧ ∃ t, exec .nop State.reset = .next t ∧ t.status = 0 :=
  ⟨by decide, next_of_after (by decide +kernel), next_of_after (by decide +kernel), next_of_after (by decide +kernel),
    next_of_after (by decide +kernel), next_of_after (by decide +kernel), next_of_after (by decide +kernel)⟩

theorem test_witness_ImplementationIdChangesNothing :
    ({ st bufs kwSlot with cap := 0x80000001 } : State).eraseImpl =
      (st bufs { kwSlot with impl := 3 }).eraseImpl := by
  have h : kwSlot.eraseImpl = ({ kwSlot with impl := 3 } : Slot).eraseImpl := rfl
  simp only [State.eraseImpl, st, Vector.map_set, h]

/-- Every command named in a clause of the statement gives a next state. -/
theorem test_witness_SlotsAndUnitsAreIsolated :
    ([Instr.init 0 0 false, .seal_ 0 false, .open_ 0 false, .cleanup 0, .getstream 0, .setivfixed 0, .ghLoadh, .ghLoadx,
      .ghMul, .ghHash, .ghStorex, .ctrLoad, .ctrXor, .gcmKey, .gcmSetiv, .gcmAad, .gcmEnc, .gcmDec, .gcmTag, .gcmFinish,
      .gcmClear, .nop] : List Instr).all (fun i => after (exec i State.reset) (fun _ => true)) = true ∧
    slotOf (.cleanup 0) ≠ some 1 ∧ slotOf (.cleanup 0) ≠ none := by decide +kernel

theorem test_witness_HashInPieces : (zeros 16).length % 16 = 0 := by decide

/-- The record of V-AG-5, opened under the toy capabilities; its last ciphertext byte and the top bit are in range. -/
theorem test_witness_FlippedBitFailsGcmOpen :
    toyGcm.tagLen = 16 ∧ toyGcm.h = toy.bc .aes toyGcm.encKey 0 ∧ toyGcm.h ≠ 0 ∧ ([1, 2, 3] : List Byte).length ≤ 2 ^ 58 ∧
    16 ≤ (be 21 0xc8c5cccccf3e447865614d67e9fdd96f86e30ff622).length ∧
    (be 21 0xc8c5cccccf3e447865614d67e9fdd96f86e30ff622).length ≤ 2 ^ 36 - 16 ∧
    gcmOpen toy .aes toyGcm (run 0xa0 12) [1, 2, 3] (be 21 0xc8c5cccccf3e447865614d67e9fdd96f86e30ff622) = some hello ∧
    20 < (be 21 0xc8c5cccccf3e447865614d67e9fdd96f86e30ff622).length ∧ 2 < ([1, 2, 3] : List Byte).length ∧ 7 < 8 := by
  decide +kernel

theorem test_witness_GhLoadhBindsTheSubkey :
    (let x : Regs := { bufs with inp := 0xFFFFFFFFFFFFFFF0, inl := 16 }; x.inl = 16 ∧ InRange x.inp 16) ∧
    (let x : Regs := { bufs with inl := 15 }; x.inl ≠ 16) ∧
    (let x : Regs := { bufs with inp := 0xFFFFFFFFFFFFFFF1, inl := 16 }; x.inl = 16 ∧ ¬InRange x.inp 16) := by
  decide +kernel

theorem test_witness_GhCommandsUpdateTheAccumulator :
    (let s : State := { st { bufs with inp := 0xFFFFFFFFFFFFFFF0, inl := 16 } with gh := ghAes 1 };
      s.gh.valid = true ∧ s.x.inl = 16 ∧ s.x.inl.toNat % 16 = 0 ∧ InRange s.x.inp 16 ∧ InRange s.x.inp s.x.inl) ∧
    (let s : State := { st { bufs with inp := 0xFFFFFFFFFFFFFFF1, inl := 16 } with gh := ghAes 1 };
      ¬(s.gh.valid = true ∧ s.x.inl = 16 ∧ InRange s.x.inp 16) ∧
      ¬(s.gh.valid = true ∧ s.x.inl.toNat % 16 = 0 ∧ InRange s.x.inp s.x.inl)) ∧
    State.reset.gh.valid = false := by decide +kernel

theorem test_witness_GhStorexStoresTheAccumulator :
    (let s : State := { st { bufs with outp := 0xFFFFFFFFFFFFFFF0 } with gh := ghAes 1 };
      s.mem.wf = true ∧ s.gh.valid = true ∧ InRange s.x.outp 16) ∧
    State.reset.gh.valid = false ∧
    (let s : State := { st { bufs with outp := 0xFFFFFFFFFFFFFFF1 } with gh := ghAes 1 };
      s.gh.valid = true ∧ ¬InRange s.x.outp 16) := by decide +kernel

theorem test_witness_CounterIncrementBytes : (be 16 0xFFFFFFFF).length = 16 := by decide

theorem test_witness_CounterModeStream : 16 < (zeros 17).length := by decide

theorem test_witness_CounterBlocksNeverRepeat : 0 < 2 ^ 32 - 1 ∧ 2 ^ 32 - 1 < 2 ^ 32 := by decide

theorem test_witness_CtrLoadSetsTheCounter :
    (let x : Regs := { bufs with inp := 0xFFFFFFFFFFFFFFF0, inl := 16 }; x.inl = 16 ∧ InRange x.inp 16) ∧
    (let x : Regs := { bufs with inl := 0 }; x.inl ≠ 16) ∧
    (let x : Regs := { bufs with inp := 0xFFFFFFFFFFFFFFF1, inl := 16 }; x.inl = 16 ∧ ¬InRange x.inp 16) := by
  decide +kernel

/-- An empty buffer with any pointer, and buffers that touch; then the alias check. -/
theorem test_witness_CtrXorAppliesTheKeystream :
    (let s : State := { st { bufs with inl := 16, outp := 0x2010 } with
        eng := toyEng .keyed, ctr := { valid := true, cb := 5 } };
      s.mem.wf = true ∧ s.eng.phase ≠ .uninit ∧ s.ctr.valid = true ∧ InRange s.x.inp s.x.inl ∧ InRange s.x.outp s.x.inl ∧
      AliasFree s.x s.x.inl) ∧
    (let s : State := { st { bufs with inl := 17, outp := 0x2010 } with
        eng := toyEng .keyed, ctr := { valid := true, cb := 5 } };
      ¬(s.eng.phase ≠ .uninit ∧ s.ctr.valid = true ∧ InRange s.x.inp s.x.inl ∧ InRange s.x.outp s.x.inl ∧
        AliasFree s.x s.x.inl)) := by decide +kernel

theorem test_witness_PhaseTable :
    (∃ t, exec .gcmClear (st bufs) = .next t ∧ t.status = 0) ∧
    ((∃ t, exec .gcmAad { st bufs with eng := toyEng .payload } = .next t ∧ t.status = 3) ∧
      phaseAfter .gcmAad 0 0 .payload = none) ∧
    (∃ t, exec .gcmFinish { st bufs with eng := toyPayload } = .next t ∧ t.status ≠ 0) :=
  ⟨next_of_after (by decide +kernel), ⟨next_of_after (by decide +kernel), rfl⟩, next_of_after (by decide +kernel)⟩

theorem test_witness_GcmKeyBindsTheKey :
    (let x : Regs := { keyp := 0xFFFFFFFFFFFFFFE0, keyl := 32 };
      (x.keyl = 16 ∨ x.keyl = 24 ∨ x.keyl = 32) ∧ InRange x.keyp x.keyl) ∧
    (let x : Regs := { keyl := 0 }; ¬(x.keyl = 16 ∨ x.keyl = 24 ∨ x.keyl = 32)) ∧
    (let x : Regs := { keyp := 0xFFFFFFFFFFFFFFE1, keyl := 32 };
      (x.keyl = 16 ∨ x.keyl = 24 ∨ x.keyl = 32) ∧ ¬InRange x.keyp x.keyl) := by decide +kernel

theorem test_witness_GcmSetivStartsARecord :
    (let s : State := { st { bufs with nonp := 0, nonl := 0x1FFFFFFFFFFFFFFF } with eng := toyEng .final };
      s.eng.phase ≠ .uninit ∧ s.x.nonl ≠ 0 ∧ s.x.nonl.toNat ≤ 2 ^ 61 - 1 ∧ InRange s.x.nonp s.x.nonl) ∧
    (let s : State := { st { bufs with nonl := 0x2000000000000000 } with eng := toyEng .final };
      ¬(s.eng.phase ≠ .uninit ∧ s.x.nonl ≠ 0 ∧ s.x.nonl.toNat ≤ 2 ^ 61 - 1 ∧ InRange s.x.nonp s.x.nonl)) := by
  decide +kernel

theorem test_witness_GcmAadAbsorbsAssociatedData :
    (let s : State := { st { bufs with adl := 0x400000000000000 } with eng := toyEng .nonceSet };
      (s.eng.phase = .nonceSet ∨ s.eng.phase = .aad) ∧ InRange s.x.adp s.x.adl ∧
      s.eng.alen.toNat + s.x.adl.toNat ≤ 2 ^ 58) ∧
    (let s : State := { st { bufs with adl := 0x400000000000000 } with eng := toyAad };
      ¬((s.eng.phase = .nonceSet ∨ s.eng.phase = .aad) ∧ InRange s.x.adp s.x.adl ∧
        s.eng.alen.toNat + s.x.adl.toNat ≤ 2 ^ 58)) := by decide +kernel

theorem test_witness_GcmEncAndDecProcessPayload :
    (let s : State := { st { bufs with inl := 0xFFFFFFFDB, outp := 0x2000 } with eng := toyPayload };
      s.mem.wf = true ∧ (s.eng.phase = .nonceSet ∨ s.eng.phase = .aad ∨ s.eng.phase = .payload) ∧
      InRange s.x.inp s.x.inl ∧ InRange s.x.outp s.x.inl ∧ AliasFree s.x s.x.inl ∧
      s.eng.mlen.toNat + s.x.inl.toNat ≤ 2 ^ 36 - 32) ∧
    (let s : State := { st { bufs with inl := 0xFFFFFFFDC, outp := 0x2000 } with eng := toyPayload };
      ¬((s.eng.phase = .nonceSet ∨ s.eng.phase = .aad ∨ s.eng.phase = .payload) ∧
        InRange s.x.inp s.x.inl ∧ InRange s.x.outp s.x.inl ∧ AliasFree s.x s.x.inl ∧
        s.eng.mlen.toNat + s.x.inl.toNat ≤ 2 ^ 36 - 32)) := by decide +kernel

/-- An engine under the zero key that meets its invariant, with a nonce set. -/
def eng0 (p : Phase) : Engine :=
  { phase := p, key := key0, keylen := 16, h := Config.blockCipher .aes key0 0,
    htable := ghTable (Config.blockCipher .aes key0 0) }

theorem eng0_inv : (eng0 .nonceSet).Inv :=
  ⟨by decide, by decide, by decide, rfl, rfl, by decide, by decide, by decide +kernel, rfl, rfl, rfl, rfl, rfl⟩

theorem test_witness_GcmTagEmitsTheTag :
    (let s : State := { st { bufs with outp := 0xFFFFFFFFFFFFFFF0 } with eng := toyPayload };
      s.mem.wf = true ∧ (s.eng.phase = .nonceSet ∨ s.eng.phase = .aad ∨ s.eng.phase = .payload) ∧ s.x.tagl = 0 ∧
      InRange s.x.outp 16) ∧
    ((eng0 .nonceSet).phase = .nonceSet ∧ (eng0 .nonceSet).Inv) ∧
    (let s : State := { st { bufs with tagl := 17 } with eng := toyPayload };
      s.x.tagl ≠ 0 ∧ ¬s.x.tagl.toNat ≤ 16) := ⟨by decide +kernel, ⟨rfl, eng0_inv⟩, by decide +kernel⟩

theorem test_witness_GcmFinishComparesTheTag :
    (let s : State := { st { bufs with inp := 0xFFFFFFFFFFFFFFF0 } {} (memOf [(0xFFFFFFFFFFFFFFF0,
        be 16 0x3e447865614d67e9fdd96f86e30ff622)]) with eng := toyPayload };
      s.eng.phase = .payload ∧ s.x.tagl = 0 ∧ InRange s.x.inp 16 ∧
      (blockBytes (engFinalize s.eng).xi).take 16 = s.mem.readBytes s.x.inp.toNat 16) ∧
    (let s : State := { st { bufs with tagl := 1 } with eng := toyPayload };
      s.x.tagl.toNat ≤ 16 ∧ InRange s.x.inp s.x.tagl ∧
      (blockBytes (engFinalize s.eng).xi).take 1 ≠ s.mem.readBytes s.x.inp.toNat 1) ∧
    (let s : State := { st { bufs with tagl := 17 } with eng := toyPayload };
      s.x.tagl ≠ 0 ∧ ¬s.x.tagl.toNat ≤ 16) := by decide +kernel

theorem test_witness_RecordInPiecesIsTheClosedForm :
    let as : List (List Byte) := [[1], [2, 3]]
    let ps : List (List Byte) := [hello, [], hello]
    ({} : Engine).h = (fun x : Block => x) 0 ∧ as.flatten.length ≤ 2 ^ 58 ∧ ps.flatten.length ≤ 2 ^ 36 - 32 ∧
    [(gcmRecord (fun x => x) (run 0 12) as.flatten ps.flatten).1].flatten =
      (gcmRecord (fun x => x) (run 0 12) as.flatten ps.flatten).1 := by decide +kernel

theorem test_witness_NopCleanupAndClearNeverFail : (7 : BitVec 8).toNat < 8 := by decide

/-- A successful `INIT` of each family, a failing one, and `OPENDIR` on a `GCM` descriptor. -/
theorem test_witness_InitBindsTheSlot :
    (7 : BitVec 8).toNat < 8 ∧
    (descriptor std 0 = some dGcm ∧ initCode { bufs with keyl := 16, tagl := 1 } dGcm = .ok) ∧
    (descriptor std 2 = some dTls ∧ ¬((true : Bool) = true ∧ (isGcm dTls = true ∨ isKeywrap dTls = true)) ∧
      initCode { bufs with keyl := 36 } dTls = .ok) ∧
    (descriptor std 3 = some dSsl3 ∧ initCode { bufs with keyl := 36, tagl := 20 } dSsl3 = .ok) ∧
    (descriptor std 5 = some dStream ∧ initCode { bufs with keyl := 32 } dStream = .ok) ∧
    (descriptor std 6 = some dKw ∧ initCode { bufs with keyl := 16, tagl := 8 } dKw = .ok) ∧
    initCode { bufs with keyp := 0xFFFFFFFFFFFFFFF1, keyl := 16 } dGcm = .badAddress ∧
    (isGcm dGcm = true ∨ isKeywrap dGcm = true) := by decide +kernel

theorem test_witness_SealOnGcm :
    let s := st { bufs with nonl := 12, inl := 5, adl := 3, outmax := 21 } gcmSlot
    s.mem.wf = true ∧ (s.slot 0).Inv ∧ BoundTo s 0 dGcm ∧ dGcm.family = .gcm .aes ∧ sealCode s 0 false = .ok ∧
    Separate s.x :=
  ⟨rfl, gcmSlot_inv, bound_gcm _ _, rfl, by decide +kernel, by decide +kernel⟩

theorem test_witness_SealWithFixedIv :
    let sl : Slot := { gcmSlot with ivFixed := 0xdeadbeefffffffffffffffff, ivFixedSet := true }
    let s := st { bufs with nonl := 8, inl := 5, adl := 3, outmax := 21 } sl
    s.mem.wf = true ∧ (s.slot 0).Inv ∧ BoundTo s 0 dGcm ∧ dGcm.family = .gcm .aes ∧ sealCode s 0 true = .ok ∧
    Separate s.x ∧ NonceOutSeparate s.x :=
  ⟨rfl, ⟨dGcm, rfl, by decide, rfl, rfl, by decide, by decide, rfl, rfl, rfl, rfl, fun h => absurd h (by decide)⟩,
    ⟨by decide, rfl, rfl⟩, rfl, by decide +kernel, by decide +kernel, by decide +kernel⟩

/-- A `GCM` slot with a tag of the right length as the whole input. -/
def tagState (tag : List Byte) : State :=
  st { bufs with nonl := 12, inl := 16 } gcmSlot (Memory.writeBytes [] 0x2000 tag)

/-- The tag of the empty record under the zero key and nonce. -/
def tag0 : List Byte := blockBytes (gcmRecord (Config.blockCipher .aes key0) (zeros 12) [] []).2

theorem tagState_wf (tag : List Byte) : (tagState tag).mem.wf = true := Memory.wf_writeBytes [] _ _ rfl

theorem tagState_input (tag : List Byte) (h : tag.length = 16) :
    (tagState tag).readBuf (tagState tag).x.inp (tagState tag).x.inl = tag := by
  have h1 := Memory.readBytes_writeBytes [] 0x2000 tag rfl
  rw [h] at h1
  exact h1

theorem tagState_nonce (tag : List Byte) (_h : tag.length = 16) :
    (tagState tag).readBuf (tagState tag).x.nonp (tagState tag).x.nonl = zeros 12 :=
  Memory.readBytes_writeBytes_disjoint [] 0x2000 tag 0x1100 12 rfl (by omega)

/-- The tag comparison of `OpenOnGcm`, without `FIXEDIV`. -/
def tagMatches (s : State) (sl : Slot) : Prop :=
  let E := std.bc .aes sl.encKey
  let n := s.readBuf s.x.nonp s.x.nonl
  let input := s.readBuf s.x.inp s.x.inl
  let k := s.x.inl.toNat - sl.tagLen.toNat
  let p := (gctr E (inc32 (j0 (E 0) n)) (input.take k)).1
  (blockBytes (gcmRecord E n (s.readBuf s.x.adp s.x.adl) p).2).take sl.tagLen.toNat = input.drop k

theorem tagMatches_iff (tag : List Byte) (h : tag.length = 16) : tagMatches (tagState tag) gcmSlot ↔ tag0 = tag := by
  unfold tagMatches
  simp only [tagState_nonce tag h, tagState_input tag h]
  show (blockBytes (gcmRecord (Config.blockCipher .aes key0) (zeros 12) [] (gctr _ _ (tag.take 0)).1).2).take 16 =
    tag.drop 0 ↔ tag0 = tag
  rw [List.take_of_length_le (by simp), List.drop_zero, List.take_zero]
  exact Iff.rfl

theorem tag0_length : tag0.length = 16 := length_blockBytes _

theorem map_succ_ne (l : List Byte) (h : l ≠ []) : l ≠ l.map (· + 1) := by
  cases l with
  | nil => exact absurd rfl h
  | cons b l =>
    intro he
    have h1 : b = b + 1 := (List.cons.inj he).1
    bv_omega

/-- The empty record opens with its tag and fails with another. -/
theorem test_witness_OpenOnGcm :
    (let s := tagState tag0;
      s.mem.wf = true ∧ (s.slot 0).Inv ∧ BoundTo s 0 dGcm ∧ dGcm.family = .gcm .aes ∧ openCode s 0 false = .ok ∧
      Separate s.x ∧ tagMatches s (s.slot 0)) ∧
    (let s := tagState (tag0.map (· + 1));
      s.mem.wf = true ∧ (s.slot 0).Inv ∧ BoundTo s 0 dGcm ∧ dGcm.family = .gcm .aes ∧ openCode s 0 false = .ok ∧
      Separate s.x ∧ ¬tagMatches s (s.slot 0)) :=
  ⟨⟨tagState_wf _, gcmSlot_inv, bound_gcm _ _, rfl, by decide +kernel, by decide +kernel,
      (tagMatches_iff tag0 tag0_length).2 rfl⟩,
    ⟨tagState_wf _, gcmSlot_inv, bound_gcm _ _, rfl, by decide +kernel, by decide +kernel, fun h =>
      map_succ_ne tag0 (by intro h; have := tag0_length; simp [h] at this)
        ((tagMatches_iff _ (by simp [tag0_length])).1 h)⟩⟩

theorem test_witness_SealOnCbc :
    (let s := st { bufs with nonl := 16, inl := 65535, adl := 11, outp := 0x20000, outmax := 65571 } (cbcSlot 2 .sealOnly);
      s.mem.wf = true ∧ BoundTo s 0 dTls ∧ dTls.family = .cbcTls .aes .hmacSha1 16 ∧ sealCode s 0 false = .ok ∧
      Separate s.x) ∧
    (let s := st { bufs with nonl := 16, inl := 0, adl := 9, outmax := 36 } (cbcSlot 3 .sealOnly);
      s.mem.wf = true ∧ BoundTo s 0 dSsl3 ∧ dSsl3.family = .cbcSsl3 .aes .ssl3Sha1 16 ∧ sealCode s 0 false = .ok ∧
      Separate s.x) :=
  ⟨⟨rfl, bound_tls _ _ _, rfl, by decide +kernel, by decide +kernel⟩,
    ⟨rfl, bound_ssl3 _ _ _, rfl, by decide +kernel, by decide +kernel⟩⟩

/-- An opening slot of descriptor 2 whose input is the encryption of a 32-byte record under the zero nonce. -/
def cbcState (rec_ : List Byte) : State :=
  st { bufs with nonl := 16, adl := 11, inl := 32, outmax := 32 } (cbcSlot 2 .openOnly)
    (Memory.writeBytes [] 0x2000 (cbcEnc (Config.blockCipher .aes key0) (blockOf (zeros 16)) rec_))

theorem cbcState_wf (r : List Byte) : (cbcState r).mem.wf = true := Memory.wf_writeBytes [] _ _ rfl

/-- The decrypted record of the state, as `OpenOnCbc` computes it. -/
def cbcRec (s : State) (sl : Slot) : List Byte :=
  cbcDec (std.bc .aes sl.encKey).symm (blockOf (s.readBuf s.x.nonp s.x.nonl)) (s.readBuf s.x.inp s.x.inl)

theorem cbcState_rec (r : List Byte) (h : r.length = 32) : cbcRec (cbcState r) (cbcSlot 2 .openOnly) = r := by
  have hl : (cbcEnc (Config.blockCipher .aes key0) (blockOf (zeros 16)) r).length = 32 := by
    rw [length_cbcEnc _ _ _ (by omega), h]
  have h1 := Memory.readBytes_writeBytes [] 0x2000 (cbcEnc (Config.blockCipher .aes key0) (blockOf (zeros 16)) r) rfl
  rw [hl] at h1
  have h2 := Memory.readBytes_writeBytes_disjoint [] 0x2000
    (cbcEnc (Config.blockCipher .aes key0) (blockOf (zeros 16)) r) 0x1100 16 rfl (by omega)
  unfold cbcRec
  have e1 : (cbcState r).readBuf (cbcState r).x.inp (cbcState r).x.inl =
    cbcEnc (Config.blockCipher .aes key0) (blockOf (zeros 16)) r := h1
  have e2 : (cbcState r).readBuf (cbcState r).x.nonp (cbcState r).x.nonl = zeros 16 := h2
  rw [e1, e2]
  exact cbcDec_cbcEnc (Config.blockCipher .aes key0) _ r (by omega)

/-- The associated data of the state. -/
theorem cbcState_ad (r : List Byte) (h : r.length = 32) :
    (cbcState r).readBuf (cbcState r).x.adp (cbcState r).x.adl = zeros 11 := by
  have hl : (cbcEnc (Config.blockCipher .aes key0) (blockOf (zeros 16)) r).length = 32 := by
    rw [length_cbcEnc _ _ _ (by omega), h]
  exact Memory.readBytes_writeBytes_disjoint [] 0x2000
    (cbcEnc (Config.blockCipher .aes key0) (blockOf (zeros 16)) r) 0x1200 11 rfl (by omega)

/-- The MAC of eleven zero bytes under the zero key and associated data. -/
def mac0 : List Byte := (Config.macValue .hmacSha1 (zeros 20) (zeros 11 ++ be16 11 ++ zeros 11)).toList

theorem mac0_length : mac0.length = 20 := Vector.length_toList

/-- A record of eleven zero bytes, its MAC and one byte of padding. -/
def rec0 : List Byte := zeros 11 ++ mac0 ++ [0]

theorem rec0_length : rec0.length = 32 := by simp [rec0, mac0_length, zeros]

/-- Positions beyond the padding do not matter to the scan of R217. -/
theorem scan_beyond (p : Byte) (l : List Byte) (k : Nat) (g : Bool) (h : p.toNat < k) :
    (l.zipIdx k).foldl (fun g q => g && !(decide (q.2 ≤ p.toNat) && decide (q.1 ≠ p))) g = g := by
  induction l generalizing k g with
  | nil => rfl
  | cons b l ih =>
    have h1 : ¬k ≤ p.toNat := by omega
    rw [List.zipIdx_cons, List.foldl_cons, ih (k + 1) _ (by omega)]
    simp [h1]

theorem rec0_pad : padTls 20 rec0 = (true, 11) := by
  have hp : padByte rec0 = 0 := by simp [padByte, rec0, List.getLastD_eq_getLast?]
  have hr : rec0.reverse.take 256 = 0 :: (zeros 11 ++ mac0).reverse := by
    rw [List.take_of_length_le (by simp [rec0_length])]
    simp [rec0]
  have hg : ((rec0.reverse.take 256).zipIdx).foldl
      (fun g q => g && !(decide (q.2 ≤ (0 : Byte).toNat) && decide (q.1 ≠ 0)))
      (decide (20 + 1 + (0 : Byte).toNat ≤ rec0.length)) = true := by
    rw [hr, List.zipIdx_cons, List.foldl_cons, scan_beyond 0 _ 1 _ (by decide), rec0_length]
    decide
  unfold padTls
  simp only [hp]
  rw [hg]
  simp [contentLen, hp, rec0_length]

/-- `OpenOnCbc`: a good record, a record whose padding-length byte does not fit, and the checks of both families. -/
theorem test_witness_OpenOnCbc :
    (let s := cbcState rec0;
      let r := cbcRec s (s.slot 0);
      s.mem.wf = true ∧ BoundTo s 0 dTls ∧ dTls.family = .cbcTls .aes .hmacSha1 16 ∧ openCode s 0 false = .ok ∧
      Separate s.x ∧ (padTls (Config.macLen .hmacSha1) r).1 = true ∧
      (std.mac .hmacSha1 (s.slot 0).macKey (s.readBuf s.x.adp s.x.adl ++ be16 (padTls (Config.macLen .hmacSha1) r).2 ++
        r.take (padTls (Config.macLen .hmacSha1) r).2)).toList =
        (r.drop (padTls (Config.macLen .hmacSha1) r).2).take (Config.macLen .hmacSha1)) ∧
    (let s := cbcState (zeros 31 ++ [0xFF]);
      s.mem.wf = true ∧ BoundTo s 0 dTls ∧ openCode s 0 false = .ok ∧ Separate s.x ∧
      (padTls (Config.macLen .hmacSha1) (cbcRec s (s.slot 0))).1 = false) ∧
    (let s := st { bufs with nonl := 16, adl := 9, inl := 32, outmax := 32 } (cbcSlot 3 .openOnly);
      s.mem.wf = true ∧ BoundTo s 0 dSsl3 ∧ dSsl3.family = .cbcSsl3 .aes .ssl3Sha1 16 ∧ openCode s 0 false = .ok ∧
      Separate s.x) := by
  have h1 : cbcRec (cbcState rec0) ((cbcState rec0).slot 0) = rec0 := cbcState_rec rec0 rec0_length
  have h2 : cbcRec (cbcState (zeros 31 ++ [0xFF])) ((cbcState (zeros 31 ++ [0xFF])).slot 0) = zeros 31 ++ [0xFF] :=
    cbcState_rec _ (by decide)
  have h3 : padTls (Config.macLen .hmacSha1) rec0 = (true, 11) := rec0_pad
  refine ⟨⟨cbcState_wf _, bound_tls _ _ _, rfl, by decide +kernel, by decide +kernel, ?_, ?_⟩,
    ⟨cbcState_wf _, bound_tls _ _ _, by decide +kernel, by decide +kernel, ?_⟩,
    ⟨rfl, bound_ssl3 _ _ _, rfl, by decide +kernel, by decide +kernel⟩⟩
  · rw [h1, h3]
  · rw [h1, h3, cbcState_ad _ rec0_length]
    have e1 : rec0.take 11 = zeros 11 := by simp [rec0, zeros]
    have e2 : (rec0.drop 11).take 20 = mac0 := by simp [rec0, zeros, mac0_length]
    simp only [Config.macLen, e1, e2]
    rfl
  · rw [h2]
    decide +kernel

/-- A slot of descriptor 5 that opens a record of an empty plaintext: the input is the stream cipher's output on bytes. -/
def streamState (mac : List Byte) : State :=
  st { bufs with adl := 11, inl := 16, outmax := 16 } (streamSlot .openOnly)
    (Memory.writeBytes [] 0x2000 (scXor std .stateful (streamSlot .openOnly).scState [] mac))

/-- The MAC of the empty plaintext under the zero key and associated data. -/
def streamMac : List Byte := (Config.macValue .hmacMd5 key0 (zeros 11 ++ be16 0 ++ [])).toList

theorem streamMac_length : streamMac.length = 16 := Vector.length_toList

theorem streamState_wf (mac : List Byte) : (streamState mac).mem.wf = true := Memory.wf_writeBytes [] _ _ rfl

/-- The decrypted record of the state, as `SealAndOpenOnStream` computes it. -/
def streamRec (s : State) (sl : Slot) : List Byte :=
  scXor std .stateful sl.scState (s.readBuf s.x.nonp s.x.nonl) (s.readBuf s.x.inp s.x.inl)

theorem streamState_rec (mac : List Byte) (h : mac.length = 16) :
    streamRec (streamState mac) ((streamState mac).slot 0) = mac := by
  have hl : (scXor std .stateful (streamSlot .openOnly).scState [] mac).length = 16 := by simp [scXor, h]
  have h1 := Memory.readBytes_writeBytes [] 0x2000 (scXor std .stateful (streamSlot .openOnly).scState [] mac) rfl
  rw [hl] at h1
  have e1 : (streamState mac).readBuf (streamState mac).x.inp (streamState mac).x.inl =
    scXor std .stateful (streamSlot .openOnly).scState [] mac := h1
  unfold streamRec
  rw [e1]
  exact selfInverse_selfInverse _ mac

theorem streamState_ad (mac : List Byte) (h : mac.length = 16) :
    (streamState mac).readBuf (streamState mac).x.adp (streamState mac).x.adl = zeros 11 :=
  Memory.readBytes_writeBytes_disjoint [] 0x2000 (scXor std .stateful (streamSlot .openOnly).scState [] mac) 0x1200 11 rfl
    (by simp [scXor, h])

/-- The MAC comparison of `SealAndOpenOnStream` for an empty plaintext. -/
def streamMatches (s : State) (sl : Slot) : Prop :=
  let k := s.x.inl.toNat - Config.macLen .hmacMd5
  let p := (streamRec s sl).take k
  (std.mac .hmacMd5 sl.macKey (s.readBuf s.x.adp s.x.adl ++ be16 p.length ++ p)).toList = (streamRec s sl).drop k

theorem streamMatches_iff (mac : List Byte) (h : mac.length = 16) :
    streamMatches (streamState mac) ((streamState mac).slot 0) ↔ streamMac = mac := by
  unfold streamMatches
  simp only [streamState_rec mac h, streamState_ad mac h]
  exact Iff.rfl

theorem test_witness_SealAndOpenOnStream :
    (let s := st { bufs with adl := 11, inl := 65535, outp := 0x20000, outmax := 65551 } (streamSlot .sealOnly);
      s.mem.wf = true ∧ BoundTo s 0 dStream ∧ dStream.family = .stream .stateful .hmacMd5 true ∧ Separate s.x ∧
      sealCode s 0 false = .ok) ∧
    (let s := streamState streamMac;
      s.mem.wf = true ∧ BoundTo s 0 dStream ∧ Separate s.x ∧ openCode s 0 false = .ok ∧ streamMatches s (s.slot 0)) ∧
    (let s := streamState (streamMac.map (· + 1));
      s.mem.wf = true ∧ BoundTo s 0 dStream ∧ Separate s.x ∧ openCode s 0 false = .ok ∧ ¬streamMatches s (s.slot 0)) :=
  ⟨⟨rfl, bound_stream _ _ _, rfl, by decide +kernel, by decide +kernel⟩,
    ⟨streamState_wf _, bound_stream _ _ _, by decide +kernel, by decide +kernel,
      (streamMatches_iff _ streamMac_length).2 rfl⟩,
    ⟨streamState_wf _, bound_stream _ _ _, by decide +kernel, by decide +kernel, fun h =>
      map_succ_ne streamMac (by intro h; have := streamMac_length; simp [h] at this)
        ((streamMatches_iff _ (by simp [streamMac_length])).1 h)⟩⟩

/-- An `OPEN` whose checks pass and whose open part gives no plaintext leaves `E_DECRYPT`. -/
theorem open_fails (s : State) (c : BitVec 8) (f : Bool) (d : Descriptor) (hok : openCode s c f = .ok)
    (hb : BoundTo s c d) (hs : destOverlap s.x = false)
    (hp : ∀ n, n = (if f then fixedPart (s.slot c) ++ s.readBuf s.x.nonp s.x.nonl else s.readBuf s.x.nonp s.x.nonl) →
      (openPart std d (s.slot c) n (s.readBuf s.x.adp s.x.adl) (s.readBuf s.x.inp s.x.inl)).plain = none) :
    ∃ t, exec (.open_ c f) s = .next t ∧ t.status = 12 := by
  rcases open_cases s c f hb.1 with ⟨h, -⟩ | ⟨d', -, ⟨-, -, hd⟩, -, -, he⟩
  · exact absurd hok h
  · have hd' : d' = d := Option.some.inj (hd.symm.trans hb.2.2)
    subst hd'
    refine ⟨_, he.trans (if_neg (by rw [hs]; decide)), ?_⟩
    simp only [openFinish, hp _ rfl]
    rfl

/-- The bit that `CT_EQ` collects from strings that differ by one in every byte. -/
theorem ctEq_succ (l : List Byte) (h : l ≠ []) : ctEq l (l.map (· + 1)) = false := by
  have hb : ∀ b : Byte, (b ^^^ (b + 1)).getLsbD 0 = true := by decide +kernel
  have hf : ∀ (m : List Byte) (acc : Byte), (acc.getLsbD 0 = true ∨ m ≠ []) →
      ((List.zipWith (· ^^^ ·) m (m.map (· + 1))).foldl (fun acc d => acc ||| d) acc).getLsbD 0 = true := by
    intro m
    induction m with
    | nil => intro acc h; exact h.resolve_right (by simp)
    | cons b m ih =>
      intro acc _
      exact ih (acc ||| (b ^^^ (b + 1))) (.inl (by rw [BitVec.getLsbD_or, hb b, Bool.or_true]))
  have h1 := hf l 0 (.inr h)
  refine decide_eq_false fun he => ?_
  rw [he] at h1
  exact absurd h1 (by decide)

/-- An `OPEN` that reaches the construction and fails there, on a block-cipher slot (bad padding) and on a stream slot (wrong
MAC). -/
theorem test_witness_FailureProtocol_of_open :
    (let s := cbcState (zeros 31 ++ [0xFF]);
      s.mem.wf = true ∧ openCode s 0 false = .ok ∧ BoundTo s 0 dTls ∧ dTls.family = .cbcTls .aes .hmacSha1 16 ∧
      ∃ t, exec (.open_ 0 false) s = .next t ∧ t.status = 12) ∧
    (let s := streamState (streamMac.map (· + 1));
      s.mem.wf = true ∧ openCode s 0 false = .ok ∧ BoundTo s 0 dStream ∧
      dStream.family = .stream .stateful .hmacMd5 true ∧ ∃ t, exec (.open_ 0 false) s = .next t ∧ t.status = 12) := by
  refine ⟨⟨cbcState_wf _, by decide +kernel, bound_tls _ _ _, rfl,
      open_fails _ _ _ _ (by decide +kernel) (bound_tls _ _ _) (by decide +kernel) ?_⟩,
    ⟨streamState_wf _, by decide +kernel, bound_stream _ _ _, rfl,
      open_fails _ _ _ _ (by decide +kernel) (bound_stream _ _ _) (by decide +kernel) ?_⟩⟩
  · intro n hn
    have h : cbcRecord std .aes ((cbcState (zeros 31 ++ [0xFF])).slot 0) n
        ((cbcState (zeros 31 ++ [0xFF])).readBuf (cbcState (zeros 31 ++ [0xFF])).x.inp
          (cbcState (zeros 31 ++ [0xFF])).x.inl) = zeros 31 ++ [0xFF] := by
      rw [hn]
      exact cbcState_rec (zeros 31 ++ [0xFF]) (by decide)
    have hp : (padTls (std.macLen .hmacSha1) (zeros 31 ++ [0xFF])).1 = false := by decide +kernel
    simp only [openPart, dTls, h, cbcVerify, hp, Bool.false_and, Bool.false_eq_true, if_false]
  · intro n hn
    have hl : (streamMac.map (· + 1)).length = 16 := by simp [streamMac_length]
    have h : scXor std .stateful ((streamState (streamMac.map (· + 1))).slot 0).scState n
        ((streamState (streamMac.map (· + 1))).readBuf (streamState (streamMac.map (· + 1))).x.inp
          (streamState (streamMac.map (· + 1))).x.inl) = streamMac.map (· + 1) := by
      rw [hn]
      exact streamState_rec _ hl
    have hi : ((streamState (streamMac.map (· + 1))).readBuf (streamState (streamMac.map (· + 1))).x.inp
        (streamState (streamMac.map (· + 1))).x.inl).length - std.macLen .hmacMd5 = 0 := by
      have e : std.macLen .hmacMd5 = 16 := rfl
      have e' : (streamState (streamMac.map (· + 1))).x.inl.toNat = 16 := rfl
      rw [e, State.readBuf, Memory.length_readBytes, e']
    have hm : recMac std .hmacMd5 ((streamState (streamMac.map (· + 1))).slot 0)
        ((streamState (streamMac.map (· + 1))).readBuf (streamState (streamMac.map (· + 1))).x.adp
          (streamState (streamMac.map (· + 1))).x.adl) [] = streamMac := by
      rw [streamState_ad _ hl]
      rfl
    simp only [openPart, dStream, streamOpen, h, hi, List.take_zero, List.drop_zero, hm]
    rw [ctEq_succ streamMac (by intro h0; have := streamMac_length; simp [h0] at this)]
    rfl

/-- A key-wrap slot with a nonce and 24 zero bytes of input. -/
def kwState (iv : Semiblock) : State :=
  st { bufs with nonl := 8, inl := 24, outmax := 16 } kwSlot (Memory.writeBytes [] 0x1100 (semiBytes iv))

theorem kwState_wf (iv : Semiblock) : (kwState iv).mem.wf = true := Memory.wf_writeBytes [] _ _ rfl

theorem kwState_nonce (iv : Semiblock) :
    (kwState iv).readBuf (kwState iv).x.nonp (kwState iv).x.nonl = semiBytes iv :=
  Memory.readBytes_writeBytes [] 0x1100 (semiBytes iv) rfl

theorem kwState_input (iv : Semiblock) : (kwState iv).readBuf (kwState iv).x.inp (kwState iv).x.inl = zeros 24 :=
  Memory.readBytes_writeBytes_disjoint [] 0x1100 (semiBytes iv) 0x2000 24 rfl (by simp [semiBytes])

/-- The integrity block that unwrapping 24 zero bytes under the zero key recovers. -/
def kwA : Semiblock :=
  (kwUnwrapRounds (Config.blockCipher .aes key0).symm 2 (semiOf (zeros 8), semiblocks (zeros 16))).1

/-- Unwrapping 24 zero bytes compares `kwA` with the initial value. -/
theorem kwUnwrap_zeros (iv : Semiblock) :
    kwUnwrap (Config.blockCipher .aes key0).symm iv (zeros 24) =
      if ctEq (semiBytes kwA) (semiBytes iv) then
        some ((kwUnwrapRounds (Config.blockCipher .aes key0).symm 2 (semiOf (zeros 8), semiblocks (zeros 16))).2.flatMap
          semiBytes)
      else none := rfl

theorem ctEq_self (l : List Byte) : ctEq l l = true := by
  have h : (List.zipWith (· ^^^ ·) l l).foldl (fun acc d => acc ||| d) (0 : Byte) = 0 := by
    induction l with
    | nil => rfl
    | cons b l ih => rw [List.zipWith_cons_cons, List.foldl_cons, BitVec.xor_self]; exact ih
  exact decide_eq_true h

/-- Two initial values that differ in the last bit compare unequal. -/
theorem ctEq_semi (a : Semiblock) : ctEq (semiBytes a) (semiBytes (a ^^^ 1)) = false := by
  have h : (BitVec.ofNat 8 (a.toNat / 256 ^ 0) ^^^ BitVec.ofNat 8 ((a ^^^ 1).toNat / 256 ^ 0)).getLsbD 0 = true := by
    simp [BitVec.getLsbD]
  refine decide_eq_false ?_
  simp only [semiBytes, be, List.zipWith_cons_cons, List.zipWith_nil_left, List.foldl_cons, List.foldl_nil]
  intro he
  have h1 := congrArg (fun b : Byte => b.getLsbD 0) he
  simp only [BitVec.getLsbD_or, h] at h1
  simp at h1

theorem test_witness_SealAndOpenOnKeywrap :
    (let s := st { bufs with inl := 16, outmax := 24 } kwSlot;
      s.mem.wf = true ∧ BoundTo s 0 dKw ∧ dKw.family = .keywrap .aes ∧ Separate s.x ∧ sealCode s 0 false = .ok) ∧
    (let s := kwState kwA;
      s.mem.wf = true ∧ BoundTo s 0 dKw ∧ Separate s.x ∧ openCode s 0 false = .ok ∧ s.x.nonl ≠ 0 ∧
      ∃ p, kwUnwrap (std.bc .aes (s.slot 0).encKey).symm (semiOf (s.readBuf s.x.nonp s.x.nonl))
        (s.readBuf s.x.inp s.x.inl) = some p) ∧
    (let s := kwState (kwA ^^^ 1);
      s.mem.wf = true ∧ BoundTo s 0 dKw ∧ Separate s.x ∧ openCode s 0 false = .ok ∧ s.x.nonl ≠ 0 ∧
      kwUnwrap (std.bc .aes (s.slot 0).encKey).symm (semiOf (s.readBuf s.x.nonp s.x.nonl))
        (s.readBuf s.x.inp s.x.inl) = none) := by
  refine ⟨⟨rfl, bound_kw _ _, rfl, by decide +kernel, by decide +kernel⟩,
    ⟨kwState_wf _, bound_kw _ _, by decide +kernel, by decide +kernel, by decide, ?_⟩,
    ⟨kwState_wf _, bound_kw _ _, by decide +kernel, by decide +kernel, by decide, ?_⟩⟩
  · rw [kwState_nonce, kwState_input, semiOf_semiBytes]
    exact ⟨_, (kwUnwrap_zeros kwA).trans (if_pos (ctEq_self _))⟩
  · rw [kwState_nonce, kwState_input, semiOf_semiBytes]
    exact (kwUnwrap_zeros _).trans (if_neg (by rw [ctEq_semi]; decide))

theorem test_witness_GetstreamCopiesTheStreamState :
    (let s := st { bufs with outp := 1, outmax := 0xFFFFFFFFFFFFFFFF } (streamSlot .sealOnly);
      s.mem.wf = true ∧ (s.slot 0).Inv ∧ BoundTo s 0 dStream ∧ dStream.family = .stream .stateful .hmacMd5 true ∧
      InRange s.x.outp s.x.outmax ∧ Config.streamStateLen .stateful ≤ s.x.outmax.toNat) ∧
    (let s := st { bufs with outp := 2, outmax := 0xFFFFFFFFFFFFFFFF } (streamSlot .sealOnly);
      ¬InRange s.x.outp s.x.outmax) ∧
    (let s := st bufs;
      InRange s.x.outp s.x.outmax ∧ (s.slot 0).live = false) ∧
    (let s := st bufs kwSlot;
      InRange s.x.outp s.x.outmax ∧ BoundTo s 0 dKw ∧ ∀ sc m, dKw.family ≠ .stream sc m true) ∧
    (let s := st bufs (streamSlot .sealOnly);
      InRange s.x.outp s.x.outmax ∧ BoundTo s 0 dStream ∧ dStream.family = .stream .stateful .hmacMd5 true ∧
      s.x.outmax.toNat < Config.streamStateLen .stateful) :=
  ⟨⟨rfl, streamSlot_inv, bound_stream _ _ _, rfl, by decide +kernel, (Config.streamStateExtra .stateful).isLt⟩,
    by decide +kernel, by decide +kernel, ⟨by decide +kernel, bound_kw _ _, fun _ _ h => by cases h⟩,
    ⟨by decide +kernel, bound_stream _ _ _, rfl, Nat.succ_pos _⟩⟩

theorem test_witness_SetivfixedLoadsTheFixedIv :
    (let s := st { bufs with nonp := 0xFFFFFFFFFFFFFFF4, nonl := 12 } gcmSlot;
      InRange s.x.nonp s.x.nonl ∧ BoundTo s 0 dGcm ∧ isGcm dGcm = true ∧ s.x.nonl = 12) ∧
    (let s := st { bufs with nonp := 0xFFFFFFFFFFFFFFF5, nonl := 12 } gcmSlot;
      ¬InRange s.x.nonp s.x.nonl) ∧
    (let s := st { bufs with nonl := 12 };
      InRange s.x.nonp s.x.nonl ∧ (s.slot 0).live = false) ∧
    (let s := st { bufs with nonl := 12 } kwSlot;
      InRange s.x.nonp s.x.nonl ∧ BoundTo s 0 dKw ∧ isGcm dKw = false) ∧
    (let s := st { bufs with nonl := 11 } gcmSlot;
      InRange s.x.nonp s.x.nonl ∧ BoundTo s 0 dGcm ∧ isGcm dGcm = true ∧ s.x.nonl ≠ 12) :=
  ⟨⟨by decide +kernel, bound_gcm _ _, rfl, rfl⟩, by decide +kernel, by decide +kernel,
    ⟨by decide +kernel, bound_kw _ _, rfl⟩, ⟨by decide +kernel, bound_gcm _ _, rfl, by decide⟩⟩

theorem test_witness_ConstantTimeEqualityIsEquality : (zeros 16).length = (List.replicate 16 (1 : Byte)).length := by
  decide

/-- One byte of padding after a MAC of 20 bytes, and 256 bytes of it. -/
theorem test_witness_PaddingRemoval :
    (20 + 1 ≤ (zeros 21).length ∧ (zeros 21).getLast? = some 0) ∧
    (20 + 1 ≤ (zeros 20 ++ List.replicate 256 (0xFF : Byte)).length ∧
      (zeros 20 ++ List.replicate 256 (0xFF : Byte)).getLast? = some 0xFF) := by decide +kernel

theorem test_witness_UnwrapInvertsWrap :
    (zeros 16).length % 8 = 0 ∧ (0 : Semiblock) ≠ 0xA6A6A6A6A6A6A6A6 := by decide

/-- A sealing of the empty plaintext. -/
def sealState : State := st { bufs with nonl := 12, outmax := 16 } gcmSlot

/-- What it writes. -/
def sealOut : List Byte := gcmSeal std .aes gcmSlot (zeros 12) [] []

theorem sealOut_length : sealOut.length = 16 := by decide +kernel

/-- The state after it. -/
def sealedState : State :=
  { sealState with mem := Memory.writeBytes [] 0x3000 sealOut, outlen := 16 }

theorem sealState_exec : exec (.seal_ 0 false) sealState = .next sealedState := by
  rcases seal_cases sealState 0 false (by decide) with ⟨h, -⟩ | ⟨d, -, ⟨-, -, hd⟩, -, -, he⟩
  · exact absurd (by decide +kernel) h
  · have hd' : d = dGcm := by
      have h : descriptor std (sealState.slot 0).desc = some dGcm := rfl
      rw [h] at hd
      exact (Option.some.inj hd).symm
    subst hd'
    have hs : (destOverlap sealState.x || (false && nonceOutOverlap sealState.x)) = false := by decide +kernel
    rw [he, if_neg (by rw [hs]; decide)]
    have h1 : ((sealPart std dGcm (sealState.slot 0)
        (if false = true then fixedNonce (sealState.slot 0) else sealState.readBuf sealState.x.nonp sealState.x.nonl)
        (sealState.readBuf sealState.x.adp sealState.x.adl) (sealState.readBuf sealState.x.inp sealState.x.inl)).1) =
        sealOut := rfl
    simp only [Bool.false_eq_true, if_false] at h1 ⊢
    rw [h1, sealOut_length]
    rfl

/-- A state that opens what was sealed: the same slot in slot 0, the output as input. -/
def reopenState : State :=
  { sealedState with x := { bufs with nonl := 12, inp := 0x3000, inl := 16, outp := 0x4000 } }

theorem test_witness_OpenRecoversTheSealedRecord :
    (let s := sealState;
      s.mem.wf = true ∧ (s.slot 0).Inv ∧ BoundTo s 0 dGcm ∧ sealCode s 0 false = .ok ∧ Separate s.x ∧
      exec (.seal_ 0 false) s = .next sealedState) ∧
    (let s := sealState;
      let u := reopenState;
      u.mem.wf = true ∧ (u.slot 0).Inv ∧ BoundTo u 0 dGcm ∧ (u.slot 0).encKey = (s.slot 0).encKey ∧
      (u.slot 0).macKey = (s.slot 0).macKey ∧ (u.slot 0).tagLen = (s.slot 0).tagLen ∧
      (u.slot 0).scState = (s.slot 0).scState ∧ openCode u 0 false = .ok ∧ Separate u.x ∧
      u.readBuf u.x.nonp u.x.nonl = s.readBuf s.x.nonp s.x.nonl ∧
      u.readBuf u.x.adp u.x.adl = s.readBuf s.x.adp s.x.adl ∧
      u.readBuf u.x.inp u.x.inl = sealedState.readBuf s.x.outp sealedState.outlen) :=
  ⟨⟨rfl, gcmSlot_inv, bound_gcm _ _, by decide +kernel, by decide +kernel, sealState_exec⟩,
    ⟨Memory.wf_writeBytes [] _ _ rfl, gcmSlot_inv, ⟨by decide, rfl, rfl⟩, rfl, rfl, rfl, rfl, by decide +kernel,
      by decide +kernel,
      Memory.readBytes_writeBytes_disjoint [] 0x3000 sealOut 0x1100 12 rfl (by omega), rfl, rfl⟩⟩

theorem test_witness_LargestCbcRecordDoesNotOpen :
    (let s := st { bufs with nonl := 16, inl := 65535, adl := 11, outp := 0x20000, outmax := 65571 } (cbcSlot 2 .sealOnly);
      s.mem.wf = true ∧ BoundTo s 0 dTls ∧ dTls.family = .cbcTls .aes .hmacSha1 16 ∧ sealCode s 0 false = .ok ∧
      Separate s.x ∧ s.x.inl = 65535) ∧
    (let s := st { bufs with nonl := 16, inl := 65568, adl := 11 } (cbcSlot 2 .openOnly);
      s.mem.wf = true ∧ BoundTo s 0 dTls ∧ (s.slot 0).dir = .openOnly ∧ BufsInRange s.x ∧ s.x.nonl = 16 ∧
      dTls.adLen = some s.x.adl.toNat ∧ s.x.inl = 65568) :=
  ⟨⟨rfl, bound_tls _ _ _, rfl, by decide +kernel, by decide +kernel, rfl⟩,
    ⟨rfl, bound_tls _ _ _, rfl, by decide +kernel, rfl, rfl, rfl⟩⟩

/-- Two slots with different keys and two inputs, both one byte too short. -/
theorem test_witness_OpenRevealsOneBit :
    let s := st { bufs with inl := 23, outmax := 16 } kwSlot
    let s' := st { bufs with inl := 23, outmax := 16 } { kwSlot with encKey := List.replicate 16 1 } [(0x2000, 1)]
    (0 : BitVec 8).toNat < 8 ∧ s.mem.wf = true ∧ s'.mem.wf = true ∧ s.x = s'.x ∧
    (s.slot 0).erase = (s'.slot 0).erase ∧ (∃ t, exec (.open_ 0 false) s = .next t ∧ t.status = 12) ∧
    ∃ t', exec (.open_ 0 false) s' = .next t' ∧ t'.status = 12 :=
  ⟨by decide, rfl, rfl, rfl, rfl, next_of_after (by decide +kernel), next_of_after (by decide +kernel)⟩

theorem test_witness_EveryStepKeepsMemoryCanonical :
    (cmd { st { bufs with outp := 0xFFFFFFFFFFFFFFF0 } with gh := ghAes 1 } 0x24000000).mem.wf = true ∧
    ∃ t, step (cmd { st { bufs with outp := 0xFFFFFFFFFFFFFFF0 } with gh := ghAes 1 } 0x24000000) = .next t ∧
      t.mem ≠ [] := ⟨rfl, next_of_after (by decide +kernel)⟩

/-- A state with a live slot 0. -/
theorem test_witness_EveryStepKeepsSlots :
    (∀ c, ((cmd (st bufs kwSlot) 0x04000000).slot c).Inv) ∧
    ∃ t, step (cmd (st bufs kwSlot) 0x04000000) = .next t ∧ t.slot 0 = {} := by
  refine ⟨fun c => ?_, next_of_after (by decide +kernel)⟩
  have e : (cmd (st bufs kwSlot) 0x04000000).slot c = (st bufs kwSlot).slot c := rfl
  rw [e, st_slot]
  split
  · exact kwSlot_inv
  · exact rfl

theorem test_witness_EveryStepKeepsTheEngine :
    (cmd { st { bufs with nonl := 12 } with eng := eng0 .nonceSet } 0x16000000).eng.Inv ∧
    ∃ t, step (cmd { st { bufs with nonl := 12 } with eng := eng0 .nonceSet } 0x16000000) = .next t ∧
      t.eng.phase = .final := ⟨eng0_inv, next_of_after (by decide +kernel)⟩

theorem test_witness_EveryStepKeepsTheConfiguredWidths :
    let s := { st { bufs with outp := 0x1FFFFFFFFF } kwSlot with pending := [.regWrite 10 0x2000000000] }
    (∀ n ≤ 10, (s.x.get n).toNat < 2 ^ small.xlen) ∧ (∀ c : BitVec 8, small.nCtx ≤ c.toNat → s.slot c = {}) ∧
    ∃ t, stepOn small s = .next t ∧ t.x.outmax = 0 :=
  ⟨by decide +kernel, fun c h => (st_slot { bufs with outp := 0x1FFFFFFFFF } kwSlot [] c).trans (if_neg (by simp only [small] at h; omega)),
    next_of_after (by decide +kernel)⟩

theorem test_witness_EveryStepKeepsTheUnits :
    (cmd { st bufs with gh := ghAes 1, status := 14 } 0x22000000).UnitInv ∧
    ∃ t, step (cmd { st bufs with gh := ghAes 1, status := 14 } 0x22000000) = .next t ∧ t.gh.valid = true :=
  ⟨⟨by decide, .inl rfl, by decide +kernel, by decide +kernel⟩, next_of_after (by decide +kernel)⟩

end Sys2Proof.Tests
end

section
/-! PROOF. What a command leaves alone under every configuration: the operand registers, and every slot but the one it
names, which it can write only if that is a slot of the configuration (R88). From it: a step keeps the registers and the
slots within the configured widths (R7, R21, R34). -/

namespace Sys2Proof.Machine

/-! ## The operand registers as an array -/

/-- A write of a number that is no operand register is ignored (R26). -/
theorem Regs.put_of_gt (x : Regs) (n : Nat) (v : Word) (h : 10 < n) : x.put n v = x := by
  obtain ⟨k, rfl⟩ : ∃ k, n = k + 11 := ⟨n - 11, by omega⟩
  rfl

/-- An operand register reads back what was written, the others what they held (R21, R26). -/
theorem Regs.get_put (x : Regs) (n m : Nat) (v : Word) (hn : n ≤ 10) (hm : m ≤ 10) :
    (x.put n v).get m = if m = n then v else x.get m := by
  interval_cases n <;> interval_cases m <;> rfl

/-- After reset every operand register is 0 (R43). -/
theorem Regs.get_default (n : Nat) : ({} : Regs).get n = 0 := by
  unfold Regs.get
  split <;> rfl

/-- The reset input frees every slot (R280). -/
theorem State.slot_resetBlock (s : State) (c : BitVec 8) : s.resetBlock.slot c = {} :=
  (State.slot_congr State.reset s.resetBlock rfl c).trans (State.slot_reset c)

/-! ## The frame of a command -/

/-- `t` has the operand registers of `s`, and its slots but for those in `W`. -/
structure KeepsBut (W : BitVec 8 → Prop) (s t : State) : Prop where
  x : t.x = s.x
  slot : ∀ c, ¬W c → t.slot c = s.slot c

/-- A result whose next state, if it gives one, keeps registers and slots so. -/
def ResultKeepsBut (W : BitVec 8 → Prop) (s : State) (r : Result) : Prop := ∀ t, r = .next t → KeepsBut W s t

section
variable {W : BitVec 8 → Prop} {κ : Cfg} {s t u : State} {c : BitVec 8}

/-- An update of other fields than the registers and the slots. -/
theorem KeepsBut.of_ctx (hx : t.x = s.x) (hc : t.ctx = s.ctx) : KeepsBut W s t :=
  ⟨hx, fun c _ => State.slot_congr s t hc c⟩

theorem KeepsBut.trans (h : KeepsBut W s t) (h' : KeepsBut W t u) : KeepsBut W s u :=
  ⟨h'.x.trans h.x, fun c hW => (h'.slot c hW).trans (h.slot c hW)⟩

/-- One more update of other fields. -/
theorem KeepsBut.congr (h : KeepsBut W s t) (hx : u.x = t.x) (hc : u.ctx = t.ctx) : KeepsBut W s u :=
  h.trans (.of_ctx hx hc)

/-- One more write of a slot in `W`. -/
theorem KeepsBut.setSlot (h : KeepsBut W s t) (hc : W c) (sl : Slot) : KeepsBut W s (t.setSlot c sl) where
  x := h.x
  slot c' hW := by
    have hne : c' ≠ c := fun e => hW (e ▸ hc)
    rw [State.slot_setSlot_ne t c c' sl hne, h.slot c' hW]

/-! The shared operations that write neither registers nor slots. -/

theorem KeepsBut.clearPerf : KeepsBut W s s.clearPerf := .of_ctx rfl rfl

theorem KeepsBut.latchCap_clearPerf (κ : Cfg) : KeepsBut W s (s.latchCap κ).clearPerf := .of_ctx rfl rfl

theorem KeepsBut.writeBuf (h : KeepsBut W s t) (p : Word) (v : List Byte) : KeepsBut W s (t.writeBuf p v) :=
  h.congr rfl rfl

theorem KeepsBut.setPerf (h : KeepsBut W s t) (q : Word × Word) : KeepsBut W s (t.setPerf q) := h.congr rfl rfl

theorem KeepsBut.done (h : KeepsBut W s t) (n : Nat) : KeepsBut W s (t.done n) := h.congr rfl rfl

theorem KeepsBut.raise (h : KeepsBut W s t) (dest : Bool) (e : StatusCode) : KeepsBut W s (t.raise dest e) :=
  h.congr rfl rfl

/-! The frame of a result. -/

theorem ResultKeepsBut.next (h : KeepsBut W s t) : ResultKeepsBut W s (.next t) := by
  rintro _ ⟨⟩
  exact h

theorem ResultKeepsBut.refused (r : Refusal) : ResultKeepsBut W s (.refused r) := nofun

/-- An illegal command word touches neither registers nor slots (R83, R88). -/
theorem ResultKeepsBut.badCommand : ResultKeepsBut W s (.next s.badCommand) := .next (.of_ctx rfl rfl)

/-- The checks of a command add nothing to what its own part writes: a failure keeps registers and slots (R257). -/
theorem checked_keepsBut {dest : Bool} {cs : List (Bool × StatusCode)} {go : State → Result}
    (hu : KeepsBut W s u) (hgo : ResultKeepsBut W s (go u)) : ResultKeepsBut W s (checked dest cs u go) := by
  obtain ⟨e, -, he⟩ | ⟨-, he⟩ := checked_cases dest cs u go
  · rw [he]
    exact .next (hu.raise dest e)
  · rw [he]
    exact hgo

/-- The common part of the slot commands: the command's own part runs only on a slot of the configuration (R88). -/
theorem onSlot_keepsBut {dest : Bool} {bufs : List (Word × Word)} {go : State → Slot → Descriptor → Result}
    (hgo : c.toNat < κ.nCtx → ∀ d, ResultKeepsBut W s (go s.clearPerf (s.slot c) d)) :
    ResultKeepsBut W s (onSlot κ dest bufs c s go) := by
  obtain ⟨-, he⟩ | ⟨-, -, he⟩ | ⟨-, -, -, he⟩ | ⟨d, hc, -, -, he⟩ := onSlot_cases κ dest bufs c s go
  · rw [he]
    exact .badCommand
  · rw [he]
    exact .next (KeepsBut.clearPerf.raise dest _)
  · rw [he]
    exact .next (KeepsBut.clearPerf.raise dest _)
  · rw [he]
    exact hgo hc d

/-- The shape of the commands of the direct units: checks, then an update `f` of other fields than the registers and the
slots. -/
theorem checked_update_keepsBut {dest : Bool} {cs : List (Bool × StatusCode)} {f : State → State}
    (hu : KeepsBut W s u) (hf : KeepsBut W u (f u)) : ResultKeepsBut W s (checked dest cs u fun s => .next (f s)) :=
  checked_keepsBut hu (.next (hu.trans hf))

/-! ## The commands that name a slot -/

variable (κ s c)

/-- `INIT` writes the slot it names (R164). -/
theorem initOn_keepsBut (id : BitVec 8) (opendir : Bool) (hW : c.toNat < κ.nCtx → W c) :
    ResultKeepsBut W s (initOn κ c id opendir s) := by
  unfold initOn
  split
  next => exact .badCommand
  next d _ =>
    split
    next => exact .badCommand
    next hlegal =>
      have hc : W c := hW (Nat.lt_of_not_le fun hle => hlegal (.inl hle))
      have hscrub : KeepsBut W s ((s.latchCap κ).clearPerf.setSlot c {}) :=
        (KeepsBut.latchCap_clearPerf κ).setSlot hc {}
      exact checked_keepsBut hscrub (.next ((hscrub.setSlot hc _).done 0))

variable {κ s c}

/-- The end of a `SEAL` writes its slot (R197, R226). -/
theorem sealFixed_keepsBut (hu : KeepsBut W s u) (hc : W c) (sl : Slot) (fixediv : Bool) :
    KeepsBut W s (sealFixed c sl fixediv u) := by
  unfold sealFixed
  split
  · exact (hu.writeBuf _ _).setSlot hc _
  · exact hu.setSlot hc sl

/-- The end of an `OPEN` writes its slot, whether the record is good or not (R168, R226). -/
theorem openFinish_keepsBut (hu : KeepsBut W s u) (hc : W c) (r : Opened) : KeepsBut W s (openFinish κ c r u) := by
  have hset : KeepsBut W s ((u.setSlot c r.slot).setPerf r.perf) := (hu.setSlot hc r.slot).setPerf r.perf
  unfold openFinish
  split
  · exact hset.raise true .decrypt
  · exact hset.congr rfl rfl

variable (κ s c)

/-- `SEAL` writes the slot it names (R167, R197). -/
theorem sealOn_keepsBut (fixediv : Bool) (hW : c.toNat < κ.nCtx → W c) :
    ResultKeepsBut W s (sealOn κ c fixediv s) := by
  refine onSlot_keepsBut fun hc d => checked_keepsBut .clearPerf ?_
  dsimp only
  split
  · exact .refused _
  · exact .next ((sealFixed_keepsBut (KeepsBut.clearPerf.writeBuf _ _) (hW hc) _ fixediv).done _)

/-- `OPEN` writes the slot it names (R168). -/
theorem openOn_keepsBut (fixediv : Bool) (hW : c.toNat < κ.nCtx → W c) :
    ResultKeepsBut W s (openOn κ c fixediv s) := by
  refine onSlot_keepsBut fun hc d => checked_keepsBut .clearPerf ?_
  dsimp only
  split
  · exact .refused _
  · exact .next (openFinish_keepsBut .clearPerf (hW hc) _)

/-- `CLEANUP` scrubs the slot it names (R171). -/
theorem cleanupOn_keepsBut (hW : c.toNat < κ.nCtx → W c) : ResultKeepsBut W s (cleanupOn κ c s) := by
  unfold cleanupOn
  split
  next hc => exact .next ((KeepsBut.clearPerf.setSlot (hW hc) {}).done 0)
  next => exact .badCommand

/-- `GETSTREAM` writes no slot (R228). -/
theorem getstreamOn_keepsBut : ResultKeepsBut W s (getstreamOn κ c s) := by
  refine onSlot_keepsBut fun _ d => ?_
  split
  · exact checked_keepsBut .clearPerf (.next ((KeepsBut.clearPerf.writeBuf _ _).done _))
  · exact .next (KeepsBut.clearPerf.raise false .unsupported)

/-- `SETIVFIXED` writes the slot it names (R196). -/
theorem setivfixedOn_keepsBut (hW : c.toNat < κ.nCtx → W c) : ResultKeepsBut W s (setivfixedOn κ c s) :=
  onSlot_keepsBut fun hc _ =>
    checked_keepsBut .clearPerf (.next ((KeepsBut.clearPerf.setSlot (hW hc) _).done 0))

end

/-! ## Every command -/

/-- The slots a command can write: the one it names, if the configuration has it (R88). -/
def MayWriteSlot (κ : Cfg) (i : Instr) (c : BitVec 8) : Prop := slotOf i = some c ∧ c.toNat < κ.nCtx

/-- Every command keeps the operand registers, and every slot but the one it names. -/
theorem execOn_keepsBut (κ : Cfg) (i : Instr) (s : State) : ResultKeepsBut (MayWriteSlot κ i) s (execOn κ i s) := by
  cases i with
  | nop => exact .next (KeepsBut.clearPerf.done 0)
  | init c id o => exact initOn_keepsBut κ s c id o fun hc => ⟨rfl, hc⟩
  | seal_ c f => exact sealOn_keepsBut κ s c f fun hc => ⟨rfl, hc⟩
  | open_ c f => exact openOn_keepsBut κ s c f fun hc => ⟨rfl, hc⟩
  | cleanup c => exact cleanupOn_keepsBut κ s c fun hc => ⟨rfl, hc⟩
  | getstream c => exact getstreamOn_keepsBut κ s c
  | setivfixed c => exact setivfixedOn_keepsBut κ s c fun hc => ⟨rfl, hc⟩
  | gcmClear => exact .next (.of_ctx rfl rfl)
  | gcmFinish =>
    simp only [execOn, gcmFinishOn]
    refine checked_keepsBut .clearPerf (checked_update_keepsBut ?_ ?_)
    all_goals exact .of_ctx rfl rfl
  | gcmKey | gcmSetiv | gcmAad | gcmEnc | gcmDec | gcmTag | ghLoadh | ghLoadx | ghMul | ghHash | ghStorex | ctrLoad
  | ctrXor =>
    simp only [execOn, gcmKeyOn, gcmSetivOn, gcmAadOn, gcmCryptOn, gcmTagOn, ghLoadhOn, ghLoadxOn, execGhMul, ghHashOn,
      ghStorexOn, ctrLoadOn, ctrXorOn]
    refine checked_update_keepsBut ?_ ?_
    all_goals exact .of_ctx rfl rfl

/-! ## The widths of a configuration -/

/-- Operand registers and slots within the widths of a configuration (R7, R21, R34, log 4). -/
structure WithinWidths (κ : Cfg) (s : State) : Prop where
  regs : ∀ n ≤ 10, (s.x.get n).toNat < 2 ^ κ.xlen
  slots : ∀ c : BitVec 8, κ.nCtx ≤ c.toNat → s.slot c = {}

/-- The widths do not see a change of other fields or of a slot of the configuration. -/
theorem WithinWidths.of_keepsBut {κ : Cfg} {W : BitVec 8 → Prop} {s t : State} (h : WithinWidths κ s)
    (hk : KeepsBut W s t) (hW : ∀ c, W c → c.toNat < κ.nCtx) : WithinWidths κ t where
  regs n hn := hk.x ▸ h.regs n hn
  slots c hc := (hk.slot c fun hw => Nat.not_le_of_lt (hW c hw) hc).trans (h.slots c hc)

/-- The widths do not see an update of other fields than the registers and the slots. -/
theorem WithinWidths.of_ctx {κ : Cfg} {s t : State} (h : WithinWidths κ s) (hx : t.x = s.x)
    (hc : t.ctx = s.ctx) : WithinWidths κ t :=
  h.of_keepsBut (W := fun _ => False) (.of_ctx hx hc) fun _ => False.elim

/-- A host write narrows the value to `XLEN` bits (R21, R26). -/
theorem WithinWidths.put {κ : Cfg} {s : State} (h : WithinWidths κ s) (n : Nat) (v : Word) (ops : List BusOp) :
    WithinWidths κ { s with pending := ops, x := s.x.put n (narrow κ v) } where
  regs m hm := by
    by_cases hn : n ≤ 10
    · rw [Regs.get_put s.x n m _ hn hm]
      split
      · rw [toNat_narrow]
        exact Nat.mod_lt _ (Nat.two_pow_pos _)
      · exact h.regs m hm
    · rw [Regs.put_of_gt s.x n _ (by omega)]
      exact h.regs m hm
  slots := h.slots

/-- After the reset input every register is 0 and every slot free (R280). -/
theorem WithinWidths.resetBlock (κ : Cfg) (s : State) : WithinWidths κ s.resetBlock where
  regs n _ := by
    rw [State.resetBlock_x, Regs.get_default]
    exact Nat.two_pow_pos _
  slots c _ := State.slot_resetBlock s c

/-- Every command keeps the widths: the one slot it can write is a slot of the configuration (R88). -/
theorem WithinWidths.execOn {κ : Cfg} {i : Instr} {s t : State} (h : WithinWidths κ s) (he : execOn κ i s = .next t) :
    WithinWidths κ t :=
  h.of_keepsBut (execOn_keepsBut κ i s t he) fun _ ⟨_, hc⟩ => hc

/-- Every step keeps the widths, whichever access of the host it takes. -/
theorem WithinWidths.stepOn {κ : Cfg} {s t : State} (h : WithinWidths κ s) (hstep : stepOn κ s = .next t) :
    WithinWidths κ t := by
  have of_next {u : State} (he : Machine.stepOn κ s = .next u) (hu : WithinWidths κ u) : WithinWidths κ t :=
    Host.Outcome.next.inj (he.symm.trans hstep) ▸ hu
  rcases busStepOn_cases κ (Machine.execOn κ) s with ⟨-, he⟩ | ⟨v, ops, i, -, -, he⟩ | ⟨v, ops, e, -, -, he⟩ |
    ⟨n, v, ops, -, -, he⟩ | ⟨n, ops, -, he⟩ | ⟨a, b, ops, -, he⟩ | ⟨a, ops, -, he⟩ | ⟨ops, -, he⟩
  · exact of_next he h
  · have hpop : WithinWidths κ { s with pending := ops } := h.of_ctx rfl rfl
    exact hpop.execOn (he.symm.trans hstep)
  · exact of_next he (h.of_ctx rfl rfl)
  · exact of_next he (h.put n v ops)
  · exact of_next he (h.of_ctx rfl rfl)
  · exact of_next he (h.of_ctx rfl rfl)
  · exact of_next he (h.of_ctx rfl rfl)
  · exact of_next he (.resetBlock κ _)

/-- Settles O60: registers and slots within the widths are an invariant of the step under every configuration. -/
theorem everyStepKeepsTheConfiguredWidths : Obligations.EveryStepKeepsTheConfiguredWidths := by
  intro κ s t hregs hslots hstep
  have ht : WithinWidths κ t := WithinWidths.stepOn ⟨hregs, hslots⟩ hstep
  exact ⟨ht.regs, ht.slots⟩

end Sys2Proof.Machine
end

section
/-! PROOF. Rules for proofs about the outcome of a command, whatever is claimed of it: one for each shared operation, one
for `SEAL` and `OPEN`, and one that carries an invariant from the commands to the step. -/

namespace Sys2Proof.Machine

/-! ## A slot after an update of other fields -/

@[simp] theorem State.slot_clearPerf (s : State) (c : BitVec 8) : s.clearPerf.slot c = s.slot c := rfl
@[simp] theorem State.slot_latchCap (κ : Cfg) (s : State) (c : BitVec 8) : (s.latchCap κ).slot c = s.slot c := rfl
@[simp] theorem State.slot_writeBuf (s : State) (p : Word) (v : List Byte) (c : BitVec 8) :
    (s.writeBuf p v).slot c = s.slot c := rfl
@[simp] theorem State.slot_setPerf (s : State) (q : Word × Word) (c : BitVec 8) : (s.setPerf q).slot c = s.slot c := rfl
@[simp] theorem State.slot_done (s : State) (n : Nat) (c : BitVec 8) : (s.done n).slot c = s.slot c := rfl
@[simp] theorem State.slot_raise (s : State) (dest : Bool) (e : StatusCode) (c : BitVec 8) :
    (s.raise dest e).slot c = s.slot c := rfl
@[simp] theorem State.slot_badCommand (s : State) (c : BitVec 8) : s.badCommand.slot c = s.slot c := rfl

/-- A buffer read has the length of the register (R61). -/
@[simp] theorem State.length_readBuf (s : State) (p n : Word) : (s.readBuf p n).length = n.toNat :=
  Memory.length_readBytes ..

/-! ## Claims about outcomes -/

/-- Every next state of an outcome meets `P`. -/
def Ends (P : State → Prop) (r : Result) : Prop := ∀ t, r = .next t → P t

theorem Ends.next {P : State → Prop} {t : State} (h : P t) : Ends P (.next t) := by
  rintro _ ⟨⟩
  exact h

theorem Ends.refused {P : State → Prop} (r : Refusal) : Ends P (.refused r) := fun _ h => nomatch h

section
variable {M : Result → Prop} {κ : Cfg} {dest : Bool} {s : State} {c : BitVec 8} {f : Bool}

/-- A claim about a list of checks: it holds of every failure, and of the command's own part when no check fails
(R163, R257). -/
theorem checked_elim {cs : List (Bool × StatusCode)} {go : State → Result}
    (hraise : ∀ e, M (.next (s.raise dest e))) (hgo : firstFailing cs = none → M (go s)) : M (checked dest cs s go) := by
  obtain ⟨e, -, he⟩ | ⟨hok, he⟩ := checked_cases dest cs s go
  · exact he ▸ hraise e
  · exact he ▸ hgo hok

/-- A claim about a command on a slot: it holds of an illegal word, of every failure, and of the command's own part on
the descriptor of a live slot (R88, R166). -/
theorem onSlot_elim {bufs : List (Word × Word)} {go : State → Slot → Descriptor → Result}
    (hbad : M (.next s.badCommand)) (hraise : ∀ e, M (.next (s.clearPerf.raise dest e)))
    (hgo : ∀ d, slotDesc κ (s.slot c) = some d → M (go s.clearPerf (s.slot c) d)) :
    M (onSlot κ dest bufs c s go) := by
  obtain ⟨-, he⟩ | ⟨-, -, he⟩ | ⟨-, -, -, he⟩ | ⟨d, -, -, hd, he⟩ := onSlot_cases κ dest bufs c s go
  · exact he ▸ hbad
  · exact he ▸ hraise _
  · exact he ▸ hraise _
  · exact he ▸ hgo d hd

/-- A command on a slot number that is no slot (R88). -/
theorem onSlot_of_ge {bufs : List (Word × Word)} {go : State → Slot → Descriptor → Result} (hc : κ.nCtx ≤ c.toNat) :
    onSlot κ dest bufs c s go = .next s.badCommand := by
  rw [onSlot, if_neg (Nat.not_lt_of_le hc)]

/-- A claim about `SEAL`: it holds of an illegal word, of every failure, of the refusal of overlapping buffers when every
check passes, and of every output and next slot of the family's part (R163, R167, R68). -/
theorem seal_elim (hbad : M (.next s.badCommand)) (hraise : ∀ e, M (.next (s.clearPerf.raise true e)))
    (hrefuse : sealCode s c f = .ok → (¬Separate s.x ∨ (f = true ∧ ¬NonceOutSeparate s.x)) → M (.refused .bufferOverlap))
    (hgo : ∀ d n a p, BoundTo s c d → firstFailing (sealChecks std s.x (s.slot c) d f) = none →
      let r := sealPart std d (s.slot c) n a p
      M (.next ((sealFixed c r.2 f (s.clearPerf.writeBuf s.x.outp r.1)).done r.1.length))) :
    M (exec (.seal_ c f) s) := by
  by_cases hc : c.toNat < 8
  · obtain ⟨-, -, he⟩ | ⟨d, hok, hd, -, hcs, he⟩ := seal_cases s c f hc
    · exact he ▸ hraise _
    · rw [he]
      split
      next hover =>
        refine hrefuse hok ?_
        simpa only [destOverlap_eq, nonceOutOverlap_eq, Bool.or_eq_true, Bool.and_eq_true, decide_eq_true_eq] using hover
      next => exact hgo d _ _ _ hd hcs
  · have he : exec (.seal_ c f) s = .next s.badCommand := by
      simp only [exec, execSeal, sealOn]
      exact onSlot_of_ge (Nat.le_of_not_lt hc)
    exact he ▸ hbad

/-- The same of `OPEN` (R163, R168, R68). -/
theorem open_elim (hbad : M (.next s.badCommand)) (hraise : ∀ e, M (.next (s.clearPerf.raise true e)))
    (hrefuse : openCode s c f = .ok → ¬Separate s.x → M (.refused .bufferOverlap))
    (hgo : ∀ d n a p, BoundTo s c d → firstFailing (openChecks std s.x (s.slot c) d f) = none →
      M (.next (openFinish std c (openPart std d (s.slot c) n a p) s.clearPerf))) :
    M (exec (.open_ c f) s) := by
  by_cases hc : c.toNat < 8
  · obtain ⟨-, -, he⟩ | ⟨d, hok, hd, -, hcs, he⟩ := open_cases s c f hc
    · exact he ▸ hraise _
    · rw [he]
      split
      next hover =>
        refine hrefuse hok ?_
        simpa only [destOverlap_eq, decide_eq_true_eq] using hover
      next => exact hgo d _ _ _ hd hcs
  · have he : exec (.open_ c f) s = .next s.badCommand := by
      simp only [exec, execOpen, openOn]
      exact onSlot_of_ge (Nat.le_of_not_lt hc)
    exact he ▸ hbad

end

/-! ## From commands to steps -/

/-- An invariant that no host access breaks and every command keeps is kept by every step (R23, R24, R280). -/
theorem step_keeps {P : State → Prop}
    (hhost : ∀ s ops x m v, P s → P { s with pending := ops, x := x, mem := m, readData := v })
    (hbad : ∀ s, P s → P s.badCommand) (hreset : ∀ s : State, P s.resetBlock)
    (hexec : ∀ i s t, P s → exec i s = .next t → P t) {s t : State} (hs : P s) (h : step s = .next t) : P t := by
  have of_next {u : State} (he : step s = .next u) (hu : P u) : P t := Host.Outcome.next.inj (he.symm.trans h) ▸ hu
  rcases step_cases s with ⟨-, he⟩ | ⟨v, ops, i, -, -, he⟩ | ⟨v, ops, e, -, -, he⟩ | ⟨n, v, ops, -, -, he⟩ |
    ⟨n, ops, -, he⟩ | ⟨a, b, ops, -, he⟩ | ⟨a, ops, -, he⟩ | ⟨ops, -, he⟩
  · exact of_next he hs
  · exact hexec i _ t (hhost s ops s.x s.mem s.readData hs) (he.symm.trans h)
  · exact of_next he (hbad _ (hhost s ops s.x s.mem s.readData hs))
  · exact of_next he (hhost s ops _ s.mem s.readData hs)
  · exact of_next he (hhost s ops s.x s.mem _ hs)
  · exact of_next he (hhost s ops s.x _ s.readData hs)
  · exact of_next he (hhost s ops s.x s.mem _ hs)
  · exact of_next he (hreset _)

end Sys2Proof.Machine
end


section
/-! PROOF. What a command can make of a slot, said once (`SlotMove`), and the slot invariant of R34 and R35 from it. -/

namespace Sys2Proof.Machine

/-! ## The descriptors of the table -/

/-- A descriptor of the table is lawful and has a tag of at least one byte (R30). -/
theorem descriptor_lawful {id : BitVec 8} {d : Descriptor} (h : descriptor std id = some d) :
    d.Lawful std ∧ 1 ≤ d.maxTagLen := by
  have hmem : d ∈ defaultTable := List.mem_of_getElem? h
  have hpos : ∀ d ∈ defaultTable, 1 ≤ d.maxTagLen := by decide
  exact ⟨std_lawful.table_lawful d hmem, hpos d hmem⟩

/-- A slot has a descriptor exactly when it is live and its id is in the table (R35). -/
theorem slotDesc_eq_some {sl : Slot} {d : Descriptor} :
    slotDesc std sl = some d ↔ sl.live = true ∧ descriptor std sl.desc = some d := by
  unfold slotDesc
  split <;> simp_all

/-- A resolved tag length is from 1 to the longest of the descriptor, and that one but for `GCM` (R162). -/
theorem resolveTag_bounds {d : Descriptor} {l n : Nat} (h : resolveTag d l = some n) (hpos : 1 ≤ d.maxTagLen) :
    1 ≤ n ∧ n ≤ d.maxTagLen ∧ (isGcm d = false → n = d.maxTagLen) := by
  unfold resolveTag at h
  split at h
  · cases h
    exact ⟨hpos, le_rfl, fun _ => rfl⟩
  · split at h
    · cases h
    · split at h
      next hg =>
        cases h
        exact ⟨by omega, by omega, fun hf => absurd hg (by simp [hf])⟩
      next =>
        split at h
        · cases h
          exact ⟨by omega, by omega, fun _ => by assumption⟩
        · cases h

/-- An implementation id is two bits (R33). -/
theorem selectImpl_le (cap : BitVec 32) : (selectImpl cap).toNat ≤ 3 := by
  have h := (cap.extractLsb' 0 2).isLt
  rw [selectImpl, BitVec.toNat_setWidth]
  omega

/-! ## What a command can make of a slot -/

/-- What command `i` can make of slot `c` of `s`: leave it, scrub it (R164, R171), bind it (R164), set the stream state of
a `STREAM` slot (R226), or set the fixed IV of a `GCM` slot (R196, R197). -/
inductive SlotMove (i : Instr) (s : State) (c : BitVec 8) : Slot → Prop
  | kept : SlotMove i s c (s.slot c)
  | scrubbed (hi : (∃ id o, i = .init c id o) ∨ i = .cleanup c) : SlotMove i s c {}
  | bound {id : BitVec 8} {o : Bool} {d : Descriptor} {l n : Nat} {impl : BitVec 4} {k : List Byte}
      (hi : i = .init c id o) (hd : descriptor std id = some d) (hk : k.length = d.keyLen)
      (hn : resolveTag d l = some n) (himpl : impl.toNat ≤ 3) : SlotMove i s c (initSlot std id d o n impl k)
  | streamed {d : Descriptor} {sc : ScName} {m : MacName} {b : Bool} {st : List Byte}
      (hd : slotDesc std (s.slot c) = some d) (hf : d.family = .stream sc m b)
      (hst : st.length = Config.streamStateLen sc) : SlotMove i s c { s.slot c with scState := st }
  | ivSet {d : Descriptor} {iv : BitVec 96} (hd : slotDesc std (s.slot c) = some d) (hf : isGcm d = true) :
      SlotMove i s c { s.slot c with ivFixed := iv, ivFixedSet := true }

/-- The family's part of a `SEAL` changes the slot only if it is a `STREAM` slot, and then its stream state (R226). -/
theorem sealPart_slot (d : Descriptor) (sl : Slot) (n a p : List Byte) :
    (sealPart std d sl n a p).2 = sl ∨
    ∃ sc m b st, d.family = .stream sc m b ∧ st.length = Config.streamStateLen sc ∧
      (sealPart std d sl n a p).2 = { sl with scState := st } := by
  unfold sealPart
  split
  case h_4 sc m b hf => exact .inr ⟨sc, m, b, _, hf, Vector.length_toList, rfl⟩
  all_goals exact .inl rfl

/-- The same of an `OPEN`. -/
theorem openPart_slot (d : Descriptor) (sl : Slot) (n a p : List Byte) :
    (openPart std d sl n a p).slot = sl ∨
    ∃ sc m b st, d.family = .stream sc m b ∧ st.length = Config.streamStateLen sc ∧
      (openPart std d sl n a p).slot = { sl with scState := st } := by
  unfold openPart
  split
  case h_4 sc m b hf => exact .inr ⟨sc, m, b, _, hf, Vector.length_toList, rfl⟩
  all_goals exact .inl rfl

/-- On a `GCM` slot the family's part of a `SEAL` leaves the slot (R191). -/
theorem sealPart_slot_of_isGcm {d : Descriptor} (hg : isGcm d = true) (sl : Slot) (n a p : List Byte) :
    (sealPart std d sl n a p).2 = sl := by
  obtain h | ⟨sc, m, b, st, hf, -⟩ := sealPart_slot d sl n a p
  · exact h
  · simp [isGcm, hf] at hg

/-- The slot after the end of an `OPEN` is the one the family's part leaves, whether the record is good or not (R226). -/
theorem openFinish_slot (c : BitVec 8) (r : Opened) (s : State) : (openFinish std c r s).slot c = r.slot := by
  unfold openFinish
  split
  · simp
  · exact State.slot_setSlot_same s c r.slot

section
variable {s : State} {c : BitVec 8}

/-- `INIT` leaves, scrubs or binds its slot (R164). -/
theorem init_slotMove (id : BitVec 8) (o : Bool) :
    Ends (fun t => SlotMove (.init c id o) s c (t.slot c)) (exec (.init c id o) s) := by
  simp only [exec, execInit, initOn]
  split
  next => exact .next .kept
  next d hd =>
    split
    next => exact .next .kept
    next =>
      refine checked_elim (fun e => .next ?_) fun hok => .next ?_
      · simpa using SlotMove.scrubbed (.inl ⟨id, o, rfl⟩)
      · simp only [firstFailing_none, List.forall_mem_cons, decide_eq_false_iff_not, not_not,
          Option.isNone_eq_false_iff] at hok
        obtain ⟨hkey, htag, -⟩ := hok
        obtain ⟨n, hn⟩ := Option.isSome_iff_exists.1 htag
        rw [State.slot_done, State.slot_setSlot_same, hn, Option.getD_some]
        exact .bound rfl hd (by simpa using hkey) hn (selectImpl_le _)

/-- `SEAL` sets the stream state of a `STREAM` slot, and with `FIXEDIV` the fixed IV of a `GCM` slot whose fixed IV is
set (R197, R226). -/
theorem seal_slotMove (f : Bool) : Ends (fun t => SlotMove (.seal_ c f) s c (t.slot c)) (exec (.seal_ c f) s) := by
  refine seal_elim (.next .kept) (fun e => .next .kept) (fun _ _ => .refused _) fun d n a p hb hok => .next ?_
  obtain ⟨-, hlive, hdesc⟩ := hb
  have hd : slotDesc std (s.slot c) = some d := slotDesc_eq_some.2 ⟨hlive, hdesc⟩
  cases f with
  | false =>
    simp only [sealFixed, Bool.false_eq_true, if_false, State.slot_done, State.slot_setSlot_same]
    obtain h | ⟨sc, m, b, st, hf, hst, h⟩ := sealPart_slot d (s.slot c) n a p
    · rw [h]
      exact .kept
    · rw [h]
      exact .streamed hd hf hst
  | true =>
    have hg : isGcm d = true := by
      have h := (firstFailing_none _).1 hok (true && !isGcm d, .unsupported) (by simp [sealChecks, prologueChecks])
      simpa using h
    have hset : (s.slot c).ivFixedSet = true := by
      have h := (firstFailing_none _).1 hok (true && !(s.slot c).ivFixedSet, .state)
        (by simp [sealChecks, prologueChecks])
      simpa using h
    simp only [sealFixed, if_true, State.slot_done, State.slot_setSlot_same, sealPart_slot_of_isGcm hg]
    have hmove : SlotMove (.seal_ c true) s c
        { s.slot c with ivFixed := ivAdvance (s.slot c).ivFixed, ivFixedSet := true } := .ivSet hd hg
    exact hset ▸ hmove

/-- `OPEN` sets the stream state of a `STREAM` slot (R226). -/
theorem open_slotMove (f : Bool) : Ends (fun t => SlotMove (.open_ c f) s c (t.slot c)) (exec (.open_ c f) s) := by
  refine open_elim (.next .kept) (fun e => .next .kept) (fun _ _ => .refused _) fun d n a p hb _ => .next ?_
  obtain ⟨-, hlive, hdesc⟩ := hb
  rw [openFinish_slot]
  obtain h | ⟨sc, m, b, st, hf, hst, h⟩ := openPart_slot d (s.slot c) n a p
  · rw [h]
    exact .kept
  · rw [h]
    exact .streamed (slotDesc_eq_some.2 ⟨hlive, hdesc⟩) hf hst

/-- `CLEANUP` scrubs its slot (R171). -/
theorem cleanup_slotMove : Ends (fun t => SlotMove (.cleanup c) s c (t.slot c)) (exec (.cleanup c) s) := by
  simp only [exec, execCleanup, cleanupOn]
  split
  · refine .next ?_
    simpa using SlotMove.scrubbed (.inr rfl)
  · exact .next .kept

/-- `SETIVFIXED` sets the fixed IV of a `GCM` slot (R196). -/
theorem setivfixed_slotMove : Ends (fun t => SlotMove (.setivfixed c) s c (t.slot c)) (exec (.setivfixed c) s) := by
  simp only [exec, execSetivfixed, setivfixedOn]
  refine onSlot_elim (.next .kept) (fun e => .next .kept) fun d hd =>
    checked_elim (fun e => .next .kept) fun hok => .next ?_
  have hg : isGcm d = true := by
    have h := (firstFailing_none _).1 hok (!isGcm d, .unsupported) (by simp)
    simpa using h
  rw [State.slot_done, State.slot_setSlot_same]
  exact .ivSet hd hg

/-- A command leaves every slot but the one it names (R35, R193). -/
theorem exec_slot_of_ne {i : Instr} {t : State} (h : exec i s = .next t) (hc : slotOf i ≠ some c) :
    t.slot c = s.slot c :=
  (execOn_keepsBut std i s t ((execOn_std i s).trans h)).slot c fun ⟨hi, _⟩ => hc hi

/-- Everything a command can make of a slot. -/
theorem exec_slotMove {i : Instr} {t : State} (h : exec i s = .next t) : SlotMove i s c (t.slot c) := by
  by_cases hc : slotOf i = some c
  · cases i with
    | init c' id o => cases hc; exact init_slotMove id o t h
    | seal_ c' f => cases hc; exact seal_slotMove f t h
    | open_ c' f => cases hc; exact open_slotMove f t h
    | cleanup c' => cases hc; exact cleanup_slotMove t h
    | setivfixed c' => cases hc; exact setivfixed_slotMove t h
    | getstream c' =>
      rw [(getstreamOn_keepsBut (W := fun _ => False) std s c' t h).slot c id]
      exact .kept
    | _ => cases hc
  · exact exec_slot_of_ne h hc ▸ .kept

/-! ## The slot invariant -/

/-- `INIT` puts the descriptor's id into the slot (R164). -/
theorem initSlot_desc (id : BitVec 8) (d : Descriptor) (o : Bool) (n : Nat) (impl : BitVec 4) (k : List Byte) :
    (initSlot std id d o n impl k).desc = id := by
  unfold initSlot initPart
  cases d.family <;> rfl

/-- A slot is bound in both directions exactly for `GCM` and key wrap (R85, R164). -/
theorem initDir_eq_both_iff (d : Descriptor) (o : Bool) :
    initDir d o = .both ↔ isGcm d = true ∨ isKeywrap d = true := by
  unfold initDir
  split
  next h => simpa using h
  next h => cases o <;> simpa using h

/-- The MAC key is part of the key (R30, R206). -/
theorem macKeyLen_le_keyLen {d : Descriptor} (h : d.Lawful std) : d.macKeyLen ≤ d.keyLen := by
  obtain ⟨-, -, -, -, hfam⟩ := h
  cases hf : d.family <;> simp only [hf] at hfam
  case gcm | keywrap => omega
  case cbcTls | cbcSsl3 =>
    obtain ⟨⟨k, -, hk⟩, -⟩ := hfam
    omega
  case stream => omega

/-- The slot that a successful `INIT` makes meets the invariants of its descriptor (R164, R190, R207, R247). -/
theorem initSlot_liveInv {id : BitVec 8} {o : Bool} {d : Descriptor} {l n : Nat} {impl : BitVec 4} {k : List Byte}
    (hd : descriptor std id = some d) (hk : k.length = d.keyLen) (hn : resolveTag d l = some n) (himpl : impl.toNat ≤ 3) :
    (initSlot std id d o n impl k).LiveInv d := by
  obtain ⟨hlaw, hpos⟩ := descriptor_lawful hd
  obtain ⟨h1, hmax, hone⟩ := resolveTag_bounds hn hpos
  have hmac : d.macKeyLen ≤ d.keyLen := macKeyLen_le_keyLen hlaw
  have hdir := initDir_eq_both_iff d o
  obtain ⟨-, -, -, hwidth, hfam⟩ := hlaw
  have htag : (BitVec.ofNat 8 n).toNat = n := by
    rw [BitVec.toNat_ofNat]
    omega
  unfold Slot.LiveInv initSlot initPart
  generalize BitVec.ofNat 8 n = tag at htag ⊢
  cases hf : d.family <;> simp only [hf] at hfam <;> simp only [isGcm, isKeywrap, hf] at hdir hone
  case gcm | keywrap =>
    have hzero : d.macKeyLen = 0 := hfam.1
    simp_all
  case cbcTls | cbcSsl3 => simp_all
  case stream => simp_all [std]

/-- For a slot with a descriptor the slot invariant is that of the descriptor (R35). -/
theorem Slot.inv_iff_liveInv {sl : Slot} {d : Descriptor} (hd : slotDesc std sl = some d) : sl.Inv ↔ sl.LiveInv d := by
  obtain ⟨hlive, hdesc⟩ := slotDesc_eq_some.1 hd
  simp [Slot.Inv, hlive, hdesc]

/-- What a command makes of a slot that meets the invariant meets it. -/
theorem SlotMove.inv {i : Instr} {sl : Slot} (h : SlotMove i s c sl) (hs : (s.slot c).Inv) : sl.Inv := by
  cases h with
  | kept => exact hs
  | scrubbed => exact rfl
  | bound _ hd hk hn himpl => exact ⟨_, (initSlot_desc ..).symm ▸ hd, initSlot_liveInv hd hk hn himpl⟩
  | @streamed _ _ _ _ st hd hf hst =>
    have hlive := (Slot.inv_iff_liveInv hd).1 hs
    refine (Slot.inv_iff_liveInv (sl := { s.slot c with scState := st }) hd).2 ?_
    simp only [Slot.LiveInv, hf] at hlive ⊢
    obtain ⟨himpl, henc, hmac, hpos, hmax, hdir, hh, ht, -, hrest⟩ := hlive
    exact ⟨himpl, henc, hmac, hpos, hmax, hdir, hh, ht, hst, hrest⟩
  | @ivSet d iv hd hg =>
    have hlive := (Slot.inv_iff_liveInv hd).1 hs
    refine (Slot.inv_iff_liveInv (sl := { s.slot c with ivFixed := iv, ivFixedSet := true }) hd).2 ?_
    cases hf : d.family <;> simp only [isGcm, hf, Bool.false_eq_true] at hg
    simp only [Slot.LiveInv, hf] at hlive ⊢
    simp only [hlive, Bool.true_eq_false, false_implies, and_self]

end

/-- Settles O56: every slot after a command is one of those that `SlotMove` lists, and each keeps the invariant. -/
theorem everyStepKeepsSlots : Obligations.EveryStepKeepsSlots := by
  intro s t hs hstep
  refine step_keeps (P := fun s => ∀ c, (s.slot c).Inv) (fun _ _ _ _ _ h => h) (fun _ h => h) (fun s c => ?_)
    (fun i s t h he c => (exec_slotMove he).inv (h c)) hs hstep
  rw [State.slot_resetBlock]
  rfl

end Sys2Proof.Machine
end

section
/-! PROOF. How every command ends (R255, R257, R258) and which registers and units it leaves alone (R33, R36, R40). -/

namespace Sys2Proof.Machine

/-! ## What a command works on -/

/-- The commands that latch `CAP` (R33). -/
def latchesCap : Instr → Bool
  | .init _ _ _ | .gcmKey | .ghLoadh => true
  | _ => false

/-- The commands that write the direct engine (R131). -/
def writesEng : Instr → Bool
  | .gcmKey | .gcmSetiv | .gcmAad | .gcmEnc | .gcmDec | .gcmTag | .gcmFinish | .gcmClear => true
  | _ => false

/-- The commands that write the direct multiplier unit (R110 to R113). -/
def writesGh : Instr → Bool
  | .ghLoadh | .ghLoadx | .ghMul | .ghHash => true
  | _ => false

/-- The commands that write the direct counter unit (R124, R125, R143). -/
def writesCtr : Instr → Bool
  | .ctrLoad | .ctrXor | .gcmClear => true
  | _ => false

/-- `t` is `s` but for results, slots, memory, and what command `i` works on. -/
structure KeepsUnits (i : Instr) (s t : State) : Prop where
  x : t.x = s.x
  pending : t.pending = s.pending
  readData : t.readData = s.readData
  cap : latchesCap i = false → t.cap = s.cap
  eng : writesEng i = false → t.eng = s.eng
  gh : writesGh i = false → t.gh = s.gh
  ctr : writesCtr i = false → t.ctr = s.ctr

/-- `t` is a state that command `i` can end in: its units kept so, a code in `STATUS`, and no output on failure. -/
structure CommandFrame (i : Instr) (s t : State) : Prop extends KeepsUnits i s t where
  status : t.status.toNat ≤ 14
  outlen : t.status ≠ 0 → t.outlen = 0

/-- How command `i` ends: in such a state, or, for a `SEAL` or `OPEN` whose checks all pass, by the refusal of overlapping
buffers (R68, log 14). -/
def Completes (i : Instr) (s : State) (r : Result) : Prop :=
  (∃ t, r = .next t ∧ CommandFrame i s t) ∨
  (r = .refused .bufferOverlap ∧
    ((∃ c f, i = .seal_ c f ∧ sealCode s c f = .ok ∧ (¬Separate s.x ∨ (f = true ∧ ¬NonceOutSeparate s.x))) ∨
     (∃ c f, i = .open_ c f ∧ openCode s c f = .ok ∧ ¬Separate s.x)))

/-- A status code is a number up to 14 (R255). -/
theorem StatusCode.toNat_code_le (e : StatusCode) : e.code.toNat ≤ 14 := by
  cases e <;> decide

section
variable {i : Instr} {s t : State}

/-- A failure ends a command with its code and no output (R257). -/
theorem KeepsUnits.raise (h : KeepsUnits i s t) (dest : Bool) (e : StatusCode) : CommandFrame i s (t.raise dest e) :=
  ⟨⟨h.x, h.pending, h.readData, h.cap, h.eng, h.gh, h.ctr⟩, e.toNat_code_le, fun _ => rfl⟩

/-- Success ends a command with `OK` (R258). -/
theorem KeepsUnits.done (h : KeepsUnits i s t) (n : Nat) : CommandFrame i s (t.done n) :=
  ⟨⟨h.x, h.pending, h.readData, h.cap, h.eng, h.gh, h.ctr⟩, Nat.zero_le _, fun hne => absurd rfl hne⟩

theorem Completes.next (h : CommandFrame i s t) : Completes i s (.next t) := .inl ⟨t, rfl, h⟩

theorem Completes.raise {dest : Bool} {e : StatusCode} (h : KeepsUnits i s t) :
    Completes i s (.next (t.raise dest e)) := .next (h.raise dest e)

theorem Completes.done {n : Nat} (h : KeepsUnits i s t) : Completes i s (.next (t.done n)) := .next (h.done n)

/-- One more update of slots, memory, counters and results. -/
theorem KeepsUnits.congr {u : State} (h : KeepsUnits i s t) (hx : u.x = t.x) (hp : u.pending = t.pending)
    (hr : u.readData = t.readData) (hcap : u.cap = t.cap) (heng : u.eng = t.eng) (hgh : u.gh = t.gh)
    (hctr : u.ctr = t.ctr) : KeepsUnits i s u :=
  ⟨hx.trans h.x, hp.trans h.pending, hr.trans h.readData, fun hi => hcap.trans (h.cap hi),
    fun hi => heng.trans (h.eng hi), fun hi => hgh.trans (h.gh hi), fun hi => hctr.trans (h.ctr hi)⟩

theorem KeepsUnits.refl : KeepsUnits i s s := ⟨rfl, rfl, rfl, fun _ => rfl, fun _ => rfl, fun _ => rfl, fun _ => rfl⟩

theorem KeepsUnits.clearPerf : KeepsUnits i s s.clearPerf := KeepsUnits.refl.congr rfl rfl rfl rfl rfl rfl rfl

theorem KeepsUnits.writeBuf (h : KeepsUnits i s t) (p : Word) (v : List Byte) : KeepsUnits i s (t.writeBuf p v) :=
  h.congr rfl rfl rfl rfl rfl rfl rfl

theorem KeepsUnits.setSlot (h : KeepsUnits i s t) (c : BitVec 8) (sl : Slot) : KeepsUnits i s (t.setSlot c sl) :=
  h.congr rfl rfl rfl rfl rfl rfl rfl

theorem KeepsUnits.setPerf (h : KeepsUnits i s t) (q : Word × Word) : KeepsUnits i s (t.setPerf q) :=
  h.congr rfl rfl rfl rfl rfl rfl rfl

/-- An illegal command word ends with `E_BAD_COMMAND` (R83). -/
theorem Completes.badCommand : Completes i s (.next s.badCommand) := .raise .refl

/-- A failure before the command's own part. -/
theorem Completes.raise_clearPerf {dest : Bool} {e : StatusCode} : Completes i s (.next (s.clearPerf.raise dest e)) :=
  .raise .clearPerf

/-- The shape of the commands of the direct units: checks, then an update and the success of the command. -/
theorem checked_done_completes {u : State} {dest : Bool} {cs : List (Bool × StatusCode)} {g : State → State}
    {n : State → Nat} (hu : KeepsUnits i s u) (hg : KeepsUnits i s (g u)) :
    Completes i s (checked dest cs u fun s => .next ((g s).done (n s))) :=
  checked_elim (fun _ => .raise hu) fun _ => .done hg

/-- The end of a `SEAL` writes memory and its slot only (R197). -/
theorem sealFixed_keepsUnits (c : BitVec 8) {u : State} (hu : KeepsUnits i s u) (sl : Slot) (f : Bool) :
    KeepsUnits i s (sealFixed c sl f u) := by
  unfold sealFixed
  split
  · exact (hu.writeBuf _ _).setSlot c _
  · exact hu.setSlot c sl

/-- The end of an `OPEN` is success or `E_DECRYPT` (R168). -/
theorem openFinish_commandFrame (c : BitVec 8) {u : State} (hu : KeepsUnits i s u) (r : Opened) :
    CommandFrame i s (openFinish std c r u) := by
  have hset : KeepsUnits i s ((u.setSlot c r.slot).setPerf r.perf) := (hu.setSlot c r.slot).setPerf r.perf
  unfold openFinish
  split
  · exact hset.raise true .decrypt
  · refine KeepsUnits.done ?_ _
    exact hset.congr rfl rfl rfl rfl rfl rfl rfl

end

/-! ## The commands that name a slot -/

section
variable (s : State) (c : BitVec 8)

theorem init_completes (id : BitVec 8) (o : Bool) : Completes (.init c id o) s (exec (.init c id o) s) := by
  simp only [exec, execInit, initOn]
  split
  · exact .badCommand
  · split
    · exact .badCommand
    · refine checked_elim (fun e => .raise ?_) fun _ => .done ?_
      all_goals exact ⟨rfl, rfl, rfl, nofun, fun _ => rfl, fun _ => rfl, fun _ => rfl⟩

theorem seal_completes (f : Bool) : Completes (.seal_ c f) s (exec (.seal_ c f) s) :=
  seal_elim .badCommand (fun _ => .raise_clearPerf) (fun hok hover => .inr ⟨rfl, .inl ⟨c, f, rfl, hok, hover⟩⟩)
    fun _ _ _ _ _ _ => .done (sealFixed_keepsUnits c (KeepsUnits.clearPerf.writeBuf _ _) _ f)

theorem open_completes (f : Bool) : Completes (.open_ c f) s (exec (.open_ c f) s) :=
  open_elim .badCommand (fun _ => .raise_clearPerf) (fun hok hover => .inr ⟨rfl, .inr ⟨c, f, rfl, hok, hover⟩⟩)
    fun _ _ _ _ _ _ => .next (openFinish_commandFrame c .clearPerf _)

theorem cleanup_completes : Completes (.cleanup c) s (exec (.cleanup c) s) := by
  simp only [exec, execCleanup, cleanupOn]
  split
  · exact .done (KeepsUnits.clearPerf.setSlot c {})
  · exact .badCommand

theorem getstream_completes : Completes (.getstream c) s (exec (.getstream c) s) := by
  simp only [exec, execGetstream, getstreamOn]
  refine onSlot_elim .badCommand (fun _ => .raise_clearPerf) fun d _ => ?_
  split
  · exact checked_done_completes .clearPerf (KeepsUnits.clearPerf.writeBuf _ _)
  · exact .raise_clearPerf

theorem setivfixed_completes : Completes (.setivfixed c) s (exec (.setivfixed c) s) := by
  simp only [exec, execSetivfixed, setivfixedOn]
  exact onSlot_elim .badCommand (fun _ => .raise_clearPerf) fun _ _ =>
    checked_done_completes .clearPerf (KeepsUnits.clearPerf.setSlot c _)

end

/-! ## Every command -/

/-- How every command ends. -/
theorem exec_completes (i : Instr) (s : State) : Completes i s (exec i s) := by
  cases i with
  | init c id o => exact init_completes s c id o
  | seal_ c f => exact seal_completes s c f
  | open_ c f => exact open_completes s c f
  | cleanup c => exact cleanup_completes s c
  | getstream c => exact getstream_completes s c
  | setivfixed c => exact setivfixed_completes s c
  | nop => exact .done .clearPerf
  | gcmClear => exact .done ⟨rfl, rfl, rfl, fun _ => rfl, nofun, fun _ => rfl, nofun⟩
  | gcmKey =>
    simp only [exec, execGcmKey, gcmKeyOn]
    refine checked_done_completes ?_ ?_
    all_goals exact ⟨rfl, rfl, rfl, nofun, nofun, fun _ => rfl, fun _ => rfl⟩
  | gcmFinish =>
    simp only [exec, execGcmFinish, gcmFinishOn]
    refine checked_elim (fun _ => .raise_clearPerf) fun _ => checked_done_completes ?_ ?_
    all_goals exact ⟨rfl, rfl, rfl, fun _ => rfl, nofun, fun _ => rfl, fun _ => rfl⟩
  | gcmSetiv | gcmAad | gcmEnc | gcmDec | gcmTag =>
    simp only [exec, execGcmSetiv, execGcmAad, execGcmEnc, execGcmDec, execGcmTag, gcmSetivOn, gcmAadOn, gcmCryptOn,
      gcmTagOn]
    refine checked_done_completes .clearPerf ?_
    exact ⟨rfl, rfl, rfl, fun _ => rfl, nofun, fun _ => rfl, fun _ => rfl⟩
  | ghLoadh =>
    simp only [exec, execGhLoadh, ghLoadhOn]
    refine checked_done_completes ?_ ?_
    all_goals exact ⟨rfl, rfl, rfl, nofun, fun _ => rfl, nofun, fun _ => rfl⟩
  | ghLoadx | ghMul | ghHash =>
    simp only [exec, execGhLoadx, execGhHash, ghLoadxOn, execGhMul, ghHashOn]
    refine checked_done_completes .clearPerf ?_
    exact ⟨rfl, rfl, rfl, fun _ => rfl, fun _ => rfl, nofun, fun _ => rfl⟩
  | ghStorex =>
    simp only [exec, execGhStorex, ghStorexOn]
    exact checked_done_completes .clearPerf (KeepsUnits.clearPerf.writeBuf _ _)
  | ctrLoad | ctrXor =>
    simp only [exec, execCtrLoad, execCtrXor, ctrLoadOn, ctrXorOn]
    refine checked_done_completes .clearPerf ?_
    exact ⟨rfl, rfl, rfl, fun _ => rfl, fun _ => rfl, fun _ => rfl, nofun⟩

/-- What a command that gives a next state leaves alone. -/
theorem exec_commandFrame {i : Instr} {s t : State} (h : exec i s = .next t) : CommandFrame i s t := by
  obtain ⟨u, hu, hframe⟩ | ⟨hr, -⟩ := exec_completes i s
  · exact Host.Outcome.next.inj (hu.symm.trans h) ▸ hframe
  · exact nomatch hr.symm.trans h

/-- Settles O9: every command ends in a state of its frame or by the one refusal. -/
theorem everyCommandCompletes : Obligations.EveryCommandCompletes := by
  intro i s
  obtain ⟨t, ht, hframe⟩ | hrefused := exec_completes i s
  · exact .inl ⟨t, ht, hframe.status, hframe.outlen, hframe.x, hframe.pending, hframe.readData⟩
  · exact .inr hrefused

/-! ## Isolation -/

/-- A command other than `INIT` and `CLEANUP` leaves binding, keys and tables of every slot (R35). -/
theorem SlotMove.binding_eq {i : Instr} {s : State} {c : BitVec 8} {sl : Slot} (h : SlotMove i s c sl)
    (hinit : ∀ c d o, i ≠ .init c d o) (hcleanup : ∀ c, i ≠ .cleanup c) :
    sl = { s.slot c with scState := sl.scState, ivFixed := sl.ivFixed, ivFixedSet := sl.ivFixedSet } := by
  cases h with
  | scrubbed hi =>
    obtain ⟨id, o, hi⟩ | hi := hi
    · exact absurd hi (hinit c id o)
    · exact absurd hi (hcleanup c)
  | bound hi => exact absurd hi (hinit c _ _)
  | kept | streamed | ivSet => rfl

/-- A command that names a slot writes no direct unit (R36). -/
theorem writes_no_unit_of_slotOf {i : Instr} (h : slotOf i ≠ none) :
    writesEng i = false ∧ writesGh i = false ∧ writesCtr i = false := by
  cases i with
  | init | seal_ | open_ | cleanup | getstream | setivfixed => exact ⟨rfl, rfl, rfl⟩
  | _ => exact absurd rfl h

/-- Settles O16: what the frame of a command and its `SlotMove` say of the units and the slots. -/
theorem slotsAndUnitsAreIsolated : Obligations.SlotsAndUnitsAreIsolated := by
  intro i s t h
  have hframe := exec_commandFrame h
  refine ⟨fun c hc => exec_slot_of_ne h hc, fun hslot => ?_, ?_, ?_, ?_, ?_,
    fun hinit hcleanup c => (exec_slotMove h).binding_eq hinit hcleanup⟩
  · obtain ⟨heng, hgh, hctr⟩ := writes_no_unit_of_slotOf hslot
    exact ⟨hframe.eng heng, hframe.gh hgh, hframe.ctr hctr⟩
  · rintro (rfl | rfl | rfl | rfl | rfl) <;> exact ⟨hframe.eng rfl, hframe.ctr rfl⟩
  · rintro (rfl | rfl) <;> exact ⟨hframe.eng rfl, hframe.gh rfl⟩
  · rintro (rfl | rfl | rfl | rfl | rfl | rfl | rfl) <;> exact ⟨hframe.gh rfl, hframe.ctr rfl⟩
  · rintro rfl
    exact hframe.gh rfl

/-! ## The capability latch -/

/-- `CAP` after the latch (R33). -/
theorem State.latchCap_std_cap (s : State) : (s.latchCap std).cap = s.latched := by
  rw [latchCap_eq]

/-- `INIT` on a slot and a descriptor latches `CAP`, but with `OPENDIR` on `GCM` or key wrap, where its word is illegal
(R33, R85, R164). -/
theorem init_cap {c id : BitVec 8} {o : Bool} {d : Descriptor} (s : State) (hc : c.toNat < 8)
    (hd : descriptor std id = some d) :
    Ends (fun t => t.cap = if o = true ∧ (isGcm d = true ∨ isKeywrap d = true) then s.cap else s.latched)
      (exec (.init c id o) s) := by
  have hslot : ¬std.nCtx ≤ c.toNat := Nat.not_le_of_lt hc
  simp only [exec, execInit, initOn, hd, hslot, false_or]
  split
  · exact .next rfl
  · exact checked_elim (fun _ => .next (State.latchCap_std_cap s)) fun _ => .next (State.latchCap_std_cap s)

/-- `GCM_KEY` latches `CAP` whether or not its checks pass (R33, R132). -/
theorem gcmKey_cap (s : State) : Ends (fun t => t.cap = s.latched) (exec .gcmKey s) := by
  simp only [exec, execGcmKey, gcmKeyOn]
  exact checked_elim (fun _ => .next (State.latchCap_std_cap s)) fun _ => .next (State.latchCap_std_cap s)

/-- `GH_LOADH` latches `CAP` whether or not its checks pass (R33, R110). -/
theorem ghLoadh_cap (s : State) : Ends (fun t => t.cap = s.latched) (exec .ghLoadh s) := by
  simp only [exec, execGhLoadh, ghLoadhOn]
  exact checked_elim (fun _ => .next (State.latchCap_std_cap s)) fun _ => .next (State.latchCap_std_cap s)

/-- The id of a well-formed `INIT` is in the table (R83, R88). -/
theorem exists_descriptor_of_descLegal {id : BitVec 8} (h : descLegal std id = true) : ∃ d, descriptor std id = some d :=
  ⟨_, List.getElem?_eq_getElem (of_decide_eq_true h)⟩

/-- Settles O14: the three commands that latch, case by case; the frame of every other keeps `CAP`. -/
theorem capIsLatchedOnce : Obligations.CapIsLatchedOnce := by
  intro i s t hwf h
  cases i with
  | init c id o =>
    obtain ⟨hc, hid⟩ : slotLegal std c = true ∧ descLegal std id = true := (Bool.and_eq_true_iff).1 hwf
    obtain ⟨d, hd⟩ := exists_descriptor_of_descLegal hid
    have hcap := init_cap s (of_decide_eq_true hc) hd t h
    cases o <;> simpa [hd] using hcap
  | gcmKey => exact gcmKey_cap s t h
  | ghLoadh => exact ghLoadh_cap s t h
  | _ => exact (exec_commandFrame h).cap rfl

end Sys2Proof.Machine
end

section
/-! PROOF. What a command can make of the direct engine, said once (`EngineMove`), and the engine invariant of R38 from
it: the tag hash keeps the partial block clear (R135), and each function of R132 to R142 leads from the invariant of one
phase to that of the next (R131). -/

namespace Sys2Proof.Machine

/-! ## Bytes of a block -/

/-- Every byte of the block 0 is 0 (R8). -/
theorem getByte_zero (i : Nat) : getByte 0 i = 0 := BitVec.extractLsb'_zero ..

/-- Replacing a byte leaves the others (R135). -/
theorem getByte_setByte_ne (x : Block) (b : Byte) {i j : Nat} (hi : i < 16) (hj : j < 16) (hne : j ≠ i) :
    getByte (setByte x i b) j = getByte x j := by
  have hmask : ∀ n, (0xFF : Block).getLsbD n = decide (n < 8) := fun n => by
    have h : (0xFF : Block) = (BitVec.allOnes 8).setWidth 128 := rfl
    rw [h, BitVec.getLsbD_setWidth, BitVec.getLsbD_allOnes]
    by_cases hn : n < 8 <;> simp [hn]
    omega
  ext l hl
  have hfar : 8 * (15 - j) + l < 8 * (15 - i) ∨ 8 ≤ 8 * (15 - j) + l - 8 * (15 - i) := by omega
  simp only [getByte, setByte, BitVec.getElem_extractLsb', BitVec.getLsbD_or, BitVec.getLsbD_and, BitVec.getLsbD_not,
    BitVec.getLsbD_shiftLeft, BitVec.getLsbD_setWidth, hmask]
  obtain h | h := hfar
  · simp [h]
    omega
  · have hb : b.getLsbD (8 * (15 - j) + l - 8 * (15 - i)) = false := BitVec.getLsbD_of_ge _ _ h
    simp [hb, Nat.not_lt_of_le h]
    omega

/-! ## The running tag -/

/-- `e'` differs from `e` at most in the running tag and the partial block (R135). -/
structure KeepsButTag (e e' : Engine) : Prop where
  phase : e'.phase = e.phase
  key : e'.key = e.key
  keylen : e'.keylen = e.keylen
  h : e'.h = e.h
  htable : e'.htable = e.htable
  cb : e'.cb = e.cb
  ek0 : e'.ek0 = e.ek0
  alen : e'.alen = e.alen
  mlen : e'.mlen = e.mlen
  ks : e'.ks = e.ks
  impl : e'.impl = e.impl

theorem KeepsButTag.refl (e : Engine) : KeepsButTag e e := ⟨rfl, rfl, rfl, rfl, rfl, rfl, rfl, rfl, rfl, rfl, rfl⟩

theorem KeepsButTag.trans {e e' e'' : Engine} (h : KeepsButTag e e') (h' : KeepsButTag e' e'') : KeepsButTag e e'' :=
  ⟨h'.phase.trans h.phase, h'.key.trans h.key, h'.keylen.trans h.keylen, h'.h.trans h.h, h'.htable.trans h.htable,
    h'.cb.trans h.cb, h'.ek0.trans h.ek0, h'.alen.trans h.alen, h'.mlen.trans h.mlen, h'.ks.trans h.ks,
    h'.impl.trans h.impl⟩

theorem engFold_keepsButTag (e : Engine) (p : Block) : KeepsButTag e (engFold e p) :=
  ⟨rfl, rfl, rfl, rfl, rfl, rfl, rfl, rfl, rfl, rfl, rfl⟩

theorem engAbsorb_keepsButTag (e : Engine) (b : Byte) : KeepsButTag e (engAbsorb e b) := by
  unfold engAbsorb
  split
  · exact engFold_keepsButTag e _
  · exact ⟨rfl, rfl, rfl, rfl, rfl, rfl, rfl, rfl, rfl, rfl, rfl⟩

theorem engFlush_keepsButTag (e : Engine) : KeepsButTag e (engFlush e) := by
  unfold engFlush
  split
  · exact .refl e
  · exact engFold_keepsButTag e _

/-- The partial block is zero from the fill count on (R38). -/
def Engine.Clear (e : Engine) : Prop := ∀ i < 16, e.pfill.toNat ≤ i → getByte e.pbuf i = 0

/-- An empty partial block of zeros. -/
theorem Engine.Clear.of_pbuf {e : Engine} (h : e.pbuf = 0) : e.Clear := fun i _ _ => h ▸ getByte_zero i

/-- The fill count is a count of bytes modulo 16 (R135). -/
theorem engAbsorb_pfill (e : Engine) (b : Byte) : (engAbsorb e b).pfill = e.pfill + 1 := by
  unfold engAbsorb
  split
  next h => rw [h]; rfl
  next => rfl

theorem engAbsorb_clear {e : Engine} (h : e.Clear) (b : Byte) : (engAbsorb e b).Clear := by
  unfold engAbsorb
  split
  next => exact .of_pbuf rfl
  next hfull =>
    intro i hi hle
    have hsucc : (e.pfill + 1).toNat = e.pfill.toNat + 1 := by
      have hne : e.pfill.toNat ≠ 15 := fun h15 => hfull (BitVec.eq_of_toNat_eq h15)
      rw [BitVec.toNat_add]
      exact Nat.mod_eq_of_lt (by have := e.pfill.isLt; simp; omega)
    have hlt : e.pfill.toNat < i := by
      rw [hsucc] at hle
      omega
    exact (getByte_setByte_ne _ b (by omega) hi (by omega)).trans (h i hi hlt.le)

theorem engFlush_pfill (e : Engine) : (engFlush e).pfill = 0 := by
  unfold engFlush
  split
  next h => exact h
  next => rfl

theorem engFlush_clear {e : Engine} (h : e.Clear) : (engFlush e).Clear := by
  unfold engFlush
  split
  next => exact h
  next => exact .of_pbuf rfl

/-- Absorbing a byte string, byte by byte (R135, R136). -/
theorem foldl_engAbsorb {e : Engine} (h : e.Clear) (a : List Byte) :
    KeepsButTag e (a.foldl engAbsorb e) ∧ (a.foldl engAbsorb e).Clear ∧
      (a.foldl engAbsorb e).pfill.toNat = (e.pfill.toNat + a.length) % 16 := by
  induction a generalizing e with
  | nil => exact ⟨.refl e, h, (Nat.mod_eq_of_lt e.pfill.isLt).symm⟩
  | cons b bs ih =>
    obtain ⟨hkeep, hclear, hfill⟩ := ih (engAbsorb_clear h b)
    refine ⟨(engAbsorb_keepsButTag e b).trans hkeep, hclear, ?_⟩
    rw [List.foldl_cons, hfill, engAbsorb_pfill, BitVec.toNat_add, List.length_cons]
    simp
    omega

/-! ## The invariant of an engine that has a key -/

/-- The part of the invariant that does not depend on the phase (R38). -/
structure Engine.Bound (e : Engine) : Prop where
  impl : e.impl.toNat ≤ 3
  keyLength : e.key.length ∈ std.bcKeylens std.engBc
  keylen : e.keylen.toNat = e.key.length
  h : e.h = std.bc std.engBc e.key 0
  htable : e.htable = ghTable e.h
  alen : e.alen.toNat ≤ 2 ^ 58
  mlen : e.mlen.toNat ≤ 2 ^ 36 - 32
  clear : e.Clear

/-- The part of the invariant that a phase implies (R38). -/
def Engine.PhaseInv (e : Engine) : Prop :=
  match e.phase with
  | .uninit => True
  | .keyed => e.xi = 0 ∧ e.cb = 0 ∧ e.ek0 = 0 ∧ e.alen = 0 ∧ e.mlen = 0 ∧ e.pfill = 0 ∧ e.ks = 0
  | .nonceSet => e.xi = 0 ∧ e.alen = 0 ∧ e.mlen = 0 ∧ e.pfill = 0 ∧ e.ks = 0
  | .aad => e.alen ≠ 0 ∧ e.mlen = 0 ∧ e.pfill.toNat = e.alen.toNat % 16 ∧ e.ks = 0
  | .payload => e.mlen ≠ 0 ∧ e.pfill.toNat = e.mlen.toNat % 16
  | .final => e.pfill = 0

/-- The engine invariant in its two parts. -/
theorem Engine.inv_iff {e : Engine} (hp : e.phase ≠ .uninit) : e.Inv ↔ e.Bound ∧ e.PhaseInv := by
  unfold Engine.Inv
  rw [if_neg hp]
  constructor
  · rintro ⟨himpl, hkey, hkeylen, hh, ht, ha, hm, hclear, hphase⟩
    exact ⟨⟨himpl, hkey, hkeylen, hh, ht, ha, hm, hclear⟩, hphase⟩
  · rintro ⟨⟨himpl, hkey, hkeylen, hh, ht, ha, hm, hclear⟩, hphase⟩
    exact ⟨himpl, hkey, hkeylen, hh, ht, ha, hm, hclear, hphase⟩

section
variable {e e' : Engine}

/-- The binding to a key carries over to an engine with the same key, subkey and table. -/
theorem Engine.Bound.congr (hb : e.Bound) (himpl : e'.impl = e.impl) (hkey : e'.key = e.key)
    (hkeylen : e'.keylen = e.keylen) (hh : e'.h = e.h) (ht : e'.htable = e.htable) (ha : e'.alen.toNat ≤ 2 ^ 58)
    (hm : e'.mlen.toNat ≤ 2 ^ 36 - 32) (hclear : e'.Clear) : e'.Bound where
  impl := himpl ▸ hb.impl
  keyLength := hkey ▸ hb.keyLength
  keylen := by rw [hkeylen, hkey, hb.keylen]
  h := by rw [hh, hkey, hb.h]
  htable := by rw [ht, hh, hb.htable]
  alen := ha
  mlen := hm
  clear := hclear

/-- An engine whose phase and whose phase's part of the invariant are known meets the invariant. -/
theorem Engine.Bound.inv (hb : e.Bound) {p : Phase} (hp : e.phase = p) (hne : p ≠ .uninit) (hphase : e.PhaseInv) :
    e.Inv := (Engine.inv_iff (hp ▸ hne)).2 ⟨hb, hphase⟩

/-- In a data phase the partial block counts the bytes of that phase modulo 16, and before the payload no payload byte is
counted and no keystream held (R38, R131). -/
theorem Engine.Inv.beforePayload (h : e.Inv) (hp : e.phase = .nonceSet ∨ e.phase = .aad) :
    e.Bound ∧ e.mlen = 0 ∧ e.ks = 0 ∧ e.pfill.toNat = e.alen.toNat % 16 := by
  have hne : e.phase ≠ .uninit := by rcases hp with hp | hp <;> simp [hp]
  obtain ⟨hb, hphase⟩ := (Engine.inv_iff hne).1 h
  unfold Engine.PhaseInv at hphase
  obtain hp | hp := hp
  · rw [hp] at hphase
    obtain ⟨-, ha, hm, hfill, hks⟩ := hphase
    exact ⟨hb, hm, hks, by rw [ha, hfill]; rfl⟩
  · rw [hp] at hphase
    obtain ⟨-, hm, hfill, hks⟩ := hphase
    exact ⟨hb, hm, hks, hfill⟩

/-- The invariant of the payload phase (R38). -/
theorem Engine.Inv.payload (h : e.Inv) (hp : e.phase = .payload) :
    e.Bound ∧ e.mlen ≠ 0 ∧ e.pfill.toNat = e.mlen.toNat % 16 := by
  obtain ⟨hb, hphase⟩ := (Engine.inv_iff (by simp [hp])).1 h
  unfold Engine.PhaseInv at hphase
  rw [hp] at hphase
  exact ⟨hb, hphase⟩

/-- The data phases (R131). -/
theorem dataPhase_iff : dataPhase e = true ↔ e.phase = .nonceSet ∨ e.phase = .aad ∨ e.phase = .payload := by
  simp [dataPhase, or_assoc]

/-! ## The functions of the engine -/

/-- `SETIV` starts a record on the engine's key (R133). -/
theorem engSetIv_inv (h : e.Inv) (hp : e.phase ≠ .uninit) (E : Block → Block) (n : List Byte) : (engSetIv E e n).Inv := by
  obtain ⟨hb, -⟩ := (Engine.inv_iff hp).1 h
  have hb' : (engSetIv E e n).Bound :=
    hb.congr rfl rfl rfl rfl rfl (Nat.zero_le _) (Nat.zero_le _) (.of_pbuf rfl)
  exact hb'.inv rfl nofun ⟨rfl, rfl, rfl, rfl, rfl⟩

/-- `AAD` counts the bytes it absorbs (R136). -/
theorem engAad_inv (h : e.Inv) (hp : e.phase = .nonceSet ∨ e.phase = .aad) {a : List Byte}
    (hlen : e.alen.toNat + a.length ≤ 2 ^ 58) : (engAad e a).Inv := by
  unfold engAad
  split
  next => exact h
  next hne =>
    obtain ⟨hb, hm, hks, hfill⟩ := h.beforePayload hp
    obtain ⟨hkeep, hclear, hfill'⟩ := foldl_engAbsorb hb.clear a
    have hpos : 0 < a.length := List.length_pos_iff.2 hne
    have halen : ((a.foldl engAbsorb e).alen + BitVec.ofNat 64 a.length).toNat = e.alen.toNat + a.length := by
      rw [hkeep.alen, BitVec.toNat_add, BitVec.toNat_ofNat]
      omega
    have hm' : (a.foldl engAbsorb e).mlen = 0 := hkeep.mlen.trans hm
    refine Engine.Bound.inv (hb.congr hkeep.impl hkeep.key hkeep.keylen hkeep.h hkeep.htable ?_ ?_ hclear) rfl nofun
      ⟨?_, hm', ?_, hkeep.ks.trans hks⟩
    · exact halen.trans_le hlen
    · exact hkeep.mlen ▸ hb.mlen
    · intro (hzero : (a.foldl engAbsorb e).alen + BitVec.ofNat 64 a.length = 0)
      rw [hzero] at halen
      change 0 = _ at halen
      omega
    · show (a.foldl engAbsorb e).pfill.toNat = _
      rw [halen, hfill', hfill]
      omega

/-- The keystream block of the byte to come is made at the start of a block (R139). -/
def engRefill (E : Block → Block) (e : Engine) : Engine :=
  if e.mlen.toNat % 16 = 0 then { e with ks := E e.cb, cb := inc32 e.cb } else e

/-- The output byte of a payload byte (R139). -/
def payloadOutput (E : Block → Block) (e : Engine) (d : Byte) : Byte :=
  d ^^^ getByte (engRefill E e).ks (e.mlen.toNat % 16)

/-- The byte of a payload byte and its output that the tag takes: the ciphertext byte (R139). -/
def ciphertextByte (dir : CryptDir) (d o : Byte) : Byte :=
  match dir with
  | .encrypt => o
  | .decrypt => d

/-- A payload byte makes the keystream where needed, absorbs the ciphertext byte and is counted (R139). -/
theorem engPayloadByte_eq (E : Block → Block) (dir : CryptDir) (e : Engine) (d : Byte) :
    let e' := engAbsorb (engRefill E e) (ciphertextByte dir d (payloadOutput E e d))
    engPayloadByte E dir e d = ({ e' with mlen := e'.mlen + 1 }, payloadOutput E e d) := rfl

/-- One payload byte: the invariant is kept, the phase too, and the byte counted (R139). -/
theorem engPayloadByte_bound (E : Block → Block) (dir : CryptDir) (d : Byte) (hb : e.Bound)
    (hfill : e.pfill.toNat = e.mlen.toNat % 16) (hlen : e.mlen.toNat + 1 ≤ 2 ^ 36 - 32) :
    let r := (engPayloadByte E dir e d).1
    r.Bound ∧ r.pfill.toNat = r.mlen.toNat % 16 ∧ r.mlen.toNat = e.mlen.toNat + 1 ∧ r.phase = e.phase := by
  have hrefill : (engRefill E e).Bound ∧ (engRefill E e).pfill = e.pfill ∧ (engRefill E e).mlen = e.mlen ∧
      (engRefill E e).phase = e.phase := by
    unfold engRefill
    split
    · exact ⟨hb.congr rfl rfl rfl rfl rfl hb.alen hb.mlen hb.clear, rfl, rfl, rfl⟩
    · exact ⟨hb, rfl, rfl, rfl⟩
  obtain ⟨hb1, hfill1, hmlen1, hphase1⟩ := hrefill
  rw [engPayloadByte_eq]
  generalize ciphertextByte dir d (payloadOutput E e d) = b
  have hkeep := engAbsorb_keepsButTag (engRefill E e) b
  have hmlen : ((engAbsorb (engRefill E e) b).mlen + 1).toNat = e.mlen.toNat + 1 := by
    rw [hkeep.mlen, hmlen1, BitVec.toNat_add]
    exact Nat.mod_eq_of_lt (by simp; omega)
  have hfill2 : (engAbsorb (engRefill E e) b).pfill.toNat = (e.mlen.toNat + 1) % 16 := by
    rw [engAbsorb_pfill, hfill1, BitVec.toNat_add, hfill]
    simp
  refine ⟨hb1.congr hkeep.impl hkeep.key hkeep.keylen hkeep.h hkeep.htable ?_ ?_ (engAbsorb_clear hb1.clear b), ?_, hmlen,
    hkeep.phase.trans hphase1⟩
  · exact hkeep.alen ▸ hb1.alen
  · exact hmlen.trans_le hlen
  · exact hfill2.trans (by rw [hmlen])

/-- The loop of `PAYLOAD` byte by byte (R139). -/
theorem engPayloadLoop_bound (E : Block → Block) (dir : CryptDir) (d : List Byte) (hb : e.Bound)
    (hfill : e.pfill.toNat = e.mlen.toNat % 16) (hlen : e.mlen.toNat + d.length ≤ 2 ^ 36 - 32) :
    let r := (engPayloadLoop E dir e d).1
    r.Bound ∧ r.pfill.toNat = r.mlen.toNat % 16 ∧ r.mlen.toNat = e.mlen.toNat + d.length ∧ r.phase = e.phase := by
  induction d generalizing e with
  | nil => exact ⟨hb, hfill, rfl, rfl⟩
  | cons x xs ih =>
    rw [List.length_cons] at hlen ⊢
    obtain ⟨hb1, hfill1, hmlen1, hphase1⟩ := engPayloadByte_bound E dir x hb hfill (by omega)
    obtain ⟨hb2, hfill2, hmlen2, hphase2⟩ := ih hb1 hfill1 (by omega)
    refine ⟨hb2, hfill2, ?_, hphase2.trans hphase1⟩
    exact hmlen2.trans (by omega)

/-- The loop of `PAYLOAD` on a string that is not empty leads to the payload phase's invariant (R139). -/
theorem engPayloadLoop_inv (E : Block → Block) (dir : CryptDir) {d : List Byte} (hne : d ≠ []) (hp : e.phase = .payload)
    (hb : e.Bound) (hfill : e.pfill.toNat = e.mlen.toNat % 16) (hlen : e.mlen.toNat + d.length ≤ 2 ^ 36 - 32) :
    (engPayloadLoop E dir e d).1.Inv := by
  obtain ⟨hb', hfill', hmlen', hphase'⟩ := engPayloadLoop_bound E dir d hb hfill hlen
  refine hb'.inv (hphase'.trans hp) nofun ?_
  unfold Engine.PhaseInv
  rw [hphase'.trans hp]
  refine ⟨fun hzero => ?_, hfill'⟩
  have hpos : 0 < d.length := List.length_pos_iff.2 hne
  rw [hzero] at hmlen'
  change 0 = _ at hmlen'
  omega

/-- Flushing keeps the binding to the key (R135). -/
theorem Engine.Bound.flush (hb : e.Bound) : (engFlush e).Bound :=
  have hkeep := engFlush_keepsButTag e
  hb.congr hkeep.impl hkeep.key hkeep.keylen hkeep.h hkeep.htable (hkeep.alen ▸ hb.alen) (hkeep.mlen ▸ hb.mlen)
    (engFlush_clear hb.clear)

/-- `PAYLOAD`: the first byte closes the associated data and opens the payload phase (R139). -/
theorem engPayload_inv (h : e.Inv) (hp : dataPhase e = true) (E : Block → Block) (dir : CryptDir) {d : List Byte}
    (hlen : e.mlen.toNat + d.length ≤ 2 ^ 36 - 32) : (engPayload E dir e d).1.Inv := by
  unfold engPayload
  split
  next => exact h
  next hne =>
    split
    next hbefore =>
      obtain ⟨hb, hm, -, -⟩ := h.beforePayload hbefore
      have hm' : (engFlush e).mlen = 0 := (engFlush_keepsButTag e).mlen.trans hm
      have hbflush := hb.flush
      refine engPayloadLoop_inv E dir hne rfl
        (hbflush.congr rfl rfl rfl rfl rfl hbflush.alen hbflush.mlen hbflush.clear) ?_ ?_
      · show (engFlush e).pfill.toNat = (engFlush e).mlen.toNat % 16
        rw [engFlush_pfill, hm']
        rfl
      · rw [hm] at hlen
        show (engFlush e).mlen.toNat + d.length ≤ 2 ^ 36 - 32
        rw [hm']
        exact hlen
    next hbefore =>
      have hpay : e.phase = .payload := by
        have := dataPhase_iff.1 hp
        tauto
      obtain ⟨hb, -, hfill⟩ := h.payload hpay
      exact engPayloadLoop_inv E dir hne hpay hb hfill hlen

/-- `FINALIZE` leaves an empty partial block (R140). -/
theorem engFinalize_inv (h : e.Inv) (hp : dataPhase e = true) : (engFinalize e).Inv := by
  have hne : e.phase ≠ .uninit := by
    rcases dataPhase_iff.1 hp with hp | hp | hp <;> simp [hp]
  obtain ⟨hb, -⟩ := (Engine.inv_iff hne).1 h
  have hflush := hb.flush
  have hb' : (engFinalize e).Bound := hflush.congr rfl rfl rfl rfl rfl hflush.alen hflush.mlen hflush.clear
  exact hb'.inv rfl nofun (engFlush_pfill e)

end

/-! ## What a command can make of the engine -/

/-- The engine that `GCM_KEY` makes (R132). -/
def keyedEngine (k : List Byte) (keylen : Word) (impl : BitVec 4) : Engine :=
  { phase := .keyed, key := k, keylen := keylen, h := std.bc std.engBc k 0,
    htable := ghTable (std.bc std.engBc k 0), impl := impl }

/-- What a command can make of the engine `e`: leave it, clear it (R143), key it (R132), or take it one step through a
record within the bounds (R133 to R142). -/
inductive EngineMove (e : Engine) : Engine → Prop
  | kept : EngineMove e e
  | cleared : EngineMove e {}
  | keyed {k : List Byte} {keylen : Word} {impl : BitVec 4} (hk : k.length ∈ std.bcKeylens std.engBc)
      (hlen : keylen.toNat = k.length) (himpl : impl.toNat ≤ 3) : EngineMove e (keyedEngine k keylen impl)
  | nonceSet {E : Block → Block} {n : List Byte} (hp : e.phase ≠ .uninit) : EngineMove e (engSetIv E e n)
  | aad {a : List Byte} (hp : e.phase = .nonceSet ∨ e.phase = .aad) (hlen : e.alen.toNat + a.length ≤ 2 ^ 58) :
      EngineMove e (engAad e a)
  | payload {E : Block → Block} {dir : CryptDir} {d : List Byte} (hp : dataPhase e = true)
      (hlen : e.mlen.toNat + d.length ≤ 2 ^ 36 - 32) : EngineMove e (engPayload E dir e d).1
  | finalized (hp : dataPhase e = true) : EngineMove e (engFinalize e)

/-- What a command makes of an engine that meets the invariant meets it. -/
theorem EngineMove.inv {e e' : Engine} (hmove : EngineMove e e') (h : e.Inv) : e'.Inv := by
  cases hmove with
  | kept => exact h
  | cleared => exact rfl
  | @keyed k keylen impl hk hlen himpl =>
    have hb : (keyedEngine k keylen impl).Bound :=
      ⟨himpl, hk, hlen, rfl, rfl, Nat.zero_le _, Nat.zero_le _, .of_pbuf rfl⟩
    exact hb.inv rfl nofun ⟨rfl, rfl, rfl, rfl, rfl, rfl, rfl⟩
  | nonceSet hp => exact engSetIv_inv h hp _ _
  | aad hp hlen => exact engAad_inv h hp hlen
  | payload hp hlen => exact engPayload_inv h hp _ _ hlen
  | finalized hp => exact engFinalize_inv h hp

section
variable (s : State)

/-- `GCM_KEY` keys the engine with a key of a length its cipher takes (R132). -/
theorem gcmKey_engineMove : Ends (fun t => EngineMove s.eng t.eng) (exec .gcmKey s) := by
  simp only [exec, execGcmKey, gcmKeyOn]
  refine checked_elim (fun _ => .next .kept) fun hok => .next ?_
  have hkey : (!(std.bcKeylens std.engBc).contains s.x.keyl.toNat) = false := (firstFailing_none _).1 hok _ (.head _)
  refine .keyed ?_ (State.length_readBuf ..).symm (selectImpl_le _)
  rw [State.length_readBuf]
  exact List.contains_iff_mem.1 (Bool.not_eq_eq_eq_not.1 hkey)

/-- `GCM_SETIV` needs a key (R133). -/
theorem gcmSetiv_engineMove : Ends (fun t => EngineMove s.eng t.eng) (exec .gcmSetiv s) := by
  simp only [exec, execGcmSetiv, gcmSetivOn]
  refine checked_elim (fun _ => .next .kept) fun hok => .next (.nonceSet ?_)
  exact of_decide_eq_false ((firstFailing_none _).1 hok _ (.head _))

/-- `GCM_AAD` stays within the bound of the associated data (R136). -/
theorem gcmAad_engineMove : Ends (fun t => EngineMove s.eng t.eng) (exec .gcmAad s) := by
  simp only [exec, execGcmAad, gcmAadOn]
  refine checked_elim (fun _ => .next .kept) fun hok => ?_
  have hcs := (firstFailing_none _).1 hok
  have hphase : (!(decide (s.eng.phase = .nonceSet) || decide (s.eng.phase = .aad))) = false := hcs _ (.head _)
  have hlen : ¬s.eng.alen.toNat + s.x.adl.toNat > std.aadMax :=
    of_decide_eq_false (hcs _ (.tail _ (.tail _ (.head _))))
  rw [Bool.not_eq_false', Bool.or_eq_true, decide_eq_true_iff, decide_eq_true_iff] at hphase
  refine .next (.aad hphase ?_)
  rw [State.length_readBuf]
  exact Nat.le_of_not_lt hlen

/-- `GCM_ENC` and `GCM_DEC` stay within the bound of a message (R137, R138). -/
theorem gcmCrypt_engineMove (dir : CryptDir) : Ends (fun t => EngineMove s.eng t.eng) (gcmCryptOn std dir s) := by
  unfold gcmCryptOn
  refine checked_elim (fun _ => .next .kept) fun hok => ?_
  have hcs := (firstFailing_none _).1 hok
  have hphase : (!dataPhase s.eng) = false := hcs _ (.head _)
  have hlen : ¬s.eng.mlen.toNat + s.x.inl.toNat > std.msgMax :=
    of_decide_eq_false (hcs _ (.tail _ (.tail _ (.tail _ (.head _)))))
  refine .next (.payload (Bool.not_eq_eq_eq_not.1 hphase) ?_)
  rw [State.length_readBuf]
  exact Nat.le_of_not_lt hlen

/-- `GCM_TAG` ends a record (R141). -/
theorem gcmTag_engineMove : Ends (fun t => EngineMove s.eng t.eng) (exec .gcmTag s) := by
  simp only [exec, execGcmTag, gcmTagOn]
  refine checked_elim (fun _ => .next .kept) fun hok => ?_
  have hphase : (!dataPhase s.eng) = false := (firstFailing_none _).1 hok _ (.head _)
  exact .next (.finalized (Bool.not_eq_eq_eq_not.1 hphase))

/-- `GCM_FINISH` ends a record whether the tag is right or not (R142). -/
theorem gcmFinish_engineMove : Ends (fun t => EngineMove s.eng t.eng) (exec .gcmFinish s) := by
  simp only [exec, execGcmFinish, gcmFinishOn]
  refine checked_elim (fun _ => .next .kept) fun hok => ?_
  have hphase : (!dataPhase s.eng) = false := (firstFailing_none _).1 hok _ (.head _)
  have hdata : dataPhase s.eng = true := Bool.not_eq_eq_eq_not.1 hphase
  exact checked_elim (fun _ => .next (.finalized hdata)) fun _ => .next (.finalized hdata)

end

/-- Everything a command can make of the engine. -/
theorem exec_engineMove {i : Instr} {s t : State} (h : exec i s = .next t) : EngineMove s.eng t.eng := by
  cases i with
  | gcmKey => exact gcmKey_engineMove s t h
  | gcmSetiv => exact gcmSetiv_engineMove s t h
  | gcmAad => exact gcmAad_engineMove s t h
  | gcmEnc => exact gcmCrypt_engineMove s .encrypt t h
  | gcmDec => exact gcmCrypt_engineMove s .decrypt t h
  | gcmTag => exact gcmTag_engineMove s t h
  | gcmFinish => exact gcmFinish_engineMove s t h
  | gcmClear =>
    cases h
    exact .cleared
  | _ =>
    rw [(exec_commandFrame h).eng rfl]
    exact .kept

/-- Settles O57: every engine after a command is one of those that `EngineMove` lists, and each keeps the invariant. -/
theorem everyStepKeepsTheEngine : Obligations.EveryStepKeepsTheEngine := fun _ _ hs hstep =>
  step_keeps (P := fun s => s.eng.Inv) (fun _ _ _ _ _ h => h) (fun _ h => h) (fun _ => rfl)
    (fun _ _ _ h he => (exec_engineMove he).inv h) hs hstep

end Sys2Proof.Machine
end

section
/-! PROOF. The host interface: what a step does with the access it takes (log 1), the register map (R26, R31), reset (R43,
R280), and the read-only views of slots and units (R28, R29). -/

namespace Sys2Proof.Machine

/-! ## The access a step takes -/

/-- A step takes the first pending access (log 1). -/
theorem step_of_pending {s : State} {op : BusOp} {ops : List BusOp} (h : s.pending = op :: ops) :
    step s = busAccessOn std exec op { s with pending := ops } := by
  simp only [step, busStep, busStepOn, h]

/-- With no access pending a step leaves the state (R24). -/
theorem step_of_pending_nil {s : State} (h : s.pending = []) : step s = .next s := by
  simp only [step, busStep, busStepOn, h]

/-- Settles O5: the access that a step takes, when it writes `CMD`, is `exec` of the decoded command. -/
theorem stepRunsTheDecodedCommand : Obligations.StepRunsTheDecodedCommand := by
  refine ⟨fun s v ops i hp hi => ?_, fun s hp => step_of_pending_nil hp⟩
  have hi' : decodeOn std (v.setWidth 32) = .ok i := hi
  rw [step_of_pending hp, busAccessOn, regWriteOn, if_pos rfl, runCommandOn, hi']

/-- Settles O6: the fields of `State.reset` are their default values, and the reset input restores them. -/
theorem resetZeroesTheBlock : Obligations.ResetZeroesTheBlock := by
  refine ⟨fun n _ => Regs.get_default n, rfl, rfl, rfl, rfl, rfl, fun c => State.slot_reset c, rfl, rfl, rfl,
    fun s ops hp => ?_⟩
  rw [step_of_pending hp]
  rfl

/-- Settles O59: free slots, an engine without a key and unloaded units meet their invariants. -/
theorem resetMeetsTheInvariants : Obligations.ResetMeetsTheInvariants := by
  have hslots : ∀ c, (State.reset.slot c).Inv := fun c => by
    rw [State.slot_reset]
    rfl
  have hunits : State.reset.UnitInv := ⟨Nat.zero_le _, .inl rfl, rfl, fun _ => rfl⟩
  exact ⟨rfl, hslots, rfl, hunits⟩

/-! ## The register map -/

/-- The words of the default table, one descriptor after another (R30, R31). -/
theorem descWord_std (k : Nat) :
    descWord std (k / 4) (k % 4) =
      ([16, 12, 16, 16, 32, 12, 16, 16, 36, 16, 36, 20, 36, 16, 36, 20,
        64, 12, 32, 32, 32, 0, 16, 16, 16, 8, 8, 8, 32, 8, 8, 8] : List Nat)[k]?.getD 0 := by
  by_cases hk : k < 32
  · interval_cases k <;> rfl
  · have hnone : std.table[k / 4]? = none :=
      List.getElem?_eq_none (show 8 ≤ k / 4 by omega)
    rw [descWord, hnone, List.getElem?_eq_none (show 32 ≤ k by omega)]
    rfl

/-- The words of `DESC` by register number: those of the table from `0x40` on, and 0 beyond it (R26, R31). -/
theorem descWord_of_regNumber (n : Nat) :
    (if 0x40 ≤ n then BitVec.ofNat 64 (descWord std ((n - 0x40) / 4) ((n - 0x40) % 4)) else 0) =
      if 0x40 ≤ n ∧ n < 0x60 then
        BitVec.ofNat 64 (([16, 12, 16, 16, 32, 12, 16, 16, 36, 16, 36, 20, 36, 16, 36, 20,
          64, 12, 32, 32, 32, 0, 16, 16, 16, 8, 8, 8, 32, 8, 8, 8] : List Nat)[n - 0x40]?.getD 0)
      else 0 := by
  by_cases hlo : 0x40 ≤ n
  · rw [if_pos hlo, descWord_std]
    by_cases hhi : n < 0x60
    · rw [if_pos ⟨hlo, hhi⟩]
    · rw [if_neg fun h => hhi h.2, List.getElem?_eq_none (show 32 ≤ n - 0x40 by omega)]
      rfl
  · rw [if_neg hlo, if_neg fun h => hlo h.1]

/-- Settles O7: the map of R26 at the default configuration, with the `DESC` words of its table. -/
theorem registerMap : Obligations.RegisterMap := by
  refine ⟨fun s ops n hp => ?_, fun s ops n v hp hn => ?_, fun x n m v hn hm => Regs.get_put x n m v hn hm⟩
  · rw [step_of_pending hp, ← descWord_of_regNumber]
    rfl
  · rw [step_of_pending hp, busAccessOn, regWriteOn, if_neg hn, narrow_std]
    split
    · rfl
    · rw [Regs.put_of_gt s.x n v (by omega)]

/-! ## The views -/

/-- The fields of `CTXSTAT` of a live slot (R28). -/
theorem ctxStat_fields {sl : Slot} (h : sl.live = true) :
    let r : Word := (ctxStat sl).setWidth 64
    r.extractLsb' 0 1 = 1 ∧ r.extractLsb' 1 2 = sl.dir.code ∧ r.extractLsb' 3 1 = BitVec.ofBool sl.ivFixedSet ∧
    r.extractLsb' 4 4 = sl.impl ∧ r.extractLsb' 8 8 = sl.desc ∧ r.extractLsb' 16 8 = sl.tagLen ∧
    r.extractLsb' 24 40 = 0 := by
  simp only [ctxStat, h, if_true, bit]
  refine ⟨?_, ?_, ?_, ?_, ?_, ?_, ?_⟩
  case refine_7 =>
    ext j hj
    simp only [BitVec.getElem_extractLsb', BitVec.getLsbD_setWidth, BitVec.getLsbD_append]
    repeat rw [if_neg (by omega)]
    simp
  all_goals
    simp (disch := decide) only [BitVec.extractLsb'_setWidth_of_le, BitVec.extractLsb'_append_eq_of_add_le,
      BitVec.extractLsb'_append_eq_of_le, Nat.reduceSub, BitVec.extractLsb'_eq_self]
  rfl

/-- The fields of `ENGSTAT` (R29). -/
theorem engStat_fields (e : Engine) (g : GhUnit) (c : CtrUnit) :
    let r : Word := (engStat e g c).setWidth 64
    r.extractLsb' 0 3 = e.phase.code ∧ r.extractLsb' 3 1 = 0 ∧ r.extractLsb' 4 4 = e.pfill ∧
    r.extractLsb' 8 1 = BitVec.ofBool g.valid ∧ r.extractLsb' 9 1 = BitVec.ofBool c.valid ∧ r.extractLsb' 10 2 = 0 ∧
    r.extractLsb' 12 4 = e.impl ∧ r.extractLsb' 16 48 = 0 := by
  simp only [engStat, bit]
  refine ⟨?_, ?_, ?_, ?_, ?_, ?_, ?_, ?_⟩
  case refine_8 =>
    ext j hj
    simp only [BitVec.getElem_extractLsb', BitVec.getLsbD_setWidth, BitVec.getLsbD_append]
    repeat rw [if_neg (by omega)]
    simp
  all_goals
    simp (disch := decide) only [BitVec.extractLsb'_setWidth_of_le, BitVec.extractLsb'_append_eq_of_add_le,
      BitVec.extractLsb'_append_eq_of_le, Nat.reduceSub, BitVec.extractLsb'_eq_self]

/-- `CTXSTAT[c]` by its register number (R26). -/
theorem regRead_ctxStat (s : State) {c : BitVec 8} (hc : c.toNat < 8) :
    s.regRead (0x20 + c.toNat) = (ctxStat (s.slot c)).setWidth 64 := by
  have hnum : BitVec.ofNat 8 (0x20 + c.toNat - 0x20) = c := by
    rw [Nat.add_sub_cancel_left, BitVec.ofNat_toNat, BitVec.setWidth_eq]
  have hrange : 0x20 ≤ 0x20 + c.toNat ∧ 0x20 + c.toNat < 0x20 + std.nCtx := ⟨Nat.le_add_right .., Nat.add_lt_add_left hc _⟩
  unfold State.regRead regReadOn
  repeat rw [if_neg (by omega)]
  rw [if_pos hrange, hnum]

/-- A slot without its key-dependent bits. -/
theorem State.slot_eraseSecrets (s : State) (c : BitVec 8) : s.eraseSecrets.slot c = (s.slot c).erase := by
  simp [State.slot, State.eraseSecrets]

/-- No register shows a key-dependent bit (R28). -/
theorem regRead_eraseSecrets (s : State) (n : Nat) : s.eraseSecrets.regRead n = s.regRead n := by
  unfold State.regRead regReadOn
  rw [State.slot_eraseSecrets]
  rfl

/-- Settles O8: the fields of the two views, and that a read commutes with erasing the key-dependent bits. -/
theorem statusViewsShowNoKeyMaterial : Obligations.StatusViewsShowNoKeyMaterial := by
  refine ⟨fun s c hc => ?_, fun s => engStat_fields s.eng s.gh s.ctr, fun s t n h => ?_⟩
  · rw [regRead_ctxStat s hc]
    intro r
    split
    next hlive => exact ctxStat_fields hlive
    next hfree =>
      have hzero : ctxStat (s.slot c) = 0 := if_neg hfree
      show (ctxStat (s.slot c)).setWidth 64 = 0
      rw [hzero]
      rfl
  · rw [← regRead_eraseSecrets s, h, regRead_eraseSecrets t]

end Sys2Proof.Machine
end

section
/-! PROOF. The implementation id changes nothing (R33, R108, R195): every command commutes with erasing `CAP` and the ids,
because the engine, the constructions and the checks do. -/

namespace Sys2Proof.Machine

/-! ## The engine -/

/-- An engine without its implementation id. -/
def Engine.eraseImpl (e : Engine) : Engine := { e with impl := 0 }

/-- Erasing twice is erasing once. -/
theorem Engine.eraseImpl_eraseImpl (e : Engine) : e.eraseImpl.eraseImpl = e.eraseImpl := rfl

/-- Erasing the id of the outcome of a choice. -/
theorem ite_eraseImpl {p : Prop} [Decidable p] {e f e' f' : Engine} (he : e' = e.eraseImpl) (hf : f' = f.eraseImpl) :
    (if p then e' else f') = (if p then e else f).eraseImpl := by
  split
  · exact he
  · exact hf

section
variable (E : Block → Block) (dir : CryptDir) (e : Engine)

theorem engSetIv_eraseImpl (n : List Byte) : engSetIv E e.eraseImpl n = (engSetIv E e n).eraseImpl := rfl

theorem engAbsorb_eraseImpl (b : Byte) : engAbsorb e.eraseImpl b = (engAbsorb e b).eraseImpl := by
  unfold engAbsorb
  refine ite_eraseImpl ?_ ?_ <;> rfl

theorem engFlush_eraseImpl : engFlush e.eraseImpl = (engFlush e).eraseImpl := by
  unfold engFlush
  refine ite_eraseImpl ?_ ?_ <;> rfl

theorem foldl_engAbsorb_eraseImpl (a : List Byte) :
    a.foldl engAbsorb e.eraseImpl = (a.foldl engAbsorb e).eraseImpl := by
  induction a generalizing e with
  | nil => rfl
  | cons b bs ih => rw [List.foldl_cons, List.foldl_cons, engAbsorb_eraseImpl, ih]

theorem engAad_eraseImpl (a : List Byte) : engAad e.eraseImpl a = (engAad e a).eraseImpl := by
  unfold engAad
  split
  · rfl
  · rw [foldl_engAbsorb_eraseImpl]
    rfl

theorem engRefill_eraseImpl : engRefill E e.eraseImpl = (engRefill E e).eraseImpl := by
  unfold engRefill
  refine ite_eraseImpl ?_ ?_ <;> rfl

theorem payloadOutput_eraseImpl (d : Byte) : payloadOutput E e.eraseImpl d = payloadOutput E e d := by
  unfold payloadOutput
  rw [engRefill_eraseImpl]
  rfl

theorem engPayloadByte_eraseImpl (d : Byte) :
    engPayloadByte E dir e.eraseImpl d =
      ((engPayloadByte E dir e d).1.eraseImpl, (engPayloadByte E dir e d).2) := by
  rw [engPayloadByte_eq, engPayloadByte_eq, payloadOutput_eraseImpl, engRefill_eraseImpl, engAbsorb_eraseImpl]
  rfl

theorem engPayloadLoop_eraseImpl (d : List Byte) :
    engPayloadLoop E dir e.eraseImpl d =
      ((engPayloadLoop E dir e d).1.eraseImpl, (engPayloadLoop E dir e d).2) := by
  induction d generalizing e with
  | nil => rfl
  | cons x xs ih => simp only [engPayloadLoop, engPayloadByte_eraseImpl, ih]

theorem engPayload_eraseImpl (d : List Byte) :
    engPayload E dir e.eraseImpl d = ((engPayload E dir e d).1.eraseImpl, (engPayload E dir e d).2) := by
  unfold engPayload
  by_cases hd : d = []
  · rw [if_pos hd, if_pos hd]
  · rw [if_neg hd, if_neg hd]
    by_cases hp : e.phase = .nonceSet ∨ e.phase = .aad
    · have hp' : e.eraseImpl.phase = .nonceSet ∨ e.eraseImpl.phase = .aad := hp
      rw [if_pos hp, if_pos hp', engFlush_eraseImpl]
      exact engPayloadLoop_eraseImpl E dir { engFlush e with phase := .payload } d
    · have hp' : ¬(e.eraseImpl.phase = .nonceSet ∨ e.eraseImpl.phase = .aad) := hp
      rw [if_neg hp, if_neg hp', engPayloadLoop_eraseImpl]

theorem engFinalize_eraseImpl : engFinalize e.eraseImpl = (engFinalize e).eraseImpl := by
  unfold engFinalize
  rw [engFlush_eraseImpl]
  rfl

end

/-! ## The constructions on a slot -/

section
variable (κ : Cfg) (d : Descriptor) (sl : Slot) (n a p : List Byte)

theorem gcmStart_eraseImpl (bc : BcName) : gcmStart κ bc sl.eraseImpl n a = (gcmStart κ bc sl n a).eraseImpl :=
  engAad_eraseImpl (engSetIv (κ.bc bc sl.encKey) (workingCopy sl) n) a

theorem gcmSeal_eraseImpl (bc : BcName) : gcmSeal κ bc sl.eraseImpl n a p = gcmSeal κ bc sl n a p := by
  have hkey : sl.eraseImpl.encKey = sl.encKey := rfl
  have htag : sl.eraseImpl.tagLen = sl.tagLen := rfl
  unfold gcmSeal
  simp only [gcmStart_eraseImpl, hkey, htag, engPayload_eraseImpl, engFinalize_eraseImpl]
  rfl

theorem gcmOpen_eraseImpl (bc : BcName) : gcmOpen κ bc sl.eraseImpl n a p = gcmOpen κ bc sl n a p := by
  have hkey : sl.eraseImpl.encKey = sl.encKey := rfl
  have htag : sl.eraseImpl.tagLen = sl.tagLen := rfl
  unfold gcmOpen
  simp only [gcmStart_eraseImpl, hkey, htag, engPayload_eraseImpl, engFinalize_eraseImpl]
  rfl

/-- The family's part of a `SEAL` commutes with erasing the id. -/
theorem sealPart_eraseImpl :
    sealPart κ d sl.eraseImpl n a p = ((sealPart κ d sl n a p).1, (sealPart κ d sl n a p).2.eraseImpl) := by
  unfold sealPart
  cases d.family with
  | gcm bc => exact congrArg (·, sl.eraseImpl) (gcmSeal_eraseImpl κ sl n a p bc)
  | cbcTls | cbcSsl3 | stream | keywrap => rfl

/-- The family's part of an `OPEN` commutes with erasing the id. -/
theorem openPart_eraseImpl :
    openPart κ d sl.eraseImpl n a p = { openPart κ d sl n a p with slot := (openPart κ d sl n a p).slot.eraseImpl } := by
  unfold openPart
  cases d.family with
  | gcm bc => simp only [gcmOpen_eraseImpl]
  | cbcTls | cbcSsl3 | stream | keywrap => rfl

/-- The slot that `INIT` makes depends on the id in its id only. -/
theorem initSlot_eraseImpl (id : BitVec 8) (o : Bool) (t : Nat) (impl impl' : BitVec 4) (k : List Byte) :
    (initSlot κ id d o t impl k).eraseImpl = (initSlot κ id d o t impl' k).eraseImpl := by
  unfold initSlot initPart
  cases d.family <;> rfl

end

/-! ## States that are equal but for the ids -/

/-- A multiplier unit without its implementation id. -/
def GhUnit.eraseImpl (g : GhUnit) : GhUnit := { g with impl := 0 }

/-- Equal but for `CAP` and the implementation ids (R33). -/
structure SameButImpl (s t : State) : Prop where
  x : s.x = t.x
  status : s.status = t.status
  outlen : s.outlen = t.outlen
  perfCompress : s.perfCompress = t.perfCompress
  perfMemacc : s.perfMemacc = t.perfMemacc
  ctx : s.ctx.map Slot.eraseImpl = t.ctx.map Slot.eraseImpl
  eng : s.eng.eraseImpl = t.eng.eraseImpl
  gh : s.gh.eraseImpl = t.gh.eraseImpl
  ctr : s.ctr = t.ctr
  mem : s.mem = t.mem
  pending : s.pending = t.pending
  readData : s.readData = t.readData
  freeCount : s.freeCount = t.freeCount

/-- The relation is equality of the states without `CAP` and the ids. -/
theorem SameButImpl.eraseImpl_eq {s t : State} (h : SameButImpl s t) : s.eraseImpl = t.eraseImpl := by
  obtain ⟨hx, hst, hol, hpc, hpm, hctx, heng, hgh, hctr, hmem, hp, hr, hf⟩ := h
  unfold Engine.eraseImpl at heng
  unfold GhUnit.eraseImpl at hgh
  simp only [State.eraseImpl, hx, hst, hol, hpc, hpm, hctx, heng, hgh, hctr, hmem, hp, hr, hf]

theorem State.slot_eraseImpl (s : State) (c : BitVec 8) : s.eraseImpl.slot c = (s.slot c).eraseImpl := by
  simp [State.slot, State.eraseImpl]

/-- A state and the state without its ids. -/
theorem SameButImpl.eraseImpl (s : State) : SameButImpl s.eraseImpl s := by
  refine ⟨rfl, rfl, rfl, rfl, rfl, ?_, rfl, rfl, rfl, rfl, rfl, rfl, rfl⟩
  exact Vector.map_map

section
variable {s t : State} (h : SameButImpl s t)
include h

theorem SameButImpl.clearPerf : SameButImpl s.clearPerf t.clearPerf :=
  { h with perfCompress := rfl, perfMemacc := rfl }

theorem SameButImpl.latchCap (κ : Cfg) : SameButImpl (s.latchCap κ) (t.latchCap κ) := { h with }

theorem SameButImpl.writeBuf (p : Word) (v : List Byte) : SameButImpl (s.writeBuf p v) (t.writeBuf p v) :=
  { h with mem := congrArg (·.writeBytes p.toNat v) h.mem }

theorem SameButImpl.done (n : Nat) : SameButImpl (s.done n) (t.done n) := { h with status := rfl, outlen := rfl }

theorem SameButImpl.raise (dest : Bool) (e : StatusCode) : SameButImpl (s.raise dest e) (t.raise dest e) :=
  { h with
    status := rfl
    outlen := rfl
    mem := by rw [State.raise_mem, State.raise_mem, h.x, h.mem] }

theorem SameButImpl.setPerf (q : Word × Word) : SameButImpl (s.setPerf q) (t.setPerf q) :=
  { h with perfCompress := rfl, perfMemacc := rfl }

theorem SameButImpl.setSlot (c : BitVec 8) {sl sl' : Slot} (hsl : sl.eraseImpl = sl'.eraseImpl) :
    SameButImpl (s.setSlot c sl) (t.setSlot c sl') :=
  { h with ctx := by simp only [State.setSlot_ctx, Vector.map_set, hsl, h.ctx] }

/-- The end of a `SEAL` does not read the id (R197). -/
theorem SameButImpl.sealFixed (c : BitVec 8) (sl : Slot) (f : Bool) :
    SameButImpl (sealFixed c sl.eraseImpl f s) (sealFixed c sl f t) := by
  unfold Machine.sealFixed
  split
  · rw [h.x]
    exact (h.writeBuf _ _).setSlot c rfl
  · exact h.setSlot c rfl

/-- The end of an `OPEN` does not read the id (R168). -/
theorem SameButImpl.openFinish (κ : Cfg) (c : BitVec 8) (r : Opened) :
    SameButImpl (openFinish κ c { r with slot := r.slot.eraseImpl } s) (openFinish κ c r t) := by
  have hset := (h.setSlot c (sl := r.slot.eraseImpl) (sl' := r.slot) rfl).setPerf r.perf
  unfold Machine.openFinish
  cases r.plain with
  | none => exact hset.raise true .decrypt
  | some p =>
    exact { hset with
      status := rfl
      outlen := rfl
      freeCount := congrArg (· + (r.reach - p.length)) h.freeCount
      mem := by simp [h.x, h.mem, h.freeCount] }

end

/-! ## Outcomes that are equal but for the ids -/

/-- Outcomes equal but for `CAP` and the implementation ids (R33). -/
def SameOutcome (r r' : Result) : Prop := eraseOutcome r = eraseOutcome r'

theorem SameOutcome.next {s t : State} (h : SameButImpl s t) : SameOutcome (.next s) (.next t) :=
  congrArg Host.Outcome.next h.eraseImpl_eq

/-- A choice that does not depend on the ids. -/
theorem SameOutcome.ite {p : Prop} [Decidable p] {r q r' q' : Result} (hr : SameOutcome r r') (hq : SameOutcome q q') :
    SameOutcome (if p then r else q) (if p then r' else q') := by
  split
  · exact hr
  · exact hq

section
variable {κ : Cfg} {dest : Bool} {s t : State} {c : BitVec 8}

/-- The same checks on states that are equal but for the ids raise the same code, or both commands go on. -/
theorem checked_sameOutcome {cs : List (Bool × StatusCode)} {go go' : State → Result} (h : SameButImpl s t)
    (hgo : SameOutcome (go s) (go' t)) : SameOutcome (checked dest cs s go) (checked dest cs t go') := by
  unfold checked
  split
  · exact .next (h.raise dest _)
  · exact hgo

/-- The same for the commands of the direct units, whose own part is an update that ends in success. -/
theorem checked_done_sameOutcome {cs : List (Bool × StatusCode)} {g g' : State → State} {n n' : State → Nat}
    (h : SameButImpl s t) (hn : n s = n' t) (hg : SameButImpl (g s) (g' t)) :
    SameOutcome (checked dest cs s fun s => .next ((g s).done (n s))) (checked dest cs t fun s => .next ((g' s).done (n' s))) :=
  checked_sameOutcome h (.next (hn ▸ hg.done (n s)))

/-- A command on a slot sees the slot without its id. -/
theorem onSlot_sameOutcome {bufs : List (Word × Word)} {go go' : State → Slot → Descriptor → Result}
    (hgo : ∀ d, SameOutcome (go s.eraseImpl.clearPerf (s.slot c).eraseImpl d) (go' s.clearPerf (s.slot c) d)) :
    SameOutcome (onSlot κ dest bufs c s.eraseImpl go) (onSlot κ dest bufs c s go') := by
  have hs := SameButImpl.eraseImpl s
  have hdesc : slotDesc κ (s.slot c).eraseImpl = slotDesc κ (s.slot c) := rfl
  unfold onSlot
  rw [State.slot_eraseImpl, hdesc]
  refine .ite (.ite ?_ (.next (hs.clearPerf.raise dest _))) (.next (hs.raise false _))
  split
  · exact .next (hs.clearPerf.raise dest _)
  · exact hgo _

end

/-! ## The commands that name a slot -/

section
variable (κ : Cfg) (s : State) (c : BitVec 8)

theorem initOn_sameOutcome (id : BitVec 8) (o : Bool) : SameOutcome (initOn κ c id o s.eraseImpl) (initOn κ c id o s) := by
  have hs := SameButImpl.eraseImpl s
  have hscrub := (hs.latchCap κ).clearPerf.setSlot c (sl := {}) (sl' := {}) rfl
  unfold initOn
  split
  · exact .next (hs.raise false _)
  · refine .ite (.next (hs.raise false _)) (checked_done_sameOutcome hscrub rfl ?_)
    exact hscrub.setSlot c (initSlot_eraseImpl ..)

theorem sealOn_sameOutcome (f : Bool) : SameOutcome (sealOn κ c f s.eraseImpl) (sealOn κ c f s) := by
  have hs := (SameButImpl.eraseImpl s).clearPerf
  refine onSlot_sameOutcome fun d => checked_sameOutcome hs (.ite rfl ?_)
  dsimp only
  rw [sealPart_eraseImpl]
  exact .next (((hs.writeBuf _ _).sealFixed c _ f).done _)

theorem openOn_sameOutcome (f : Bool) : SameOutcome (openOn κ c f s.eraseImpl) (openOn κ c f s) := by
  have hs := (SameButImpl.eraseImpl s).clearPerf
  refine onSlot_sameOutcome fun d => checked_sameOutcome hs (.ite rfl ?_)
  dsimp only
  rw [openPart_eraseImpl]
  exact .next (hs.openFinish κ c _)

theorem cleanupOn_sameOutcome : SameOutcome (cleanupOn κ c s.eraseImpl) (cleanupOn κ c s) := by
  have hs := SameButImpl.eraseImpl s
  exact .ite (.next ((hs.clearPerf.setSlot c rfl).done 0)) (.next (hs.raise false _))

theorem getstreamOn_sameOutcome : SameOutcome (getstreamOn κ c s.eraseImpl) (getstreamOn κ c s) := by
  have hs := (SameButImpl.eraseImpl s).clearPerf
  refine onSlot_sameOutcome fun d => ?_
  split
  · exact checked_done_sameOutcome hs rfl (hs.writeBuf _ _)
  · exact .next (hs.raise false _)

theorem setivfixedOn_sameOutcome : SameOutcome (setivfixedOn κ c s.eraseImpl) (setivfixedOn κ c s) := by
  have hs := (SameButImpl.eraseImpl s).clearPerf
  refine onSlot_sameOutcome fun d => checked_done_sameOutcome hs rfl ?_
  exact hs.setSlot c rfl

end

/-! ## The commands of the direct engine -/

section
variable (κ : Cfg) (s : State)

theorem gcmAadOn_sameOutcome : SameOutcome (gcmAadOn κ s.eraseImpl) (gcmAadOn κ s) := by
  have hs := (SameButImpl.eraseImpl s).clearPerf
  have haad (a : List Byte) : engAad s.eraseImpl.clearPerf.eng a = (engAad s.eng a).eraseImpl :=
    engAad_eraseImpl s.eng a
  unfold gcmAadOn
  refine checked_done_sameOutcome hs rfl ?_
  simp only [haad]
  exact { hs with eng := Engine.eraseImpl_eraseImpl _ }

theorem gcmCryptOn_sameOutcome (dir : CryptDir) : SameOutcome (gcmCryptOn κ dir s.eraseImpl) (gcmCryptOn κ dir s) := by
  have hs := (SameButImpl.eraseImpl s).clearPerf
  have hpay (d : List Byte) : engPayload (engCipher κ s.eraseImpl.clearPerf.eng) dir s.eraseImpl.clearPerf.eng d =
      ((engPayload (engCipher κ s.eng) dir s.eng d).1.eraseImpl, (engPayload (engCipher κ s.eng) dir s.eng d).2) :=
    engPayload_eraseImpl (engCipher κ s.eng) dir s.eng d
  unfold gcmCryptOn
  refine checked_done_sameOutcome hs rfl ?_
  simp only [hpay]
  exact { hs with eng := Engine.eraseImpl_eraseImpl _, mem := rfl }

theorem gcmTagOn_sameOutcome : SameOutcome (gcmTagOn κ s.eraseImpl) (gcmTagOn κ s) := by
  have hs := (SameButImpl.eraseImpl s).clearPerf
  have hfinal : engFinalize s.eraseImpl.clearPerf.eng = (engFinalize s.eng).eraseImpl := engFinalize_eraseImpl s.eng
  unfold gcmTagOn
  refine checked_done_sameOutcome hs rfl ?_
  simp only [hfinal]
  exact { hs with eng := Engine.eraseImpl_eraseImpl _, mem := rfl }

theorem gcmFinishOn_sameOutcome : SameOutcome (gcmFinishOn κ s.eraseImpl) (gcmFinishOn κ s) := by
  have hs := (SameButImpl.eraseImpl s).clearPerf
  have hfinal : engFinalize s.eraseImpl.clearPerf.eng = (engFinalize s.eng).eraseImpl := engFinalize_eraseImpl s.eng
  unfold gcmFinishOn
  refine checked_sameOutcome hs ?_
  dsimp only
  rw [hfinal]
  refine checked_done_sameOutcome (g := id) (g' := id) ?_ rfl ?_
  all_goals exact { hs with eng := Engine.eraseImpl_eraseImpl _ }

end

/-! ## Every command -/

/-- Every command commutes with erasing `CAP` and the ids. -/
theorem execOn_sameOutcome (κ : Cfg) (i : Instr) (s : State) : SameOutcome (execOn κ i s.eraseImpl) (execOn κ i s) := by
  have hs := (SameButImpl.eraseImpl s).clearPerf
  have hlatch := ((SameButImpl.eraseImpl s).latchCap κ).clearPerf
  cases i with
  | nop => exact .next (hs.done 0)
  | init c id o => exact initOn_sameOutcome κ s c id o
  | seal_ c f => exact sealOn_sameOutcome κ s c f
  | open_ c f => exact openOn_sameOutcome κ s c f
  | cleanup c => exact cleanupOn_sameOutcome κ s c
  | getstream c => exact getstreamOn_sameOutcome κ s c
  | setivfixed c => exact setivfixedOn_sameOutcome κ s c
  | gcmAad => exact gcmAadOn_sameOutcome κ s
  | gcmEnc => exact gcmCryptOn_sameOutcome κ s .encrypt
  | gcmDec => exact gcmCryptOn_sameOutcome κ s .decrypt
  | gcmTag => exact gcmTagOn_sameOutcome κ s
  | gcmFinish => exact gcmFinishOn_sameOutcome κ s
  | gcmClear => exact .next { hs with status := rfl, outlen := rfl, eng := rfl, ctr := rfl }
  | gcmKey =>
    simp only [execOn, gcmKeyOn]
    refine checked_done_sameOutcome hlatch rfl ?_
    exact { hlatch with eng := rfl }
  | gcmSetiv =>
    simp only [execOn, gcmSetivOn]
    refine checked_done_sameOutcome hs rfl ?_
    exact { hs with eng := rfl }
  | ghLoadh =>
    simp only [execOn, ghLoadhOn]
    refine checked_done_sameOutcome hlatch rfl ?_
    exact { hlatch with gh := rfl }
  | ghLoadx | ghMul | ghHash =>
    simp only [execOn, ghLoadxOn, execGhMul, ghHashOn]
    refine checked_done_sameOutcome hs rfl ?_
    exact { hs with gh := rfl }
  | ghStorex =>
    simp only [execOn, ghStorexOn]
    refine checked_done_sameOutcome hs rfl ?_
    exact hs.writeBuf _ _
  | ctrLoad =>
    simp only [execOn, ctrLoadOn]
    refine checked_done_sameOutcome hs rfl ?_
    exact { hs with ctr := rfl }
  | ctrXor =>
    simp only [execOn, ctrXorOn]
    refine checked_done_sameOutcome hs rfl ?_
    exact { hs with ctr := rfl, mem := rfl }

/-- Settles O15: the outcome of each state is that of the state without `CAP` and ids. -/
theorem implementationIdChangesNothing : Obligations.ImplementationIdChangesNothing := by
  intro i s t h
  have hexec (u : State) : eraseOutcome (exec i u) = eraseOutcome (exec i u.eraseImpl) := by
    rw [← execOn_std, ← execOn_std]
    exact (execOn_sameOutcome std i u).symm
  rw [hexec s, h, ← hexec t]

end Sys2Proof.Machine
end

section
/-! PROOF. What a command can make of buffer memory, said once (`MemoryMove`): it writes byte strings at `OUTP`, and a
`SEAL` with `FIXEDIV` one more at `NONP` (R61, R69, R197). From it: a step keeps memory in its canonical form (log 13). -/

namespace Sys2Proof.Machine

/-! ## What a command can make of memory -/

/-- What a command can make of the memory of `s`: leave it, store a byte string at `OUTP` (R61, R69), or store one there
and then another at `NONP` (R197). -/
inductive MemoryMove (s : State) : Memory → Prop
  | kept : MemoryMove s s.mem
  | output (v : List Byte) : MemoryMove s (s.mem.writeBytes s.x.outp.toNat v)
  | outputAndNonce (v n : List Byte) :
      MemoryMove s ((s.mem.writeBytes s.x.outp.toNat v).writeBytes s.x.nonp.toNat n)

/-- An outcome whose next state, if it gives one, has such a memory. -/
abbrev EndsInMemoryMove (s : State) (r : Result) : Prop := Ends (fun t => MemoryMove s t.mem) r

section
variable {s u : State} {c : BitVec 8} {dest : Bool}

/-- A failure leaves memory or zero-fills the destination (R257, R69). -/
theorem raise_memoryMove (hx : u.x = s.x) (hm : u.mem = s.mem) (dest : Bool) (e : StatusCode) :
    MemoryMove s (u.raise dest e).mem := by
  rw [State.raise_mem, hx, hm]
  split
  · exact .output _
  · exact .kept

/-- A failure of a command before its own part. -/
theorem EndsInMemoryMove.raise_clearPerf (e : StatusCode) : EndsInMemoryMove s (.next (s.clearPerf.raise dest e)) :=
  .next (raise_memoryMove rfl rfl dest e)

/-- An illegal command word leaves memory (R83, R257). -/
theorem EndsInMemoryMove.badCommand : EndsInMemoryMove s (.next s.badCommand) := .next .kept

/-- Checks on a state with the memory of `s`, then an update and the success of the command. -/
theorem checked_done_memoryMove {cs : List (Bool × StatusCode)} {g : State → State} {n : State → Nat}
    (hx : u.x = s.x) (hm : u.mem = s.mem) (hg : MemoryMove s (g u).mem) :
    EndsInMemoryMove s (checked dest cs u fun s => .next ((g s).done (n s))) :=
  checked_elim (fun e => .next (raise_memoryMove hx hm dest e)) fun _ => .next hg

/-- The end of a `SEAL` stores its output, and with `FIXEDIV` the explicit part of the nonce (R167, R197). -/
theorem sealFixed_memoryMove (sl : Slot) (f : Bool) (v : List Byte) :
    MemoryMove s (sealFixed c sl f (s.clearPerf.writeBuf s.x.outp v)).mem := by
  unfold sealFixed
  split
  · exact .outputAndNonce v (explicitPart sl)
  · exact .output v

/-- The end of an `OPEN` stores the plaintext and the free bytes after it, or zero-fills (R168, UD5). -/
theorem openFinish_memoryMove (κ : Cfg) (r : Opened) : MemoryMove s (openFinish κ c r s.clearPerf).mem := by
  unfold openFinish
  split
  · exact raise_memoryMove rfl rfl true .decrypt
  · exact .output _

end

/-! ## The commands that name a slot -/

section
variable (s : State) (c : BitVec 8)

/-- `INIT` writes no memory (R164). -/
theorem init_memoryMove (id : BitVec 8) (o : Bool) : EndsInMemoryMove s (exec (.init c id o) s) := by
  simp only [exec, execInit, initOn]
  split
  · exact .badCommand
  · split
    · exact .badCommand
    · exact checked_done_memoryMove rfl rfl .kept

/-- `SEAL` stores its output, with `FIXEDIV` the explicit part of the nonce too, or zero-fills (R167, R197, R257). -/
theorem seal_memoryMove (f : Bool) : EndsInMemoryMove s (exec (.seal_ c f) s) :=
  seal_elim .badCommand .raise_clearPerf (fun _ _ => .refused _)
    fun _ _ _ _ _ _ => .next (sealFixed_memoryMove _ f _)

/-- `OPEN` stores its output or zero-fills (R168, R257). -/
theorem open_memoryMove (f : Bool) : EndsInMemoryMove s (exec (.open_ c f) s) :=
  open_elim .badCommand .raise_clearPerf (fun _ _ => .refused _)
    fun _ _ _ _ _ _ => .next (openFinish_memoryMove std _)

/-- `CLEANUP` writes no memory (R171). -/
theorem cleanup_memoryMove : EndsInMemoryMove s (exec (.cleanup c) s) := by
  simp only [exec, execCleanup, cleanupOn]
  split
  · exact .next .kept
  · exact .badCommand

/-- `GETSTREAM` stores the stream state (R228). -/
theorem getstream_memoryMove : EndsInMemoryMove s (exec (.getstream c) s) := by
  simp only [exec, execGetstream, getstreamOn]
  refine onSlot_elim .badCommand .raise_clearPerf fun d _ => ?_
  split
  · exact checked_done_memoryMove rfl rfl (.output _)
  · exact .raise_clearPerf _

/-- `SETIVFIXED` writes no memory (R196). -/
theorem setivfixed_memoryMove : EndsInMemoryMove s (exec (.setivfixed c) s) := by
  simp only [exec, execSetivfixed, setivfixedOn]
  exact onSlot_elim .badCommand .raise_clearPerf fun _ _ => checked_done_memoryMove rfl rfl .kept

end

/-! ## Every command -/

/-- Everything a command can make of memory. -/
theorem exec_memoryMove (i : Instr) (s : State) : EndsInMemoryMove s (exec i s) := by
  cases i with
  | nop | gcmClear => exact .next .kept
  | init c id o => exact init_memoryMove s c id o
  | seal_ c f => exact seal_memoryMove s c f
  | open_ c f => exact open_memoryMove s c f
  | cleanup c => exact cleanup_memoryMove s c
  | getstream c => exact getstream_memoryMove s c
  | setivfixed c => exact setivfixed_memoryMove s c
  | gcmEnc | gcmDec | gcmTag | ghStorex | ctrXor =>
    simp only [exec, execGcmEnc, execGcmDec, gcmCryptOn, execGcmTag, gcmTagOn, execGhStorex, ghStorexOn, execCtrXor,
      ctrXorOn]
    exact checked_done_memoryMove rfl rfl (.output _)
  | gcmFinish =>
    simp only [exec, execGcmFinish, gcmFinishOn]
    refine checked_elim .raise_clearPerf fun _ => ?_
    exact checked_done_memoryMove rfl rfl .kept
  | gcmKey | gcmSetiv | gcmAad | ghLoadh | ghLoadx | ghMul | ghHash | ctrLoad =>
    simp only [exec, execGcmKey, gcmKeyOn, execGcmSetiv, gcmSetivOn, execGcmAad, gcmAadOn, execGhLoadh, ghLoadhOn,
      execGhLoadx, ghLoadxOn, execGhMul, execGhHash, ghHashOn, execCtrLoad, ctrLoadOn]
    exact checked_done_memoryMove rfl rfl .kept

/-! ## The canonical form -/

/-- What a command makes of a memory in canonical form is in canonical form (log 13). -/
theorem MemoryMove.wf {s : State} {m : Memory} (h : MemoryMove s m) (hs : s.mem.wf = true) : m.wf = true := by
  cases h with
  | kept => exact hs
  | output v => exact Memory.wf_writeBytes _ _ v hs
  | outputAndNonce v n => exact Memory.wf_writeBytes _ _ n (Memory.wf_writeBytes _ _ v hs)

/-- Settles O55: a command stores byte strings only (`MemoryMove`), a host access writes at most one byte, and both keep
the canonical form. -/
theorem everyStepKeepsMemoryCanonical : Obligations.EveryStepKeepsMemoryCanonical := by
  intro s t hs hstep
  have of_next {u : State} (he : step s = .next u) (hu : u.mem.wf = true) : t.mem.wf = true :=
    Host.Outcome.next.inj (he.symm.trans hstep) ▸ hu
  rcases step_cases s with ⟨-, he⟩ | ⟨v, ops, i, -, -, he⟩ | ⟨v, ops, e, -, -, he⟩ | ⟨n, v, ops, -, -, he⟩ |
    ⟨n, ops, -, he⟩ | ⟨a, b, ops, -, he⟩ | ⟨a, ops, -, he⟩ | ⟨ops, -, he⟩
  · exact of_next he hs
  · have hmove : MemoryMove { s with pending := ops } t.mem := exec_memoryMove i _ t (he.symm.trans hstep)
    exact hmove.wf hs
  · exact of_next he hs
  · exact of_next he hs
  · exact of_next he hs
  · exact of_next he (Memory.wf_write s.mem a.toNat b hs)
  · exact of_next he hs
  · exact of_next he hs

end Sys2Proof.Machine
end

section
/-! PROOF. The encoding (R80 to R88): a word is legal exactly when it is the word of a well-formed command, and that command
is what the decoder gives. From it: the round trip, the uniqueness of the command, and the words that raise
`E_BAD_COMMAND`. -/

namespace Sys2Proof

open Machine

/-! ## The fields of a word -/

section
variable (op c d f : BitVec 8)

@[simp] theorem opField_packWord : opField (packWord op c d f) = op := by
  simp (disch := decide) only [opField, packWord, BitVec.extractLsb'_append_eq_of_le, Nat.reduceSub,
    BitVec.extractLsb'_eq_self]

@[simp] theorem ctxField_packWord : ctxField (packWord op c d f) = c := by
  simp (disch := decide) only [ctxField, packWord, BitVec.extractLsb'_append_eq_of_le,
    BitVec.extractLsb'_append_eq_of_add_le, Nat.reduceSub, BitVec.extractLsb'_eq_self]

@[simp] theorem descField_packWord : descField (packWord op c d f) = d := by
  simp (disch := decide) only [descField, packWord, BitVec.extractLsb'_append_eq_of_le,
    BitVec.extractLsb'_append_eq_of_add_le, Nat.reduceSub, BitVec.extractLsb'_eq_self]

@[simp] theorem flagsField_packWord : flagsField (packWord op c d f) = f := by
  simp (disch := decide) only [flagsField, packWord, BitVec.extractLsb'_append_eq_of_add_le, BitVec.extractLsb'_eq_self]

end

/-- A word is its four fields (R80). -/
theorem packWord_fields (w : CmdWord) : packWord (opField w) (ctxField w) (descField w) (flagsField w) = w := by
  simp only [packWord, opField, ctxField, descField, flagsField]
  repeat rw [BitVec.extractLsb'_append_extractLsb'_eq_extractLsb' (by decide)]
  exact BitVec.extractLsb'_eq_self

/-- A word by the number of its opcode, on which the decoder branches (R82). -/
theorem packWord_of_toNat_opField {w : CmdWord} {n : Nat} (h : (opField w).toNat = n) (c d f : BitVec 8) :
    packWord (opField w) c d f = packWord (BitVec.ofNat 8 n) c d f := by
  rw [← h, BitVec.ofNat_toNat, BitVec.setWidth_eq]

/-- Flag bit 0 reads back (R85, R86). -/
theorem getLsbD_flagBit (b : Bool) : (flagBit b).getLsbD 0 = b := by cases b <;> rfl

/-- A `flags` field whose bits 7:1 are 0 is its bit 0 (R85, R86). -/
theorem flagBit_getLsbD {f : BitVec 8} (h : f &&& 0xFE = 0) : flagBit (f.getLsbD 0) = f := by
  revert f
  decide

/-! ## What each kind of row accepts (R83, R84) -/

/-- A check of the decoder passes, and then what follows it decides. -/
theorem check_eq_ok_iff {p : Prop} [Decidable p] {e : DecodeError} {r : Except DecodeError Instr} {i : Instr} :
    (if p then .error e else r) = .ok i ↔ ¬p ∧ r = .ok i := by
  by_cases h : p
  · simp [h]
  · simp [h]

section
variable {κ : Cfg} {w : CmdWord} {i j : Instr}

/-- A row without fields accepts the one word of its opcode. -/
theorem decodePlain_eq_ok_iff : decodePlain w j = .ok i ↔ packWord (opField w) 0 0 0 = w ∧ j = i := by
  simp only [decodePlain, check_eq_ok_iff, Decidable.not_not, Except.ok.injEq]
  constructor
  · rintro ⟨hc, hd, hf, hi⟩
    have hw := packWord_fields w
    rw [hc, hd, hf] at hw
    exact ⟨hw, hi⟩
  · rintro ⟨hw, hi⟩
    rw [← hw]
    simpa only [ctxField_packWord, descField_packWord, flagsField_packWord, true_and] using hi

/-- A row that takes a slot accepts the words of the slots that exist. -/
theorem decodeSlot_eq_ok_iff {g : BitVec 8 → Instr} :
    decodeSlot κ w g = .ok i ↔ ∃ c, slotLegal κ c = true ∧ packWord (opField w) c 0 0 = w ∧ g c = i := by
  simp only [decodeSlot, check_eq_ok_iff, Decidable.not_not, Bool.not_eq_false, Except.ok.injEq]
  constructor
  · rintro ⟨hc, hd, hf, hi⟩
    have hw := packWord_fields w
    rw [hd, hf] at hw
    exact ⟨ctxField w, hc, hw, hi⟩
  · rintro ⟨c, hc, hw, hi⟩
    rw [← hw]
    simp only [ctxField_packWord, descField_packWord, flagsField_packWord, true_and]
    exact ⟨hc, hi⟩

/-- A row that takes a slot and flag bit 0 accepts the words of the slots that exist, with either flag. -/
theorem decodeSlotFlag_eq_ok_iff {g : BitVec 8 → Bool → Instr} :
    decodeSlotFlag κ w g = .ok i ↔
      ∃ c b, slotLegal κ c = true ∧ packWord (opField w) c 0 (flagBit b) = w ∧ g c b = i := by
  simp only [decodeSlotFlag, check_eq_ok_iff, Decidable.not_not, Bool.not_eq_false, Except.ok.injEq]
  constructor
  · rintro ⟨hc, hd, hf, hi⟩
    have hw := packWord_fields w
    rw [hd, ← flagBit_getLsbD hf] at hw
    exact ⟨ctxField w, (flagsField w).getLsbD 0, hc, hw, hi⟩
  · rintro ⟨c, b, hc, hw, hi⟩
    rw [← hw]
    simp only [ctxField_packWord, descField_packWord, flagsField_packWord, getLsbD_flagBit, true_and]
    exact ⟨hc, Laws.EncodingMatchesTable.flagBit_and b, hi⟩

/-- `INIT` accepts the words of the slots and descriptors that exist, with either flag. -/
theorem decodeInit_eq_ok_iff :
    decodeInit κ w = .ok i ↔
      ∃ c d b, (slotLegal κ c = true ∧ descLegal κ d = true) ∧ packWord (opField w) c d (flagBit b) = w ∧
        .init c d b = i := by
  simp only [decodeInit, check_eq_ok_iff, Decidable.not_not, Bool.not_eq_false, Except.ok.injEq]
  constructor
  · rintro ⟨hc, hd, hf, hi⟩
    have hw := packWord_fields w
    rw [← flagBit_getLsbD hf] at hw
    exact ⟨ctxField w, descField w, (flagsField w).getLsbD 0, ⟨hc, hd⟩, hw, hi⟩
  · rintro ⟨c, d, b, ⟨hc, hd⟩, hw, hi⟩
    rw [← hw]
    simp only [ctxField_packWord, descField_packWord, flagsField_packWord, getLsbD_flagBit]
    exact ⟨hc, hd, Laws.EncodingMatchesTable.flagBit_and b, hi⟩

/-! ## Every row -/

/-- The decoder gives a well-formed command for its word: the round trip under any configuration (R80, R82, R83). -/
theorem decodeOn_encode (h : i.wellFormedOn κ = true) : decodeOn κ (encode i) = .ok i := by
  cases i with
  | init c d o =>
    have hlegal : slotLegal κ c = true ∧ descLegal κ d = true := by simpa [Instr.wellFormedOn] using h
    simp only [decodeOn, encode, opField_packWord]
    exact decodeInit_eq_ok_iff.2 ⟨c, d, o, hlegal, by rw [opField_packWord], rfl⟩
  | seal_ c f | open_ c f =>
    simp only [decodeOn, encode, opField_packWord]
    exact decodeSlotFlag_eq_ok_iff.2 ⟨c, f, h, by rw [opField_packWord], rfl⟩
  | cleanup c | getstream c | setivfixed c =>
    simp only [decodeOn, encode, opField_packWord]
    exact decodeSlot_eq_ok_iff.2 ⟨c, h, by rw [opField_packWord], rfl⟩
  | _ => rfl

/-- A word that the decoder accepts is the word of the command it gives, which is well-formed (R83). -/
theorem encode_of_decodeOn (h : decodeOn κ w = .ok i) : i.wellFormedOn κ = true ∧ encode i = w := by
  unfold decodeOn at h
  split at h
  case h_2 hop =>
    obtain ⟨c, d, b, ⟨hc, hd⟩, hw, rfl⟩ := decodeInit_eq_ok_iff.1 h
    rw [packWord_of_toNat_opField hop] at hw
    exact ⟨by simp [Instr.wellFormedOn, hc, hd], hw⟩
  case h_3 hop | h_4 hop =>
    obtain ⟨c, b, hc, hw, rfl⟩ := decodeSlotFlag_eq_ok_iff.1 h
    rw [packWord_of_toNat_opField hop] at hw
    exact ⟨hc, hw⟩
  case h_5 hop | h_6 hop | h_7 hop =>
    obtain ⟨c, hc, hw, rfl⟩ := decodeSlot_eq_ok_iff.1 h
    rw [packWord_of_toNat_opField hop] at hw
    exact ⟨hc, hw⟩
  case h_23 => nomatch h
  all_goals
    rename_i hop
    obtain ⟨hw, rfl⟩ := decodePlain_eq_ok_iff.1 h
    rw [packWord_of_toNat_opField hop] at hw
    exact ⟨rfl, hw⟩

/-- A word is legal exactly when it is the word of a well-formed command, the one the decoder gives (R83). -/
theorem decodeOn_eq_ok_iff : decodeOn κ w = .ok i ↔ i.wellFormedOn κ = true ∧ encode i = w :=
  ⟨encode_of_decodeOn, fun ⟨hwf, hw⟩ => hw ▸ decodeOn_encode hwf⟩

end

/-- The same of the machine. -/
theorem decode_eq_ok_iff {w : CmdWord} {i : Instr} : decode w = .ok i ↔ i.wellFormed = true ∧ encode i = w :=
  decodeOn_eq_ok_iff

/-- Settles O2: the word of a well-formed command is legal, and the decoder gives that command. -/
theorem decodeInvertsEncode : Obligations.DecodeInvertsEncode := fun _ hwf => decode_eq_ok_iff.2 ⟨hwf, rfl⟩

/-! ## Words of the table -/

/-- A table word that is the word of a well-formed command gives that command. -/
theorem decodeTableWord_of_encode {w : Nat} (i : Instr) (hwf : i.wellFormed = true) (hw : encode i = BitVec.ofNat 32 w) :
    decodeTableWord 32 w = some i := by
  have hmod : BitVec.ofNat 32 (w % 2 ^ 32) = encode i :=
    hw ▸ BitVec.eq_of_toNat_eq (by simp)
  rw [decodeTableWord, hmod, decodeInvertsEncode i hwf]

/-- Settles O1: nine of the words are those of well-formed commands; the others have a slot, a descriptor or an opcode out
of its range. -/
theorem wordsOfTheTableDecode : Obligations.WordsOfTheTableDecode :=
  ⟨decodeTableWord_of_encode _ rfl rfl, decodeTableWord_of_encode _ rfl rfl, decodeTableWord_of_encode _ rfl rfl,
    decodeTableWord_of_encode _ rfl rfl, decodeTableWord_of_encode _ rfl rfl, decodeTableWord_of_encode _ rfl rfl,
    decodeTableWord_of_encode _ rfl rfl, decodeTableWord_of_encode _ rfl rfl, decodeTableWord_of_encode _ rfl rfl,
    by decide, by decide, by decide⟩

/-! ## A write of a word to `CMD` -/

namespace Machine

/-- A word that the decoder rejects changes `STATUS` and `OUTLEN` only (R83, R257). -/
theorem step_of_decode_error {s : State} {v : Word} {e : DecodeError} (h : decode (v.setWidth 32) = .error e) :
    step { s with pending := .regWrite 0x10 v :: s.pending } = .next s.illegal := by
  have hon : decodeOn std (v.setWidth 32) = .error e := h
  rw [step_of_pending rfl, busAccessOn, regWriteOn, if_pos rfl, runCommandOn, hon]
  rfl

/-- Settles O3: the command is the one the decoder gives; the word of any other well-formed command decodes to that
other. -/
theorem everyWordIsOneCommandOrIllegal : Obligations.EveryWordIsOneCommandOrIllegal := by
  intro s v
  cases hd : decode (v.setWidth 32) with
  | ok i =>
    obtain ⟨hwf, hw⟩ := decode_eq_ok_iff.1 hd
    have hunique : ∀ j : Instr, j.wellFormed = true → encode j = v.setWidth 32 → j = i := fun j hj hjw =>
      Except.ok.inj ((decode_eq_ok_iff.2 ⟨hj, hjw⟩).symm.trans hd)
    exact .inl ⟨i, ⟨hwf, hw, hunique⟩, stepRunsTheDecodedCommand.1 _ v s.pending i rfl hd⟩
  | error e =>
    refine .inr ⟨fun i hwf hw => ?_, step_of_decode_error hd⟩
    have hok : decode (v.setWidth 32) = .ok i := decode_eq_ok_iff.2 ⟨hwf, hw⟩
    exact nomatch hok.symm.trans hd

end Machine

/-! ## The row of an opcode -/

/-- The command of the same row whose fields are all 0. -/
def Instr.zeroFields : Instr → Instr
  | .init _ _ _ => .init 0 0 false
  | .seal_ _ _ => .seal_ 0 false
  | .open_ _ _ => .open_ 0 false
  | .cleanup _ => .cleanup 0
  | .getstream _ => .getstream 0
  | .setivfixed _ => .setivfixed 0
  | i => i

/-- The word of a row with every field 0 is its opcode, and is legal (R82). -/
theorem decode_opField_encode (i : Instr) : decode (packWord (opField (encode i)) 0 0 0) = .ok i.zeroFields := by
  have hw : packWord (opField (encode i)) 0 0 0 = encode i.zeroFields := by
    cases i with
    | init c d o | seal_ c f | open_ c f | cleanup c | getstream c | setivfixed c =>
      rw [encode, opField_packWord]
      rfl
    | _ => rfl
  have hwf : i.zeroFields.wellFormed = true := by cases i <;> rfl
  exact hw ▸ decodeInvertsEncode _ hwf

/-- The opcode of a command gives its row (R82). -/
theorem zeroFields_eq_of_opField {i j : Instr} (h : opField (encode i) = opField (encode j)) :
    i.zeroFields = j.zeroFields :=
  Except.ok.inj ((decode_opField_encode i).symm.trans (h ▸ decode_opField_encode j))

section
variable (i : Instr)

/-- The fixed bits of a row are the same for all its fields (R84). -/
theorem rowOf_zeroFields : rowOf i.zeroFields = rowOf i := by cases i <;> rfl

/-- Whether a row takes a slot is the same for all its fields (R84). -/
theorem isSome_slotOf_zeroFields : (slotOf i.zeroFields).isSome = (slotOf i).isSome := by cases i <;> rfl

/-- The word of a command has the fixed bits of its row (R84). -/
theorem encode_and_mask : encode i &&& (rowOf i).mask = (rowOf i).pattern := by
  cases i with
  | init c d o => exact Laws.EncodingMatchesTable.init c d o
  | seal_ c f => exact Laws.EncodingMatchesTable.seal_ c f
  | open_ c f => exact Laws.EncodingMatchesTable.open_ c f
  | cleanup c => exact Laws.EncodingMatchesTable.cleanup c
  | getstream c => exact Laws.EncodingMatchesTable.getstream c
  | setivfixed c => exact Laws.EncodingMatchesTable.setivfixed c
  | _ => rfl

end

/-- The slot number of a well-formed command is in its word and is below `N_CTX` (R80, R84). -/
theorem ctxField_encode_lt {i : Instr} (hwf : i.wellFormed = true) (h : (slotOf i).isSome = true) :
    (ctxField (encode i)).toNat < 8 := by
  cases i with
  | init c d o =>
    obtain ⟨hc, -⟩ := Bool.and_eq_true_iff.1 hwf
    rw [encode, ctxField_packWord]
    exact of_decide_eq_true hc
  | seal_ c f | open_ c f | cleanup c | getstream c | setivfixed c =>
    rw [encode, ctxField_packWord]
    exact of_decide_eq_true hwf
  | _ => nomatch h

/-- The descriptor id of a well-formed `INIT` is in its word and is one of the table (R80, R85). -/
theorem descField_encode_lt {i : Instr} (hwf : i.wellFormed = true) (h : i.zeroFields = .init 0 0 false) :
    (descField (encode i)).toNat < 8 := by
  cases i with
  | init c d o =>
    obtain ⟨-, hd⟩ := Bool.and_eq_true_iff.1 hwf
    rw [encode, descField_packWord]
    exact of_decide_eq_true hd
  | _ => nomatch h

/-- Settles O4: were the word legal, it would be that of a well-formed command of the row of `i`, and meet every
condition of that row. -/
theorem illegalFieldsRaiseBadCommand : Obligations.IllegalFieldsRaiseBadCommand := by
  intro i s v hop hbad
  cases hd : decode (v.setWidth 32) with
  | error e => exact step_of_decode_error hd
  | ok j =>
    exfalso
    obtain ⟨hwf, hw⟩ := decode_eq_ok_iff.1 hd
    rw [← hw] at hop hbad
    have hrow : j.zeroFields = i.zeroFields := zeroFields_eq_of_opField hop
    rcases hbad with hmask | ⟨hslot, hc⟩ | ⟨⟨c, d, o, rfl⟩, hdesc⟩
    · rw [← rowOf_zeroFields i, ← hrow, rowOf_zeroFields] at hmask
      exact hmask (encode_and_mask j)
    · rw [← isSome_slotOf_zeroFields i, ← hrow, isSome_slotOf_zeroFields] at hslot
      exact Nat.not_le_of_lt (ctxField_encode_lt hwf hslot) hc
    · exact Nat.not_le_of_lt (descField_encode_lt hwf hrow) hdesc

/-! ## The commands that never fail -/

namespace Machine

/-- `CLEANUP` on a slot of the machine frees it (R171). -/
theorem exec_cleanup (s : State) {c : BitVec 8} (hc : c.toNat < 8) :
    exec (.cleanup c) s = .next ((s.clearPerf.setSlot c {}).done 0) :=
  if_pos hc

/-- Settles O38: the updates that the three commands make, and `CTXSTAT` of a slot that `CLEANUP` has freed. -/
theorem nopCleanupAndClearNeverFail : Obligations.NopCleanupAndClearNeverFail := by
  refine ⟨fun _ => rfl, fun s c hc => ⟨_, exec_cleanup s hc, rfl, ⟨?_, fun c' hne => ?_⟩, ?_⟩, fun _ => rfl⟩
  · exact State.slot_setSlot_same s.clearPerf c {}
  · exact State.slot_setSlot_ne s.clearPerf c c' {} hne
  · rw [regRead_ctxStat _ hc, State.slot_done, State.slot_setSlot_same]
    rfl

end Machine

end Sys2Proof
end

section
/-! PROOF. The field product (R100, R101) as a sum of powers of `MULX`: blocks are a module over the polynomials in `x`,
generated by the block `ONE`, and every map of blocks that is additive and commutes with `MULX` is linear over the field
(`map_gfmul`). From it: the laws of R102. -/

namespace Sys2Proof.Machine

/-! ## A bit times a block -/

/-- A coefficient of the field GF(2) times a block. -/
def scale (b : Bool) (v : Block) : Block := if b then v else 0

@[simp] theorem scale_true (v : Block) : scale true v = v := rfl
@[simp] theorem scale_false (v : Block) : scale false v = 0#128 := rfl

theorem scale_xor_left (b c : Bool) (v : Block) : scale (b ^^ c) v = scale b v ^^^ scale c v := by
  cases b <;> cases c <;> simp

theorem scale_xor_right (b : Bool) (v w : Block) : scale b (v ^^^ w) = scale b v ^^^ scale b w := by
  cases b <;> simp

/-- An additive map keeps the block 0. -/
theorem map_zero_of_xor {f : Block → Block} (hadd : ∀ v w, f (v ^^^ w) = f v ^^^ f w) : f 0#128 = 0#128 := by
  simpa using hadd 0#128 0#128

/-- An additive map commutes with a coefficient. -/
theorem map_scale {f : Block → Block} (hadd : ∀ v w, f (v ^^^ w) = f v ^^^ f w) (b : Bool) (v : Block) :
    f (scale b v) = scale b (f v) := by
  cases b with
  | false => exact map_zero_of_xor hadd
  | true => rfl

theorem getLsbD_scale (b : Bool) (v : Block) (i : Nat) : (scale b v).getLsbD i = (b && v.getLsbD i) := by
  cases b <;> simp

/-! ## Multiplication by `x` -/

/-- `MULX` is a shift and the reduction of the coefficient that falls out (R101). -/
theorem mulx_eq (v : Block) : mulx v = v >>> 1 ^^^ scale (v.getLsbD 0) 0xE1000000000000000000000000000000 := rfl

/-- `MULX` is additive (R101). -/
theorem mulx_xor (v w : Block) : mulx (v ^^^ w) = mulx v ^^^ mulx w := by
  simp only [mulx_eq, BitVec.ushiftRight_xor_distrib, BitVec.getLsbD_xor, scale_xor_left]
  ac_rfl

@[simp] theorem mulx_zero : mulx 0#128 = 0#128 := rfl

/-- A power of `MULX` is additive. -/
theorem iterate_mulx_xor (n : Nat) (v w : Block) : mulx^[n] (v ^^^ w) = mulx^[n] v ^^^ mulx^[n] w := by
  induction n generalizing v w with
  | zero => rfl
  | succ n ih => rw [Function.iterate_succ_apply, mulx_xor, ih]; rfl

@[simp] theorem iterate_mulx_zero (n : Nat) : mulx^[n] 0#128 = 0#128 := Function.iterate_fixed mulx_zero n

/-- Where no coefficient falls out, multiplication by a power of `x` is a shift (R101). -/
theorem iterate_mulx_eq_ushiftRight (n : Nat) (v : Block) (h : ∀ i < n, v.getLsbD i = false) :
    mulx^[n] v = v >>> n := by
  induction n with
  | zero => simp
  | succ n ih =>
    have hlow : (v >>> n).getLsbD 0 = false := by simpa using h n (Nat.lt_succ_self n)
    rw [Function.iterate_succ_apply', ih fun i hi => h i (Nat.lt_succ_of_lt hi), mulx, hlow, BitVec.shiftRight_add]
    simp

/-- `ONE = 80 00 … 00` (R102). -/
def gfOne : Block := 0x80000000000000000000000000000000

/-- The block of `x^n` for `n` up to 127: field bit `n` alone (R9). -/
theorem iterate_mulx_gfOne (n : Nat) (h : n < 128) : mulx^[n] gfOne = BitVec.twoPow 128 (127 - n) := by
  have hone : gfOne = BitVec.twoPow 128 127 := by decide
  rw [iterate_mulx_eq_ushiftRight]
  · ext i hi
    simp only [hone, BitVec.getElem_ushiftRight, BitVec.getLsbD_twoPow, BitVec.getElem_twoPow, Nat.lt_add_one,
      decide_true, Bool.true_and, decide_eq_decide]
    omega
  · intro i hi
    have hne : 127 ≠ i := by omega
    rw [hone, BitVec.getLsbD_twoPow, decide_eq_false hne, Bool.and_false]

/-! ## The value of a polynomial -/

/-- The polynomial of degree below `n` with coefficients `c`, times the block `v`. -/
def polyMul (c : Nat → Bool) : Nat → Block → Block
  | 0, _ => 0
  | n + 1, v => polyMul c n v ^^^ scale (c n) (mulx^[n] v)

section
variable (c d : Nat → Bool) (n : Nat) (v w : Block)

@[simp] theorem polyMul_zero : polyMul c 0 v = 0#128 := rfl

theorem polyMul_succ : polyMul c (n + 1) v = polyMul c n v ^^^ scale (c n) (mulx^[n] v) := rfl

/-- The sum of two polynomials. -/
theorem polyMul_xor_left : polyMul (fun i => c i ^^ d i) n v = polyMul c n v ^^^ polyMul d n v := by
  induction n with
  | zero => simp
  | succ n ih =>
    simp only [polyMul_succ, ih, scale_xor_left]
    ac_rfl

/-- A product with the zero polynomial. -/
@[simp] theorem polyMul_false : polyMul (fun _ => false) n v = 0#128 := by
  induction n with
  | zero => rfl
  | succ n ih => simp [polyMul_succ, ih]

/-- A map of blocks that is additive and commutes with `MULX` commutes with the product by a polynomial. -/
theorem map_polyMul {f : Block → Block} (hadd : ∀ v w, f (v ^^^ w) = f v ^^^ f w)
    (hmulx : ∀ v, f (mulx v) = mulx (f v)) :
    f (polyMul c n v) = polyMul c n (f v) := by
  have hpow (k : Nat) : f (mulx^[k] v) = mulx^[k] (f v) := Function.Semiconj.iterate_right hmulx k v
  induction n with
  | zero => exact map_zero_of_xor hadd
  | succ n ih => rw [polyMul_succ, hadd, ih, map_scale hadd, hpow, polyMul_succ]

/-- The product by a polynomial is additive in the block. -/
theorem polyMul_xor_right : polyMul c n (v ^^^ w) = polyMul c n v ^^^ polyMul c n w := by
  induction n with
  | zero => simp
  | succ n ih =>
    simp only [polyMul_succ, ih, iterate_mulx_xor, scale_xor_right]
    ac_rfl

/-- The product by a polynomial commutes with `MULX`. -/
theorem polyMul_mulx : polyMul c n (mulx v) = mulx (polyMul c n v) :=
  (map_polyMul c n v mulx_xor fun _ => rfl).symm

variable {c d n}

/-- Only the coefficients below the bound count. -/
theorem polyMul_congr (h : ∀ i < n, c i = d i) : polyMul c n v = polyMul d n v := by
  induction n with
  | zero => rfl
  | succ n ih => rw [polyMul_succ, polyMul_succ, ih fun i hi => h i (Nat.lt_succ_of_lt hi), h n (Nat.lt_succ_self n)]

/-- Coefficients that are zero need not be counted. -/
theorem polyMul_of_degree_lt {m : Nat} (hmn : m ≤ n) (h : ∀ i, m ≤ i → c i = false) :
    polyMul c n v = polyMul c m v := by
  induction n, hmn using Nat.le_induction with
  | base => rfl
  | succ n hmn ih => simp [polyMul_succ, ih, h n hmn]

/-- A polynomial times `x^k`: its coefficients move `k` degrees up. -/
theorem polyMul_shift (k : Nat) (hlow : ∀ i < k, d i = false) (hhigh : ∀ i, d (k + i) = c i) :
    polyMul d (k + n) v = mulx^[k] (polyMul c n v) := by
  induction n with
  | zero => rw [Nat.add_zero, polyMul_congr v hlow, polyMul_false, polyMul_zero, iterate_mulx_zero]
  | succ n ih =>
    rw [← Nat.add_assoc, polyMul_succ, polyMul_succ, ih, iterate_mulx_xor, hhigh, map_scale (iterate_mulx_xor k),
      Function.iterate_add_apply]

end

/-- The polynomial of the first `n` field bits of a block, times `ONE`: those field bits of the block (R9). -/
theorem getLsbD_polyMul_gfOne (x : Block) {n i : Nat} (hn : n ≤ 128) (hi : i < 128) :
    (polyMul x.getMsbD n gfOne).getLsbD i = (x.getLsbD i && decide (127 - i < n)) := by
  induction n with
  | zero => simp
  | succ n ih =>
    have hbit : x.getMsbD n = x.getLsbD (127 - n) := by simp [BitVec.getMsbD, Nat.lt_of_succ_le hn]
    rw [polyMul_succ, BitVec.getLsbD_xor, ih (by omega), getLsbD_scale, iterate_mulx_gfOne n hn,
      BitVec.getLsbD_twoPow, hbit]
    by_cases hin : 127 - n = i
    · have hle : ¬127 - i < n := by omega
      have hlt : 127 - i < n + 1 := by omega
      simp [hin, hle, hlt, hi]
    · have hiff : 127 - i < n ↔ 127 - i < n + 1 := by omega
      simp [hin, hiff]

/-! ## The product -/

/-- The loop of R100 keeps the sum so far and the power of `x` reached. -/
theorem foldl_gfStep (x y : Block) (n : Nat) :
    (List.range n).foldl (gfStep x) (0, y) = (polyMul x.getMsbD n y, mulx^[n] y) := by
  induction n with
  | zero => rfl
  | succ n ih =>
    rw [List.range_succ, List.foldl_append, ih, List.foldl_cons, List.foldl_nil, gfStep, polyMul_succ,
      Function.iterate_succ_apply']
    cases x.getMsbD n <;> simp

/-- `GFMUL(X, Y)` is the polynomial of the field bits of `X` times `Y` (R100). -/
theorem gfmul_eq_polyMul (x y : Block) : gfmul x y = polyMul x.getMsbD 128 y := by
  rw [gfmul, foldl_gfStep]

/-- `GFMUL` is additive in its first operand (R102). -/
theorem gfmul_xor_left (x w y : Block) : gfmul (x ^^^ w) y = gfmul x y ^^^ gfmul w y := by
  rw [gfmul_eq_polyMul, gfmul_eq_polyMul, gfmul_eq_polyMul, ← polyMul_xor_left]
  exact polyMul_congr y fun i hi => BitVec.getMsbD_xor

/-- `GFMUL` is additive in its second operand (R102). -/
theorem gfmul_xor_right (x y z : Block) : gfmul x (y ^^^ z) = gfmul x y ^^^ gfmul x z := by
  rw [gfmul_eq_polyMul, gfmul_eq_polyMul, gfmul_eq_polyMul, polyMul_xor_right]

theorem gfmul_mulx_right (x y : Block) : gfmul x (mulx y) = mulx (gfmul x y) := by
  rw [gfmul_eq_polyMul, gfmul_eq_polyMul, polyMul_mulx]

/-- `ONE` is the unit (R102). -/
@[simp] theorem gfmul_one (x : Block) : gfmul x gfOne = x := by
  rw [gfmul_eq_polyMul]
  refine BitVec.eq_of_getLsbD_eq fun i hi => ?_
  rw [getLsbD_polyMul_gfOne x le_rfl hi]
  simp [show 127 - i < 128 by omega]

/-- A map of blocks that is additive and commutes with `MULX` is linear over the field. -/
theorem map_gfmul {f : Block → Block} (hadd : ∀ v w, f (v ^^^ w) = f v ^^^ f w) (hmulx : ∀ v, f (mulx v) = mulx (f v))
    (x y : Block) : f (gfmul x y) = gfmul x (f y) := by
  rw [gfmul_eq_polyMul, gfmul_eq_polyMul, map_polyMul x.getMsbD 128 y hadd hmulx]

/-- `GFMUL` is commutative (R102): the product by `Y` is linear, so it is determined by its value at `ONE`. -/
theorem gfmul_comm (x y : Block) : gfmul x y = gfmul y x :=
  calc gfmul x y = gfmul x (gfmul y gfOne) := by rw [gfmul_one]
    _ = gfmul y (gfmul x gfOne) := (map_gfmul (gfmul_xor_right y) (gfmul_mulx_right y) x gfOne).symm
    _ = gfmul y x := by rw [gfmul_one]

theorem gfmul_mulx_left (x y : Block) : gfmul (mulx x) y = mulx (gfmul x y) := by
  rw [gfmul_comm, gfmul_mulx_right, gfmul_comm]

/-- A power of `x` moves out of a product. -/
theorem gfmul_iterate_mulx_left (n : Nat) (x y : Block) : gfmul (mulx^[n] x) y = mulx^[n] (gfmul x y) :=
  Function.Semiconj.iterate_right (f := (gfmul · y)) (fun x => gfmul_mulx_left x y) n x

/-- `GFMUL` is associative (R102): the product by `Z` is linear. -/
theorem gfmul_assoc (x y z : Block) : gfmul (gfmul x y) z = gfmul x (gfmul y z) :=
  map_gfmul (f := (gfmul · z)) (fun v w => gfmul_xor_left v w z) (fun v => gfmul_mulx_left v z) x y

@[simp] theorem gfmul_zero (x : Block) : gfmul x 0#128 = 0#128 := map_zero_of_xor (gfmul_xor_right x)

@[simp] theorem zero_gfmul (y : Block) : gfmul 0#128 y = 0#128 := by
  rw [gfmul_comm, gfmul_zero]

@[simp] theorem one_gfmul (y : Block) : gfmul gfOne y = y := by
  rw [gfmul_comm, gfmul_one]

/-- Settles O19: the laws follow from the linearity of the product in each operand. -/
theorem productLaws : Obligations.ProductLaws := by
  have hx : (0x40000000000000000000000000000000 : Block) = mulx gfOne := by decide
  refine ⟨gfmul_comm, gfmul_assoc, gfmul_xor_left, gfmul_zero, gfmul_one, fun x => ?_⟩
  rw [hx, gfmul_mulx_right, gfmul_one]

end Sys2Proof.Machine
end

section
/-! PROOF. The portable path is the product (R105 to R107): an entry of the table is the product of its index's block and
`H`, `MULX4` is `MULX` four times, and Horner's rule over the bytes builds the operand up by shifts. -/

namespace Sys2Proof.Machine

/-! ## The table -/

/-- The block whose first four field bits are the 4-bit index `n` (R105). -/
def nibbleBlock (n : BitVec 4) : Block := n ++ (0 : BitVec 124)

theorem getLsbD_nibbleBlock (n : BitVec 4) (i : Nat) :
    (nibbleBlock n).getLsbD i = (decide (124 ≤ i) && n.getLsbD (i - 124)) := by
  rw [nibbleBlock, BitVec.getLsbD_append]
  by_cases hi : i < 124
  · simp [hi]
  · simp [hi, Nat.le_of_not_lt hi]

/-- The polynomial that a 4-bit index stands for, `n3 + n2·x + n1·x^2 + n0·x^3`, times `v` (R105). -/
def nibbleMul (n : BitVec 4) (v : Block) : Block :=
  scale (n.getLsbD 3) v ^^^ scale (n.getLsbD 2) (mulx v) ^^^ scale (n.getLsbD 1) (mulx (mulx v)) ^^^
    scale (n.getLsbD 0) (mulx (mulx (mulx v)))

/-- The block of an index is its polynomial. -/
theorem nibbleBlock_eq : ∀ n : BitVec 4, nibbleBlock n = nibbleMul n gfOne := by decide

/-- A product by the polynomial of an index is a product by its block. -/
theorem nibbleMul_eq_gfmul (n : BitVec 4) (v : Block) : nibbleMul n v = gfmul (nibbleBlock n) v := by
  have hscale (b : Bool) (w : Block) : gfmul (scale b w) v = scale b (gfmul w v) :=
    map_scale (f := (gfmul · v)) (fun w w' => gfmul_xor_left w w' v) b w
  simp only [nibbleBlock_eq, nibbleMul, gfmul_xor_left, hscale, gfmul_mulx_left, one_gfmul]

/-- Every entry of the table is the sum that its index names (R105). -/
theorem tableAt_eq_nibbleMul (h : Block) (n : BitVec 4) : tableAt (ghTable h) n = nibbleMul n h := by
  obtain ⟨k, hk⟩ := n
  interval_cases k <;> simp [tableAt, ghTable, nibbleMul, BitVec.xor_assoc]

/-- Entry `T[n]` is the product of the block of `n` and `H` (R105). -/
theorem tableAt_ghTable (h : Block) (n : BitVec 4) : tableAt (ghTable h) n = gfmul (nibbleBlock n) h := by
  rw [tableAt_eq_nibbleMul, nibbleMul_eq_gfmul]

/-! ## Four bits at once -/

/-- `R4` holds what four shifts fold back of a nibble (R106). -/
theorem r4_eq : ∀ r : BitVec 4, (r4[r.toNat]'r.isLt).setWidth 128 <<< 112 = mulx^[4] (r.setWidth 128) := by decide

/-- `MULX4` is `MULX` four times (R106): the upper bits are shifted, and the table folds back the lowest nibble. -/
theorem mulx4_eq (v : Block) : mulx4 v = mulx^[4] v := by
  have hsplit : v = (v >>> 4) <<< 4 ^^^ (v.extractLsb' 0 4).setWidth 128 := by
    ext i hi
    simp only [BitVec.getElem_xor, BitVec.getElem_shiftLeft, BitVec.getElem_ushiftRight, BitVec.getElem_setWidth,
      BitVec.getLsbD_extractLsb']
    grind
  have hupper : mulx^[4] ((v >>> 4) <<< 4) = v >>> 4 := by
    rw [iterate_mulx_eq_ushiftRight 4 _ fun i hi => by simp [hi]]
    ext i hi
    simp only [BitVec.getElem_ushiftRight, BitVec.getLsbD_ushiftRight, BitVec.getLsbD_shiftLeft]
    grind
  conv_rhs => rw [hsplit, iterate_mulx_xor, hupper, ← r4_eq]
  rfl

/-- Settles O18: the table and `MULX4` in terms of the product and of `MULX`. -/
theorem tableEntriesAndNibbleShift : Obligations.TableEntriesAndNibbleShift :=
  ⟨tableAt_ghTable, mulx4_eq, r4_eq⟩

/-! ## Horner's rule -/

/-- The block whose first byte is `b`. -/
def byteBlock (b : Byte) : Block := b ++ (0 : BitVec 120)

/-- The two nibbles of a byte in their places (R107). -/
theorem byteBlock_eq (b : Byte) :
    byteBlock b = mulx^[4] (nibbleBlock (b.extractLsb' 0 4)) ^^^ nibbleBlock (b.extractLsb' 4 4) := by
  have hlow : ∀ i < 4, (nibbleBlock (b.extractLsb' 0 4)).getLsbD i = false := fun i hi => by
    rw [getLsbD_nibbleBlock, decide_eq_false (by omega), Bool.false_and]
  rw [iterate_mulx_eq_ushiftRight 4 _ hlow]
  ext i hi
  simp only [byteBlock, nibbleBlock, BitVec.getElem_xor, BitVec.getElem_ushiftRight]
  grind

/-- One turn of the loop of R107 multiplies by `x^8` and adds the byte times `H`. -/
theorem tableByte_eq (h x z : Block) (k : Nat) :
    tableByte (ghTable h) x z k = mulx^[8] z ^^^ gfmul (byteBlock (getByte x k)) h := by
  simp only [tableByte, mulx4_eq, tableAt_ghTable, byteBlock_eq, gfmul_xor_left, gfmul_iterate_mulx_left,
    iterate_mulx_xor, ← Function.iterate_add_apply, BitVec.xor_assoc]

/-- Byte `k` of a block before the bytes after it, all moved to the front. -/
theorem shiftLeft_eq_byteBlock (x : Block) (k : Nat) (hk : k < 16) :
    x <<< (8 * k) = mulx^[8] (x <<< (8 * (k + 1))) ^^^ byteBlock (getByte x k) := by
  have hlow : ∀ i < 8, (x <<< (8 * (k + 1))).getLsbD i = false := fun i hi => by
    rw [BitVec.getLsbD_shiftLeft, decide_eq_true (show i < 8 * (k + 1) by omega), Bool.not_true, Bool.and_false,
      Bool.false_and]
  rw [iterate_mulx_eq_ushiftRight 8 _ hlow]
  ext i hi
  simp only [byteBlock, getByte, BitVec.getElem_xor, BitVec.getElem_ushiftRight, BitVec.getElem_shiftLeft,
    BitVec.getLsbD_shiftLeft]
  grind

/-- The loop of R107 from byte `n - 1` on, when the bytes from `n` on have been folded in. -/
theorem foldl_tableByte (h x : Block) (n : Nat) (hn : n ≤ 16) :
    (List.range n).reverse.foldl (tableByte (ghTable h) x) (gfmul (x <<< (8 * n)) h) = gfmul x h := by
  induction n with
  | zero => simp
  | succ n ih =>
    have hturn : tableByte (ghTable h) x (gfmul (x <<< (8 * (n + 1))) h) n = gfmul (x <<< (8 * n)) h := by
      rw [tableByte_eq, ← gfmul_iterate_mulx_left, ← gfmul_xor_left, ← shiftLeft_eq_byteBlock x n hn]
    rw [List.range_succ, List.reverse_concat, List.foldl_cons, hturn, ih (by omega)]

/-- The table method computes the product (R107). -/
theorem gfmulTable_eq (x h : Block) : gfmulTable x (ghTable h) = gfmul x h := by
  have hzero : gfmul (x <<< (8 * 16)) h = 0 := by simp
  rw [gfmulTable, ← hzero, foldl_tableByte h x 16 le_rfl]

end Sys2Proof.Machine
end

section
/-! PROOF. The carry-less path is the product (R109): a 256-bit polynomial has a value in the field (`clEval`), which is 0
for the reduction polynomial, is kept by the remainder, and of a carry-less product is the product of the values. From it
and the portable path: the equivalence of R108. -/

namespace Sys2Proof.Machine

/-! ## Bit reversal -/

theorem getLsbD_refl (x : Block) (i : Nat) : (refl x).getLsbD i = x.getMsbD i := BitVec.getLsbD_reverse

theorem getMsbD_refl (x : Block) (i : Nat) : (refl x).getMsbD i = x.getLsbD i := BitVec.getMsbD_reverse

/-- `refl` is its own inverse (R109). -/
@[simp] theorem refl_refl (x : Block) : refl (refl x) = x :=
  BitVec.eq_of_getLsbD_eq fun i _ => by rw [getLsbD_refl, getMsbD_refl]

/-! ## The value of a 256-bit polynomial -/

/-- The value in the field of the polynomial whose coefficient of `x^i` is bit `i` of `z` (R109). -/
def clEval (z : BitVec 256) : Block := polyMul z.getLsbD 256 gfOne

/-- Every bit of `z` from `n` on is 0. -/
def DegreeLt (n : Nat) (z : BitVec 256) : Prop := ∀ i, n ≤ i → z.getLsbD i = false

theorem degreeLt_setWidth {n : Nat} (b : BitVec n) : DegreeLt n (b.setWidth 256) := fun i hi => by
  rw [BitVec.getLsbD_setWidth, BitVec.getLsbD_of_ge b i hi, Bool.and_false]

theorem clEval_xor (a b : BitVec 256) : clEval (a ^^^ b) = clEval a ^^^ clEval b := by
  rw [clEval, clEval, clEval, ← polyMul_xor_left]
  exact polyMul_congr gfOne fun i _ => BitVec.getLsbD_xor

/-- The value of a polynomial of degree at most 127 is its bits in the order of a block (R109). -/
theorem clEval_of_degreeLt {z : BitVec 256} (h : DegreeLt 128 z) : clEval z = refl (z.setWidth 128) := by
  rw [clEval, polyMul_of_degree_lt gfOne (by omega) h, ← gfmul_one (refl (z.setWidth 128)), gfmul_eq_polyMul]
  refine polyMul_congr gfOne fun i hi => ?_
  rw [getMsbD_refl, BitVec.getLsbD_setWidth, decide_eq_true hi, Bool.true_and]

/-- The value of a block's bits as a polynomial (R109). -/
theorem clEval_setWidth (b : Block) : clEval (b.setWidth 256) = refl b := by
  rw [clEval_of_degreeLt (degreeLt_setWidth b), BitVec.setWidth_setWidth_of_le b (by omega), BitVec.setWidth_eq]

/-- A left shift that loses no bit multiplies the value by a power of `x`. -/
theorem clEval_shiftLeft {n k : Nat} {z : BitVec 256} (h : DegreeLt n z) (hk : k + n ≤ 256) :
    clEval (z <<< k) = mulx^[k] (clEval z) := by
  have hlow : ∀ i < k, (z <<< k).getLsbD i = false := fun i hi => by simp [hi]
  have hhigh : ∀ i, k + n ≤ i → (z <<< k).getLsbD i = false := fun i hi => by simp [h (i - k) (by omega)]
  have hmove : ∀ i, (z <<< k).getLsbD (k + i) = z.getLsbD i := fun i => by
    by_cases hi : n ≤ i
    · rw [hhigh (k + i) (by omega), h i hi]
    · have hlt : k + i < 256 := by omega
      simp only [BitVec.getLsbD_shiftLeft, hlt, Nat.add_sub_cancel_left]
      simp
  rw [clEval, clEval, polyMul_of_degree_lt gfOne hk hhigh, polyMul_shift gfOne k hlow hmove,
    polyMul_of_degree_lt (n := 256) gfOne (by omega) h]

/-- The reduction polynomial is 0 in the field: `x^128` is `x^7 + x^2 + x + 1` (R100, R101). -/
theorem clEval_clPoly : clEval clPoly = 0 := by
  have hsplit : clPoly = (1 : Block).setWidth 256 <<< 128 ^^^ (0x87 : Block).setWidth 256 := by decide
  have hone : refl 1 = gfOne := by decide +kernel
  rw [hsplit, clEval_xor, clEval_shiftLeft (degreeLt_setWidth (1 : Block)) (by omega), clEval_setWidth,
    clEval_setWidth, hone, Function.iterate_succ_apply', iterate_mulx_gfOne 127 (by omega)]
  decide +kernel

/-! ## The remainder -/

/-- One turn of the loop of `clMod`: the term of degree `128 + i` is cancelled (R109). -/
def clModStep (z : BitVec 256) (i : Nat) : BitVec 256 :=
  if z.getLsbD (128 + i) then z ^^^ (clPoly <<< i) else z

/-- `clMod` is that loop, from the highest term down (R109). -/
theorem clMod_eq (z : BitVec 256) : clMod z = ((List.range 128).reverse.foldl clModStep z).setWidth 128 := rfl

theorem degreeLt_clPoly : DegreeLt 129 clPoly := degreeLt_setWidth 0x100000000000000000000000000000087

/-- Cancelling a term keeps the value. -/
theorem clEval_clModStep (z : BitVec 256) (i : Nat) (hi : i < 128) : clEval (clModStep z i) = clEval z := by
  unfold clModStep
  split
  · rw [clEval_xor, clEval_shiftLeft degreeLt_clPoly (by omega), clEval_clPoly]
    simp
  · rfl

/-- Cancelling the leading term lowers the degree. -/
theorem degreeLt_clModStep {z : BitVec 256} {i : Nat} (h : DegreeLt (128 + (i + 1)) z) :
    DegreeLt (128 + i) (clModStep z i) := by
  have htop : clPoly.getLsbD 128 = true := by decide
  intro j hj
  obtain rfl | hgt := Nat.eq_or_lt_of_le hj
  · cases hz : z.getLsbD (128 + i)
    · simp [clModStep, hz]
    · have hi : 128 + i < 256 := BitVec.lt_of_getLsbD hz
      rw [clModStep, if_pos hz, BitVec.getLsbD_xor, hz, BitVec.getLsbD_shiftLeft, Nat.add_sub_cancel_right, htop]
      simp [hi]
  · have hz : z.getLsbD j = false := h j hgt
    have hp : clPoly.getLsbD (j - i) = false := degreeLt_clPoly (j - i) (by omega)
    unfold clModStep
    split <;> simp [hz, hp]

/-- The loop of `clMod` keeps the value and ends below degree 128. -/
theorem foldl_clModStep (n : Nat) (hn : n ≤ 128) (z : BitVec 256) (h : DegreeLt (128 + n) z) :
    DegreeLt 128 ((List.range n).reverse.foldl clModStep z) ∧
      clEval ((List.range n).reverse.foldl clModStep z) = clEval z := by
  induction n generalizing z with
  | zero => exact ⟨h, rfl⟩
  | succ n ih =>
    rw [List.range_succ, List.reverse_concat, List.foldl_cons, ← clEval_clModStep z n hn]
    exact ih (by omega) (clModStep z n) (degreeLt_clModStep h)

/-- The remainder of a polynomial, in the order of a block, is its value in the field (R109). -/
theorem refl_clMod (z : BitVec 256) : refl (clMod z) = clEval z := by
  obtain ⟨hdeg, hval⟩ := foldl_clModStep 128 le_rfl z fun i hi => BitVec.getLsbD_of_ge z i hi
  rw [clMod_eq, ← clEval_of_degreeLt hdeg, hval]

/-! ## The product -/

/-- One turn of the loop of `clmul`: bit `i` of `a` selects the shift of `b` by `i` (R109). -/
def clmulStep (a b : Block) (z : BitVec 256) (i : Nat) : BitVec 256 :=
  if a.getLsbD i then z ^^^ (b.setWidth 256 <<< i) else z

/-- `clmul` is that loop (R109). -/
theorem clmul_eq (a b : Block) : clmul a b = (List.range 128).foldl (clmulStep a b) 0 := rfl

/-- The value after `n` turns is the polynomial of the first `n` bits of `a` times the value of `b`. -/
theorem clEval_foldl_clmul (a b : Block) (n : Nat) (hn : n ≤ 128) :
    clEval ((List.range n).foldl (clmulStep a b) 0) = polyMul a.getLsbD n (refl b) := by
  induction n with
  | zero =>
    have hzero : refl 0 = 0 := by decide +kernel
    exact (clEval_setWidth 0).trans hzero
  | succ n ih =>
    rw [List.range_succ, List.foldl_append, List.foldl_cons, List.foldl_nil, clmulStep, polyMul_succ, ← ih (by omega),
      ← clEval_setWidth b, ← clEval_shiftLeft (degreeLt_setWidth b) (by omega)]
    cases a.getLsbD n
    · simp
    · exact clEval_xor _ _

/-- The carry-less method computes the product (R109). -/
theorem gfmulClmul_eq (x y : Block) : gfmulClmul x y = gfmul x y := by
  rw [gfmulClmul, refl_clMod, clmul_eq, clEval_foldl_clmul (refl x) (refl y) 128 le_rfl, refl_refl,
    gfmul_eq_polyMul]
  exact polyMul_congr y fun i _ => getLsbD_refl x i

/-- Settles O17: both methods compute the product. -/
theorem multiplierMethodsAgree : Obligations.MultiplierMethodsAgree := fun x h =>
  ⟨(gfmulTable_eq x h).trans (gfmulClmul_eq x h).symm, gfmulClmul_eq x h⟩

end Sys2Proof.Machine
end

section
/-! PROOF. `GHASH` in pieces (R104): whole blocks in front of a byte string are its first blocks. -/

namespace Sys2Proof.Machine

/-- Whole blocks in front are cut off one by one (R104). -/
theorem blocks_bytesOfBlocks_append (bs : List Block) (e : List Byte) :
    blocks (bytesOfBlocks bs ++ e) = bs ++ blocks e := by
  induction bs with
  | nil => rfl
  | cons b bs ih =>
    have hfront : bytesOfBlocks (b :: bs) ++ e = blockBytes b ++ (bytesOfBlocks bs ++ e) := List.append_assoc ..
    rw [hfront, blocks, chunks_block, List.map_cons, blockOf_blockBytes, ← blocks, ih, List.cons_append]

/-- Settles O20: the blocks of `D` come before those of `E`, and a fold over both is the fold over the second from the
result of the first. -/
theorem hashInPieces : Obligations.HashInPieces := by
  refine fun h x0 d e hd => ⟨rfl, ?_⟩
  have hblocks : blocks (d ++ e) = blocks d ++ blocks e := by
    conv_lhs => rw [← bytesOfBlocks_blocks d hd]
    exact blocks_bytesOfBlocks_append (blocks d) e
  rw [ghash, hblocks, List.foldl_append, ← ghash, ← ghash]

end Sys2Proof.Machine
end

section
/-! PROOF. The commands of the direct multiplier unit (R110 to R114), each as one equation: its checks in order, then its
update. -/

namespace Sys2Proof.Machine

/-! ## Checks in the terms of the statements -/

section
variable (dest : Bool) (e : StatusCode) (cs : List (Bool × StatusCode)) (s : State) (go : State → Result)

theorem checked_nil : checked dest [] s go = go s := rfl

/-- A list of checks by its first check (R163). -/
theorem checked_cons {b : Bool} {p : Prop} [Decidable p] (hp : b = true ↔ p) :
    checked dest ((b, e) :: cs) s go = if p then .next (s.raise dest e) else checked dest cs s go := by
  rw [checked, firstFailing_cons, checked]
  by_cases h : p
  · rw [if_pos h, if_pos (hp.2 h)]
  · rw [if_neg h, if_neg (mt hp.1 h)]

/-- A check that fails on a condition. -/
theorem checked_decide (p : Prop) [Decidable p] :
    checked dest ((decide p, e) :: cs) s go = if p then .next (s.raise dest e) else checked dest cs s go :=
  checked_cons dest e cs s go decide_eq_true_iff

/-- A check that fails unless a field is set. -/
theorem checked_not (b : Bool) :
    checked dest ((!b, e) :: cs) s go = if b = false then .next (s.raise dest e) else checked dest cs s go :=
  checked_cons dest e cs s go Bool.not_eq_eq_eq_not

/-- A check that fails on a buffer out of range (R62). -/
theorem checked_buf (p n : Word) :
    checked dest ((!bufOk std p n, e) :: cs) s go =
      if ¬InRange p n then .next (s.raise dest e) else checked dest cs s go := by
  refine checked_cons dest e cs s go ?_
  rw [← bufOk_true, Bool.not_eq_true, Bool.not_eq_true']

end

/-- The 16 bytes read into a block are the block's bytes (R9, R61). -/
theorem blockBytes_readBytes (m : Memory) (a : Nat) : blockBytes (blockOf (m.readBytes a 16)) = m.readBytes a 16 :=
  blockBytes_blockOf _ (Memory.length_readBytes m a 16)

/-! ## The commands -/

section
variable (s : State)

/-- The unit after `GH_LOADH` (R110). -/
def loadedUnit : GhUnit :=
  let h := blockOf (s.mem.readBytes s.x.inp.toNat 16)
  { valid := true, h := h, htable := ghTable h, x := 0, impl := selectImpl s.latched }

/-- `GH_LOADH` (R110). -/
theorem exec_ghLoadh : exec .ghLoadh s =
    if s.x.inl ≠ 16 then .next ({ s with cap := s.latched }.failed .badInputLength)
    else if ¬InRange s.x.inp 16 then .next ({ s with cap := s.latched }.failed .badAddress)
    else .next ({ s with cap := s.latched, gh := loadedUnit s }.succeeded 0) := by
  rw [exec, execGhLoadh, ghLoadhOn, latchCap_eq, checked_decide, checked_buf, checked_nil]
  rfl

/-- `GH_LOADX` (R111). -/
theorem exec_ghLoadx : exec .ghLoadx s =
    if s.gh.valid = false then .next (s.failed .state)
    else if s.x.inl ≠ 16 then .next (s.failed .badInputLength)
    else if ¬InRange s.x.inp 16 then .next (s.failed .badAddress)
    else .next ({ s with gh := { s.gh with x := blockOf (s.mem.readBytes s.x.inp.toNat 16) } }.succeeded 0) := by
  rw [exec, execGhLoadx, ghLoadxOn, checked_not, checked_decide, checked_buf, checked_nil]
  rfl

/-- `GH_MUL` (R112). -/
theorem exec_ghMul : exec .ghMul s =
    if s.gh.valid = false then .next (s.failed .state)
    else .next ({ s with gh := { s.gh with x := gfmul s.gh.x s.gh.h } }.succeeded 0) := by
  rw [exec, execGhMul, checked_not, checked_nil]
  rfl

/-- `GH_HASH` (R113). -/
theorem exec_ghHash : exec .ghHash s =
    if s.gh.valid = false then .next (s.failed .state)
    else if s.x.inl.toNat % 16 ≠ 0 then .next (s.failed .badInputLength)
    else if ¬InRange s.x.inp s.x.inl then .next (s.failed .badAddress)
    else .next ({ s with gh := { s.gh with
      x := ghash s.gh.h s.gh.x (s.mem.readBytes s.x.inp.toNat s.x.inl.toNat) } }.succeeded 0) := by
  rw [exec, execGhHash, ghHashOn, checked_not, checked_decide, checked_buf, checked_nil]
  rfl

/-- `GH_STOREX` (R114). -/
theorem exec_ghStorex : exec .ghStorex s =
    if s.gh.valid = false then .next (s.failed .state)
    else if ¬InRange s.x.outp 16 then .next (s.failed .badAddress)
    else .next ({ s with mem := s.mem.writeBytes s.x.outp.toNat (blockBytes s.gh.x) }.succeeded 16) := by
  rw [exec, execGhStorex, ghStorexOn, checked_not, checked_buf, checked_nil]
  rfl

end

/-! ## The statements -/

/-- Settles O22: the three branches of `GH_LOADH`. -/
theorem ghLoadhBindsTheSubkey : Obligations.GhLoadhBindsTheSubkey := by
  intro s
  rw [exec_ghLoadh]
  refine ⟨fun hlen hrange => ⟨loadedUnit s, ?_, rfl, blockBytes_readBytes .., rfl, rfl, rfl⟩, fun hlen => if_pos hlen,
    fun hlen hrange => ?_⟩
  · rw [if_neg (not_not.2 hlen), if_neg (not_not.2 hrange)]
  · rw [if_neg (not_not.2 hlen), if_pos hrange]

/-- The code of `GH_LOADX` and `GH_HASH`, whose checks are the unit, the length (`p`) and the address (`q`), when one
fails (R111, R113). -/
theorem ite_checks_eq_failed {s : State} {p q : Prop} [Decidable p] [Decidable q] {r : Result}
    (h : ¬(s.gh.valid = true ∧ p ∧ q)) :
    (if s.gh.valid = false then .next (s.failed .state)
      else if ¬p then .next (s.failed .badInputLength)
      else if ¬q then .next (s.failed .badAddress)
      else r) =
    .next (s.failed (if s.gh.valid = false then .state else if ¬p then .badInputLength else .badAddress)) := by
  by_cases hvalid : s.gh.valid = false
  · rw [if_pos hvalid, if_pos hvalid]
  · rw [if_neg hvalid, if_neg hvalid]
    by_cases hp : p
    · have hq : ¬q := fun hq => h ⟨Bool.eq_true_of_not_eq_false hvalid, hp, hq⟩
      rw [if_neg (not_not.2 hp), if_neg (not_not.2 hp), if_pos hq]
    · rw [if_pos hp, if_pos hp]

/-- Settles O23: the branches of the three commands, of which those that fail give the code of the first failing check. -/
theorem ghCommandsUpdateTheAccumulator : Obligations.GhCommandsUpdateTheAccumulator := by
  intro s
  rw [exec_ghLoadx, exec_ghMul, exec_ghHash]
  refine ⟨fun hvalid hlen hrange => ⟨_, ?_, blockBytes_readBytes ..⟩, ite_checks_eq_failed,
    fun hvalid => if_neg (ne_false_of_eq_true hvalid), fun hvalid => if_pos hvalid, fun hvalid hlen hrange => ?_,
    ite_checks_eq_failed⟩
  all_goals rw [if_neg (ne_false_of_eq_true hvalid), if_neg (not_not.2 hlen), if_neg (not_not.2 hrange)]

/-- Settles O24: the three branches of `GH_STOREX`. -/
theorem ghStorexStoresTheAccumulator : Obligations.GhStorexStoresTheAccumulator := by
  intro s hwf
  rw [exec_ghStorex]
  refine ⟨fun hvalid hrange => ⟨_, ?_, stores_writeBytes s.mem s.x.outp.toNat (blockBytes s.gh.x) hwf⟩,
    fun hvalid => if_pos hvalid, fun hvalid hrange => ?_⟩
  · rw [if_neg (ne_false_of_eq_true hvalid), if_neg (not_not.2 hrange)]
  · rw [if_neg (ne_false_of_eq_true hvalid), if_pos hrange]

end Sys2Proof.Machine
end

section
/-! PROOF. The counter (R120, R123): `INC32` is an addition on the last of the two parts of a block, 12 bytes and 4. -/

namespace Sys2Proof.Machine

/-! ## The parts of a counter block -/

/-- The integer of a block by its parts (R9). -/
theorem toNat_append_block (hi : BitVec 96) (lo : BitVec 32) :
    (hi ++ lo).toNat = 256 ^ 4 * hi.toNat + lo.toNat := by
  rw [BitVec.toNat_append, ← Nat.shiftLeft_add_eq_or_of_lt lo.isLt, Nat.shiftLeft_eq]
  omega

/-- A counter block is its first 12 bytes and its last 4 (R120). -/
theorem append_extractLsb'_block (cb : Block) : cb.extractLsb' 32 96 ++ cb.extractLsb' 0 32 = cb := by
  apply BitVec.eq_of_toNat_eq
  rw [toNat_append_block, BitVec.extractLsb'_toNat, BitVec.extractLsb'_toNat, Nat.shiftRight_eq_div_pow]
  omega

/-- The first part of a block by its parts. -/
theorem extractLsb'_append_high (hi : BitVec 96) (lo : BitVec 32) : (hi ++ lo).extractLsb' 32 96 = hi :=
  BitVec.extractLsb'_append_eq_left

/-- The last part of a block by its parts. -/
theorem extractLsb'_append_low (hi : BitVec 96) (lo : BitVec 32) : (hi ++ lo).extractLsb' 0 32 = lo :=
  BitVec.extractLsb'_append_eq_right

/-! ## The increment -/

/-- `INC32` adds 1 to the last part (R120). -/
theorem inc32_append (hi : BitVec 96) (lo : BitVec 32) : inc32 (hi ++ lo) = hi ++ (lo + 1) := by
  rw [inc32, extractLsb'_append_high, extractLsb'_append_low]

/-- `INC32` applied `n` times adds `n` to the last part (R123). -/
theorem iterate_inc32_append (n : Nat) (hi : BitVec 96) (lo : BitVec 32) :
    inc32^[n] (hi ++ lo) = hi ++ (lo + BitVec.ofNat 32 n) := by
  induction n with
  | zero => rw [Function.iterate_zero_apply, BitVec.add_zero]
  | succ n ih =>
    rw [Function.iterate_succ_apply', ih, inc32_append, BitVec.add_assoc, BitVec.ofNat_add, BitVec.ofNat_eq_ofNat]

/-- Settles O27: the first part is kept, and the last parts differ by less than `2^32`. -/
theorem counterBlocksNeverRepeat : Obligations.CounterBlocksNeverRepeat := by
  intro cb i j hij hj
  rw [← append_extractLsb'_block cb, iterate_inc32_append, iterate_inc32_append]
  refine ⟨fun heq => ?_, by rw [extractLsb'_append_high, extractLsb'_append_high]⟩
  have hlow := congrArg (BitVec.extractLsb' 0 32) heq
  rw [extractLsb'_append_low, extractLsb'_append_low, BitVec.add_right_inj] at hlow
  have hmod : i % 2 ^ 32 = j % 2 ^ 32 := congrArg BitVec.toNat hlow
  rw [Nat.mod_eq_of_lt (hij.trans hj), Nat.mod_eq_of_lt hj] at hmod
  exact hij.ne hmod

/-! ## The increment on bytes -/

/-- `be` drops the higher bytes (R8). -/
theorem be_mod (n v : Nat) : be n (v % 256 ^ n) = be n v := by
  have h := be_unbe (be n v)
  rwa [length_be, unbe_be] at h

/-- The first `m` of `m + n` bytes are those of the quotient (R8). -/
theorem be_add (m n v : Nat) : be (m + n) v = be m (v / 256 ^ n) ++ be n v := by
  induction m with
  | zero => rw [Nat.zero_add]; rfl
  | succ m ih =>
    have hdiv : v / 256 ^ (m + n) = v / 256 ^ n / 256 ^ m := by rw [Nat.div_div_eq_div_mul, ← pow_add, add_comm]
    rw [Nat.succ_add, be, ih, hdiv, be, List.cons_append]

/-- `unbe` of two strings (R8). -/
theorem unbe_append (a b : List Byte) : unbe (a ++ b) = 256 ^ b.length * unbe a + unbe b := by
  rw [unbe, List.foldl_append, ← unbe, unbe_foldl, mul_comm]

/-- The bytes of a block by its parts (R9). -/
theorem blockBytes_append (hi : BitVec 96) (lo : BitVec 32) :
    blockBytes (hi ++ lo) = be 12 hi.toNat ++ be 4 lo.toNat := by
  rw [blockBytes, be_add 12 4, ← be_mod 4, toNat_append_block, Nat.mul_add_div (by decide),
    Nat.div_eq_of_lt (show lo.toNat < 256 ^ 4 from lo.isLt), Nat.add_zero, Nat.mul_add_mod, be_mod]

/-- The block of 16 bytes by its parts (R9). -/
theorem blockOf_append (a b : List Byte) (ha : a.length = 12) (hb : b.length = 4) :
    blockOf (a ++ b) = BitVec.ofNat 96 (unbe a) ++ BitVec.ofNat 32 (unbe b) := by
  have ha' : unbe a < 256 ^ 12 := ha ▸ unbe_lt a
  have hb' : unbe b < 256 ^ 4 := hb ▸ unbe_lt b
  apply BitVec.eq_of_toNat_eq
  rw [toNat_append_block, blockOf, unbe_append, hb]
  simp only [BitVec.toNat_ofNat]
  omega

/-- Settles O25: the counter block of 12 and 4 bytes has the two strings as its parts, and `INC32` adds 1 to the
second. -/
theorem counterIncrementBytes : Obligations.CounterIncrementBytes := by
  intro b hb
  have htake : (b.take 12).length = 12 := by rw [List.length_take, hb]; rfl
  have hdrop : (b.drop 12).length = 4 := by rw [List.length_drop, hb]
  have hhigh : be 12 (BitVec.ofNat 96 (unbe (b.take 12))).toNat = b.take 12 := by
    have h := be_unbe (b.take 12)
    rw [htake] at h
    rw [BitVec.toNat_ofNat, show 2 ^ 96 = 256 ^ 12 from rfl, be_mod, h]
  have hlow : (BitVec.ofNat 32 (unbe (b.drop 12)) + 1).toNat = (unbe (b.drop 12) + 1) % 2 ^ 32 := by
    rw [BitVec.toNat_add, BitVec.toNat_ofNat, Nat.mod_add_mod]
    rfl
  calc blockBytes (inc32 (blockOf b))
      = blockBytes (inc32 (blockOf (b.take 12 ++ b.drop 12))) := by rw [List.take_append_drop]
    _ = b.take 12 ++ be 4 ((unbe (b.drop 12) + 1) % 2 ^ 32) := by
      rw [blockOf_append _ _ htake hdrop, inc32_append, blockBytes_append, hhigh, hlow]

end Sys2Proof.Machine
end

section
/-! PROOF. Counter mode (R121): the output is the input with a byte of key stream added to each byte (`gctr_fst`). -/

namespace Sys2Proof.Machine

/-! ## The pieces of the data -/

/-- A proof about byte strings by their pieces of 16 bytes. -/
theorem bytes_induction {P : List Byte → Prop} (nil : P []) (piece : ∀ d, d ≠ [] → P (d.drop 16) → P d)
    (d : List Byte) : P d :=
  if h : d = [] then h ▸ nil else piece d h (bytes_induction nil piece (d.drop 16))
termination_by d.length
decreasing_by
  have := List.length_pos_iff.2 h
  rw [List.length_drop]
  omega

/-- The number of pieces of a string that is not empty, by its first piece. -/
theorem pieceCount_drop {d : List Byte} (h : d ≠ []) : (d.length + 15) / 16 = ((d.drop 16).length + 15) / 16 + 1 := by
  have := List.length_pos_iff.2 h
  rw [List.length_drop]
  omega

/-- The first piece of a string that is not empty. -/
theorem chunks_of_ne_nil {d : List Byte} (h : d ≠ []) : chunks 16 d = d.take 16 :: chunks 16 (d.drop 16) := by
  rw [chunks, pieceCount_drop h, pieces, chunks]

/-- `GCTR` on no data (R121). -/
theorem gctr_nil (E : Block → Block) (cb : Block) : gctr E cb [] = ([], cb) := rfl

/-- `GCTR` by the first piece of the data (R121). -/
theorem gctr_of_ne_nil (E : Block → Block) (cb : Block) {d : List Byte} (h : d ≠ []) :
    gctr E cb d = (xorBytes (d.take 16) (blockBytes (E cb)) ++ (gctr E (inc32 cb) (d.drop 16)).1,
      (gctr E (inc32 cb) (d.drop 16)).2) := by
  rw [gctr, chunks_of_ne_nil h, gctrLoop, ← gctr]

/-! ## The key stream -/

/-- Byte `i` of the key stream from a counter block on (R121). -/
def streamByte (E : Block → Block) (cb : Block) (i : Nat) : Byte := getByte (E (inc32^[i / 16] cb)) (i % 16)

/-- The first 16 bytes come from the counter block itself. -/
theorem streamByte_of_lt (E : Block → Block) (cb : Block) {i : Nat} (h : i < 16) :
    streamByte E cb i = getByte (E cb) i := by
  rw [streamByte, Nat.div_eq_of_lt h, Nat.mod_eq_of_lt h, Function.iterate_zero_apply]

/-- The other bytes come from the next counter block on. -/
theorem streamByte_add (E : Block → Block) (cb : Block) (i : Nat) :
    streamByte E cb (i + 16) = streamByte E (inc32 cb) i := by
  rw [streamByte, Nat.add_div_right i (by decide), Nat.add_mod_right, Function.iterate_succ_apply, ← streamByte]

/-- Byte `i` of an encoded integer (R8). -/
theorem getElem_be (n v i : Nat) (h : i < (be n v).length) : (be n v)[i] = BitVec.ofNat 8 (v / 256 ^ (n - 1 - i)) := by
  induction n generalizing i with
  | zero => exact absurd h (Nat.not_lt_zero i)
  | succ n ih =>
    cases i with
    | zero => rfl
    | succ i =>
      have hexp : n + 1 - 1 - (i + 1) = n - 1 - i := by omega
      rw [hexp, ← ih i (Nat.lt_of_succ_lt_succ h)]
      rfl

/-- Byte `i` of the bytes of a block (R8, R9). -/
theorem getElem_blockBytes (x : Block) (i : Nat) (h : i < (blockBytes x).length) : (blockBytes x)[i] = getByte x i := by
  apply BitVec.eq_of_toNat_eq
  simp only [blockBytes, getElem_be, getByte, BitVec.extractLsb'_toNat, BitVec.toNat_ofNat, Nat.shiftRight_eq_div_pow,
    pow_mul]
  rfl

/-- A piece is added to its key stream byte by byte (R121). -/
theorem xorBytes_blockBytes (E : Block → Block) (cb : Block) (d : List Byte) (h : d.length ≤ 16) :
    xorBytes d (blockBytes (E cb)) = d.mapIdx fun i b => b ^^^ streamByte E cb i := by
  apply List.ext_getElem
  · rw [xorBytes, List.length_zipWith, length_blockBytes, List.length_mapIdx, Nat.min_eq_left h]
  · intro i hi hi'
    have hlt : i < 16 := (List.length_mapIdx ▸ hi').trans_le h
    simp only [xorBytes, List.getElem_zipWith, List.getElem_mapIdx, getElem_blockBytes, streamByte_of_lt E cb hlt]

/-! ## Counter mode in closed form -/

/-- The counter block after `GCTR` (R121). -/
theorem gctr_snd (E : Block → Block) (cb : Block) (d : List Byte) :
    (gctr E cb d).2 = inc32^[(d.length + 15) / 16] cb := by
  induction d using bytes_induction generalizing cb with
  | nil => rfl
  | piece d hd ih => rw [gctr_of_ne_nil E cb hd, ih, pieceCount_drop hd, Function.iterate_succ_apply]

/-- The output of `GCTR`: each byte plus its byte of key stream (R121). -/
theorem gctr_fst (E : Block → Block) (cb : Block) (d : List Byte) :
    (gctr E cb d).1 = d.mapIdx fun i b => b ^^^ streamByte E cb i := by
  induction d using bytes_induction generalizing cb with
  | nil => rfl
  | piece d hd ih =>
    have hfirst := xorBytes_blockBytes E cb (d.take 16) (List.length_take_le 16 d)
    have hrest : (d.drop 16).mapIdx (fun i b => b ^^^ streamByte E (inc32 cb) i) =
        (d.drop 16).mapIdx fun i b => b ^^^ streamByte E cb (i + (d.take 16).length) := by
      obtain hlong | hshort := Nat.le_total 16 d.length
      · simp only [List.length_take_of_le hlong, streamByte_add]
      · rw [List.drop_of_length_le hshort]; rfl
    rw [gctr_of_ne_nil E cb hd, hfirst, ih, hrest, ← List.mapIdx_append, List.take_append_drop]

/-- Settles O26: each part from the closed form of the output and of the counter; a byte of key stream added
twice cancels. -/
theorem counterModeStream : Obligations.CounterModeStream := by
  intro E cb d
  refine ⟨?_, gctr_snd E cb d, fun i hi => ?_, gctr_nil E cb, ?_⟩
  · rw [gctr_fst, List.length_mapIdx]
  · rw [gctr_fst, List.getElem?_mapIdx, List.getElem?_eq_getElem hi]
    rfl
  · have hcancel : ∀ (i : Nat) (b : Byte), b ^^^ streamByte E cb i ^^^ streamByte E cb i = b := fun i b => by
      rw [BitVec.xor_assoc, BitVec.xor_self, BitVec.xor_zero]
    apply List.ext_getElem
    · simp only [gctr_fst, List.length_mapIdx]
    · intro i hi hi'
      simp only [gctr_fst, List.getElem_mapIdx, hcancel]

end Sys2Proof.Machine
end

section
/-! PROOF. The commands of the direct counter unit (R124, R125), each as one equation: its checks in order, then its
update. -/

namespace Sys2Proof.Machine

/-! ## Checks in the terms of the statements -/

section
variable (dest : Bool) (e : StatusCode) (cs : List (Bool × StatusCode)) (s : State) (go : State → Result)

/-- A check that fails on a condition or unless a field is set. -/
theorem checked_decide_or_not (p : Prop) [Decidable p] (b : Bool) :
    checked dest ((decide p || !b, e) :: cs) s go =
      if p ∨ b = false then .next (s.raise dest e) else checked dest cs s go := by
  refine checked_cons dest e cs s go ?_
  rw [Bool.or_eq_true, decide_eq_true_iff, Bool.not_eq_true']

/-- A check that fails on one of two buffers out of range (R62). -/
theorem checked_bufs (p n q k : Word) :
    checked dest ((!bufOk std p n || !bufOk std q k, e) :: cs) s go =
      if ¬(InRange p n ∧ InRange q k) then .next (s.raise dest e) else checked dest cs s go := by
  refine checked_cons dest e cs s go ?_
  rw [← Bool.not_and, Bool.not_eq_true', ← Bool.not_eq_true, Bool.and_eq_true, bufOk_true, bufOk_true]

/-- A check that fails on a partial overlap of the input and a destination (R67). -/
theorem checked_aliasOk (x : Regs) (k : Word) :
    checked dest ((!aliasOk x.inp x.inl x.outp k, e) :: cs) s go =
      if ¬AliasFree x k then .next (s.raise dest e) else checked dest cs s go := by
  refine checked_cons dest e cs s go ?_
  rw [Bool.not_eq_true', ← Bool.not_eq_true, aliasOk_true]

end

/-! ## The commands -/

section
variable (s : State)

/-- `CTR_LOAD` (R124). -/
theorem exec_ctrLoad : exec .ctrLoad s =
    if s.x.inl ≠ 16 then .next (s.failed .badInputLength)
    else if ¬InRange s.x.inp 16 then .next (s.failed .badAddress)
    else .next ({ s with ctr := { valid := true, cb := blockOf (s.mem.readBytes s.x.inp.toNat 16) } }.succeeded 0) := by
  rw [exec, execCtrLoad, ctrLoadOn, checked_decide, checked_buf, checked_nil]
  rfl

/-- The output of `CTR_XOR` and the counter block after it (R125). -/
def ctrStream : List Byte × Block :=
  gctr (std.bc std.engBc s.eng.key) s.ctr.cb (s.mem.readBytes s.x.inp.toNat s.x.inl.toNat)

/-- `CTR_XOR` (R125). -/
theorem exec_ctrXor : exec .ctrXor s =
    if s.eng.phase = .uninit ∨ s.ctr.valid = false then .next (s.failed .state)
    else if ¬(InRange s.x.inp s.x.inl ∧ InRange s.x.outp s.x.inl) then .next (s.failed .badAddress)
    else if ¬AliasFree s.x s.x.inl then .next (s.failed .alias_)
    else .next ({ s with
      ctr := { s.ctr with cb := (ctrStream s).2 }
      mem := s.mem.writeBytes s.x.outp.toNat (ctrStream s).1 }.succeeded s.x.inl.toNat) := by
  rw [exec, execCtrXor, ctrXorOn, checked_decide_or_not, checked_bufs, checked_aliasOk, checked_nil]
  rfl

end

/-! ## The statements -/

/-- Settles O28: the three branches of `CTR_LOAD`. -/
theorem ctrLoadSetsTheCounter : Obligations.CtrLoadSetsTheCounter := by
  intro s
  rw [exec_ctrLoad]
  refine ⟨fun hlen hrange => ⟨_, ?_, blockBytes_readBytes ..⟩, fun hlen => if_pos hlen, fun hlen hrange => ?_⟩
  · rw [if_neg (not_not.2 hlen), if_neg (not_not.2 hrange)]
  · rw [if_neg (not_not.2 hlen), if_pos hrange]

/-- Settles O29: the branch of `CTR_XOR` that no check stops, and the three that a check ends. -/
theorem ctrXorAppliesTheKeystream : Obligations.CtrXorAppliesTheKeystream := by
  intro s hwf
  rw [exec_ctrXor]
  refine ⟨fun hkey hvalid hin hout halias => ⟨_, ?_, stores_writeBytes s.mem s.x.outp.toNat (ctrStream s).1 hwf⟩,
    fun hfail => ?_⟩
  · have hready : ¬(s.eng.phase = .uninit ∨ s.ctr.valid = false) := not_or.2 ⟨hkey, ne_false_of_eq_true hvalid⟩
    rw [if_neg hready, if_neg (not_not.2 ⟨hin, hout⟩), if_neg (not_not.2 halias)]
    rfl
  · by_cases hready : s.eng.phase = .uninit ∨ s.ctr.valid = false
    · rw [if_pos hready, if_pos hready]
    · rw [if_neg hready, if_neg hready]
      by_cases hbufs : InRange s.x.inp s.x.inl ∧ InRange s.x.outp s.x.inl
      · have halias : ¬AliasFree s.x s.x.inl := fun halias =>
          hfail ⟨(not_or.1 hready).1, Bool.eq_true_of_not_eq_false (not_or.1 hready).2, hbufs.1, hbufs.2, halias⟩
        rw [if_neg (not_not.2 hbufs), if_neg (not_not.2 hbufs), if_pos halias]
      · rw [if_pos hbufs, if_pos hbufs]

end Sys2Proof.Machine
end

section
/-! PROOF. The functions of the direct engine field by field, for every engine (R135 to R140), and that a byte string in
two pieces counts as the whole (R136, R139). -/

namespace Sys2Proof.Machine

/-! ## Associated data -/

section
variable (e : Engine)

/-- Absorbing a byte string changes the running tag and the partial block only (R135). -/
theorem foldl_engAbsorb_keepsButTag (a : List Byte) : KeepsButTag e (a.foldl engAbsorb e) := by
  induction a generalizing e with
  | nil => exact .refl e
  | cons b bs ih => exact (engAbsorb_keepsButTag e b).trans (ih (engAbsorb e b))

/-- Absorbing a byte does not see the count of associated data and the phase (R135). -/
theorem engAbsorb_alen_phase (n : BitVec 64) (p : Phase) (b : Byte) :
    engAbsorb { e with alen := n, phase := p } b = { engAbsorb e b with alen := n, phase := p } := by
  by_cases hfull : e.pfill = 15
  · simp only [engAbsorb, hfull, if_true, engFold]
  · simp only [engAbsorb, hfull, if_false]

/-- Nor does absorbing a byte string. -/
theorem foldl_engAbsorb_alen_phase (n : BitVec 64) (p : Phase) (a : List Byte) :
    a.foldl engAbsorb { e with alen := n, phase := p } = { a.foldl engAbsorb e with alen := n, phase := p } := by
  induction a generalizing e with
  | nil => rfl
  | cons b bs ih => rw [List.foldl_cons, engAbsorb_alen_phase, ih, List.foldl_cons]

/-- No associated data (R136). -/
@[simp] theorem engAad_nil : engAad e [] = e := rfl

/-- Associated data that is not empty is absorbed and counted, and opens its phase (R136). -/
theorem engAad_of_ne_nil {a : List Byte} (h : a ≠ []) :
    engAad e a = { a.foldl engAbsorb e with alen := e.alen + BitVec.ofNat 64 a.length, phase := .aad } := by
  rw [engAad, if_neg h]
  dsimp only
  rw [(foldl_engAbsorb_keepsButTag e a).alen]

/-- The count of associated data (R136). -/
theorem engAad_alen (a : List Byte) : (engAad e a).alen = e.alen + BitVec.ofNat 64 a.length := by
  by_cases ha : a = []
  · simp [ha]
  · rw [engAad_of_ne_nil e ha]

/-- The phase after associated data (R131, R136). -/
theorem engAad_phase (a : List Byte) : (engAad e a).phase = if a = [] then e.phase else .aad := by
  by_cases ha : a = []
  · rw [ha, engAad_nil, if_pos rfl]
  · rw [engAad_of_ne_nil e ha, if_neg ha]

/-- Associated data in two pieces (R136). -/
theorem engAad_append (a b : List Byte) : engAad (engAad e a) b = engAad e (a ++ b) := by
  by_cases ha : a = []
  · rw [ha, engAad_nil, List.nil_append]
  by_cases hb : b = []
  · rw [hb, engAad_nil, List.append_nil]
  rw [engAad_of_ne_nil _ hb, engAad_of_ne_nil e ha, engAad_of_ne_nil e (List.append_ne_nil_of_left_ne_nil ha b),
    foldl_engAbsorb_alen_phase, List.foldl_append, List.length_append, BitVec.ofNat_add, BitVec.add_assoc]

/-- Associated data in any pieces (R136). -/
theorem foldl_engAad (as : List (List Byte)) : as.foldl engAad e = engAad e as.flatten := by
  induction as generalizing e with
  | nil => rfl
  | cons a as ih => rw [List.foldl_cons, ih, engAad_append, List.flatten_cons]

end

/-! ## Payload -/

/-- The engine in which the payload loop starts: the first payload byte closes the associated data (R139). -/
def payloadStart (e : Engine) : Engine :=
  if e.phase = .nonceSet ∨ e.phase = .aad then { engFlush e with phase := .payload } else e

/-- `e'` is `e` after `n` payload bytes, in the fields that do not depend on the bytes (R139). -/
structure Counts (n : Nat) (e e' : Engine) : Prop where
  phase : e'.phase = e.phase
  ek0 : e'.ek0 = e.ek0
  alen : e'.alen = e.alen
  mlen : e'.mlen = e.mlen + BitVec.ofNat 64 n

section
variable (E : Block → Block) (dir : CryptDir) (e : Engine)

/-- No payload (R139). -/
@[simp] theorem engPayload_nil : engPayload E dir e [] = (e, []) := rfl

/-- Payload that is not empty (R139). -/
theorem engPayload_of_ne_nil {d : List Byte} (h : d ≠ []) :
    engPayload E dir e d = engPayloadLoop E dir (payloadStart e) d := by
  rw [engPayload, if_neg h, payloadStart]
  split <;> rfl

/-- The loop starts in no phase that it would have to close. -/
theorem payloadStart_phase : ¬((payloadStart e).phase = .nonceSet ∨ (payloadStart e).phase = .aad) := by
  unfold payloadStart
  split
  · exact not_or.2 ⟨nofun, nofun⟩
  · assumption

/-- Closing the associated data changes running tag, partial block and phase only. -/
theorem payloadStart_counts : (payloadStart e).ek0 = e.ek0 ∧ (payloadStart e).alen = e.alen ∧
    (payloadStart e).mlen = e.mlen := by
  unfold payloadStart
  split
  · have hkeep := engFlush_keepsButTag e
    exact ⟨hkeep.ek0, hkeep.alen, hkeep.mlen⟩
  · exact ⟨rfl, rfl, rfl⟩

/-- A payload byte is counted (R139). -/
theorem engPayloadByte_counts (d : Byte) : Counts 1 e (engPayloadByte E dir e d).1 := by
  have hrefill : (engRefill E e).phase = e.phase ∧ (engRefill E e).ek0 = e.ek0 ∧ (engRefill E e).alen = e.alen ∧
      (engRefill E e).mlen = e.mlen := by
    unfold engRefill
    split <;> exact ⟨rfl, rfl, rfl, rfl⟩
  obtain ⟨hphase, hek0, halen, hmlen⟩ := hrefill
  have hkeep := engAbsorb_keepsButTag (engRefill E e) (ciphertextByte dir d (payloadOutput E e d))
  exact ⟨hkeep.phase.trans hphase, hkeep.ek0.trans hek0, hkeep.alen.trans halen,
    congrArg (· + 1) (hkeep.mlen.trans hmlen)⟩

/-- The loop counts every byte (R139). -/
theorem engPayloadLoop_counts (d : List Byte) : Counts d.length e (engPayloadLoop E dir e d).1 := by
  induction d generalizing e with
  | nil => exact ⟨rfl, rfl, rfl, (BitVec.add_zero _).symm⟩
  | cons x xs ih =>
    obtain ⟨hphase, hek0, halen, hmlen⟩ := engPayloadByte_counts E dir e x
    obtain ⟨hphase', hek0', halen', hmlen'⟩ := ih (engPayloadByte E dir e x).1
    refine ⟨hphase'.trans hphase, hek0'.trans hek0, halen'.trans halen, hmlen'.trans ?_⟩
    rw [hmlen, List.length_cons, BitVec.add_assoc, ← BitVec.ofNat_add, Nat.add_comm 1]

/-- `PAYLOAD` counts every byte, and keeps `EK0` and the count of associated data (R139). -/
theorem engPayload_counts (d : List Byte) :
    (engPayload E dir e d).1.ek0 = e.ek0 ∧ (engPayload E dir e d).1.alen = e.alen ∧
      (engPayload E dir e d).1.mlen = e.mlen + BitVec.ofNat 64 d.length := by
  by_cases hd : d = []
  · simp [hd]
  · obtain ⟨hek0, halen, hmlen⟩ := payloadStart_counts e
    obtain ⟨-, hek0', halen', hmlen'⟩ := engPayloadLoop_counts E dir (payloadStart e) d
    rw [engPayload_of_ne_nil E dir e hd]
    exact ⟨hek0'.trans hek0, halen'.trans halen, hmlen ▸ hmlen'⟩

/-- The phase after payload (R131, R139). -/
theorem engPayload_phase (d : List Byte) :
    (engPayload E dir e d).1.phase =
      if d ≠ [] ∧ (e.phase = .nonceSet ∨ e.phase = .aad) then .payload else e.phase := by
  by_cases hd : d = []
  · rw [hd, engPayload_nil, if_neg fun h => h.1 rfl]
  · rw [engPayload_of_ne_nil E dir e hd, (engPayloadLoop_counts E dir _ d).phase, payloadStart]
    by_cases hp : e.phase = .nonceSet ∨ e.phase = .aad
    · rw [if_pos hp, if_pos ⟨hd, hp⟩]
    · rw [if_neg hp, if_neg fun h => hp h.2]

/-- The loop gives a byte for each byte (R139). -/
theorem length_engPayloadLoop (d : List Byte) : (engPayloadLoop E dir e d).2.length = d.length := by
  induction d generalizing e with
  | nil => rfl
  | cons x xs ih => exact congrArg (· + 1) (ih (engPayloadByte E dir e x).1)

/-- `PAYLOAD` gives as many bytes as it takes (R139). -/
@[simp] theorem length_engPayload (d : List Byte) : (engPayload E dir e d).2.length = d.length := by
  by_cases hd : d = []
  · rw [hd, engPayload_nil]
  · rw [engPayload_of_ne_nil E dir e hd, length_engPayloadLoop]

/-- The loop in two pieces (R139). -/
theorem engPayloadLoop_append (a b : List Byte) :
    engPayloadLoop E dir e (a ++ b) =
      ((engPayloadLoop E dir (engPayloadLoop E dir e a).1 b).1,
        (engPayloadLoop E dir e a).2 ++ (engPayloadLoop E dir (engPayloadLoop E dir e a).1 b).2) := by
  induction a generalizing e with
  | nil => rfl
  | cons x xs ih => simp only [List.cons_append, engPayloadLoop, ih]

/-- Payload in two pieces: the second piece continues the loop of the first (R139). -/
theorem engPayload_append (a b : List Byte) :
    engPayload E dir e (a ++ b) =
      ((engPayload E dir (engPayload E dir e a).1 b).1,
        (engPayload E dir e a).2 ++ (engPayload E dir (engPayload E dir e a).1 b).2) := by
  by_cases ha : a = []
  · rw [ha, engPayload_nil, List.nil_append, List.nil_append]
  by_cases hb : b = []
  · rw [hb, List.append_nil, engPayload_nil, List.append_nil]
  have hcontinue : payloadStart (engPayloadLoop E dir (payloadStart e) a).1 =
      (engPayloadLoop E dir (payloadStart e) a).1 := by
    rw [payloadStart, (engPayloadLoop_counts E dir _ a).phase, if_neg (payloadStart_phase e)]
  rw [engPayload_of_ne_nil E dir e (List.append_ne_nil_of_left_ne_nil ha b), engPayload_of_ne_nil E dir e ha,
    engPayload_of_ne_nil E dir _ hb, hcontinue, engPayloadLoop_append]

/-- A call of `PAYLOAD` on the engine and the output so far (R137, R138). -/
def payloadCall (q : Engine × List Byte) (d : List Byte) : Engine × List Byte :=
  ((engPayload E dir q.1 d).1, q.2 ++ (engPayload E dir q.1 d).2)

/-- Payload in any pieces (R139). -/
theorem foldl_payloadCall (ds : List (List Byte)) (out : List Byte) :
    ds.foldl (payloadCall E dir) (e, out) =
      ((engPayload E dir e ds.flatten).1, out ++ (engPayload E dir e ds.flatten).2) := by
  induction ds generalizing e out with
  | nil => simp
  | cons d ds ih => rw [List.foldl_cons, payloadCall, ih, List.flatten_cons, engPayload_append, List.append_assoc]

end

/-! ## The tag -/

/-- The full tag from the flushed engine (R140). -/
theorem engFinalize_xi (e : Engine) : (engFinalize e).xi =
    gfmul ((engFlush e).xi ^^^ lengthBlock e.alen.toNat e.mlen.toNat) e.h ^^^ e.ek0 := by
  have hkeep := engFlush_keepsButTag e
  rw [engFinalize]
  dsimp only
  rw [hkeep.alen, hkeep.mlen, hkeep.h, hkeep.ek0]

end Sys2Proof.Machine
end

section
/-! PROOF. The commands of the direct engine (R132 to R142), each as one equation: its checks in order, then its
update. -/

namespace Sys2Proof.Machine

/-! ## Checks in the terms of the statements -/

/-- A data phase (R131). -/
abbrev InDataPhase (e : Engine) : Prop := e.phase = .nonceSet ∨ e.phase = .aad ∨ e.phase = .payload

section
variable (dest : Bool) (c : StatusCode) (cs : List (Bool × StatusCode)) (s : State) (go : State → Result)

/-- A check that fails outside the data phases (R131). -/
theorem checked_dataPhase (e : Engine) :
    checked dest ((!dataPhase e, c) :: cs) s go =
      if ¬InDataPhase e then .next (s.raise dest c) else checked dest cs s go := by
  refine checked_cons dest c cs s go ?_
  rw [Bool.not_eq_true', ← Bool.not_eq_true, dataPhase_iff]

/-- A check that fails unless one of two conditions holds. -/
theorem checked_not_or (p q : Prop) [Decidable p] [Decidable q] :
    checked dest ((!(decide p || decide q), c) :: cs) s go =
      if ¬(p ∨ q) then .next (s.raise dest c) else checked dest cs s go := by
  refine checked_cons dest c cs s go ?_
  rw [Bool.not_eq_true', ← Bool.decide_or, decide_eq_false_iff_not]

/-- A check that fails on a length that is 0 or too large (R133). -/
theorem checked_lengthBounds (n : Word) (l : Nat) :
    checked dest ((decide (n.toNat = 0) || decide (n.toNat > l), c) :: cs) s go =
      if n = 0 ∨ n.toNat > l then .next (s.raise dest c) else checked dest cs s go := by
  refine checked_cons dest c cs s go ?_
  have hzero : n.toNat = 0 ↔ n = 0 := BitVec.toNat_inj (y := 0)
  rw [Bool.or_eq_true, decide_eq_true_iff, decide_eq_true_iff, hzero]

end

/-- The key lengths of the direct engine's cipher (R132). -/
theorem engKeyLength_iff (n : Word) :
    (!(std.bcKeylens std.engBc).contains n.toNat) = true ↔ ¬(n = 16 ∨ n = 24 ∨ n = 32) := by
  have hkeylens : std.bcKeylens std.engBc = [16, 24, 32] := rfl
  simp [hkeylens, ← BitVec.toNat_inj]

/-- The branch in which a check fails, of a command that then changes nothing else: its code joins the codes of the
checks after it (R163, R257). -/
theorem failed_of_check {p : Prop} [Decidable p] {s : State} {c c' : StatusCode} {r : Result}
    (h : ¬p → r = .next (s.failed c')) :
    (if p then .next (s.failed c) else r) = .next (s.failed (if p then c else c')) := by
  by_cases hp : p
  · rw [if_pos hp, if_pos hp]
  · rw [if_neg hp, if_neg hp, h hp]

/-! ## The tag -/

/-- The requested tag length, of which 0 asks for 16 (R141, R142). -/
abbrev tagLength (tagl : Word) : Word := if tagl = 0 then 16 else tagl

/-- The tag length of the machine is the number of that word (R141, R142). -/
theorem directTagLen_eq (tagl : Word) : directTagLen tagl = (tagLength tagl).toNat := by
  unfold directTagLen tagLength
  split <;> rfl

/-- The sum of the differences that `CT_EQ` collects is 0 exactly when each difference is (R175). -/
theorem foldl_or_eq_zero_iff (ds : List Byte) (acc : Byte) :
    ds.foldl (fun acc d => acc ||| d) acc = 0 ↔ acc = 0 ∧ ∀ d ∈ ds, d = 0 := by
  induction ds generalizing acc with
  | nil => simp
  | cons d ds ih =>
    rw [List.foldl_cons, ih, BitVec.ofNat_eq_ofNat, BitVec.or_eq_zero_iff, List.forall_mem_cons, and_assoc]

/-- `CT_EQ` of strings of one length is equality (R175). -/
theorem ctEq_iff {a b : List Byte} (h : a.length = b.length) : ctEq a b = true ↔ a = b := by
  rw [ctEq, decide_eq_true_iff, foldl_or_eq_zero_iff]
  induction a generalizing b with
  | nil => simp [List.eq_nil_of_length_eq_zero h.symm]
  | cons x xs ih =>
    cases b with
    | nil => nomatch h
    | cons y ys =>
      have hrest := ih (Nat.succ.inj h)
      rw [eq_self, true_and] at hrest ⊢
      rw [List.zipWith_cons_cons, List.forall_mem_cons, hrest, List.cons.injEq, BitVec.ofNat_eq_ofNat,
        BitVec.xor_eq_zero_iff]

/-- A check that fails on a wrong tag (R142). -/
theorem checked_ctEq {a b : List Byte} (h : a.length = b.length) (dest : Bool) (c : StatusCode) (s : State)
    (go : State → Result) :
    checked dest [(!ctEq a b, c)] s go = if ¬a = b then .next (s.raise dest c) else go s := by
  refine checked_cons dest c [] s go ?_
  rw [Bool.not_eq_true', ← Bool.not_eq_true, ctEq_iff h]

/-! ## The commands -/

section
variable (s : State)

/-- `GCM_KEY` (R132). -/
theorem exec_gcmKey : exec .gcmKey s =
    if ¬(s.x.keyl = 16 ∨ s.x.keyl = 24 ∨ s.x.keyl = 32) then .next ({ s with cap := s.latched }.failed .badKeyLength)
    else if ¬InRange s.x.keyp s.x.keyl then .next ({ s with cap := s.latched }.failed .badAddress)
    else .next ({ s with
      cap := s.latched
      eng := keyedEngine (s.mem.readBytes s.x.keyp.toNat s.x.keyl.toNat) s.x.keyl (selectImpl s.latched) }.succeeded 0) :=
  by
  rw [exec, execGcmKey, gcmKeyOn, latchCap_eq, checked_cons _ _ _ _ _ (engKeyLength_iff _), checked_buf, checked_nil]
  rfl

/-- `GCM_SETIV` (R133). -/
theorem exec_gcmSetiv : exec .gcmSetiv s =
    if s.eng.phase = .uninit then .next (s.failed .state)
    else if s.x.nonl = 0 ∨ s.x.nonl.toNat > 2 ^ 61 - 1 then .next (s.failed .badNonceLength)
    else if ¬InRange s.x.nonp s.x.nonl then .next (s.failed .badAddress)
    else .next ({ s with
      eng := engSetIv (std.bc std.engBc s.eng.key) s.eng (s.mem.readBytes s.x.nonp.toNat s.x.nonl.toNat) }.succeeded 0) :=
  by
  rw [exec, execGcmSetiv, gcmSetivOn, checked_decide, checked_lengthBounds, checked_buf, checked_nil]
  rfl

/-- `GCM_AAD` (R136). -/
theorem exec_gcmAad : exec .gcmAad s =
    if ¬(s.eng.phase = .nonceSet ∨ s.eng.phase = .aad) then .next (s.failed .state)
    else if ¬InRange s.x.adp s.x.adl then .next (s.failed .badAddress)
    else if s.eng.alen.toNat + s.x.adl.toNat > 2 ^ 58 then .next (s.failed .tooLarge)
    else .next ({ s with eng := engAad s.eng (s.mem.readBytes s.x.adp.toNat s.x.adl.toNat) }.succeeded 0) := by
  rw [exec, execGcmAad, gcmAadOn, checked_not_or, checked_buf, checked_decide, checked_nil]
  rfl

/-- The engine and the output of `GCM_ENC` or `GCM_DEC` (R137, R138). -/
def cryptResult (dir : CryptDir) : Engine × List Byte :=
  engPayload (std.bc std.engBc s.eng.key) dir s.eng (s.mem.readBytes s.x.inp.toNat s.x.inl.toNat)

/-- `GCM_ENC` and `GCM_DEC` (R137, R138). -/
theorem gcmCryptOn_std (dir : CryptDir) : gcmCryptOn std dir s =
    if ¬InDataPhase s.eng then .next (s.failed .state)
    else if ¬(InRange s.x.inp s.x.inl ∧ InRange s.x.outp s.x.inl) then .next (s.failed .badAddress)
    else if ¬AliasFree s.x s.x.inl then .next (s.failed .alias_)
    else if s.eng.mlen.toNat + s.x.inl.toNat > 2 ^ 36 - 32 then .next (s.failed .tooLarge)
    else .next ({ s with
      eng := (cryptResult s dir).1
      mem := s.mem.writeBytes s.x.outp.toNat (cryptResult s dir).2 }.succeeded s.x.inl.toNat) := by
  rw [gcmCryptOn, checked_dataPhase, checked_bufs, checked_aliasOk, checked_decide, checked_nil]
  rfl

/-- The first bytes of the tag, as many as requested (R140, R141, R142). -/
def shortTag : List Byte := (blockBytes (engFinalize s.eng).xi).take (tagLength s.x.tagl).toNat

/-- `GCM_TAG` (R141). -/
theorem exec_gcmTag : exec .gcmTag s =
    if ¬InDataPhase s.eng then .next (s.failed .state)
    else if (tagLength s.x.tagl).toNat > 16 then .next (s.failed .badTagLength)
    else if ¬InRange s.x.outp (tagLength s.x.tagl) then .next (s.failed .badAddress)
    else .next ({ s with
      eng := engFinalize s.eng
      mem := s.mem.writeBytes s.x.outp.toNat (shortTag s) }.succeeded (tagLength s.x.tagl).toNat) := by
  rw [exec, execGcmTag, gcmTagOn, State.clearPerf_x, directTagLen_eq, BitVec.ofNat_toNat, BitVec.setWidth_eq,
    checked_dataPhase, checked_decide, checked_buf, checked_nil]
  rfl

/-- `GCM_FINISH` (R142). -/
theorem exec_gcmFinish : exec .gcmFinish s =
    if ¬InDataPhase s.eng then .next (s.failed .state)
    else if (tagLength s.x.tagl).toNat > 16 then .next (s.failed .badTagLength)
    else if ¬InRange s.x.inp (tagLength s.x.tagl) then .next (s.failed .badAddress)
    else if ¬shortTag s = s.mem.readBytes s.x.inp.toNat (tagLength s.x.tagl).toNat then
      .next ({ s with eng := engFinalize s.eng }.failed .decrypt)
    else .next ({ s with eng := engFinalize s.eng }.succeeded 0) := by
  rw [exec, execGcmFinish, gcmFinishOn, State.clearPerf_x, directTagLen_eq, BitVec.ofNat_toNat, BitVec.setWidth_eq,
    checked_dataPhase, checked_decide, checked_buf, checked_nil]
  refine if_congr Iff.rfl rfl (ite_congr rfl (fun _ => rfl) fun hlen => if_congr Iff.rfl rfl (checked_ctEq ?_ ..))
  rw [List.length_take, length_blockBytes, State.length_readBuf]
  exact Nat.min_eq_left (Nat.le_of_not_lt hlen)

end

end Sys2Proof.Machine
end

section
/-! PROOF. What each command of the direct engine does and when it fails (R132 to R142), from its equation. -/

namespace Sys2Proof.Machine

/-- Settles O31: the three branches of `GCM_KEY`. -/
theorem gcmKeyBindsTheKey : Obligations.GcmKeyBindsTheKey := by
  intro s
  rw [exec_gcmKey]
  refine ⟨fun hlen hrange => ?_, fun hlen => if_pos hlen, fun hlen hrange => ?_⟩
  · rw [if_neg (not_not.2 hlen), if_neg (not_not.2 hrange)]
    rfl
  · rw [if_neg (not_not.2 hlen), if_pos hrange]

/-- The initial counter block of a nonce read from memory (R134). -/
theorem j0_readBytes (h : Block) (m : Memory) (a : Nat) (n : Word) :
    j0 h (m.readBytes a n.toNat) =
      if n = 12 then blockOf (m.readBytes a n.toNat ++ [0, 0, 0, 1])
      else ghash h 0 (pad16 (m.readBytes a n.toNat) ++ zeros 8 ++ be64 (8 * n.toNat)) := by
  have hlen : n.toNat = 12 ↔ n = 12 := BitVec.toNat_inj (y := 12)
  rw [j0, Memory.length_readBytes]
  exact if_congr hlen rfl rfl

/-- Settles O32: the branches of `GCM_SETIV`. -/
theorem gcmSetivStartsARecord : Obligations.GcmSetivStartsARecord := by
  intro s n j
  have hj : j = j0 s.eng.h n := (j0_readBytes s.eng.h s.mem s.x.nonp.toNat s.x.nonl).symm
  rw [exec_gcmSetiv, hj]
  refine ⟨fun hkey hpos hmax hrange => ?_, fun hfail => failed_of_check fun hkey => failed_of_check fun hlen => ?_⟩
  · have hlen : ¬(s.x.nonl = 0 ∨ s.x.nonl.toNat > 2 ^ 61 - 1) := not_or.2 ⟨hpos, Nat.not_lt.2 hmax⟩
    rw [if_neg hkey, if_neg hlen, if_neg (not_not.2 hrange)]
    rfl
  · obtain ⟨hpos, hmax⟩ := not_or.1 hlen
    exact if_pos fun hrange => hfail ⟨hkey, hpos, Nat.not_lt.1 hmax, hrange⟩

/-- A buffer is empty exactly when its length is 0 (R61). -/
theorem readBytes_eq_nil_iff (m : Memory) (a : Nat) (n : Word) : m.readBytes a n.toNat = [] ↔ n = 0 := by
  rw [← List.length_eq_zero_iff, Memory.length_readBytes]
  exact BitVec.toNat_inj (y := 0)

/-- A count that does not overflow (R136, R139). -/
theorem toNat_add_ofNat {n : BitVec 64} {k : Nat} (h : n.toNat + k < 2 ^ 64) :
    (n + BitVec.ofNat 64 k).toNat = n.toNat + k := by
  rw [BitVec.toNat_add, BitVec.toNat_ofNat]
  omega

/-- Settles O33: the branches of `GCM_AAD`, and associated data in two pieces. -/
theorem gcmAadAbsorbsAssociatedData : Obligations.GcmAadAbsorbsAssociatedData := by
  intro s a
  rw [exec_gcmAad]
  refine ⟨fun hphase hrange hmax => ⟨engAad s.eng a, ?_, ?_⟩,
    fun hfail => failed_of_check fun hphase => failed_of_check fun hrange => ?_, fun e a b => engAad_append e a b⟩
  · rw [if_neg (not_not.2 hphase), if_neg (not_not.2 hrange), if_neg (Nat.not_lt.2 hmax)]
  · have hempty : a = [] ↔ s.x.adl = 0 := readBytes_eq_nil_iff s.mem s.x.adp.toNat s.x.adl
    have hlen : a.length = s.x.adl.toNat := Memory.length_readBytes ..
    split
    next hzero => rw [hempty.2 hzero, engAad_nil]
    next hpos =>
      refine ⟨by rw [engAad_of_ne_nil s.eng (mt hempty.1 hpos)], ?_⟩
      rw [engAad_alen, toNat_add_ofNat (by omega), hlen]
  · exact if_pos (Nat.not_le.1 fun hmax => hfail ⟨not_not.1 hphase, not_not.1 hrange, hmax⟩)

/-- `GCM_ENC` and `GCM_DEC` by their direction (R137, R138). -/
theorem exec_eq_gcmCryptOn {i : Instr} {dir : CryptDir}
    (h : (i = .gcmEnc ∧ dir = .encrypt) ∨ (i = .gcmDec ∧ dir = .decrypt))
    (s : State) : exec i s = gcmCryptOn std dir s := by
  obtain ⟨rfl, rfl⟩ | ⟨rfl, rfl⟩ := h <;> rfl

/-- Settles O34: the branches of `GCM_ENC` and `GCM_DEC`, and what `PAYLOAD` counts. -/
theorem gcmEncAndDecProcessPayload : Obligations.GcmEncAndDecProcessPayload := by
  intro s i dir hwf hi live r
  have hlen : (s.mem.readBytes s.x.inp.toNat s.x.inl.toNat).length = s.x.inl.toNat := Memory.length_readBytes ..
  have hempty := readBytes_eq_nil_iff s.mem s.x.inp.toNat s.x.inl
  rw [exec_eq_gcmCryptOn hi, gcmCryptOn_std]
  refine ⟨fun hlive hin hout halias hmax =>
      ⟨_, ?_, stores_writeBytes s.mem s.x.outp.toNat r.2 hwf, ?_, ?_, fun hzero => ?_⟩,
    fun hfail => failed_of_check fun hlive => failed_of_check fun hbufs => failed_of_check fun halias => ?_⟩
  · rw [if_neg (not_not.2 hlive), if_neg (not_not.2 ⟨hin, hout⟩), if_neg (not_not.2 halias),
      if_neg (Nat.not_lt.2 hmax)]
    rfl
  · rw [length_engPayload, hlen]
  · obtain ⟨-, -, hmlen⟩ := engPayload_counts (std.bc std.engBc s.eng.key) dir s.eng
      (s.mem.readBytes s.x.inp.toNat s.x.inl.toNat)
    rw [hmlen, hlen, toNat_add_ofNat (by omega)]
  · show (engPayload ..).1 = s.eng
    rw [hempty.2 hzero, engPayload_nil]
  · obtain ⟨hin, hout⟩ := not_not.1 hbufs
    exact if_pos (Nat.not_le.1 fun hmax => hfail ⟨not_not.1 hlive, hin, hout, not_not.1 halias, hmax⟩)

/-- The length block of an empty record (R140). -/
theorem lengthBlock_zero : lengthBlock 0 0 = 0 := by decide

/-- With nothing absorbed the tag is `EK0` (R141). -/
theorem engFinalize_xi_of_nonceSet {e : Engine} (h : e.Inv) (hp : e.phase = .nonceSet) :
    (engFinalize e).xi = e.ek0 := by
  obtain ⟨-, hphase⟩ := (Engine.inv_iff (by simp [hp])).1 h
  unfold Engine.PhaseInv at hphase
  rw [hp] at hphase
  obtain ⟨hxi, halen, hmlen, hfill, -⟩ := hphase
  have hflush : engFlush e = e := if_pos hfill
  have hlengths : lengthBlock e.alen.toNat e.mlen.toNat = 0 := by
    rw [halen, hmlen]
    exact lengthBlock_zero
  simp [engFinalize_xi, hflush, hlengths, hxi]

/-- Settles O35: the branches of `GCM_TAG`, and the tag of an empty record. -/
theorem gcmTagEmitsTheTag : Obligations.GcmTagEmitsTheTag := by
  intro s hwf live t e
  rw [exec_gcmTag]
  refine ⟨fun hlive hlen hrange => ⟨_, ?_, rfl, stores_writeBytes s.mem s.x.outp.toNat (shortTag s) hwf⟩,
    fun hp hinv => engFinalize_xi_of_nonceSet hinv hp,
    fun hfail => failed_of_check fun hlive => failed_of_check fun hlen => ?_⟩
  · rw [if_neg (not_not.2 hlive), if_neg (Nat.not_lt.2 hlen), if_neg (not_not.2 hrange)]
  · exact if_pos fun hrange => hfail ⟨not_not.1 hlive, Nat.not_lt.1 hlen, hrange⟩

/-- Settles O36: the branches of `GCM_FINISH`; the comparison is the last. -/
theorem gcmFinishComparesTheTag : Obligations.GcmFinishComparesTheTag := by
  intro s live t e same
  rw [exec_gcmFinish]
  refine ⟨fun hlive hlen hrange hsame => ⟨?_, rfl⟩, fun hlive hlen hrange hdiff => ⟨?_, rfl⟩,
    fun hfail => failed_of_check fun hlive => failed_of_check fun hlen => ?_⟩
  · rw [if_neg (not_not.2 hlive), if_neg (Nat.not_lt.2 hlen), if_neg (not_not.2 hrange)]
    exact if_neg (not_not.2 hsame)
  · rw [if_neg (not_not.2 hlive), if_neg (Nat.not_lt.2 hlen), if_neg (not_not.2 hrange)]
    exact if_pos hdiff
  · exact if_pos fun hrange => hfail ⟨not_not.1 hlive, Nat.not_lt.1 hlen, hrange⟩

end Sys2Proof.Machine
end

section
/-! PROOF. The phase table (R131): every command ends in a row of it, or fails and keeps the phase. -/

namespace Sys2Proof.Machine

/-! ## The rows of the table -/

/-- The row of `GCM_SETIV` (R131). -/
theorem phaseAfter_gcmSetiv (adl inl : Word) (p : Phase) :
    phaseAfter .gcmSetiv adl inl p = if p = .uninit then none else some .nonceSet := by
  cases p <;> rfl

/-- The row of `GCM_AAD` (R131). -/
theorem phaseAfter_gcmAad (adl inl : Word) (p : Phase) :
    phaseAfter .gcmAad adl inl p = if p = .nonceSet ∨ p = .aad then some (if adl = 0 then p else .aad) else none := by
  cases p <;> simp [phaseAfter, apply_ite some]

/-- The rows of `GCM_ENC` and `GCM_DEC` (R131). -/
theorem phaseAfter_gcmCrypt {i : Instr} (hi : i = .gcmEnc ∨ i = .gcmDec) (adl inl : Word) (p : Phase) :
    phaseAfter i adl inl p =
      if p = .nonceSet ∨ p = .aad ∨ p = .payload then some (if inl = 0 then p else .payload) else none := by
  obtain rfl | rfl := hi <;> cases p <;> simp [phaseAfter, apply_ite some]

/-- The rows of `GCM_TAG` and `GCM_FINISH` (R131). -/
theorem phaseAfter_finish {i : Instr} (hi : i = .gcmTag ∨ i = .gcmFinish) (adl inl : Word) (p : Phase) :
    phaseAfter i adl inl p = if p = .nonceSet ∨ p = .aad ∨ p = .payload then some .final else none := by
  obtain rfl | rfl := hi <;> cases p <;> rfl

/-- A command that is no row of the table keeps the phase (R131). -/
theorem phaseAfter_of_writesEng {i : Instr} (h : writesEng i = false) (adl inl : Word) (p : Phase) :
    phaseAfter i adl inl p = some p := by
  cases i with
  | gcmKey | gcmSetiv | gcmAad | gcmEnc | gcmDec | gcmTag | gcmFinish | gcmClear => nomatch h
  | _ => rfl

/-! ## Outcomes by the table -/

/-- What the table says of a command `i` that leads from `s` to `t` (R131, R142). -/
structure FollowsTable (i : Instr) (s t : State) : Prop where
  success : t.status = 0 → phaseAfter i s.x.adl s.x.inl s.eng.phase = some t.eng.phase
  refusal : phaseAfter i s.x.adl s.x.inl s.eng.phase = none → t.status = 3 ∧ t.eng = s.eng
  failure : t.status ≠ 0 → t.eng.phase = s.eng.phase ∨ (i = .gcmFinish ∧ t.status = 12 ∧ t.eng.phase = .final)

section
variable {i : Instr} {s u : State}

/-- A command that succeeds in a phase of the table. -/
theorem FollowsTable.succeeded (n : Nat) (h : phaseAfter i s.x.adl s.x.inl s.eng.phase = some u.eng.phase) :
    FollowsTable i s (u.succeeded n) where
  success _ := h
  refusal hnone := nomatch h.symm.trans hnone
  failure hne := absurd rfl hne

/-- A code other than `OK` (R255). -/
theorem StatusCode.code_ne_zero {c : StatusCode} (h : c ≠ .ok) : c.code ≠ 0 := by
  cases c with
  | ok => exact absurd rfl h
  | _ => exact fun h0 => nomatch congrArg BitVec.toNat h0

/-- A command that fails and leaves the engine, with `E_STATE` where the table says so. -/
theorem FollowsTable.failed {c : StatusCode} (heng : u.eng = s.eng) (hc : c ≠ .ok)
    (hstate : phaseAfter i s.x.adl s.x.inl s.eng.phase = none → c = .state) : FollowsTable i s (u.failed c) where
  success h0 := absurd h0 (StatusCode.code_ne_zero hc)
  refusal hnone := ⟨by rw [hstate hnone]; rfl, heng⟩
  failure _ := .inl (congrArg Engine.phase heng)

/-- An outcome of either branch of a check. -/
theorem Ends.ite {P : State → Prop} {p : Prop} [Decidable p] {r r' : Result} (hr : p → Ends P r)
    (hr' : ¬p → Ends P r') : Ends P (if p then r else r') := by
  split
  next h => exact hr h
  next h => exact hr' h

/-- The check of the phase, which comes first (R163). -/
theorem FollowsTable.ends_state : Ends (FollowsTable i s) (.next (s.failed .state)) :=
  .next (.failed rfl nofun fun _ => rfl)

/-- A check after that of the phase. -/
theorem FollowsTable.ends_failed {c : StatusCode} {p : Phase} (heng : u.eng = s.eng) (hc : c ≠ .ok)
    (h : phaseAfter i s.x.adl s.x.inl s.eng.phase = some p) : Ends (FollowsTable i s) (.next (u.failed c)) :=
  .next (.failed heng hc fun hnone => nomatch h.symm.trans hnone)

end

/-! ## The commands of the engine -/

section
variable (s : State)

theorem gcmKey_followsTable : Ends (FollowsTable .gcmKey s) (exec .gcmKey s) := by
  rw [exec_gcmKey]
  exact .ite (fun _ => FollowsTable.ends_failed rfl nofun rfl) fun _ =>
    .ite (fun _ => FollowsTable.ends_failed rfl nofun rfl) fun _ => .next (.succeeded 0 rfl)

theorem gcmSetiv_followsTable : Ends (FollowsTable .gcmSetiv s) (exec .gcmSetiv s) := by
  rw [exec_gcmSetiv]
  refine .ite (fun _ => FollowsTable.ends_state) fun hkey => ?_
  have hrow : phaseAfter .gcmSetiv s.x.adl s.x.inl s.eng.phase = some .nonceSet := by
    rw [phaseAfter_gcmSetiv, if_neg hkey]
  exact .ite (fun _ => FollowsTable.ends_failed rfl nofun hrow) fun _ =>
    .ite (fun _ => FollowsTable.ends_failed rfl nofun hrow) fun _ => .next (.succeeded 0 hrow)

theorem gcmAad_followsTable : Ends (FollowsTable .gcmAad s) (exec .gcmAad s) := by
  rw [exec_gcmAad]
  refine .ite (fun _ => FollowsTable.ends_state) fun hphase => ?_
  have hrow : phaseAfter .gcmAad s.x.adl s.x.inl s.eng.phase =
      some (engAad s.eng (s.mem.readBytes s.x.adp.toNat s.x.adl.toNat)).phase := by
    rw [phaseAfter_gcmAad, if_pos (not_not.1 hphase), engAad_phase]
    simp only [readBytes_eq_nil_iff]
  exact .ite (fun _ => FollowsTable.ends_failed rfl nofun hrow) fun _ =>
    .ite (fun _ => FollowsTable.ends_failed rfl nofun hrow) fun _ => .next (.succeeded 0 hrow)

/-- The phase after `GCM_ENC` or `GCM_DEC` in a data phase (R131, R137, R138). -/
theorem cryptResult_phase (dir : CryptDir) (h : InDataPhase s.eng) :
    (cryptResult s dir).1.phase = if s.x.inl = 0 then s.eng.phase else .payload := by
  rw [cryptResult, engPayload_phase]
  simp only [ne_eq, readBytes_eq_nil_iff]
  by_cases hzero : s.x.inl = 0
  · rw [if_pos hzero, if_neg fun h => h.1 hzero]
  · rw [if_neg hzero]
    split
    next => rfl
    next hbefore =>
      obtain hp | hp | hp := h
      · exact absurd ⟨hzero, .inl hp⟩ hbefore
      · exact absurd ⟨hzero, .inr hp⟩ hbefore
      · exact hp

theorem gcmCrypt_followsTable {i : Instr} (hi : i = .gcmEnc ∨ i = .gcmDec) (dir : CryptDir) :
    Ends (FollowsTable i s) (gcmCryptOn std dir s) := by
  rw [gcmCryptOn_std]
  refine .ite (fun _ => FollowsTable.ends_state) fun hphase => ?_
  have hrow : phaseAfter i s.x.adl s.x.inl s.eng.phase = some (cryptResult s dir).1.phase := by
    rw [phaseAfter_gcmCrypt hi, if_pos (not_not.1 hphase), cryptResult_phase s dir (not_not.1 hphase)]
  exact .ite (fun _ => FollowsTable.ends_failed rfl nofun hrow) fun _ =>
    .ite (fun _ => FollowsTable.ends_failed rfl nofun hrow) fun _ =>
    .ite (fun _ => FollowsTable.ends_failed rfl nofun hrow) fun _ => .next (.succeeded _ hrow)

theorem gcmTag_followsTable : Ends (FollowsTable .gcmTag s) (exec .gcmTag s) := by
  rw [exec_gcmTag]
  refine .ite (fun _ => FollowsTable.ends_state) fun hphase => ?_
  have hrow : phaseAfter .gcmTag s.x.adl s.x.inl s.eng.phase = some .final := by
    rw [phaseAfter_finish (.inl rfl), if_pos (not_not.1 hphase)]
  exact .ite (fun _ => FollowsTable.ends_failed rfl nofun hrow) fun _ =>
    .ite (fun _ => FollowsTable.ends_failed rfl nofun hrow) fun _ => .next (.succeeded _ hrow)

/-- A wrong tag ends the record too: the one failure that changes the phase (R142). -/
theorem gcmFinish_followsTable : Ends (FollowsTable .gcmFinish s) (exec .gcmFinish s) := by
  rw [exec_gcmFinish]
  refine .ite (fun _ => FollowsTable.ends_state) fun hphase => ?_
  have hrow : phaseAfter .gcmFinish s.x.adl s.x.inl s.eng.phase = some .final := by
    rw [phaseAfter_finish (.inr rfl), if_pos (not_not.1 hphase)]
  exact .ite (fun _ => FollowsTable.ends_failed rfl nofun hrow) fun _ =>
    .ite (fun _ => FollowsTable.ends_failed rfl nofun hrow) fun _ =>
    .ite (fun _ => .next ⟨nofun, fun hnone => (nomatch hrow.symm.trans hnone), fun _ => .inr ⟨rfl, rfl, rfl⟩⟩)
    fun _ => .next (.succeeded 0 hrow)

end

/-- Every command follows the table. -/
theorem exec_followsTable (i : Instr) (s : State) : Ends (FollowsTable i s) (exec i s) := by
  cases i with
  | gcmKey => exact gcmKey_followsTable s
  | gcmSetiv => exact gcmSetiv_followsTable s
  | gcmAad => exact gcmAad_followsTable s
  | gcmEnc => exact gcmCrypt_followsTable s (.inl rfl) .encrypt
  | gcmDec => exact gcmCrypt_followsTable s (.inr rfl) .decrypt
  | gcmTag => exact gcmTag_followsTable s
  | gcmFinish => exact gcmFinish_followsTable s
  | gcmClear => exact .next (.succeeded (u := { s with eng := {}, ctr := {} }) 0 rfl)
  | _ =>
    intro t h
    have heng : t.eng = s.eng := (exec_commandFrame h).eng rfl
    exact ⟨fun _ => heng ▸ phaseAfter_of_writesEng rfl .., nofun, fun _ => .inl (congrArg Engine.phase heng)⟩

/-- Settles O30: every command follows the table. -/
theorem phaseTable : Obligations.PhaseTable := by
  intro i s t h
  obtain ⟨hsuccess, hrefusal, hfailure⟩ := exec_followsTable i s t h
  exact ⟨hsuccess, hrefusal, hfailure⟩

end Sys2Proof.Machine
end

section
/-! PROOF. The tag hash (R104, R135): the running tag and the partial block of an engine that has absorbed a byte string
(`Absorbed`). Flushing it gives `GHASH` of the padded string. -/

namespace Sys2Proof.Machine

/-! ## The partial block -/

/-- A byte that was just replaced reads as replaced (R135). -/
theorem getByte_setByte_same (x : Block) (b : Byte) {i : Nat} (hi : i < 16) : getByte (setByte x i b) i = b := by
  have hmask : ∀ l < 8, (0xFF : Block).getLsbD l = true := by decide
  ext l hl
  have hlt : 8 * (15 - i) + l < 128 := by omega
  simp only [getByte, setByte, BitVec.getElem_extractLsb', BitVec.getLsbD_or, BitVec.getLsbD_and, BitVec.getLsbD_not,
    BitVec.getLsbD_shiftLeft, BitVec.getLsbD_setWidth, Nat.add_sub_cancel_left, hmask l hl, hlt]
  simp [hl]
  omega

/-- Two blocks with the same bytes are equal (R8). -/
theorem block_ext {x y : Block} (h : ∀ i < 16, getByte x i = getByte y i) : x = y := by
  rw [← blockOf_blockBytes x, ← blockOf_blockBytes y]
  congr 1
  apply List.ext_getElem (by rw [length_blockBytes, length_blockBytes])
  intro i hi hi'
  rw [getElem_blockBytes, getElem_blockBytes]
  exact h i (length_blockBytes x ▸ hi)

/-- The bytes of the block of 16 bytes (R8). -/
theorem getByte_blockOf {b : List Byte} (h : b.length = 16) {i : Nat} (hi : i < b.length) :
    getByte (blockOf b) i = b[i] := by
  have hi' : i < (blockBytes (blockOf b)).length := by rwa [blockBytes_blockOf b h]
  rw [← getElem_blockBytes _ i hi']
  simp only [blockBytes_blockOf b h]

@[simp] theorem length_zeros (n : Nat) : (zeros n).length = n := List.length_replicate

/-- The partial block that holds the bytes `r` (R135). -/
def partialBlock (r : List Byte) : Block := blockOf (r ++ zeros (16 - r.length))

theorem partialBlock_nil : partialBlock [] = 0 := by decide

/-- A partial block that is full. -/
theorem partialBlock_of_length {r : List Byte} (h : r.length = 16) : partialBlock r = blockOf r := by
  rw [partialBlock, h]
  exact congrArg blockOf (List.append_nil r)

/-- The bytes of a partial block. -/
theorem getByte_partialBlock {r : List Byte} (h : r.length ≤ 16) {i : Nat} (hi : i < 16) :
    getByte (partialBlock r) i = r[i]?.getD 0 := by
  have hlen : (r ++ zeros (16 - r.length)).length = 16 := by
    rw [List.length_append, length_zeros]
    omega
  rw [partialBlock, getByte_blockOf hlen (hlen.symm ▸ hi), List.getElem_append]
  split
  next hlt => rw [List.getElem?_eq_getElem hlt, Option.getD_some]
  next hge =>
    rw [List.getElem?_eq_none (Nat.le_of_not_lt hge)]
    exact List.getElem_replicate ..

/-- One more byte in a partial block (R135). -/
theorem setByte_partialBlock {r : List Byte} (b : Byte) (h : r.length < 16) :
    setByte (partialBlock r) r.length b = partialBlock (r ++ [b]) := by
  have hlen : (r ++ [b]).length ≤ 16 := by
    rw [List.length_append]
    exact h
  refine block_ext fun i hi => ?_
  rw [getByte_partialBlock hlen hi]
  by_cases heq : i = r.length
  · rw [heq, getByte_setByte_same _ b h, List.getElem?_concat_length, Option.getD_some]
  · rw [getByte_setByte_ne _ b h hi heq, getByte_partialBlock h.le hi]
    obtain hlt | hgt := Nat.lt_or_gt_of_ne heq
    · rw [List.getElem?_append_left hlt]
    · rw [List.getElem?_eq_none hgt.le, List.getElem?_eq_none]
      rw [List.length_append]
      exact hgt

/-! ## `GHASH` and padding -/

/-- `GHASH` in two pieces (R104). -/
theorem ghash_append (h x : Block) {d : List Byte} (hd : d.length % 16 = 0) (d' : List Byte) :
    ghash h x (d ++ d') = ghash h (ghash h x d) d' := (hashInPieces h x d d' hd).2

/-- `GHASH` of one block (R104). -/
theorem ghash_of_length (h x : Block) {d : List Byte} (hd : d.length = 16) :
    ghash h x d = gfmul (x ^^^ blockOf d) h := by
  have hne : d ≠ [] := List.ne_nil_of_length_eq_add_one hd
  have hblocks : blocks d = [blockOf d] := by
    rw [blocks, chunks_of_ne_nil hne, List.take_of_length_le hd.le, List.drop_of_length_le hd.le]
    rfl
  rw [ghash, hblocks]
  rfl

/-- A padded string is whole blocks (R8). -/
theorem length_pad16_mod (a : List Byte) : (pad16 a).length % 16 = 0 := by
  rw [pad16, List.length_append, length_zeros]
  omega

/-- Whole blocks need no padding (R8). -/
theorem pad16_of_length_mod {a : List Byte} (h : a.length % 16 = 0) : pad16 a = a := by
  rw [pad16, h]
  exact List.append_nil a

/-- Whole blocks and a part of one: the part is padded (R8). -/
theorem pad16_append {w r : List Byte} (hw : w.length % 16 = 0) (hpos : 0 < r.length) (hr : r.length < 16) :
    pad16 (w ++ r) = w ++ (r ++ zeros (16 - r.length)) := by
  have hcount : (16 - (w ++ r).length % 16) % 16 = 16 - r.length := by
    rw [List.length_append]
    omega
  rw [pad16, hcount, List.append_assoc]

/-! ## Absorbed byte strings -/

/-- The tag hash of `e` with subkey `h` went from `x` over the whole blocks `w`, and the partial block holds `r`. -/
structure TagState (h x : Block) (w r : List Byte) (e : Engine) : Prop where
  whole : w.length % 16 = 0
  short : r.length < 16
  subkey : e.h = h
  xi : e.xi = ghash h x w
  pbuf : e.pbuf = partialBlock r
  pfill : e.pfill.toNat = r.length

/-- The engine `e` with subkey `h` has absorbed `a` from the running tag `x` on (R135). -/
def Absorbed (h x : Block) (a : List Byte) (e : Engine) : Prop := ∃ w r, a = w ++ r ∧ TagState h x w r e

section
variable {h x : Block} {a : List Byte} {e : Engine}

/-- Nothing absorbed. -/
theorem Absorbed.nil (hh : e.h = h) (hxi : e.xi = x) (hpbuf : e.pbuf = 0) (hpfill : e.pfill = 0) : Absorbed h x [] e :=
  ⟨[], [], rfl, rfl, by decide, hh, hxi, hpbuf.trans partialBlock_nil.symm, by rw [hpfill]; rfl⟩

/-- What has been absorbed shows in four fields only. -/
theorem Absorbed.congr {e' : Engine} (ha : Absorbed h x a e) (hh : e'.h = e.h) (hxi : e'.xi = e.xi)
    (hpbuf : e'.pbuf = e.pbuf) (hpfill : e'.pfill = e.pfill) : Absorbed h x a e' := by
  obtain ⟨w, r, hwr, hs⟩ := ha
  exact ⟨w, r, hwr, hs.whole, hs.short, hh.trans hs.subkey, hxi.trans hs.xi, hpbuf.trans hs.pbuf, hpfill ▸ hs.pfill⟩

/-- The subkey of an engine stays (R135). -/
theorem Absorbed.h_eq (ha : Absorbed h x a e) : e.h = h := by
  obtain ⟨w, r, -, hs⟩ := ha
  exact hs.subkey

/-- One more byte: it goes into the partial block, which is folded in when it is full (R135). -/
theorem Absorbed.absorb (ha : Absorbed h x a e) (b : Byte) : Absorbed h x (a ++ [b]) (engAbsorb e b) := by
  obtain ⟨w, r, rfl, hwhole, hshort, hh, hxi, hpbuf, hpfill⟩ := ha
  have hset : setByte e.pbuf e.pfill.toNat b = partialBlock (r ++ [b]) := by
    rw [hpbuf, hpfill, setByte_partialBlock b hshort]
  have hlen : (r ++ [b]).length = r.length + 1 := List.length_append
  rw [engAbsorb, hset, List.append_assoc]
  split
  next hfull =>
    have hfull' : (r ++ [b]).length = 16 := by
      rw [hlen, ← hpfill, hfull]
      rfl
    refine ⟨w ++ (r ++ [b]), [], (List.append_nil _).symm, ?_, by decide, hh, ?_, partialBlock_nil.symm, rfl⟩
    · rw [List.length_append]
      omega
    · rw [ghash_append h x hwhole, ghash_of_length _ _ hfull', ← partialBlock_of_length hfull', ← hxi, ← hh]
      rfl
  next hfull =>
    have hne : e.pfill.toNat ≠ 15 := fun h15 => hfull (BitVec.eq_of_toNat_eq h15)
    refine ⟨w, r ++ [b], rfl, hwhole, by omega, hh, hxi, rfl, ?_⟩
    show (e.pfill + 1).toNat = _
    rw [hlen, BitVec.toNat_add, hpfill]
    exact Nat.mod_eq_of_lt (by simp; omega)

/-- A byte string more (R135, R136). -/
theorem Absorbed.foldl (ha : Absorbed h x a e) (b : List Byte) : Absorbed h x (a ++ b) (b.foldl engAbsorb e) := by
  induction b generalizing a e with
  | nil => rwa [List.append_nil]
  | cons y ys ih =>
    rw [List.append_cons]
    exact ih (ha.absorb y)

/-- Associated data is absorbed (R136). -/
theorem Absorbed.aad (ha : Absorbed h x a e) (b : List Byte) : Absorbed h x (a ++ b) (engAad e b) := by
  by_cases hb : b = []
  · rwa [hb, engAad_nil, List.append_nil]
  · rw [engAad_of_ne_nil e hb]
    exact (ha.foldl b).congr rfl rfl rfl rfl

/-- Flushing pads with zeros (R8, R135). -/
theorem Absorbed.flush_xi (ha : Absorbed h x a e) : (engFlush e).xi = ghash h x (pad16 a) := by
  obtain ⟨w, r, rfl, hwhole, hshort, hh, hxi, hpbuf, hpfill⟩ := ha
  unfold engFlush
  split
  next hzero =>
    have hr : r = [] := by
      rw [hzero] at hpfill
      exact List.eq_nil_of_length_eq_zero hpfill.symm
    rw [hr, List.append_nil, pad16_of_length_mod hwhole, hxi]
  next hpos =>
    have hpos' : 0 < r.length := Nat.pos_of_ne_zero fun h0 => hpos (BitVec.eq_of_toNat_eq (hpfill.trans h0))
    have hlen : (r ++ zeros (16 - r.length)).length = 16 := by
      rw [List.length_append, length_zeros]
      omega
    rw [pad16_append hwhole hpos' hshort, ghash_append h x hwhole, ghash_of_length _ _ hlen, ← partialBlock,
      ← hxi, ← hh, ← hpbuf]
    rfl

/-- A flushed engine starts afresh from its running tag (R135). -/
theorem Absorbed.flush (ha : Absorbed h x a e) : Absorbed h (ghash h x (pad16 a)) [] (engFlush e) := by
  have hh : (engFlush e).h = h := (engFlush_keepsButTag e).h.trans ha.h_eq
  refine .nil hh ha.flush_xi ?_ (engFlush_pfill e)
  obtain ⟨w, r, -, hs⟩ := ha
  unfold engFlush
  split
  next hzero =>
    have hr : r = [] := List.eq_nil_of_length_eq_zero (hs.pfill ▸ congrArg BitVec.toNat hzero)
    rw [hs.pbuf, hr, partialBlock_nil]
  next => rfl

end

end Sys2Proof.Machine
end

section
/-! PROOF. The engine's calls compute the closed form of a record (R144): the payload loop adds the key stream of one run
of counter mode (`Streaming`) while the tag hash absorbs the ciphertext (`Absorbed`). -/

namespace Sys2Proof.Machine

/-! ## The key stream of the engine -/

/-- The key stream of `e` is the one from the counter block `c` on: the next counter block, and the key-stream block of a
started block (R139). -/
structure Streaming (E : Block → Block) (c : Block) (e : Engine) : Prop where
  cb : e.cb = inc32^[(e.mlen.toNat + 15) / 16] c
  ks : e.mlen.toNat % 16 ≠ 0 → e.ks = E (inc32^[e.mlen.toNat / 16] c)

/-- The ciphertext of a payload and its output (R139). -/
def ciphertextOf (dir : CryptDir) (d o : List Byte) : List Byte :=
  match dir with
  | .encrypt => o
  | .decrypt => d

theorem ciphertextOf_nil (dir : CryptDir) : ciphertextOf dir [] [] = [] := by cases dir <;> rfl

theorem ciphertextOf_cons (dir : CryptDir) (x o : Byte) (d os : List Byte) :
    ciphertextOf dir (x :: d) (o :: os) = ciphertextByte dir x o :: ciphertextOf dir d os := by cases dir <;> rfl

section
variable {E : Block → Block} {dir : CryptDir} {c h x : Block} {a : List Byte} {e : Engine}

/-- The key stream after the next key-stream block is made where one is needed (R139). -/
theorem Streaming.refill (hs : Streaming E c e) :
    (engRefill E e).ks = E (inc32^[e.mlen.toNat / 16] c) ∧ (engRefill E e).cb = inc32^[e.mlen.toNat / 16 + 1] c := by
  unfold engRefill
  split
  next hstart =>
    have hcount : (e.mlen.toNat + 15) / 16 = e.mlen.toNat / 16 := by omega
    dsimp only
    rw [hs.cb, hcount, Function.iterate_succ_apply']
    exact ⟨rfl, rfl⟩
  next hwithin =>
    have hcount : (e.mlen.toNat + 15) / 16 = e.mlen.toNat / 16 + 1 := by omega
    exact ⟨hs.ks hwithin, hcount ▸ hs.cb⟩

/-- A payload byte takes its byte of key stream (R139). -/
theorem Streaming.payloadOutput_eq (hs : Streaming E c e) (d : Byte) :
    payloadOutput E e d = d ^^^ streamByte E c e.mlen.toNat := by
  obtain ⟨hks, -⟩ := hs.refill
  rw [payloadOutput, hks, ← streamByte]

/-- A payload byte keeps the key stream (R139). -/
theorem Streaming.payloadByte (hs : Streaming E c e) (d : Byte) (hlen : e.mlen.toNat + 1 < 2 ^ 64) :
    Streaming E c (engPayloadByte E dir e d).1 := by
  obtain ⟨hks, hcb⟩ := hs.refill
  have hkeep := engAbsorb_keepsButTag (engRefill E e) (ciphertextByte dir d (payloadOutput E e d))
  have hmlen : (engPayloadByte E dir e d).1.mlen.toNat = e.mlen.toNat + 1 := by
    rw [(engPayloadByte_counts E dir e d).mlen, toNat_add_ofNat hlen]
  have hcb' : (engPayloadByte E dir e d).1.cb = inc32^[e.mlen.toNat / 16 + 1] c := hkeep.cb.trans hcb
  have hks' : (engPayloadByte E dir e d).1.ks = E (inc32^[e.mlen.toNat / 16] c) := hkeep.ks.trans hks
  refine ⟨?_, fun hwithin => ?_⟩
  · rw [hcb', hmlen, Nat.add_assoc, Nat.add_div_right _ (by decide)]
  · have hblock : (e.mlen.toNat + 1) / 16 = e.mlen.toNat / 16 := by omega
    rw [hks', hmlen, hblock]

/-- A payload byte is absorbed as its ciphertext byte (R139). -/
theorem Absorbed.payloadByte (ha : Absorbed h x a e) (d : Byte) :
    Absorbed h x (a ++ [ciphertextByte dir d (payloadOutput E e d)]) (engPayloadByte E dir e d).1 := by
  have hrefill : Absorbed h x a (engRefill E e) := by
    unfold engRefill
    split
    · exact ha.congr rfl rfl rfl rfl
    · exact ha
  exact (hrefill.absorb _).congr rfl rfl rfl rfl

/-- The payload loop is counter mode, and absorbs the ciphertext (R121, R139). -/
theorem engPayloadLoop_streaming (hs : Streaming E c e) (ha : Absorbed h x a e) (d : List Byte)
    (hlen : e.mlen.toNat + d.length < 2 ^ 64) :
    (engPayloadLoop E dir e d).2 = (d.mapIdx fun i b => b ^^^ streamByte E c (e.mlen.toNat + i)) ∧
      Absorbed h x (a ++ ciphertextOf dir d (engPayloadLoop E dir e d).2) (engPayloadLoop E dir e d).1 := by
  induction d generalizing a e with
  | nil => exact ⟨rfl, by rwa [engPayloadLoop, ciphertextOf_nil, List.append_nil]⟩
  | cons y ys ih =>
    rw [List.length_cons] at hlen
    have hmlen : (engPayloadByte E dir e y).1.mlen.toNat = e.mlen.toNat + 1 := by
      rw [(engPayloadByte_counts E dir e y).mlen, toNat_add_ofNat (by omega)]
    obtain ⟨hout, habs⟩ := ih (hs.payloadByte y (by omega)) (ha.payloadByte (E := E) (dir := dir) y) (by omega)
    constructor
    · rw [List.mapIdx_cons, engPayloadLoop, hout, hmlen]
      refine congrArg₂ List.cons (hs.payloadOutput_eq y) ?_
      simp only [Nat.add_assoc, Nat.add_comm 1]
    · rw [engPayloadLoop, ciphertextOf_cons, List.append_cons]
      exact habs

end

/-! ## A record -/

/-- The tag of a record with ciphertext `c` under the subkey `h` (R140, R144). -/
def recordTag (E : Block → Block) (h : Block) (n a c : List Byte) : Block :=
  ghash h 0 (pad16 a ++ pad16 c ++ be64 (8 * a.length) ++ be64 (8 * c.length)) ^^^ E (j0 h n)

/-- The closed form in its two parts (R144). -/
theorem gcmRecord_eq (E : Block → Block) (n a p : List Byte) :
    let c := (gctr E (inc32 (j0 (E 0) n)) p).1
    gcmRecord E n a p = (c, recordTag E (E 0) n a c) := rfl

/-- `GHASH` of a record in the engine's order: associated data, ciphertext, lengths (R140). -/
theorem ghash_record (h : Block) (a c : List Byte) (k l : Nat) :
    ghash h 0 (pad16 a ++ pad16 c ++ be64 (8 * k) ++ be64 (8 * l)) =
      gfmul (ghash h (ghash h 0 (pad16 a)) (pad16 c) ^^^ lengthBlock k l) h := by
  have hlengths : (be64 (8 * k) ++ be64 (8 * l)).length = 16 := by
    rw [List.length_append, be64, be64, length_be, length_be]
  rw [List.append_assoc, List.append_assoc, ghash_append h 0 (length_pad16_mod a),
    ghash_append h _ (length_pad16_mod c), ghash_of_length _ _ hlengths, lengthBlock]

section
variable (E : Block → Block) (dir : CryptDir) (e : Engine) (n a : List Byte)

/-- The engine with nonce and associated data set (R133, R136). -/
def recordStart : Engine := engAad (engSetIv E e n) a

/-- Its fields that the payload starts from (R133, R134, R136). -/
theorem recordStart_fields :
    ((recordStart E e n a).phase = .nonceSet ∨ (recordStart E e n a).phase = .aad) ∧
      (recordStart E e n a).cb = inc32 (j0 e.h n) ∧ (recordStart E e n a).ek0 = E (j0 e.h n) ∧
      (recordStart E e n a).mlen = 0 ∧ (recordStart E e n a).alen = BitVec.ofNat 64 a.length := by
  by_cases ha : a = []
  · rw [recordStart, ha, engAad_nil]
    exact ⟨.inl rfl, rfl, rfl, rfl, rfl⟩
  · have hkeep := foldl_engAbsorb_keepsButTag (engSetIv E e n) a
    rw [recordStart, engAad_of_ne_nil _ ha]
    exact ⟨.inr rfl, hkeep.cb, hkeep.ek0, hkeep.mlen, BitVec.zero_add _⟩

/-- It has absorbed the associated data (R136). -/
theorem recordStart_absorbed : Absorbed e.h 0 a (recordStart E e n a) :=
  (Absorbed.nil rfl rfl rfl rfl : Absorbed e.h 0 [] (engSetIv E e n)).aad a

/-- Payload in a record is counter mode from the second counter block on, and the flushed tag hash is that of the padded
associated data and the padded ciphertext (R134, R139). -/
theorem engPayload_recordStart (d : List Byte) (hd : d.length < 2 ^ 64) :
    let r := engPayload E dir (recordStart E e n a) d
    r.2 = (gctr E (inc32 (j0 e.h n)) d).1 ∧
      (engFlush r.1).xi = ghash e.h (ghash e.h 0 (pad16 a)) (pad16 (ciphertextOf dir d r.2)) ∧ r.1.h = e.h := by
  have habs := recordStart_absorbed E e n a
  by_cases hempty : d = []
  · rw [hempty, engPayload_nil]
    dsimp only
    rw [ciphertextOf_nil]
    exact ⟨rfl, habs.flush_xi, habs.h_eq⟩
  obtain ⟨hphase, hcb, -, hmlen, -⟩ := recordStart_fields E e n a
  have hkeep := engFlush_keepsButTag (recordStart E e n a)
  have hstart : payloadStart (recordStart E e n a) = { engFlush (recordStart E e n a) with phase := .payload } :=
    if_pos hphase
  have hmlen' : (payloadStart (recordStart E e n a)).mlen.toNat = 0 := by
    rw [hstart]
    exact congrArg BitVec.toNat (hkeep.mlen.trans hmlen)
  have hs : Streaming E (inc32 (j0 e.h n)) (payloadStart (recordStart E e n a)) := by
    refine ⟨?_, fun hwithin => absurd (by rw [hmlen']) hwithin⟩
    rw [hmlen', hstart]
    exact hkeep.cb.trans hcb
  have ha : Absorbed e.h (ghash e.h 0 (pad16 a)) [] (payloadStart (recordStart E e n a)) := by
    rw [hstart]
    exact habs.flush.congr rfl rfl rfl rfl
  obtain ⟨hout, habs'⟩ := engPayloadLoop_streaming (dir := dir) hs ha d (by omega)
  rw [engPayload_of_ne_nil E dir _ hempty]
  refine ⟨?_, habs'.flush_xi, habs'.h_eq⟩
  rw [hout, gctr_fst, hmlen']
  simp only [Nat.zero_add]

/-- A record in either direction: the output is counter mode, and the tag is that of the ciphertext (R139, R140, R144). -/
theorem record_closedForm (d : List Byte) (ha : a.length < 2 ^ 64) (hd : d.length < 2 ^ 64) :
    let r := engPayload E dir (recordStart E e n a) d
    r.2 = (gctr E (inc32 (j0 e.h n)) d).1 ∧
      (engFinalize r.1).xi = recordTag E e.h n a (ciphertextOf dir d r.2) := by
  intro r
  obtain ⟨hout, hxi, hh⟩ := engPayload_recordStart E dir e n a d hd
  obtain ⟨-, -, hek0, hmlen, halen⟩ := recordStart_fields E e n a
  obtain ⟨hek0', halen', hmlen'⟩ := engPayload_counts E dir (recordStart E e n a) d
  have halen'' : r.1.alen.toNat = a.length := by
    rw [halen', halen, BitVec.toNat_ofNat, Nat.mod_eq_of_lt ha]
  have hclen : (ciphertextOf dir d r.2).length = d.length := by
    cases dir with
    | encrypt => exact length_engPayload ..
    | decrypt => rfl
  have hmlen'' : r.1.mlen.toNat = (ciphertextOf dir d r.2).length := by
    rw [hmlen', hmlen, BitVec.ofNat_eq_ofNat, BitVec.zero_add, BitVec.toNat_ofNat, Nat.mod_eq_of_lt hd, hclen]
  refine ⟨hout, ?_⟩
  rw [engFinalize_xi, hxi, hh, hek0', hek0, halen'', hmlen'', recordTag, ghash_record]

end

/-- Settles O37: the pieces count as their concatenation, in either direction the calls are the closed form, and counter
mode undoes itself. -/
theorem recordInPiecesIsTheClosedForm : Obligations.RecordInPiecesIsTheClosedForm := by
  intro E e n as ps hh has hps start run r
  have hstart : start = recordStart E e n as.flatten := foldl_engAad (engSetIv E e n) as
  have hrun (dir : CryptDir) (ds : List (List Byte)) :
      run dir ds = engPayload E dir (recordStart E e n as.flatten) ds.flatten :=
    hstart ▸ foldl_payloadCall E dir start ds []
  have ha : as.flatten.length < 2 ^ 64 := by omega
  obtain ⟨hclen, -, -, -, hundo⟩ := counterModeStream E (inc32 (j0 e.h n)) ps.flatten
  obtain ⟨hout, htag⟩ := record_closedForm E .encrypt e n as.flatten ps.flatten ha (by omega)
  have hr : r = ((gctr E (inc32 (j0 e.h n)) ps.flatten).1,
      recordTag E e.h n as.flatten (gctr E (inc32 (j0 e.h n)) ps.flatten).1) := by
    rw [hh]
    exact gcmRecord_eq E n as.flatten ps.flatten
  rw [hrun, hr]
  refine ⟨hout, htag.trans (congrArg _ hout), fun cs hcs => ?_⟩
  have hlen : cs.flatten.length < 2 ^ 64 := by
    rw [hcs, hclen]
    omega
  obtain ⟨hout', htag'⟩ := record_closedForm E .decrypt e n as.flatten cs.flatten ha hlen
  rw [hrun]
  exact ⟨by rw [hout', hcs, hundo], by rw [htag', ciphertextOf, hcs]⟩

end Sys2Proof.Machine
end

section
/-! PROOF. What a `SEAL` or `OPEN` leaves that fails a check (R163, R172, R257), and `CT_EQ` (R175). -/

namespace Sys2Proof.Machine

/-- Settles O49: the sum of the differences is 0 exactly when each difference is. -/
theorem constantTimeEqualityIsEquality : Obligations.ConstantTimeEqualityIsEquality := fun _ _ => ctEq_iff

/-- The memory after a failure of a `SEAL` or `OPEN`: unchanged, or the destination is zero (R69, R257). -/
theorem raise_clearPerf_eq_failed {s : State} {e : StatusCode} (hwf : s.mem.wf = true) (he : e ≠ .badCommand) :
    ∃ m, s.clearPerf.raise true e = { s.failed e with mem := m } ∧
      if e = .badAddress then m = s.mem else Stores s.mem m s.x.outp.toNat (zeros s.x.outmax.toNat) := by
  refine ⟨(s.clearPerf.raise true e).mem, rfl, ?_⟩
  rw [State.raise_mem]
  by_cases haddr : e = .badAddress
  · simp [haddr, zeroFills]
  · simpa [haddr, he, zeroFills] using stores_writeBytes s.mem s.x.outp.toNat (zeros s.x.outmax.toNat) hwf

/-- Settles O12: a code other than `ok` is raised, and `SEAL` raises no `E_BAD_COMMAND` on a slot. -/
theorem sealChecksInOrder : Obligations.SealChecksInOrder := by
  intro s c f hwf hc hcode
  obtain ⟨-, hne, he⟩ | ⟨_, hok, -⟩ := seal_cases s c f hc
  · obtain ⟨m, hm, hstores⟩ := raise_clearPerf_eq_failed hwf hne
    exact ⟨m, he.trans (congrArg _ hm), hstores⟩
  · exact absurd hok hcode

/-- Settles O13: the same of `OPEN`. -/
theorem openChecksInOrder : Obligations.OpenChecksInOrder := by
  intro s c f hwf hc hcode
  obtain ⟨-, hne, he⟩ | ⟨_, hok, -⟩ := open_cases s c f hc
  · obtain ⟨m, hm, hstores⟩ := raise_clearPerf_eq_failed hwf hne
    exact ⟨m, he.trans (congrArg _ hm), hstores⟩
  · exact absurd hok hcode
end Sys2Proof.Machine
end

section
/-! PROOF. `INIT` as one equation (R164): an illegal `OPENDIR`, a bound slot, or a scrubbed one with the code that
decides. -/

namespace Sys2Proof.Machine

/-- A list of checks by the code that decides (R163, R261). -/
theorem checked_code {dest : Bool} {cs : List (Bool × StatusCode)} {s : State} {go : State → Result} {e : StatusCode}
    (hcode : e = (firstFailing cs).getD .ok) (hok : firstFailing cs ≠ some .ok) :
    checked dest cs s go = if e = .ok then go s else .next (s.raise dest e) := by
  subst hcode
  cases hfirst : firstFailing cs with
  | none => rw [checked_none dest cs s go hfirst, Option.getD_none, if_pos rfl]
  | some e =>
    have hne : e ≠ .ok := fun he => hok (he ▸ hfirst)
    rw [checked_some dest cs s go e hfirst, Option.getD_some, if_neg hne]

/-- A tag length is refused when it is longer than the longest or, but for `GCM`, shorter; 0 asks for the longest
(R162). -/
theorem resolveTag_eq (d : Descriptor) (l : Word) : resolveTag d l.toNat =
    if l.toNat > d.maxTagLen ∨ (l ≠ 0 ∧ l.toNat ≠ d.maxTagLen ∧ isGcm d = false) then none
    else some (if l = 0 then d.maxTagLen else l.toNat) := by
  unfold resolveTag
  by_cases hzero : l = 0
  · simp [hzero]
  · have hpos : l.toNat ≠ 0 := fun h => hzero (BitVec.eq_of_toNat_eq h)
    rw [if_neg hpos, if_neg hzero]
    by_cases hlong : l.toNat > d.maxTagLen
    · rw [if_pos hlong, if_pos (.inl hlong)]
    · rw [if_neg hlong]
      by_cases hone : l.toNat = d.maxTagLen <;> cases hg : isGcm d <;> simp_all

/-- The checks of `INIT` once its word is legal (R164), in the order of R163. -/
def initChecks (x : Regs) (d : Descriptor) : List (Bool × StatusCode) :=
  [ (decide (x.keyl.toNat ≠ d.keyLen), .badKeyLength),
    ((resolveTag d x.tagl.toNat).isNone, .badTagLength),
    (!bufOk std x.keyp x.keyl, .badAddress) ]

/-- The code of `INIT` is that of its list of checks (R163). -/
theorem initCode_eq (x : Regs) (d : Descriptor) : initCode x d = (firstFailing (initChecks x d)).getD .ok := by
  have htag : (resolveTag d x.tagl.toNat).isNone = true ↔
      x.tagl.toNat > d.maxTagLen ∨ (x.tagl ≠ 0 ∧ x.tagl.toNat ≠ d.maxTagLen ∧ isGcm d = false) := by
    rw [resolveTag_eq]
    split <;> simp_all
  have haddr : (!bufOk std x.keyp x.keyl) = true ↔ ¬InRange x.keyp x.keyl := by
    rw [← bufOk_true, Bool.not_eq_true, Bool.not_eq_true']
  unfold initCode initChecks
  simp only [firstFailing_cons, getD_code, htag, haddr, decide_eq_true_eq]
  by_cases hlong : x.tagl.toNat > d.maxTagLen
  · simp only [hlong, true_or, if_true]
  · simp only [hlong, false_or, if_false]
    rfl

/-- No check of `INIT` raises `ok`. -/
theorem initChecks_ne_ok (x : Regs) (d : Descriptor) : firstFailing (initChecks x d) ≠ some .ok := by
  intro h
  have hmem := firstFailing_mem _ _ h
  simp [initChecks] at hmem

/-- The tag length that `INIT` binds when no check fails (R162, R164). -/
theorem resolveTag_getD_of_ok {x : Regs} {d : Descriptor} (h : initCode x d = .ok) :
    (resolveTag d x.tagl.toNat).getD 0 = if x.tagl = 0 then d.maxTagLen else x.tagl.toNat := by
  have hfirst : firstFailing (initChecks x d) = none := by
    cases hfirst : firstFailing (initChecks x d) with
    | none => rfl
    | some e =>
      rw [initCode_eq, hfirst] at h
      exact absurd (hfirst.trans (congrArg some h)) (initChecks_ne_ok x d)
  have htag := (firstFailing_none _).1 hfirst ((resolveTag d x.tagl.toNat).isNone, .badTagLength) (by simp [initChecks])
  rw [resolveTag_eq] at htag ⊢
  split at htag
  next => cases htag
  next hok => rw [if_neg hok, Option.getD_some]

/-- `INIT` on a slot and a descriptor: an illegal `OPENDIR`, a bound slot, or a scrubbed one and the code that decides
(R164). -/
theorem exec_init {c id : BitVec 8} {d : Descriptor} (s : State) (o : Bool) (hc : c.toNat < 8)
    (hd : descriptor std id = some d) :
    exec (.init c id o) s =
      if o = true ∧ (isGcm d = true ∨ isKeywrap d = true) then .next s.illegal
      else
        let u := { s with cap := s.latched }.clearPerf.setSlot c {}
        let t := (resolveTag d s.x.tagl.toNat).getD 0
        if initCode s.x d = .ok then
          .next ((u.setSlot c (initSlot std id d o t (selectImpl s.latched) (s.readBuf s.x.keyp s.x.keyl))).done 0)
        else .next (u.raise false (initCode s.x d)) := by
  have hslot : ¬std.nCtx ≤ c.toNat := Nat.not_le_of_lt hc
  simp only [exec, execInit, initOn, hd, hslot, false_or, latchCap_eq]
  exact if_congr Iff.rfl rfl (checked_code (initCode_eq s.x d) (initChecks_ne_ok s.x d))

/-- `dir` of a slot that `INIT` makes, in the terms of the statements (R85, R164). -/
theorem initDir_eq (d : Descriptor) (o : Bool) :
    initDir d o = if isGcm d = true ∨ isKeywrap d = true then .both else if o = true then .openOnly else .sealOnly := by
  rw [initDir]
  simp only [Bool.or_eq_true]

/-- A slot that was written in turn is the last one written, and every other slot is as before. -/
theorem SlotReplaced.of_setSlot {s t u : State} {c : BitVec 8} {sl sl' : Slot} (ht : t.ctx = (u.setSlot c sl').ctx)
    (hsl : sl' = sl) (hu : ∀ c', c' ≠ c → u.slot c' = s.slot c') : SlotReplaced s t c sl := by
  subst hsl
  refine ⟨?_, fun c' hne => ?_⟩
  · rw [State.slot_congr _ t ht, State.slot_setSlot_same]
  · rw [State.slot_congr _ t ht, State.slot_setSlot_ne u c c' _ hne, hu c' hne]

/-- Settles O39: the three branches of `INIT`; without a MAC key the cipher key is the whole key. -/
theorem initBindsTheSlot : Obligations.InitBindsTheSlot := by
  intro s c id o d hc hd both k new
  obtain ⟨⟨-, -, -, -, hfam⟩, -⟩ := descriptor_lawful hd
  have hscrub (c' : BitVec 8) (hne : c' ≠ c) :
      ({ s with cap := s.latched }.clearPerf.setSlot c {}).slot c' = s.slot c' := State.slot_setSlot_ne _ c c' {} hne
  rw [exec_init s o hc hd]
  refine ⟨fun hlegal hok => ?_, fun hlegal hok => ?_, fun ho hboth => if_pos ⟨ho, hboth⟩⟩
  · rw [if_neg hlegal]
    dsimp only
    rw [if_pos hok]
    refine ⟨_, rfl, rfl, .of_setSlot rfl ?_ hscrub⟩
    rw [resolveTag_getD_of_ok hok, initSlot, initPart, initDir_eq]
    cases hf : d.family <;> simp only [hf] at hfam ⊢
    case gcm | keywrap =>
      obtain ⟨hzero, -⟩ := hfam
      simp only [new, hzero]
      rfl
    case cbcTls | cbcSsl3 | stream => rfl
  · rw [if_neg hlegal]
    dsimp only
    rw [if_neg hok]
    exact ⟨_, rfl, rfl, .of_setSlot rfl rfl fun _ _ => rfl⟩
end Sys2Proof.Machine
end

section
/-! PROOF. What a `SEAL` or `OPEN` does whose checks pass (R167, R168), the lengths of a block-cipher legacy record
(R211, R212, R214), and the records too long for the check of R168 (log 24). -/

namespace Sys2Proof.Machine

/-! ## `SEAL` and `OPEN` when every check passes -/

section
variable {s : State} {c : BitVec 8} {f : Bool} {d : Descriptor}

/-- A slot is bound to one descriptor (R35). -/
theorem BoundTo.unique {d' : Descriptor} (h : BoundTo s c d) (h' : BoundTo s c d') : d' = d := by
  obtain ⟨-, -, hd⟩ := h
  obtain ⟨-, -, hd'⟩ := h'
  exact Option.some.inj (hd'.symm.trans hd)

/-- The nonce of a `SEAL`: the slot's with `FIXEDIV`, otherwise the one at `NONP` (R167, R197). -/
def sealNonce (s : State) (c : BitVec 8) (f : Bool) : List Byte :=
  if f then fixedNonce (s.slot c) else s.readBuf s.x.nonp s.x.nonl

/-- The nonce of an `OPEN`: with `FIXEDIV` the slot's fixed part comes first (R168, R198). -/
def openNonce (s : State) (c : BitVec 8) (f : Bool) : List Byte :=
  if f then fixedPart (s.slot c) ++ s.readBuf s.x.nonp s.x.nonl else s.readBuf s.x.nonp s.x.nonl

/-- The family's part of a `SEAL` on the buffers of a state (R167). -/
def sealed (s : State) (c : BitVec 8) (f : Bool) (d : Descriptor) : List Byte × Slot :=
  sealPart std d (s.slot c) (sealNonce s c f) (s.readBuf s.x.adp s.x.adl) (s.readBuf s.x.inp s.x.inl)

/-- The family's part of an `OPEN` on the buffers of a state (R168). -/
def opened (s : State) (c : BitVec 8) (f : Bool) (d : Descriptor) : Opened :=
  openPart std d (s.slot c) (openNonce s c f) (s.readBuf s.x.adp s.x.adl) (s.readBuf s.x.inp s.x.inl)

/-- A `SEAL` whose checks pass and whose buffers are apart as R68 asks (R167). -/
theorem exec_seal_of_ok (hd : BoundTo s c d) (hcode : sealCode s c f = .ok) (hsep : Separate s.x)
    (hnonce : f = true → NonceOutSeparate s.x) :
    firstFailing (sealChecks std s.x (s.slot c) d f) = none ∧
      exec (.seal_ c f) s =
        .next ((sealFixed c (sealed s c f d).2 f (s.clearPerf.writeBuf s.x.outp (sealed s c f d).1)).done
          (sealed s c f d).1.length) := by
  obtain ⟨hne, -⟩ | ⟨d', -, hd', -, hchecks, he⟩ := seal_cases s c f hd.1
  · exact absurd hcode hne
  · obtain rfl := hd.unique hd'
    have hapart : (destOverlap s.x || (f && nonceOutOverlap s.x)) = false := by
      rw [destOverlap_eq, nonceOutOverlap_eq]
      cases f <;> simp_all
    rw [hapart, if_neg Bool.false_ne_true] at he
    exact ⟨hchecks, he⟩

/-- An `OPEN` whose checks pass and whose buffers are apart as R68 asks (R168). -/
theorem exec_open_of_ok (hd : BoundTo s c d) (hcode : openCode s c f = .ok) (hsep : Separate s.x) :
    firstFailing (openChecks std s.x (s.slot c) d f) = none ∧
      exec (.open_ c f) s = .next (openFinish std c (opened s c f d) s.clearPerf) := by
  obtain ⟨hne, -⟩ | ⟨d', -, hd', -, hchecks, he⟩ := open_cases s c f hd.1
  · exact absurd hcode hne
  · obtain rfl := hd.unique hd'
    have hapart : destOverlap s.x = false := by
      rw [destOverlap_eq]
      exact decide_eq_false (not_not.2 hsep)
    rw [hapart, if_neg Bool.false_ne_true] at he
    exact ⟨hchecks, he⟩

/-- The length checks of a `SEAL` that passes (R167). -/
theorem seal_lengths (h : firstFailing (sealChecks std s.x (s.slot c) d f) = none) :
    s.x.inl.toNat ≤ plaintextLimit d ∧ s.x.inl.toNat + d.overhead < 2 ^ 64 ∧
      (isKeywrap d = true → s.x.inl.toNat % 8 = 0) := by
  have hmem := (firstFailing_none _).1 h
  have hlimit := hmem (decide (s.x.inl.toNat > limitPt std d), .tooLarge) (by simp [sealChecks])
  have hout := hmem (decide (s.x.inl.toNat + d.overhead ≥ 2 ^ std.xlen), .tooLarge) (by simp [sealChecks])
  have hkw := hmem (isKeywrap d && (decide (s.x.inl.toNat % 8 ≠ 0) || decide (s.x.inl.toNat < 16)), .badInputLength)
    (by simp [sealChecks])
  rw [limitPt_eq] at hlimit
  rw [std_xlen] at hout
  refine ⟨Nat.le_of_not_lt (of_decide_eq_false hlimit), Nat.lt_of_not_le (of_decide_eq_false hout), fun hk => ?_⟩
  rw [hk, Bool.true_and, Bool.or_eq_false_iff] at hkw
  exact not_not.1 (of_decide_eq_false hkw.1)

end

/-! ## The padding -/

/-- A block-cipher legacy record has from 1 to a block of padding, up to whole blocks (R211, R212). -/
theorem padLen_bounds (ml n : Nat) {b : Nat} (hb : 0 < b) :
    1 ≤ padLen ml b n ∧ padLen ml b n ≤ b ∧ (n + ml + padLen ml b n) % b = 0 := by
  have hlt := Nat.mod_lt (n + ml) hb
  refine ⟨by unfold padLen; omega, by unfold padLen; omega, ?_⟩
  have hsum : n + ml + padLen ml b n = b * ((n + ml) / b + 1) := by
    have hdiv := Nat.div_add_mod (n + ml) b
    rw [padLen, Nat.mul_add, Nat.mul_one]
    omega
  rw [hsum, Nat.mul_mod_right]

@[simp] theorem length_padBytesTls (ml b n : Nat) : (padBytesTls ml b n).length = padLen ml b n := List.length_replicate

theorem length_padBytesSsl3 (ml n : Nat) {b : Nat} (hb : 0 < b) : (padBytesSsl3 ml b n).length = padLen ml b n := by
  obtain ⟨hpos, -⟩ := padLen_bounds ml n hb
  rw [padBytesSsl3, List.length_append, length_zeros, List.length_singleton]
  omega

@[simp] theorem length_recMac (κ : Cfg) (m : MacName) (sl : Slot) (a p : List Byte) :
    (recMac κ m sl a p).length = κ.macLen m := Vector.length_toList

/-- A record with its padding is whole blocks (R212, R214). -/
theorem length_cbcPlain {κ : Cfg} {m : MacName} {sl : Slot} {a p padding : List Byte}
    (hpad : padding.length = padLen (κ.macLen m) 16 p.length) :
    (p ++ recMac κ m sl a p ++ padding).length % 16 = 0 := by
  rw [List.length_append, List.length_append, length_recMac, hpad]
  exact (padLen_bounds (κ.macLen m) p.length (by decide)).2.2

/-- The length of a sealed record of a block-cipher legacy family (R212, R214). -/
theorem length_cbcSeal {κ : Cfg} {bc : BcName} {m : MacName} {sl : Slot} {n a p padding : List Byte}
    (hpad : padding.length = padLen (κ.macLen m) 16 p.length) :
    (cbcSeal κ bc m sl n a p padding).length = p.length + κ.macLen m + padLen (κ.macLen m) 16 p.length := by
  rw [cbcSeal, length_cbcEnc _ _ _ (length_cbcPlain hpad), List.length_append, List.length_append, length_recMac, hpad]

/-! ## The largest records -/

/-- The block-cipher legacy descriptors of the table (R30). -/
theorem descriptor_cbc {id : BitVec 8} {d : Descriptor} {bc : BcName} {m : MacName} {b : Nat}
    (hd : descriptor std id = some d) (hf : d.family = .cbcTls bc m b ∨ d.family = .cbcSsl3 bc m b) :
    b = 16 ∧ Config.macLen m = 20 ∧ d.nonceLen = 16 ∧ plaintextLimit d = 65535 := by
  have hmem : d ∈ defaultTable := List.mem_of_getElem? hd
  simp only [defaultTable, List.mem_cons, List.not_mem_nil, or_false] at hmem
  obtain rfl | rfl | rfl | rfl | rfl | rfl | rfl | rfl := hmem <;> simp at hf
  all_goals
    obtain ⟨rfl, rfl, rfl⟩ := hf
    simp [Config.macLen, plaintextLimit, isGcm, isKeywrap]

/-- A record of 65568 bytes is longer than `OPEN` takes, by the check of R168 (log 24). -/
theorem openCode_cbc_tooLarge {s : State} {c : BitVec 8} {d : Descriptor} {bc : BcName} {m : MacName} {b : Nat}
    (hd : BoundTo s c d) (hf : d.family = .cbcTls bc m b ∨ d.family = .cbcSsl3 bc m b)
    (hdir : (s.slot c).dir = .openOnly) (hbufs : BufsInRange s.x) (hnonl : s.x.nonl = 16)
    (hadl : d.adLen = some s.x.adl.toNat) (hinl : s.x.inl = 65568) : openCode s c false = .tooLarge := by
  obtain ⟨-, hlive, hdesc⟩ := hd
  obtain ⟨rfl, hmac, hnonce, hlimit⟩ := descriptor_cbc hdesc hf
  have hshape : openShape d (s.slot c) s.x.inl.toNat = ⟨21, true, 21, 65568⟩ := by
    obtain hf | hf := hf <;> simp [openShape, hf, hmac, hinl]
  have hkeywrap : isKeywrap d = false := by
    obtain hf | hf := hf <;> rw [isKeywrap, hf]
  have hnonce' : nonceRefused d s.x.nonl.toNat false = false := by simp [nonceRefused, hkeywrap, hnonce, hnonl]
  have had : adRefused d s.x.adl.toNat = false := by simp [adRefused, hadl]
  rw [openCode, if_neg (not_not.2 hbufs), hdesc]
  simp only [hshape]
  simp [hlive, hdir, hnonce', had, hlimit, hinl]

/-- Settles O53: 65535 bytes, a MAC of 20 and 13 of padding; `OPEN` takes 21 from the 65568 and finds more than
65535. -/
theorem largestCbcRecordDoesNotOpen : Obligations.LargestCbcRecordDoesNotOpen := by
  intro s c d bc m b hwf hd hf
  obtain ⟨rfl, hmac, hnonce, hlimit⟩ := descriptor_cbc hd.2.2 hf
  refine ⟨fun hcode hsep hinl => ?_, fun hdir hbufs hnonl hadl hinl => ?_⟩
  · obtain ⟨-, he⟩ := exec_seal_of_ok hd hcode hsep nofun
    have hlen : (sealed s c false d).1.length = 65568 := by
      have hp : (s.readBuf s.x.inp s.x.inl).length = 65535 := by rw [State.length_readBuf, hinl]; rfl
      obtain hf | hf := hf
      · simp only [sealed, sealPart, hf]
        rw [length_cbcSeal (length_padBytesTls _ _ _), hp]
        simp [std, hmac, padLen]
      · simp only [sealed, sealPart, hf]
        rw [length_cbcSeal (length_padBytesSsl3 _ _ (by decide)), hp]
        simp [std, hmac, padLen]
    rw [hlen] at he
    exact ⟨_, he, rfl, rfl⟩
  · have hcode := openCode_cbc_tooLarge hd hf hdir hbufs hnonl hadl hinl
    obtain ⟨-, -, he⟩ | ⟨_, hok, -⟩ := open_cases s c false hd.1
    · rw [hcode] at he
      exact ⟨_, he, rfl⟩
    · exact nomatch hcode.symm.trans hok
end Sys2Proof.Machine
end

section
/-! PROOF. What an `OPEN` shows of its record (R173, R222): its code by the checks, its counters and, on failure,
`OUTLEN` and the destination depend on public values alone. -/

namespace Sys2Proof.Machine

/-! ## The end of an `OPEN` -/

section
variable {κ : Cfg} {c : BitVec 8} {r : Opened} {s : State}

/-- An `OPEN` of a bad record (R168, R172). -/
theorem openFinish_of_none (h : r.plain = none) :
    openFinish κ c r s = ((s.setSlot c r.slot).setPerf r.perf).raise true .decrypt := by
  unfold openFinish
  rw [h]

/-- An `OPEN` of a good record: the plaintext, and free bytes after it (R168, UD5). -/
theorem openFinish_of_some {p : List Byte} (h : r.plain = some p) :
    openFinish κ c r s =
      ({ (s.setSlot c r.slot).setPerf r.perf with freeCount := s.freeCount + (r.reach - p.length) }.writeBuf s.x.outp
        (p ++ freeBytes κ s.freeCount (r.reach - p.length))).done p.length := by
  unfold openFinish
  rw [h]
  rfl

/-- The counters after an `OPEN`, whether the record is good or not (R222). -/
theorem openFinish_perf : ((openFinish κ c r s).perfCompress, (openFinish κ c r s).perfMemacc) = r.perf := by
  unfold openFinish
  split <;> rfl

end

/-- The counters of the family's part depend on the descriptor and the lengths alone (R222). -/
theorem openPart_perf_congr (κ : Cfg) (d : Descriptor) (sl sl' : Slot) (n n' : List Byte) {a a' p p' : List Byte}
    (ha : a.length = a'.length) (hp : p.length = p'.length) :
    (openPart κ d sl n a p).perf = (openPart κ d sl' n' a' p').perf := by
  unfold openPart
  split <;> simp only [ha, hp]

/-! ## The code -/

/-- The shape of a record depends on the slot's tag length alone (R168). -/
theorem openShape_congr (d : Descriptor) {sl sl' : Slot} (h : sl.tagLen = sl'.tagLen) (l : Nat) :
    openShape d sl l = openShape d sl' l := by
  unfold openShape
  rw [h]

/-- The public fields of a slot that the checks read (R28). -/
theorem Slot.public_of_erase_eq {sl sl' : Slot} (h : sl.erase = sl'.erase) :
    sl.live = sl'.live ∧ sl.desc = sl'.desc ∧ sl.dir = sl'.dir ∧ sl.tagLen = sl'.tagLen ∧
      sl.ivFixedSet = sl'.ivFixedSet :=
  ⟨(congrArg Slot.live h :), (congrArg Slot.desc h :), (congrArg Slot.dir h :), (congrArg Slot.tagLen h :),
    (congrArg Slot.ivFixedSet h :)⟩

/-- The code by the checks depends on the registers and the public fields of the slot alone (R173). -/
theorem openCode_congr {s s' : State} {c : BitVec 8} (f : Bool) (hx : s.x = s'.x)
    (hsl : (s.slot c).erase = (s'.slot c).erase) : openCode s c f = openCode s' c f := by
  obtain ⟨hlive, hdesc, hdir, htag, hset⟩ := Slot.public_of_erase_eq hsl
  unfold openCode
  simp only [hx, hlive, hdesc, hdir, hset, openShape_congr _ htag]

/-! ## What is seen of an outcome -/

/-- A state in which the counters are `perf` and the status is one of `codes`, and `E_DECRYPT` comes with `OUTLEN` 0
and a destination of zeros (R172, R173). -/
structure Shows (x : Regs) (perf : Word × Word) (codes : BitVec 8 → Prop) (t : State) : Prop where
  counters : (t.perfCompress, t.perfMemacc) = perf
  status : codes t.status
  failure : t.status = 12 → t.outlen = 0 ∧ t.readBuf x.outp x.outmax = zeros x.outmax.toNat

/-- Two states that show the same counters agree in them, and in what an `E_DECRYPT` leaves. -/
theorem Shows.alike {x : Regs} {perf : Word × Word} {codes : BitVec 8 → Prop} {t t' : State} (h : Shows x perf codes t)
    (h' : Shows x perf codes t') :
    t.perfCompress = t'.perfCompress ∧ t.perfMemacc = t'.perfMemacc ∧
      (t.status = 12 → t'.status = 12 →
        t.outlen = t'.outlen ∧ t.readBuf x.outp x.outmax = t'.readBuf x.outp x.outmax) := by
  obtain ⟨hcompress, hmemacc⟩ := Prod.mk.inj (h.counters.trans h'.counters.symm)
  refine ⟨hcompress, hmemacc, fun h12 h12' => ?_⟩
  obtain ⟨hlen, hdest⟩ := h.failure h12
  obtain ⟨hlen', hdest'⟩ := h'.failure h12'
  exact ⟨hlen.trans hlen'.symm, hdest.trans hdest'.symm⟩

/-- A failure shows its code (R257, R69). -/
theorem raise_shows {s : State} (hwf : s.mem.wf = true) (e : StatusCode) :
    Shows s.x (s.perfCompress, s.perfMemacc) (· = e.code) (s.raise true e) := by
  refine ⟨rfl, rfl, fun h12 => ⟨rfl, ?_⟩⟩
  have hdecrypt : e = .decrypt := by
    have hcode : ∀ e : StatusCode, e.code = 12 → e = .decrypt := by rintro ⟨⟩ <;> decide
    exact hcode e h12
  have hread := Memory.readBytes_writeBytes s.mem s.x.outp.toNat (zeros s.x.outmax.toNat) hwf
  rw [length_zeros] at hread
  rw [State.readBuf, State.raise_mem, hdecrypt]
  exact hread

/-- The end of an `OPEN` shows whether the record is good (R168, R173). -/
theorem openFinish_shows (κ : Cfg) {s : State} (hwf : s.mem.wf = true) (c : BitVec 8) (r : Opened) :
    Shows s.x r.perf (fun q => q = 0 ∨ q = 12) (openFinish κ c r s) := by
  cases h : r.plain with
  | none =>
    have hraise := raise_shows (s := (s.setSlot c r.slot).setPerf r.perf) hwf .decrypt
    rw [openFinish_of_none h]
    exact ⟨hraise.counters, .inr rfl, hraise.failure⟩
  | some p =>
    have hok : (openFinish κ c r s).status = 0 := by rw [openFinish_of_some h, State.done_status]
    exact ⟨openFinish_perf, .inl hok, fun h12 => nomatch hok.symm.trans h12⟩

/-- An `OPEN` shows the code of the first failing check, or of a record that reached the construction whether it is
good (R173, R222). -/
theorem exec_open_shows {s t : State} {c : BitVec 8} {f : Bool} (hc : c.toNat < 8) (hwf : s.mem.wf = true)
    (h : exec (.open_ c f) s = .next t) :
    (openCode s c f ≠ .ok ∧ Shows s.x (0, 0) (· = (openCode s c f).code) t) ∨
    (openCode s c f = .ok ∧ ∃ d, descriptor std (s.slot c).desc = some d ∧
      Shows s.x (opened s c f d).perf (fun q => q = 0 ∨ q = 12) t) := by
  obtain ⟨hne, -, he⟩ | ⟨d, hok, ⟨-, -, hd⟩, -, -, he⟩ := open_cases s c f hc
  · cases h.symm.trans he
    exact .inl ⟨hne, raise_shows (s := s.clearPerf) hwf _⟩
  · have he' := h.symm.trans he
    split at he'
    · cases he'
    · cases he'
      exact .inr ⟨hok, d, hd, openFinish_shows std (s := s.clearPerf) hwf c (opened s c f d)⟩

/-- Settles O54: the code by the checks is the same in both states, and so are the counters; a code other than `ok`
shows nothing more, and a record that reached the construction shows `OK` or `E_DECRYPT`. -/
theorem openRevealsOneBit : Obligations.OpenRevealsOneBit := by
  intro s s' t t' c f hc hwf hwf' hx hsl ht ht'
  have hcode := openCode_congr f hx hsl
  obtain ⟨-, hdesc, -⟩ := Slot.public_of_erase_eq hsl
  obtain ⟨hne, h⟩ | ⟨hok, d, hd, h⟩ := exec_open_shows hc hwf ht <;>
    obtain ⟨hne', h'⟩ | ⟨hok', d', hd', h'⟩ := exec_open_shows hc hwf' ht'
  · rw [hcode] at h
    obtain ⟨hcompress, hmemacc, hfailure⟩ := h.alike (hx ▸ h')
    exact ⟨hcompress, hmemacc, .inl (h.status.trans h'.status.symm), hfailure⟩
  · exact absurd (hcode.trans hok') hne
  · exact absurd (hcode.symm.trans hok) hne'
  · obtain rfl : d = d' := Option.some.inj (hd.symm.trans ((congrArg _ hdesc).trans hd'))
    have hperf : (opened s c f d).perf = (opened s' c f d).perf :=
      openPart_perf_congr std d _ _ _ _ (by simp [hx]) (by simp [hx])
    rw [hperf] at h
    obtain ⟨hcompress, hmemacc, hfailure⟩ := h.alike (hx ▸ h')
    refine ⟨hcompress, hmemacc, ?_, hfailure⟩
    obtain h0 | h12 := h.status <;> obtain h0' | h12' := h'.status
    · exact .inl (h0.trans h0'.symm)
    · exact .inr (.inl ⟨h0, h12'⟩)
    · exact .inr (.inr ⟨h12, h0'⟩)
    · exact .inl (h12.trans h12'.symm)

end Sys2Proof.Machine
end

section
/-! PROOF. Unwrapping undoes wrapping (R243, R244): round by round, last block first. -/

namespace Sys2Proof.Machine

/-! ## Semiblocks -/

@[simp] theorem length_semiBytes (x : Semiblock) : (semiBytes x).length = 8 := length_be _ _

/-- The bytes of the semiblock of 8 bytes. -/
theorem semiBytes_semiOf {b : List Byte} (h : b.length = 8) : semiBytes (semiOf b) = b := by
  have hlt : unbe b < 2 ^ 64 := by
    have := unbe_lt b
    rwa [h] at this
  rw [semiBytes, semiOf, BitVec.toNat_ofNat, Nat.mod_eq_of_lt hlt, ← h, be_unbe]

theorem length_flatMap_semiBytes (xs : List Semiblock) : (xs.flatMap semiBytes).length = 8 * xs.length := by
  induction xs with
  | nil => rfl
  | cons x xs ih =>
    rw [List.flatMap_cons, List.length_append, length_semiBytes, ih, List.length_cons]
    omega

/-- The semiblocks of a string that begins with one. -/
theorem semiblocks_append {b : List Byte} (h : b.length = 8) (rest : List Byte) :
    semiblocks (b ++ rest) = semiOf b :: semiblocks rest := by
  have hcount : ((b ++ rest).length + (8 - 1)) / 8 = (rest.length + (8 - 1)) / 8 + 1 := by
    rw [List.length_append, h]
    omega
  rw [semiblocks, chunks, hcount, pieces, List.take_left' h, List.drop_left' h, List.map_cons]
  rfl

/-- The semiblocks of the bytes of semiblocks. -/
theorem semiblocks_flatMap_semiBytes (xs : List Semiblock) : semiblocks (xs.flatMap semiBytes) = xs := by
  induction xs with
  | nil => rfl
  | cons x xs ih => rw [List.flatMap_cons, semiblocks_append (length_semiBytes x), ih, semiOf_semiBytes]

/-- The bytes of the semiblocks of a string of whole semiblocks. -/
theorem flatMap_semiBytes_semiblocks {d : List Byte} (h : d.length % 8 = 0) : (semiblocks d).flatMap semiBytes = d := by
  obtain ⟨n, hn⟩ : ∃ n, d.length = 8 * n := ⟨d.length / 8, by omega⟩
  clear h
  induction n generalizing d with
  | zero => rw [List.eq_nil_of_length_eq_zero hn]; rfl
  | succ n ih =>
    have hfirst : (d.take 8).length = 8 := by rw [List.length_take]; omega
    have hrest : (d.drop 8).length = 8 * n := by rw [List.length_drop]; omega
    have hcut := semiblocks_append hfirst (d.drop 8)
    rw [List.take_append_drop] at hcut
    rw [hcut, List.flatMap_cons, semiBytes_semiOf hfirst, ih hrest, List.take_append_drop]

/-! ## The rounds -/

@[simp] theorem length_kwWrapRound (E : Block → Block) (n j i : Nat) (a : Semiblock) (rs : List Semiblock) :
    (kwWrapRound E n j i a rs).2.length = rs.length := by
  induction rs generalizing i a with
  | nil => rfl
  | cons r rs ih => simp only [kwWrapRound, List.length_cons, ih]

/-- One round is undone by the round in reverse order (R243, R244). -/
theorem kwUnwrapRound_kwWrapRound (π : Equiv.Perm Block) (n j i : Nat) (a : Semiblock) (rs : List Semiblock) :
    kwUnwrapRound π.symm n j i (kwWrapRound π n j i a rs).1 (kwWrapRound π n j i a rs).2 = (a, rs) := by
  induction rs generalizing i a with
  | nil => rfl
  | cons r rs ih =>
    have hblock (b : Block) (t : Semiblock) :
        (b.extractLsb' 64 64 ^^^ t ^^^ t) ++ b.extractLsb' 0 64 = b := by
      rw [BitVec.xor_assoc, BitVec.xor_self, BitVec.xor_zero]
      exact BitVec.extractLsb'_append_extractLsb'_eq_extractLsb' rfl |>.trans BitVec.extractLsb'_eq_self
    simp only [kwWrapRound, kwUnwrapRound, ih, hblock, Equiv.symm_apply_apply]
    rw [BitVec.extractLsb'_append_eq_left, BitVec.extractLsb'_append_eq_right]

/-- The rounds are undone by the rounds in reverse order. -/
theorem foldl_kwUnwrapRound (π : Equiv.Perm Block) (n : Nat) (js : List Nat) (st : Semiblock × List Semiblock) :
    js.reverse.foldl (fun p j => kwUnwrapRound π.symm n j 1 p.1 p.2)
      (js.foldl (fun p j => kwWrapRound π n j 1 p.1 p.2) st) = st := by
  induction js generalizing st with
  | nil => rfl
  | cons j js ih =>
    rw [List.foldl_cons, List.reverse_cons, List.foldl_append, ih, List.foldl_cons, List.foldl_nil,
      kwUnwrapRound_kwWrapRound]

theorem length_kwWrapRounds (E : Block → Block) (n : Nat) (st : Semiblock × List Semiblock) :
    (kwWrapRounds E n st).2.length = st.2.length := by
  unfold kwWrapRounds
  induction List.range 6 generalizing st with
  | nil => rfl
  | cons j js ih => rw [List.foldl_cons, ih, length_kwWrapRound]

/-! ## Wrapping and unwrapping -/

/-- A wrapped key is a semiblock longer (R243). -/
theorem length_kwWrap (E : Block → Block) (iv : Semiblock) {p : List Byte} (hp : p.length % 8 = 0) :
    (kwWrap E iv p).length = p.length + 8 := by
  have hlen : 8 * (semiblocks p).length = p.length := by
    rw [← length_flatMap_semiBytes, flatMap_semiBytes_semiblocks hp]
  simp only [kwWrap, List.length_append, length_semiBytes, length_flatMap_semiBytes, length_kwWrapRounds, hlen]
  omega

/-- Unwrapping a wrapped key under its initial value, and under another (R243, R244). -/
theorem kwUnwrap_kwWrap (π : Equiv.Perm Block) (iv iv' : Semiblock) {p : List Byte} (hp : p.length % 8 = 0) :
    kwUnwrap π.symm iv' (kwWrap π iv p) = if iv = iv' then some p else none := by
  have hrounds : kwUnwrapRounds π.symm (semiblocks p).length (kwWrapRounds π (semiblocks p).length (iv, semiblocks p)) =
      (iv, semiblocks p) := foldl_kwUnwrapRound π _ (List.range 6) _
  have heq : ctEq (semiBytes iv) (semiBytes iv') = true ↔ iv = iv' := by
    rw [ctEq_iff (by rw [length_semiBytes, length_semiBytes])]
    exact ⟨fun h => by rw [← semiOf_semiBytes iv, h, semiOf_semiBytes], congrArg _⟩
  simp only [kwUnwrap, kwWrap, List.take_left' (length_semiBytes _), List.drop_left' (length_semiBytes _),
    semiblocks_flatMap_semiBytes, semiOf_semiBytes, length_kwWrapRounds, hrounds, heq, flatMap_semiBytes_semiblocks hp]

end Sys2Proof.Machine
end

section
/-! PROOF. Removing the padding of a record of a block-cipher legacy family gives the record back (R211, R217, R218),
and each family's open part gives back what its seal part made (R174, R192, R219, R225, R246). -/

namespace Sys2Proof.Machine

/-! ## Padding removal -/

/-- A conjunction collected over a list. -/
theorem foldl_and_eq {α : Type} (P : α → Bool) (xs : List α) (g : Bool) :
    xs.foldl (fun g x => g && P x) g = (g && xs.all P) := by
  induction xs generalizing g with
  | nil => rw [List.foldl_nil, List.all_nil, Bool.and_true]
  | cons x xs ih => rw [List.foldl_cons, ih, List.all_cons, Bool.and_assoc]

/-- When `PAD_TLS` finds valid padding: it fits, and the last bytes are all the padding-length byte (R217). -/
theorem padTls_fst_iff (ml : Nat) (d : List Byte) :
    (padTls ml d).1 = true ↔ ml + 1 + (padByte d).toNat ≤ d.length ∧
      ∀ i (h : i < d.reverse.length), i ≤ (padByte d).toNat → d.reverse[i] = padByte d := by
  have hbyte := (padByte d).isLt
  simp only [padTls, foldl_and_eq, Bool.and_eq_true, decide_eq_true_eq, List.all_eq_true]
  refine and_congr_right fun _ => ⟨fun h i hi hle => ?_, fun h q hq => ?_⟩
  · have hmem : (d.reverse[i], i) ∈ (d.reverse.take 256).zipIdx := by
      rw [List.mk_mem_zipIdx_iff_getElem?, List.getElem?_take_of_lt (by omega), List.getElem?_eq_getElem hi]
    simpa [hle] using h _ hmem
  · obtain ⟨b, i⟩ := q
    rw [List.mk_mem_zipIdx_iff_getElem?] at hq
    obtain ⟨hi, rfl⟩ := List.getElem?_eq_some_iff.1 hq
    rw [List.length_take] at hi
    rw [List.getElem_take]
    by_cases hle : i ≤ (padByte d).toNat
    · simp [h i (by omega) hle]
    · simp [hle]

/-- The padding-length byte of a record that ends with its padding, of at most a block of 16 bytes (R211). -/
theorem toNat_padLengthByte {q : Nat} (hpos : 1 ≤ q) (hle : q ≤ 16) : (BitVec.ofNat 8 (q - 1)).toNat + 1 = q := by
  rw [BitVec.toNat_ofNat, Nat.mod_eq_of_lt (by omega)]
  omega

/-- The content of a record with valid padding (R217, R218). -/
theorem contentLen_of_good {ml n q : Nat} {d : List Byte} (hbyte : (padByte d).toNat + 1 = q)
    (hlen : d.length = n + ml + q) : contentLen ml d true = n := by
  rw [contentLen, if_pos rfl, hbyte, hlen]
  omega

theorem padByte_append_singleton (d : List Byte) (b : Byte) : padByte (d ++ [b]) = b := List.getLastD_concat

/-- Removing the padding of `CBC_TLS` (R211, R217). -/
theorem padTls_padBytesTls (ml : Nat) {r : List Byte} (n : Nat) (hr : r.length = n + ml) :
    padTls ml (r ++ padBytesTls ml 16 n) = (true, n) := by
  obtain ⟨hpos, hle, -⟩ := padLen_bounds ml n (b := 16) (by decide)
  have hbyte : padByte (r ++ padBytesTls ml 16 n) = BitVec.ofNat 8 (padLen ml 16 n - 1) := by
    obtain ⟨k, hk⟩ := Nat.exists_eq_add_of_le' hpos
    rw [padBytesTls, hk, List.replicate_succ', ← List.append_assoc, padByte_append_singleton]
  have hcount := toNat_padLengthByte hpos hle
  have hlen : (r ++ padBytesTls ml 16 n).length = n + ml + padLen ml 16 n := by
    rw [List.length_append, length_padBytesTls, hr]
  have hgood : (padTls ml (r ++ padBytesTls ml 16 n)).1 = true := by
    rw [padTls_fst_iff, hbyte, hlen]
    refine ⟨by omega, fun i hi hile => ?_⟩
    simp only [List.reverse_append]
    rw [List.getElem_append_left (by simp; omega)]
    simp [padBytesTls]
  have hcontent : (padTls ml (r ++ padBytesTls ml 16 n)).2 = n :=
    (congrArg (contentLen ml _) hgood).trans (contentLen_of_good (hbyte ▸ hcount) hlen)
  exact Prod.ext hgood hcontent

/-- Removing the padding of `CBC_SSL3` (R211, R218). -/
theorem padSsl3_padBytesSsl3 (ml : Nat) {r : List Byte} (n : Nat) (hr : r.length = n + ml) :
    padSsl3 ml 16 (r ++ padBytesSsl3 ml 16 n) = (true, n) := by
  obtain ⟨hpos, hle, -⟩ := padLen_bounds ml n (b := 16) (by decide)
  have hbyte : padByte (r ++ padBytesSsl3 ml 16 n) = BitVec.ofNat 8 (padLen ml 16 n - 1) := by
    rw [padBytesSsl3, ← List.append_assoc, padByte_append_singleton]
  have hcount := toNat_padLengthByte hpos hle
  have hlen : (r ++ padBytesSsl3 ml 16 n).length = n + ml + padLen ml 16 n := by
    rw [List.length_append, length_padBytesSsl3 ml n (by decide), hr]
  have hgood : (padSsl3 ml 16 (r ++ padBytesSsl3 ml 16 n)).1 = true := by
    simp only [padSsl3, Bool.and_eq_true, decide_eq_true_eq]
    rw [hbyte, hlen]
    omega
  have hcontent : (padSsl3 ml 16 (r ++ padBytesSsl3 ml 16 n)).2 = n :=
    (congrArg (contentLen ml _) hgood).trans (contentLen_of_good (hbyte ▸ hcount) hlen)
  exact Prod.ext hgood hcontent

/-! ## `GCM` -/

/-- The seal part of `GCM` in closed form (R191, R144). -/
theorem gcmSeal_eq (κ : Cfg) (bc : BcName) (sl : Slot) {n a p : List Byte} (ha : a.length < 2 ^ 64)
    (hp : p.length < 2 ^ 64) :
    let E := κ.bc bc sl.encKey
    let c := (gctr E (inc32 (j0 sl.h n)) p).1
    gcmSeal κ bc sl n a p = c ++ (blockBytes (recordTag E sl.h n a c)).take sl.tagLen.toNat := by
  obtain ⟨hout, htag⟩ := record_closedForm (κ.bc bc sl.encKey) .encrypt (workingCopy sl) n a p ha hp
  exact congrArg₂ (· ++ ·) hout (congrArg (fun x => (blockBytes x).take sl.tagLen.toNat)
    (htag.trans (congrArg (recordTag _ _ n a) hout)))

/-- The open part of `GCM` in closed form (R192, R144). -/
theorem gcmOpen_eq (κ : Cfg) (bc : BcName) (sl : Slot) {n a z : List Byte} (ha : a.length < 2 ^ 64)
    (hz : z.length < 2 ^ 64) (ht : sl.tagLen.toNat ≤ 16) (htz : sl.tagLen.toNat ≤ z.length) :
    let E := κ.bc bc sl.encKey
    let k := z.length - sl.tagLen.toNat
    gcmOpen κ bc sl n a z =
      if (blockBytes (recordTag E sl.h n a (z.take k))).take sl.tagLen.toNat = z.drop k then
        some (gctr E (inc32 (j0 sl.h n)) (z.take k)).1
      else none := by
  intro E k
  have hk : (z.take k).length < 2 ^ 64 := by
    rw [List.length_take]
    omega
  obtain ⟨hout, htag⟩ := record_closedForm E .decrypt (workingCopy sl) n a (z.take k) ha hk
  have hlen (x : Block) : ((blockBytes x).take sl.tagLen.toNat).length = (z.drop k).length := by
    rw [List.length_take, length_blockBytes, List.length_drop]
    omega
  have htag' : _ = recordTag E sl.h n a (z.take k) := htag
  rw [← htag']
  exact if_congr (ctEq_iff (hlen _)) (congrArg some hout) rfl

/-- A sealed `GCM` record opens (R191, R192, R176). -/
theorem gcmOpen_gcmSeal (κ : Cfg) (bc : BcName) {sl sl' : Slot} {n a p : List Byte} (hkey : sl'.encKey = sl.encKey)
    (hh : sl'.h = sl.h) (htag : sl'.tagLen = sl.tagLen) (ht : sl.tagLen.toNat ≤ 16) (ha : a.length < 2 ^ 64)
    (hp : p.length + 16 < 2 ^ 64) :
    (gcmSeal κ bc sl n a p).length = p.length + sl.tagLen.toNat ∧
      gcmOpen κ bc sl' n a (gcmSeal κ bc sl n a p) = some p := by
  obtain ⟨hclen, -, -, -, hundo⟩ := counterModeStream (κ.bc bc sl.encKey) (inc32 (j0 sl.h n)) p
  have hseal := gcmSeal_eq κ bc sl (n := n) (p := p) ha (by omega)
  have hlen : (gcmSeal κ bc sl n a p).length = p.length + sl.tagLen.toNat := by
    rw [hseal, List.length_append, hclen, List.length_take, length_blockBytes, Nat.min_eq_left ht]
  refine ⟨hlen, ?_⟩
  have hk : (gcmSeal κ bc sl n a p).length - sl.tagLen.toNat =
      (gctr (κ.bc bc sl.encKey) (inc32 (j0 sl.h n)) p).1.length := by
    rw [hlen, hclen, Nat.add_sub_cancel]
  have hopen := gcmOpen_eq κ bc sl' (n := n) (z := gcmSeal κ bc sl n a p) ha (by omega) (htag ▸ ht)
    (by rw [htag]; omega)
  rw [hopen, hkey, hh, htag, hk, hseal, List.take_left' rfl, List.drop_left' rfl, if_pos rfl, hundo]

/-! ## The block-cipher legacy families -/

/-- A sealed record of a block-cipher legacy family decrypts to the record (R213, R214, R219). -/
theorem cbcRecord_cbcSeal {κ : Cfg} {bc : BcName} {m : MacName} {sl sl' : Slot} {n a p padding : List Byte}
    (hkey : sl'.encKey = sl.encKey) (hpad : padding.length = padLen (κ.macLen m) 16 p.length) :
    cbcRecord κ bc sl' n (cbcSeal κ bc m sl n a p padding) = p ++ recMac κ m sl a p ++ padding := by
  rw [cbcRecord, cbcSeal, hkey, cbcDec_cbcEnc _ _ _ (length_cbcPlain hpad)]

/-- A record whose padding removal gives the content length passes (R210, R219, R220). -/
theorem cbcVerify_of_pad {κ : Cfg} {m : MacName} {sl sl' : Slot} {a p padding : List Byte}
    (hkey : sl'.macKey = sl.macKey) (hp : p.length < 2 ^ 16) :
    cbcVerify κ m sl' a (p ++ recMac κ m sl a p ++ padding) (true, p.length) = some p := by
  have hgiven : ((p ++ recMac κ m sl a p ++ padding).drop p.length).take (κ.macLen m) = recMac κ m sl a p := by
    rw [List.append_assoc, List.drop_left' rfl, List.take_left' (length_recMac κ m sl a p)]
  have hcontent : (p ++ recMac κ m sl a p ++ padding).take p.length = p := by
    rw [List.append_assoc, List.take_left' rfl]
  have hexpected : macCt κ m sl'.macKey (a ++ be16 (p.length % 2 ^ 16)) (p ++ recMac κ m sl a p ++ padding) p.length =
      recMac κ m sl a p := by
    rw [macCt, hcontent, Nat.mod_eq_of_lt hp, hkey]
    rfl
  simp only [cbcVerify, hgiven, hcontent, hexpected, (ctEq_iff rfl).2, Bool.and_self, if_true]

/-! ## `STREAM` -/

/-- A sealed record of a stream-cipher family opens (R215, R225). -/
theorem streamOpen_streamSeal (κ : Cfg) (sc : ScName) (m : MacName) {sl sl' : Slot} {n a p : List Byte}
    (hkey : sl'.macKey = sl.macKey) (hst : sl'.scState = sl.scState) :
    (streamSeal κ sc m sl n a p).1.length = p.length + κ.macLen m ∧
      (streamOpen κ sc m sl' n a (streamSeal κ sc m sl n a p).1).1 = some p := by
  have hlen : (streamSeal κ sc m sl n a p).1.length = p.length + κ.macLen m := by
    simp [streamSeal, scXor]
  have hplain : scXor κ sc sl'.scState n (streamSeal κ sc m sl n a p).1 = p ++ recMac κ m sl a p := by
    rw [hst]
    exact selfInverse_selfInverse ..
  have hmac : recMac κ m sl' a p = recMac κ m sl a p := by rw [recMac, recMac, hkey]
  refine ⟨hlen, ?_⟩
  simp only [streamOpen, hplain, hlen, Nat.add_sub_cancel, List.take_left' rfl, List.drop_left' rfl, hmac,
    (ctEq_iff rfl).2, if_true]

end Sys2Proof.Machine
end

section
/-! PROOF. The round trip of the contract (R174): what `SEAL` writes, `OPEN` gives back when its checks pass. -/

namespace Sys2Proof.Machine

/-! ## The family's parts -/

/-- Two slots with the same keys, tag length and stream state (R174). -/
structure SameKeys (sl sl' : Slot) : Prop where
  encKey : sl'.encKey = sl.encKey
  macKey : sl'.macKey = sl.macKey
  tagLen : sl'.tagLen = sl.tagLen
  scState : sl'.scState = sl.scState

/-- The `GCM` subkey of a bound slot is its key's, and its tag has at most 16 bytes (R34, R190). -/
theorem Slot.LiveInv.gcm {sl : Slot} {d : Descriptor} {bc : BcName} (h : sl.LiveInv d) (hlaw : d.Lawful std)
    (hf : d.family = .gcm bc) : sl.h = std.bc bc sl.encKey 0 ∧ sl.tagLen.toNat ≤ 16 := by
  obtain ⟨-, -, -, -, hfam⟩ := hlaw
  obtain ⟨-, -, -, -, hmax, hfields⟩ := h
  simp only [hf] at hfam hfields
  obtain ⟨-, -, -, hsixteen, -⟩ := hfam
  obtain ⟨-, hh, -⟩ := hfields
  exact ⟨hh, hsixteen ▸ hmax⟩

/-- The round trip of a block-cipher legacy family, whatever its padding bytes and their removal (R214, R219). -/
theorem cbcVerify_cbcSeal {bc : BcName} {m : MacName} {sl sl' : Slot} {n a p padding : List Byte}
    {pad : List Byte → Bool × Nat} (hkeys : SameKeys sl sl') (hpad : padding.length = padLen (std.macLen m) 16 p.length)
    (hremove : pad (p ++ recMac std m sl a p ++ padding) = (true, p.length)) (hp : p.length < 2 ^ 16) :
    let z := cbcSeal std bc m sl n a p padding
    z.length ≤ p.length + (std.macLen m + 16) ∧
      cbcVerify std m sl' a (cbcRecord std bc sl' n z) (pad (cbcRecord std bc sl' n z)) = some p := by
  obtain ⟨-, hle, -⟩ := padLen_bounds (std.macLen m) p.length (b := 16) (by decide)
  intro z
  rw [cbcRecord_cbcSeal hkeys.encKey hpad, hremove]
  refine ⟨?_, cbcVerify_of_pad hkeys.macKey hp⟩
  rw [length_cbcSeal hpad]
  omega

/-- What the seal part of a family makes is at most the overhead longer (R167), and its open part gives the plaintext
back (R174). -/
theorem openPart_sealPart {d : Descriptor} {sl sl' : Slot} {n a p : List Byte} (hlaw : d.Lawful std)
    (hinv : sl.LiveInv d) (hinv' : sl'.LiveInv d) (hkeys : SameKeys sl sl') (ha : a.length < 2 ^ 64)
    (hp : p.length ≤ plaintextLimit d) (hkw : isKeywrap d = true → p.length % 8 = 0) :
    (sealPart std d sl n a p).1.length ≤ p.length + d.overhead ∧
      (openPart std d sl' n a (sealPart std d sl n a p).1).plain = some p := by
  have hfam := hlaw
  obtain ⟨-, -, -, -, hfam⟩ := hfam
  cases hf : d.family with
  | gcm bc =>
    obtain ⟨hh, ht⟩ := hinv.gcm hlaw hf
    obtain ⟨hh', -⟩ := hinv'.gcm hlaw hf
    simp only [hf] at hfam
    obtain ⟨-, -, hover, -⟩ := hfam
    simp only [plaintextLimit, isGcm, hf, if_true] at hp
    have hsubkey : sl'.h = sl.h := by rw [hh, hh', hkeys.encKey]
    obtain ⟨hlen, hopen⟩ := gcmOpen_gcmSeal std bc (n := n) (p := p) hkeys.encKey hsubkey hkeys.tagLen ht ha (by omega)
    simp only [sealPart, openPart, hf]
    exact ⟨by omega, hopen⟩
  | cbcTls bc m b =>
    simp only [hf] at hfam
    obtain ⟨-, -, rfl, hover, -⟩ := hfam
    simp only [plaintextLimit, isGcm, isKeywrap, hf] at hp
    simp only [sealPart, openPart, hf, hover]
    exact cbcVerify_cbcSeal (pad := padTls (std.macLen m)) hkeys (length_padBytesTls ..)
      (padTls_padBytesTls _ _ (by simp)) (Nat.lt_succ_of_le hp)
  | cbcSsl3 bc m b =>
    simp only [hf] at hfam
    obtain ⟨-, -, rfl, hover, -⟩ := hfam
    simp only [plaintextLimit, isGcm, isKeywrap, hf] at hp
    simp only [sealPart, openPart, hf, hover]
    exact cbcVerify_cbcSeal (pad := padSsl3 (std.macLen m) 16) hkeys (length_padBytesSsl3 _ _ (by decide))
      (padSsl3_padBytesSsl3 _ _ (by simp)) (Nat.lt_succ_of_le hp)
  | stream sc m x =>
    simp only [hf] at hfam
    obtain ⟨-, -, hover, -⟩ := hfam
    obtain ⟨hlen, hopen⟩ := streamOpen_streamSeal std sc m (n := n) (a := a) (p := p) hkeys.macKey hkeys.scState
    simp only [sealPart, openPart, hf]
    exact ⟨by omega, hopen⟩
  | keywrap bc =>
    simp only [hf] at hfam
    obtain ⟨-, -, hover, -⟩ := hfam
    have hwhole : p.length % 8 = 0 := hkw (by rw [isKeywrap, hf])
    simp only [sealPart, openPart, hf, hkeys.encKey]
    rw [length_kwWrap _ _ hwhole, kwUnwrap_kwWrap _ _ _ hwhole, if_pos rfl]
    exact ⟨by omega, rfl⟩

/-! ## Buffers -/

/-- The first bytes that were written read back (R61). -/
theorem Memory.readBytes_writeBytes_append {m : Memory} (hwf : m.wf = true) (a : Nat) (bs cs : List Byte) :
    (m.writeBytes a (bs ++ cs)).readBytes a bs.length = bs := by
  apply List.ext_getElem (by simp)
  intro i hi hi'
  rw [Memory.getElem_readBytes, Memory.read_writeBytes_inside m a (bs ++ cs) i hwf (by simp; omega),
    List.getElem_append_left hi']

theorem toNat_ofNat_of_lt {n : Nat} (h : n < 2 ^ 64) : (BitVec.ofNat 64 n).toNat = n := by
  rw [BitVec.toNat_ofNat, Nat.mod_eq_of_lt h]

/-- A bound slot that meets the slot invariant meets that of its descriptor (R35). -/
theorem BoundTo.liveInv {s : State} {c : BitVec 8} {d : Descriptor} (hd : BoundTo s c d) (h : (s.slot c).Inv) :
    (s.slot c).LiveInv d := by
  obtain ⟨-, hlive, hdesc⟩ := hd
  exact (Slot.inv_iff_liveInv (slotDesc_eq_some.2 ⟨hlive, hdesc⟩)).1 h

section
variable {s : State} {c : BitVec 8} {d : Descriptor}

/-- The output of a `SEAL` is the `OUTLEN` bytes at `OUTP` (R167). -/
theorem exec_seal_output (hwf : s.mem.wf = true) (hd : BoundTo s c d) (hcode : sealCode s c false = .ok)
    (hsep : Separate s.x) (hlen : (sealed s c false d).1.length < 2 ^ 64) :
    ∃ t, exec (.seal_ c false) s = .next t ∧ t.status = 0 ∧
      t.readBuf s.x.outp t.outlen = (sealed s c false d).1 := by
  obtain ⟨-, he⟩ := exec_seal_of_ok hd hcode hsep nofun
  refine ⟨_, he, rfl, ?_⟩
  rw [State.readBuf, State.done_outlen, toNat_ofNat_of_lt hlen]
  exact Memory.readBytes_writeBytes s.mem s.x.outp.toNat _ hwf

/-- The plaintext of an `OPEN` is the `OUTLEN` bytes at `OUTP`, whatever bytes stand after it (R168, UD5). -/
theorem exec_open_output {f : Bool} {p : List Byte} (hwf : s.mem.wf = true) (hd : BoundTo s c d)
    (hcode : openCode s c f = .ok) (hsep : Separate s.x) (hplain : (opened s c f d).plain = some p)
    (hlen : p.length < 2 ^ 64) :
    ∃ t, exec (.open_ c f) s = .next t ∧ t.status = 0 ∧ t.outlen = BitVec.ofNat 64 p.length ∧
      t.readBuf s.x.outp t.outlen = p := by
  obtain ⟨-, he⟩ := exec_open_of_ok hd hcode hsep
  refine ⟨_, he, ?_⟩
  rw [openFinish_of_some hplain]
  refine ⟨rfl, rfl, ?_⟩
  rw [State.readBuf, State.done_outlen, toNat_ofNat_of_lt hlen]
  exact Memory.readBytes_writeBytes_append hwf s.x.outp.toNat p _

end

/-- Settles O52: the output of the seal part stands at `OUTP`, and the open part gives the plaintext for it. -/
theorem openRecoversTheSealedRecord : Obligations.OpenRecoversTheSealedRecord := by
  intro s c d hwf hinv hd hcode hsep
  obtain ⟨hlaw, -⟩ := descriptor_lawful hd.2.2
  obtain ⟨hchecks, -⟩ := exec_seal_of_ok hd hcode hsep nofun
  obtain ⟨hlimit, hover, hkw⟩ := seal_lengths hchecks
  have hp := s.length_readBuf s.x.inp s.x.inl
  have ha : (s.readBuf s.x.adp s.x.adl).length < 2 ^ 64 := (s.length_readBuf ..).trans_lt s.x.adl.isLt
  rw [← hp] at hlimit hover hkw
  have hparts {u : State} {c' : BitVec 8} (hu : (u.slot c').LiveInv d) (hkeys : SameKeys (s.slot c) (u.slot c')) :=
    openPart_sealPart (n := s.readBuf s.x.nonp s.x.nonl) hlaw (hd.liveInv hinv) hu hkeys ha hlimit hkw
  obtain ⟨hlen, -⟩ := hparts (hd.liveInv hinv) ⟨rfl, rfl, rfl, rfl⟩
  obtain ⟨t, ht, hok, hout⟩ := exec_seal_output hwf hd hcode hsep (hlen.trans_lt hover)
  refine ⟨t, ht, hok, fun u c' hwfu hinvu hdu henc hmac htag hst hcodeu hsepu hn ha hz => ?_⟩
  have hplain : (opened u c' false d).plain = some (s.readBuf s.x.inp s.x.inl) := by
    rw [opened, openNonce, if_neg Bool.false_ne_true, hn, ha, hz, hout]
    exact (hparts (hdu.liveInv hinvu) ⟨henc, hmac, htag, hst⟩).2
  obtain ⟨v, hv, hvok, hvlen, hvout⟩ := exec_open_output hwfu hdu hcodeu hsepu hplain (hp.trans_lt s.x.inl.isLt)
  refine ⟨v, hv, hvok, ?_, hvout⟩
  rw [hvlen, hp, BitVec.ofNat_toNat, BitVec.setWidth_eq]

end Sys2Proof.Machine
end

section
/-! PROOF. The field of R100 has no zero divisors. Squaring is additive, so what it does to a block is linear in the
block's bits. Gaussian elimination on two lists of 128-bit vectors (`eliminates`, evaluated by the kernel) shows that only
0 squares to 0, and that only 0 and `ONE` are their own squares. Each block other than 0 then has an inverse. -/

namespace Sys2Proof.Machine

/-! ## Sums of blocks and elimination -/

/-- The sum of the blocks of a list whose coefficient is 1. -/
def combine : (Nat → Bool) → List Block → Block
  | _, [] => 0
  | c, v :: vs => scale (c 0) v ^^^ combine (fun i => c (i + 1)) vs

/-- The highest bit of a block. -/
def leadBit (v : Block) : Nat := v.toNat.log2

/-- A block with a bit cleared by adding a pivot that has the bit. -/
def clearLead (v w : Block) : Block := w ^^^ scale (w.getLsbD (leadBit v)) v

/-- Gaussian elimination of a list of at most `n` blocks meets no 0: each block in turn is the pivot that clears its
highest bit from the blocks after it. -/
def eliminates : Nat → List Block → Bool
  | _, [] => true
  | 0, _ :: _ => false
  | n + 1, v :: vs => v.getLsbD (leadBit v) && eliminates n (vs.map (clearLead v))

theorem combine_of_false {c : Nat → Bool} {vs : List Block} (h : ∀ i < vs.length, c i = false) :
    combine c vs = 0#128 := by
  induction vs generalizing c with
  | nil => rfl
  | cons v vs ih =>
    rw [combine, h 0 (Nat.zero_lt_succ _), ih fun i hi => h (i + 1) (Nat.succ_lt_succ hi),
      scale_false, BitVec.xor_zero]

/-- An additive map of blocks goes through a sum. -/
theorem combine_map {f : Block → Block} (hadd : ∀ v w, f (v ^^^ w) = f v ^^^ f w) (c : Nat → Bool) (vs : List Block) :
    combine c (vs.map f) = f (combine c vs) := by
  induction vs generalizing c with
  | nil => exact (map_zero_of_xor hadd).symm
  | cons v vs ih => rw [List.map_cons, combine, ih, combine, hadd, map_scale hadd]

/-- Clearing a bit adds the pivot to a sum or does not. -/
theorem clearLead_xor (v w w' : Block) : clearLead v (w ^^^ w') = clearLead v w ^^^ clearLead v w' := by
  simp only [clearLead, BitVec.getLsbD_xor, scale_xor_left]
  ac_rfl

/-- A pivot clears its bit. -/
theorem getLsbD_clearLead {v : Block} (hv : v.getLsbD (leadBit v) = true) (w : Block) :
    (clearLead v w).getLsbD (leadBit v) = false := by
  rw [clearLead, BitVec.getLsbD_xor, getLsbD_scale, hv, Bool.and_true, Bool.xor_self]

/-- Blocks that elimination goes through are linearly independent. -/
theorem eq_false_of_combine_eq_zero {n : Nat} {vs : List Block} (helim : eliminates n vs = true) {c : Nat → Bool}
    (hsum : combine c vs = 0#128) : ∀ i < vs.length, c i = false := by
  induction n generalizing vs c with
  | zero =>
    cases vs with
    | nil => exact fun _ hi => absurd hi (Nat.not_lt_zero _)
    | cons v vs => exact nomatch helim
  | succ n ih =>
    cases vs with
    | nil => exact fun _ hi => absurd hi (Nat.not_lt_zero _)
    | cons v vs =>
      obtain ⟨hlead, hrest⟩ := (Bool.and_eq_true_iff).1 helim
      rw [combine, BitVec.xor_eq_zero_iff] at hsum
      have hclear : clearLead v (scale (c 0) v) = 0#128 := by
        cases c 0
        · rw [scale_false, clearLead, BitVec.getLsbD_zero, scale_false, BitVec.xor_zero]
        · rw [scale_true, clearLead, hlead, scale_true, BitVec.xor_self]
      have htail : ∀ i < (vs.map (clearLead v)).length, c (i + 1) = false :=
        ih hrest (by rw [combine_map (clearLead_xor v), ← hsum, hclear])
      rw [List.length_map] at htail
      have hzero : scale (c 0) v = 0#128 := hsum.trans (combine_of_false htail)
      have hhead : c 0 = false := by
        have hbit := congrArg (BitVec.getLsbD · (leadBit v)) hzero
        simpa [getLsbD_scale, hlead] using hbit
      intro i hi
      cases i with
      | zero => exact hhead
      | succ i => exact htail i (Nat.lt_of_succ_lt_succ hi)

/-! ## A block as the sum of its powers of `x` -/

/-- A polynomial by its lowest coefficient. -/
theorem polyMul_succ' (c : Nat → Bool) (n : Nat) (v : Block) :
    polyMul c (n + 1) v = scale (c 0) v ^^^ polyMul (fun i => c (i + 1)) n (mulx v) := by
  induction n with
  | zero => simp [polyMul_succ]
  | succ n ih =>
    rw [polyMul_succ, ih, polyMul_succ, Function.iterate_succ_apply]
    ac_rfl

/-- A polynomial times a block is a sum of powers of `x` times the block. -/
theorem combine_iterate_mulx (c : Nat → Bool) (n : Nat) (v : Block) :
    combine c (List.iterate mulx v n) = polyMul c n v := by
  induction n generalizing c v with
  | zero => rfl
  | succ n ih => rw [List.iterate, combine, ih, polyMul_succ']

/-- A block is the sum of the powers of `x` that its field bits name (R9). -/
theorem combine_getMsbD (v : Block) : combine v.getMsbD (List.iterate mulx gfOne 128) = v := by
  rw [combine_iterate_mulx, ← gfmul_eq_polyMul, gfmul_one]

/-! ## Squares -/

/-- The square of a block. -/
def square (v : Block) : Block := gfmul v v

/-- Squaring is additive, for a block added to itself is 0. -/
theorem square_xor (v w : Block) : square (v ^^^ w) = square v ^^^ square w := by
  have hcross : gfmul w v ^^^ gfmul v w = 0#128 := by rw [gfmul_comm, BitVec.xor_self]
  simp only [square, gfmul_xor_left, gfmul_xor_right]
  calc gfmul v v ^^^ gfmul w v ^^^ (gfmul v w ^^^ gfmul w w)
      = gfmul v v ^^^ (gfmul w v ^^^ gfmul v w) ^^^ gfmul w w := by ac_rfl
    _ = gfmul v v ^^^ gfmul w w := by rw [hcross, BitVec.xor_zero]

theorem square_mulx (v : Block) : square (mulx v) = mulx (mulx (square v)) := by
  rw [square, gfmul_mulx_left, gfmul_mulx_right, square]

theorem square_gfOne : square gfOne = gfOne := gfmul_one gfOne

/-- `MULX` twice: what a factor `x` becomes in a square. -/
def mulxTwice (v : Block) : Block := mulx (mulx v)

/-- The squares of powers of `x`. -/
theorem map_square_iterate (n : Nat) (v : Block) :
    (List.iterate mulx v n).map square = List.iterate mulxTwice (square v) n := by
  induction n generalizing v with
  | zero => rfl
  | succ n ih => rw [List.iterate, List.map_cons, ih, square_mulx, List.iterate, mulxTwice]

/-- The even powers of `x` up to `x^254` are linearly independent. -/
theorem eliminates_evenPowers : eliminates 128 (List.iterate mulxTwice gfOne 128) = true := by decide +kernel

/-- The sums `x^i + x^2i` for `i` from 1 to 127 are linearly independent. -/
theorem eliminates_artinSchreier : eliminates 127
    (List.zipWith (· ^^^ ·) (List.iterate mulx (mulx gfOne) 127) (List.iterate mulxTwice (mulxTwice gfOne) 127)) =
      true := by decide +kernel

/-- Only 0 squares to 0. -/
theorem eq_zero_of_square {v : Block} (h : square v = 0#128) : v = 0#128 := by
  rw [← combine_getMsbD v] at h ⊢
  rw [← combine_map square_xor, map_square_iterate, square_gfOne] at h
  exact combine_of_false fun i hi => eq_false_of_combine_eq_zero eliminates_evenPowers h i (by simpa using hi)

theorem square_injective : Function.Injective square := fun v w h => by
  refine BitVec.xor_eq_zero_iff.1 (eq_zero_of_square ?_)
  rw [square_xor, h, BitVec.xor_self]

/-- A block plus its square. -/
def plusSquare (v : Block) : Block := v ^^^ square v

theorem plusSquare_xor (v w : Block) : plusSquare (v ^^^ w) = plusSquare v ^^^ plusSquare w := by
  simp only [plusSquare, square_xor]
  ac_rfl

theorem map_plusSquare_iterate (n : Nat) (v : Block) : (List.iterate mulx v n).map plusSquare =
    List.zipWith (· ^^^ ·) (List.iterate mulx v n) (List.iterate mulxTwice (square v) n) := by
  rw [← map_square_iterate, List.zipWith_map_right, List.zipWith_self]
  rfl

/-- Only 0 and `ONE` are their own squares. -/
theorem eq_zero_or_gfOne_of_square {v : Block} (h : square v = v) : v = 0#128 ∨ v = gfOne := by
  have hzero : plusSquare v = 0#128 := by rw [plusSquare, h, BitVec.xor_self]
  have hsplit : v = scale (v.getMsbD 0) gfOne ^^^
      combine (fun i => v.getMsbD (i + 1)) (List.iterate mulx (mulx gfOne) 127) := (combine_getMsbD v).symm
  have hone : plusSquare (scale (v.getMsbD 0) gfOne) = 0#128 := by
    rw [map_scale plusSquare_xor, plusSquare, square_gfOne, BitVec.xor_self]
    cases v.getMsbD 0 <;> rfl
  rw [hsplit, plusSquare_xor, hone, BitVec.zero_xor, ← combine_map plusSquare_xor, map_plusSquare_iterate, square_mulx,
    square_gfOne] at hzero
  have hbits := eq_false_of_combine_eq_zero eliminates_artinSchreier hzero
  rw [combine_of_false fun i hi => hbits i (by simpa using hi), BitVec.xor_zero] at hsplit
  rw [hsplit]
  cases v.getMsbD 0
  · exact .inl rfl
  · exact .inr rfl

/-! ## Inverses -/

/-- A power of a block whose exponent is a power of 2 from 2 on is a multiple of its square. -/
theorem exists_iterate_square_eq (v : Block) (n : Nat) : ∃ w, square^[n + 1] v = gfmul w (gfmul v v) := by
  induction n with
  | zero => exact ⟨gfOne, (one_gfmul _).symm⟩
  | succ n ih =>
    obtain ⟨w, hw⟩ := ih
    refine ⟨gfmul (gfmul w (gfmul v v)) w, ?_⟩
    rw [Function.iterate_succ_apply', hw]
    exact (gfmul_assoc _ _ _).symm

/-- A block other than 0 has an inverse: a power of it is itself, so it is a multiple `W·V²` of its square, and `W·V` is
its own square. -/
theorem exists_gfmul_eq_gfOne {v : Block} (hv : v ≠ 0#128) : ∃ w, gfmul w v = gfOne := by
  obtain ⟨n, hpos, hperiod⟩ := Function.mem_periodicPts.1 (square_injective.mem_periodicPts v)
  obtain ⟨k, rfl⟩ := Nat.exists_eq_add_of_le' hpos
  obtain ⟨w, hw⟩ := exists_iterate_square_eq v k
  have hself : gfmul w (gfmul v v) = v := hw.symm.trans hperiod
  have hidem : square (gfmul w v) = gfmul w v :=
    calc gfmul (gfmul w v) (gfmul w v) = gfmul w (gfmul v (gfmul w v)) := gfmul_assoc ..
      _ = gfmul w (gfmul w (gfmul v v)) := by rw [gfmul_comm v, gfmul_assoc]
      _ = gfmul w v := by rw [hself]
  obtain h0 | h1 := eq_zero_or_gfOne_of_square hidem
  · rw [← gfmul_assoc, h0, zero_gfmul] at hself
    exact absurd hself.symm hv
  · exact ⟨w, h1⟩

/-- Multiplication by a block other than 0 is injective: the field has no zero divisors (R100). -/
theorem gfmul_left_injective {h : Block} (hh : h ≠ 0#128) : Function.Injective (gfmul · h) := by
  obtain ⟨w, hw⟩ := exists_gfmul_eq_gfOne hh
  have hinv : Function.LeftInverse (gfmul · w) (gfmul · h) := fun x => by
    dsimp only
    rw [gfmul_assoc, gfmul_comm h, hw, gfmul_one]
  exact hinv.injective

end Sys2Proof.Machine
end

section
/-! PROOF. One changed byte of the ciphertext, the tag or the associated data makes a `GCM` open with a 16-byte tag fail
(R176): under a subkey that is not 0 it changes the tag hash. -/

namespace Sys2Proof.Machine

/-! ## Padding -/

/-- Padding follows the string (R8). -/
theorem pad16_set (d : List Byte) {i : Nat} (hi : i < d.length) (b : Byte) : pad16 (d.set i b) = (pad16 d).set i b := by
  rw [pad16, pad16, List.length_set, List.set_append_left i b hi]

theorem length_le_pad16 (d : List Byte) : d.length ≤ (pad16 d).length := by
  rw [pad16, List.length_append]
  exact Nat.le_add_right ..

theorem getElem_pad16 (d : List Byte) {i : Nat} (hi : i < d.length) :
    (pad16 d)[i]'(hi.trans_le (length_le_pad16 d)) = d[i] := by
  simp only [pad16]
  exact List.getElem_append_left hi

/-- The block of the two lengths is a whole block (R140). -/
theorem length_lengthBytes (k l : Nat) : (be64 k ++ be64 l).length % 16 = 0 := by
  rw [List.length_append, be64, be64, length_be, length_be]

/-! ## `GHASH` of two strings that differ in a byte -/

/-- `GHASH` by the first block (R104). -/
theorem ghash_of_ne_nil (h x : Block) {d : List Byte} (hne : d ≠ []) :
    ghash h x d = ghash h (gfmul (x ^^^ blockOf (d.take 16)) h) (d.drop 16) := by
  rw [ghash, blocks, chunks_of_ne_nil hne, List.map_cons, List.foldl_cons, ← blocks, ← ghash]

section
variable {h : Block} (hh : h ≠ 0#128)
include hh

/-- `GHASH` is injective in the block it starts from. -/
theorem ghash_injective (d : List Byte) : Function.Injective fun x => ghash h x d := by
  induction d using bytes_induction with
  | nil => exact fun _ _ heq => heq
  | piece d hne ih =>
    intro x y heq
    simp only [ghash_of_ne_nil h _ hne] at heq
    exact (BitVec.xor_left_inj _).1 (gfmul_left_injective hh (ih heq))

/-- A changed byte changes `GHASH`: its block differs, and the blocks after it keep the difference. -/
theorem ghash_set_ne (x : Block) {d : List Byte} (hd : d.length % 16 = 0) {i : Nat} (hi : i < d.length) {b : Byte}
    (hb : b ≠ d[i]) : ghash h x (d.set i b) ≠ ghash h x d := by
  induction d using bytes_induction generalizing x i with
  | nil => exact absurd hi (Nat.not_lt_zero i)
  | piece d hne ih =>
    have hset : d.set i b ≠ [] := fun hnil => hne (by simpa using hnil)
    have hpos := List.length_pos_iff.2 hne
    rw [ghash_of_ne_nil h x hset, ghash_of_ne_nil h x hne]
    obtain hfirst | hlater := Nat.lt_or_ge i 16
    · rw [List.drop_set_of_lt hfirst]
      intro heq
      have hblock : blockOf ((d.set i b).take 16) = blockOf (d.take 16) :=
        (BitVec.xor_right_inj _).1 (gfmul_left_injective hh (ghash_injective hh _ heq))
      have hbytes : (d.set i b).take 16 = d.take 16 := by
        rw [← blockBytes_blockOf ((d.set i b).take 16) (by simp; omega), hblock,
          blockBytes_blockOf _ (by simp; omega)]
      have hbyte := congrArg (·[i]?) hbytes
      simp [List.getElem?_take_of_lt hfirst, hi] at hbyte
      exact hb hbyte
    · rw [List.take_set_of_le hlater, List.drop_set, if_neg (Nat.not_lt_of_le hlater)]
      refine ih _ (by rw [List.length_drop]; omega) (by rw [List.length_drop]; omega) ?_
      rw [List.getElem_drop]
      simpa only [Nat.add_sub_cancel' hlater] using hb

/-- A changed byte of a padded string changes `GHASH`, whatever whole blocks follow. -/
theorem ghash_pad16_set_ne (x : Block) {d tail : List Byte} (htail : tail.length % 16 = 0) {i : Nat} (hi : i < d.length)
    {b : Byte} (hb : b ≠ d[i]) : ghash h x (pad16 (d.set i b) ++ tail) ≠ ghash h x (pad16 d ++ tail) := by
  have hpad := hi.trans_le (length_le_pad16 d)
  have hmod := length_pad16_mod d
  rw [pad16_set d hi, ← List.set_append_left _ _ hpad]
  refine ghash_set_ne hh x ?_ ?_ ?_
  · rw [List.length_append]
    omega
  · rw [List.length_append]
    omega
  · rwa [List.getElem_append_left hpad, getElem_pad16 d hi]

/-- A changed byte of the associated data changes the tag (R140). -/
theorem recordTag_set_aad_ne (E : Block → Block) (n z : List Byte) {a : List Byte} {i : Nat} (hi : i < a.length)
    {b : Byte} (hb : b ≠ a[i]) : recordTag E h n (a.set i b) z ≠ recordTag E h n a z := by
  have hz := length_pad16_mod z
  have hlengths := length_lengthBytes (8 * a.length) (8 * z.length)
  rw [recordTag, recordTag, List.length_set]
  simp only [List.append_assoc]
  refine mt (BitVec.xor_left_inj _).1 (ghash_pad16_set_ne hh 0 ?_ hi hb)
  rw [List.length_append]
  omega

/-- A changed byte of the ciphertext changes the tag (R140). -/
theorem recordTag_set_ciphertext_ne (E : Block → Block) (n a : List Byte) {z : List Byte} {i : Nat}
    (hi : i < z.length) {b : Byte} (hb : b ≠ z[i]) : recordTag E h n a (z.set i b) ≠ recordTag E h n a z := by
  rw [recordTag, recordTag, List.length_set]
  simp only [List.append_assoc, ghash_append h 0 (length_pad16_mod a)]
  exact mt (BitVec.xor_left_inj _).1 (ghash_pad16_set_ne hh _ (length_lengthBytes ..) hi hb)

end

/-! ## The open part -/

/-- A record opens with a 16-byte tag exactly when its last 16 bytes are the tag (R192). -/
theorem gcmOpen_eq_some_iff {κ : Cfg} {bc : BcName} {sl : Slot} {n a z p : List Byte} (ht : sl.tagLen = 16)
    (ha : a.length < 2 ^ 64) (hz : z.length < 2 ^ 64) (hlong : 16 ≤ z.length) :
    gcmOpen κ bc sl n a z = some p ↔
      blockBytes (recordTag (κ.bc bc sl.encKey) sl.h n a (z.take (z.length - 16))) = z.drop (z.length - 16) ∧
        (gctr (κ.bc bc sl.encKey) (inc32 (j0 sl.h n)) (z.take (z.length - 16))).1 = p := by
  have htag : sl.tagLen.toNat = 16 := congrArg BitVec.toNat ht
  have hopen := gcmOpen_eq κ bc sl (n := n) ha hz htag.le (htag ▸ hlong)
  simp only [htag, List.take_of_length_le (length_blockBytes _).le] at hopen
  rw [hopen]
  split
  next heq => simp [heq]
  next hne => simp [hne]

/-- A record whose last 16 bytes are not the tag does not open (R192). -/
theorem gcmOpen_eq_none {κ : Cfg} {bc : BcName} {sl : Slot} {n a z : List Byte} (ht : sl.tagLen = 16)
    (ha : a.length < 2 ^ 64) (hz : z.length < 2 ^ 64) (hlong : 16 ≤ z.length)
    (hne : blockBytes (recordTag (κ.bc bc sl.encKey) sl.h n a (z.take (z.length - 16))) ≠ z.drop (z.length - 16)) :
    gcmOpen κ bc sl n a z = none :=
  Option.eq_none_iff_forall_ne_some.2 fun _ h => hne ((gcmOpen_eq_some_iff ht ha hz hlong).1 h).1

theorem blockBytes_injective : Function.Injective blockBytes := fun x y h => by
  rw [← blockOf_blockBytes x, h, blockOf_blockBytes]

/-- A byte with one bit flipped is another byte. -/
theorem flipBit_ne (x : Byte) {k : Nat} (hk : k < 8) : x ^^^ ((1 : Byte) <<< k) ≠ x := fun h => by
  have hbit : ∀ k < 8, (1 : Byte) <<< k ≠ 0 := by decide
  exact hbit k hk ((BitVec.xor_right_inj x).1 (h.trans BitVec.xor_zero.symm))

/-- Settles O21: a flipped bit of the ciphertext or the associated data changes the tag that is expected and not the one
that is given, and a flipped bit of the tag the other way round. -/
theorem flippedBitFailsGcmOpen : Obligations.FlippedBitFailsGcmOpen := by
  intro κ bc sl n a z p ht _ hh ha hlong hz hopen
  have ha' : a.length < 2 ^ 64 := by omega
  have hz' : z.length < 2 ^ 64 := by omega
  obtain ⟨htag, -⟩ := (gcmOpen_eq_some_iff ht ha' hz' hlong).1 hopen
  refine ⟨fun i k hi hk => gcmOpen_eq_none ht ha' (by simpa using hz') (by simpa using hlong) ?_,
    fun i k hi hk => gcmOpen_eq_none ht (by simpa using ha') hz' hlong fun heq => ?_⟩
  · have hflip := flipBit_ne z[i] hk
    rw [List.length_set]
    obtain hcipher | hmac := Nat.lt_or_ge i (z.length - 16)
    · rw [List.take_set, List.drop_set_of_lt hcipher, ← htag]
      refine fun heq => recordTag_set_ciphertext_ne hh _ n a ?_ ?_ (blockBytes_injective heq)
      · rw [List.length_take]
        omega
      · rwa [List.getElem_take]
    · rw [List.take_set_of_le hmac, htag, List.drop_set, if_neg (Nat.not_lt_of_le hmac)]
      intro heq
      have hbyte := List.getElem_of_eq heq (i := i - (z.length - 16)) (by rw [List.length_drop]; omega)
      simp only [List.getElem_set_self, List.getElem_drop, Nat.add_sub_cancel' hmac] at hbyte
      exact hflip hbyte.symm
  · exact recordTag_set_aad_ne hh _ n _ hi (flipBit_ne a[i] hk) (blockBytes_injective (heq.trans htag.symm))

end Sys2Proof.Machine
end

section
/-! PROOF. `SETIVFIXED` as its branches in order (R196), and the commands on a slot with the fixed IV it loads. -/

namespace Sys2Proof.Machine

/-! ## Commands on a slot -/

section
variable {s : State} {c : BitVec 8} {d : Descriptor} {dest : Bool} {p n : Word}
  {go : State → Slot → Descriptor → Result}

/-- One buffer is in range (R62). -/
theorem all_bufOk_singleton : [(p, n)].all (fun b => bufOk std b.1 b.2) = true ↔ InRange p n := by
  rw [List.all_cons, List.all_nil, Bool.and_true, bufOk_true]

/-- A command with one buffer, which is out of range (R62). -/
theorem onSlot_of_outOfRange (hc : c.toNat < 8) (hbuf : ¬InRange p n) :
    onSlot std dest [(p, n)] c s go = .next (s.clearPerf.raise dest .badAddress) := by
  rw [onSlot, std_nCtx, if_pos hc, if_neg (mt all_bufOk_singleton.1 hbuf)]

/-- A command with one buffer on a free slot (R166). -/
theorem onSlot_of_free (hc : c.toNat < 8) (hbuf : InRange p n) (hfree : (s.slot c).live = false) :
    onSlot std dest [(p, n)] c s go = .next (s.clearPerf.raise dest .state) := by
  have hnone : slotDesc std (s.slot c) = none := if_neg (ne_true_of_eq_false hfree)
  rw [onSlot, std_nCtx, if_pos hc, if_pos (all_bufOk_singleton.2 hbuf), hnone]

/-- A command with one buffer on a bound slot goes on (R166). -/
theorem onSlot_of_bound (hbuf : InRange p n) (hd : BoundTo s c d) :
    onSlot std dest [(p, n)] c s go = go s.clearPerf (s.slot c) d := by
  obtain ⟨hc, hbound⟩ := hd
  rw [onSlot, std_nCtx, if_pos hc, if_pos (all_bufOk_singleton.2 hbuf), slotDesc_eq_some.2 hbound]

end

/-! ## `SETIVFIXED` -/

/-- The 12 bytes of an IV are those it was read from (R8, R196). -/
theorem be_toNat_ofNat_unbe {b : List Byte} (h : b.length = 12) : be 12 (BitVec.ofNat 96 (unbe b)).toNat = b := by
  have hb := be_unbe b
  rw [h] at hb
  exact (be_mod 12 (unbe b)).trans hb

/-- The slot after `SETIVFIXED` (R196). -/
def ivLoaded (s : State) (c : BitVec 8) : Slot :=
  { s.slot c with ivFixed := BitVec.ofNat 96 (unbe (s.readBuf s.x.nonp 12)), ivFixedSet := true }

/-- `SETIVFIXED` on a bound slot with its buffer in range (R196). -/
theorem exec_setivfixed {s : State} {c : BitVec 8} {d : Descriptor} (hbuf : InRange s.x.nonp s.x.nonl)
    (hd : BoundTo s c d) : exec (.setivfixed c) s =
      if isGcm d = false then .next (s.failed .unsupported)
      else if s.x.nonl ≠ 12 then .next (s.failed .badNonceLength)
      else .next ((s.setSlot c (ivLoaded s c)).succeeded 0) := by
  rw [exec, execSetivfixed, setivfixedOn, onSlot_of_bound hbuf hd, checked_not, checked_decide, checked_nil]
  rfl

/-- Settles O48: a buffer out of range, a free slot, and the three branches on a bound slot. -/
theorem setivfixedLoadsTheFixedIv : Obligations.SetivfixedLoadsTheFixedIv := by
  intro s c hc
  refine ⟨fun d hbuf hd hgcm hlen => ?_, fun hbuf => ?_, fun hbuf hfree => ?_, fun d hbuf hd hgcm => ?_,
    fun d hbuf hd hgcm hlen => ?_⟩
  · rw [exec_setivfixed hbuf hd, if_neg (ne_false_of_eq_true hgcm), if_neg (not_not.2 hlen)]
    exact ⟨_, _, rfl, rfl, .of_setSlot rfl rfl fun _ _ => rfl, be_toNat_ofNat_unbe (State.length_readBuf ..)⟩
  · rw [exec, execSetivfixed, setivfixedOn, onSlot_of_outOfRange hc hbuf]
    rfl
  · rw [exec, execSetivfixed, setivfixedOn, onSlot_of_free hc hbuf hfree]
    rfl
  · rw [exec_setivfixed hbuf hd, if_pos hgcm]
  · rw [exec_setivfixed hbuf hd, if_neg (ne_false_of_eq_true hgcm), if_pos hlen]

end Sys2Proof.Machine
end

section
/-! PROOF. `SEAL` and `OPEN` on a `GCM` slot, with and without `FIXEDIV` (R191, R192, R197, R198), from the closed form of
the record (R144). -/

namespace Sys2Proof.Machine

/-! ## The output of a seal -/

/-- A sealed record with a tag of `t` bytes: the ciphertext and the first bytes of the tag (R144, R191). -/
def recordBytes (E : Block → Block) (t : Nat) (n a p : List Byte) : List Byte :=
  (gcmRecord E n a p).1 ++ (blockBytes (gcmRecord E n a p).2).take t

/-- Counter mode keeps the length (R121). -/
theorem length_gctr (E : Block → Block) (cb : Block) (d : List Byte) : (gctr E cb d).1.length = d.length := by
  rw [gctr_fst, List.length_mapIdx]

/-- The ciphertext has the length of the plaintext (R121, R191). -/
theorem length_recordBytes (E : Block → Block) {t : Nat} (n a p : List Byte) (ht : t ≤ 16) :
    (recordBytes E t n a p).length = p.length + t := by
  rw [recordBytes, List.length_append, List.length_take, length_blockBytes, Nat.min_eq_left ht, gcmRecord_eq,
    length_gctr]

section
variable (κ : Cfg) (bc : BcName) {sl : Slot} {n a : List Byte}

/-- The seal part is the record when the subkey is the key's (R144, R190, R191). -/
theorem gcmSeal_eq_recordBytes {p : List Byte} (hh : sl.h = κ.bc bc sl.encKey 0) (ha : a.length < 2 ^ 64)
    (hp : p.length < 2 ^ 64) :
    gcmSeal κ bc sl n a p = recordBytes (κ.bc bc sl.encKey) sl.tagLen.toNat n a p := by
  rw [gcmSeal_eq κ bc sl ha hp, hh]
  rfl

/-- The open part compares the tag of the record whose plaintext the input decrypts to: sealing that plaintext gives the
input's ciphertext again (R121, R144, R192). -/
theorem gcmOpen_eq_record {z : List Byte} (hh : sl.h = κ.bc bc sl.encKey 0) (ht : sl.tagLen.toNat ≤ 16)
    (ha : a.length < 2 ^ 64) (hz : z.length < 2 ^ 64) (htz : sl.tagLen.toNat ≤ z.length) :
    let E := κ.bc bc sl.encKey
    let k := z.length - sl.tagLen.toNat
    let p := (gctr E (inc32 (j0 (E 0) n)) (z.take k)).1
    gcmOpen κ bc sl n a z =
      if (blockBytes (gcmRecord E n a p).2).take sl.tagLen.toNat = z.drop k then some p else none := by
  intro E k p
  obtain ⟨-, -, -, -, hundo⟩ := counterModeStream E (inc32 (j0 (E 0) n)) (z.take k)
  have htag : (gcmRecord E n a p).2 = recordTag E (E 0) n a (z.take k) := congrArg (recordTag E (E 0) n a) hundo
  rw [htag, gcmOpen_eq κ bc sl ha hz ht htz, hh]

end

/-! ## A slot and its frame -/

/-- Writing a slot's own value changes nothing (R34). -/
theorem State.setSlot_slot (s : State) (c : BitVec 8) : s.setSlot c (s.slot c) = s := by
  simp [State.setSlot, State.slot]

/-- A buffer is shorter than `2^64` bytes (R26). -/
theorem State.length_readBuf_lt (s : State) (p n : Word) : (s.readBuf p n).length < 2 ^ 64 :=
  (s.length_readBuf p n).trans_lt n.isLt

section
variable {s : State} {c : BitVec 8} {f : Bool} {d : Descriptor} {bc : BcName}

/-- The shortest input is what an `OPEN` that passes its checks has (R168). -/
theorem minOpen_le (h : firstFailing (openChecks std s.x (s.slot c) d f) = none) :
    minOpen std d (s.slot c) ≤ s.x.inl.toNat := by
  have hshort := (firstFailing_none _).1 h
    (decide (s.x.inl.toNat < minOpen std d (s.slot c)) || !shapeOk d s.x.inl.toNat, .decrypt) (by simp [openChecks])
  obtain ⟨hmin, -⟩ := Bool.or_eq_false_iff.1 hshort
  exact Nat.le_of_not_lt (of_decide_eq_false hmin)

/-- The subkey and the tag length of a bound `GCM` slot (R35, R190). -/
theorem BoundTo.gcm (hd : BoundTo s c d) (hinv : (s.slot c).Inv) (hf : d.family = .gcm bc) :
    (s.slot c).h = std.bc bc (s.slot c).encKey 0 ∧ (s.slot c).tagLen.toNat ≤ 16 := by
  obtain ⟨hlaw, -⟩ := descriptor_lawful hd.2.2
  exact (hd.liveInv hinv).gcm hlaw hf

/-! ## `SEAL` -/

/-- What a `SEAL` on a `GCM` slot writes at `OUTP` (R191, R197). -/
def gcmOutput (s : State) (c : BitVec 8) (f : Bool) (bc : BcName) : List Byte :=
  recordBytes (std.bc bc (s.slot c).encKey) (s.slot c).tagLen.toNat (sealNonce s c f) (s.readBuf s.x.adp s.x.adl)
    (s.readBuf s.x.inp s.x.inl)

/-- The seal part of a `GCM` slot leaves the slot alone (R191, R226). -/
theorem sealed_gcm (hd : BoundTo s c d) (hinv : (s.slot c).Inv) (hf : d.family = .gcm bc) :
    sealed s c f d = (gcmOutput s c f bc, s.slot c) := by
  obtain ⟨hh, -⟩ := hd.gcm hinv hf
  rw [sealed, sealPart, hf]
  exact congrArg (·, s.slot c) (gcmSeal_eq_recordBytes std bc hh (s.length_readBuf_lt ..) (s.length_readBuf_lt ..))

/-- The output of a `SEAL` is the tag longer than its input (R191). -/
theorem length_gcmOutput (hd : BoundTo s c d) (hinv : (s.slot c).Inv) (hf : d.family = .gcm bc) :
    (gcmOutput s c f bc).length = s.x.inl.toNat + (s.slot c).tagLen.toNat := by
  obtain ⟨-, ht⟩ := hd.gcm hinv hf
  rw [gcmOutput, length_recordBytes _ _ _ _ ht, State.length_readBuf]

/-- A `SEAL` on a `GCM` slot whose checks pass and whose buffers are apart (R167, R191, R197). -/
theorem exec_seal_gcm (hd : BoundTo s c d) (hinv : (s.slot c).Inv) (hf : d.family = .gcm bc)
    (hcode : sealCode s c f = .ok) (hsep : Separate s.x) (hnonce : f = true → NonceOutSeparate s.x) :
    exec (.seal_ c f) s =
      .next ((sealFixed c (s.slot c) f (s.clearPerf.writeBuf s.x.outp (gcmOutput s c f bc))).done
        (s.x.inl.toNat + (s.slot c).tagLen.toNat)) := by
  obtain ⟨-, he⟩ := exec_seal_of_ok hd hcode hsep hnonce
  rw [he, sealed_gcm hd hinv hf, length_gcmOutput hd hinv hf]

/-- Without `FIXEDIV` the end of a `SEAL` whose seal part leaves the slot alone changes nothing more (R167). -/
theorem sealFixed_false_slot (v : List Byte) :
    sealFixed c (s.slot c) false (s.clearPerf.writeBuf s.x.outp v) = s.clearPerf.writeBuf s.x.outp v :=
  State.setSlot_slot (s.clearPerf.writeBuf s.x.outp v) c

/-! ## `OPEN` -/

/-- The plaintext an input decrypts to, under the nonce of the command (R192, R198). -/
def gcmPlain (s : State) (c : BitVec 8) (f : Bool) (bc : BcName) : List Byte :=
  let E := std.bc bc (s.slot c).encKey
  (gctr E (inc32 (j0 (E 0) (openNonce s c f)))
    ((s.readBuf s.x.inp s.x.inl).take (s.x.inl.toNat - (s.slot c).tagLen.toNat))).1

/-- The tag of the input compares equal (R192). -/
abbrev TagRight (s : State) (c : BitVec 8) (f : Bool) (bc : BcName) : Prop :=
  (blockBytes (gcmRecord (std.bc bc (s.slot c).encKey) (openNonce s c f) (s.readBuf s.x.adp s.x.adl)
    (gcmPlain s c f bc)).2).take (s.slot c).tagLen.toNat =
      (s.readBuf s.x.inp s.x.inl).drop (s.x.inl.toNat - (s.slot c).tagLen.toNat)

/-- The plaintext of an `OPEN` is the tag shorter than its input (R192). -/
theorem length_gcmPlain : (gcmPlain s c f bc).length = s.x.inl.toNat - (s.slot c).tagLen.toNat := by
  rw [gcmPlain, length_gctr, List.length_take, State.length_readBuf, Nat.min_eq_left (Nat.sub_le ..)]

/-- What an open part gives that leaves its slot and the counters alone and no byte free (R160, R168, R222, R226). -/
def Opened.ofPlain (sl : Slot) (plain : Option (List Byte)) : Opened :=
  { plain := plain, slot := sl, perf := (0, 0), reach := 0 }

/-- The open part of a `GCM` slot gives the plaintext when the tag is right (R192). -/
theorem opened_gcm (hd : BoundTo s c d) (hinv : (s.slot c).Inv) (hf : d.family = .gcm bc)
    (hchecks : firstFailing (openChecks std s.x (s.slot c) d f) = none) :
    opened s c f d = .ofPlain (s.slot c) (if TagRight s c f bc then some (gcmPlain s c f bc) else none) := by
  obtain ⟨hh, ht⟩ := hd.gcm hinv hf
  have hmin := minOpen_le hchecks
  rw [minOpen, hf, ← s.length_readBuf s.x.inp s.x.inl] at hmin
  have hopen := gcmOpen_eq_record std bc (n := openNonce s c f) hh ht (s.length_readBuf_lt s.x.adp s.x.adl)
    (s.length_readBuf_lt ..) hmin
  simp only [State.length_readBuf] at hopen
  rw [opened, openPart, hf]
  exact congrArg (Opened.ofPlain (s.slot c)) hopen

/-- The end of an `OPEN` of a good record (R168). -/
theorem openFinish_ofPlain_some (p : List Byte) :
    openFinish std c (.ofPlain (s.slot c) (some p)) s.clearPerf =
      { s with mem := s.mem.writeBytes s.x.outp.toNat p }.succeeded p.length := by
  have hslot : s.clearPerf.setSlot c (s.slot c) = s.clearPerf := State.setSlot_slot s.clearPerf c
  rw [openFinish_of_some (r := .ofPlain (s.slot c) (some p)) rfl]
  simp only [Opened.ofPlain, hslot, Nat.zero_sub, freeBytes, List.append_nil]
  rfl

/-- The end of an `OPEN` of a bad record (R168, R172). -/
theorem openFinish_ofPlain_none :
    openFinish std c (.ofPlain (s.slot c) none) s.clearPerf =
      { s with mem := s.mem.writeBytes s.x.outp.toNat (zeros s.x.outmax.toNat) }.failed .decrypt := by
  have hslot : s.clearPerf.setSlot c (s.slot c) = s.clearPerf := State.setSlot_slot s.clearPerf c
  rw [openFinish_of_none (r := .ofPlain (s.slot c) none) rfl]
  simp only [Opened.ofPlain, hslot]
  rfl

end

/-! ## The explicit counter -/

/-- The advanced IV as a number: the fixed part, and the counter plus 1 modulo `2^64` (R197). -/
theorem toNat_ivAdvance (iv : BitVec 96) :
    (ivAdvance iv).toNat = 256 ^ 8 * (iv.toNat / 256 ^ 8) + (iv.toNat % 256 ^ 8 + 1) % 2 ^ 64 := by
  have hfixed : (iv.extractLsb' 64 32).toNat = iv.toNat / 256 ^ 8 := by
    rw [BitVec.extractLsb'_toNat, Nat.shiftRight_eq_div_pow]
    omega
  have hcounter : (iv.extractLsb' 0 64 + 1).toNat = (iv.toNat % 256 ^ 8 + 1) % 2 ^ 64 := by
    rw [BitVec.toNat_add, BitVec.extractLsb'_toNat]
    rfl
  rw [ivAdvance, BitVec.toNat_append, ← Nat.shiftLeft_add_eq_or_of_lt (BitVec.isLt _), Nat.shiftLeft_eq, hfixed,
    hcounter, Nat.mul_comm]
  rfl

/-- The advanced IV as bytes (R197). -/
theorem be_ivAdvance (iv : BitVec 96) :
    be 12 (ivAdvance iv).toNat =
      (be 12 iv.toNat).take 4 ++ be64 ((unbe ((be 12 iv.toNat).drop 4) + 1) % 2 ^ 64) := by
  have hlt : (iv.toNat % 256 ^ 8 + 1) % 2 ^ 64 < 256 ^ 8 := Nat.mod_lt _ (by decide)
  rw [be_add 4 8 iv.toNat, List.take_left' (length_be ..), List.drop_left' (length_be ..), unbe_be, be_add 4 8,
    toNat_ivAdvance, Nat.mul_add_div (by decide), Nat.div_eq_of_lt hlt, Nat.add_zero, ← be_mod 8, Nat.mul_add_mod,
    be_mod, be64]

/-! ## The statements -/

/-- Settles O40: the output of the seal part at `OUTP`; the slot is written back as it was. -/
theorem sealOnGcm : Obligations.SealOnGcm := by
  intro s c d bc hwf hinv hd hf hcode hsep sl r out
  refine ⟨_, ?_, length_gcmOutput (f := false) hd hinv hf, stores_writeBytes s.mem s.x.outp.toNat out hwf⟩
  rw [exec_seal_gcm hd hinv hf hcode hsep nofun, sealFixed_false_slot]
  rfl

/-- Settles O41: the record under the slot's nonce, then the explicit part, then the advanced counter. -/
theorem sealWithFixedIv : Obligations.SealWithFixedIv := by
  intro s c d bc hwf hinv hd hf hcode hsep hnonce sl n r out
  refine ⟨_, ivAdvance sl.ivFixed, s.mem.writeBytes s.x.outp.toNat out,
    exec_seal_gcm hd hinv hf hcode hsep fun _ => hnonce, rfl, stores_writeBytes _ _ out hwf,
    stores_writeBytes _ _ _ (Memory.wf_writeBytes _ _ _ hwf), ?_, be_ivAdvance sl.ivFixed⟩
  exact .of_setSlot (u := (s.clearPerf.writeBuf s.x.outp out).writeBuf s.x.nonp (explicitPart sl)) rfl rfl fun _ _ => rfl

/-- Settles O42: the open part gives the plaintext exactly when the tag is right, and the end of `OPEN` stores it or
zeros. -/
theorem openOnGcm : Obligations.OpenOnGcm := by
  intro s c f d bc hwf hinv hd hf hcode hsep sl E given n input k p tag
  obtain ⟨hchecks, he⟩ := exec_open_of_ok hd hcode hsep
  rw [he, opened_gcm hd hinv hf hchecks]
  refine ⟨fun (hright : TagRight s c f bc) => ⟨_, ?_, length_gcmPlain, stores_writeBytes _ _ p hwf⟩,
    fun (hwrong : ¬TagRight s c f bc) => ⟨_, ?_, stores_writeBytes _ _ _ hwf⟩⟩
  · rw [if_pos hright, openFinish_ofPlain_some, length_gcmPlain]
    rfl
  · rw [if_neg hwrong, openFinish_ofPlain_none]

end Sys2Proof.Machine
end

section
/-! PROOF. When the padding of a legacy record is valid, in the bytes of the record counted from its end (R217,
R218). -/

namespace Sys2Proof.Machine

/-- The content length is the one that goes with the verdict on the padding (R217). -/
theorem padTls_snd (ml : Nat) (d : List Byte) : (padTls ml d).2 = contentLen ml d (padTls ml d).1 := rfl

/-- The same of `PAD_SSL3` (R218). -/
theorem padSsl3_snd (ml b : Nat) (d : List Byte) : (padSsl3 ml b d).2 = contentLen ml d (padSsl3 ml b d).1 := rfl

/-- When `PAD_SSL3` finds valid padding: it fits, and is at most a block (R218). -/
theorem padSsl3_fst_iff (ml b : Nat) (d : List Byte) :
    (padSsl3 ml b d).1 = true ↔ ml + 1 + (padByte d).toNat ≤ d.length ∧ (padByte d).toNat + 1 ≤ b := by
  simp only [padSsl3, Bool.and_eq_true, decide_eq_true_eq]

/-- The padding-length byte is the last byte of the record (R217). -/
theorem padByte_of_getLast? {d : List Byte} {p : Byte} (h : d.getLast? = some p) : padByte d = p := by
  rw [padByte, List.getLastD_eq_getLast?, h, Option.getD_some]

/-- Settles O50: the bytes of the scanned window are those of the record counted from its end. -/
theorem paddingRemoval : Obligations.PaddingRemoval := by
  intro ml b d p hlen hlast
  have hbyte := padByte_of_getLast? hlast
  refine ⟨?_, ?_, ?_, ?_⟩
  · rw [padTls_fst_iff, hbyte]
    refine and_congr_right fun hfits => forall_congr' fun i => ?_
    have hreverse (hi : i < d.reverse.length) : d.reverse[i]? = d[d.length - 1 - i]? :=
      List.getElem?_reverse (List.length_reverse ▸ hi)
    refine ⟨fun h hle => ?_, fun h hi hle => ?_⟩
    · have hi : i < d.reverse.length := by
        rw [List.length_reverse]
        omega
      exact (hreverse hi).symm.trans ((List.getElem_eq_iff hi).1 (h hi hle))
    · exact (List.getElem_eq_iff hi).2 ((hreverse hi).trans (h hle))
  · rw [padTls_snd, contentLen, hbyte]
  · rw [padSsl3_fst_iff, hbyte]
  · rw [padSsl3_snd, contentLen, hbyte]

end Sys2Proof.Machine
end

section
/-! PROOF. `GETSTREAM` as its branches in order (R228). -/

namespace Sys2Proof.Machine

section
variable {s : State} {c : BitVec 8} {d : Descriptor} {sc : ScName} {m : MacName}

/-- `GETSTREAM` on a bound slot that exposes its stream state (R228). -/
theorem exec_getstream_exposed (hbuf : InRange s.x.outp s.x.outmax) (hd : BoundTo s c d)
    (hf : d.family = .stream sc m true) : exec (.getstream c) s =
      if s.x.outmax.toNat < Config.streamStateLen sc then .next (s.failed .bufferTooSmall)
      else .next ({ s with mem := s.mem.writeBytes s.x.outp.toNat (s.slot c).scState }.succeeded
        (Config.streamStateLen sc)) := by
  rw [exec, execGetstream, getstreamOn, onSlot_of_bound hbuf hd, hf]
  exact checked_decide ..

/-- `GETSTREAM` on a bound slot that has no stream state or does not expose it (R228). -/
theorem exec_getstream_unsupported (hbuf : InRange s.x.outp s.x.outmax) (hd : BoundTo s c d)
    (hf : ∀ sc m, d.family ≠ .stream sc m true) : exec (.getstream c) s = .next (s.failed .unsupported) := by
  rw [exec, execGetstream, getstreamOn, onSlot_of_bound hbuf hd]
  split
  next sc m h => exact absurd h (hf sc m)
  next => rfl

/-- The stream state of a bound `STREAM` slot has its cipher's length (R34). -/
theorem BoundTo.length_scState {x : Bool} (hd : BoundTo s c d) (hinv : (s.slot c).Inv)
    (hf : d.family = .stream sc m x) : (s.slot c).scState.length = Config.streamStateLen sc := by
  obtain ⟨-, -, -, -, -, hfields⟩ := hd.liveInv hinv
  simp only [hf] at hfields
  obtain ⟨-, -, -, hlen, -⟩ := hfields
  exact hlen

end

/-- Settles O47: a buffer out of range, a free slot, and the branches on a bound slot. -/
theorem getstreamCopiesTheStreamState : Obligations.GetstreamCopiesTheStreamState := by
  intro s c hwf hc
  refine ⟨fun d sc m hinv hd hf hbuf hroom => ?_, fun hbuf => ?_, fun hbuf hfree => ?_,
    fun d hbuf hd hf => exec_getstream_unsupported hbuf hd hf, fun d sc m hbuf hd hf hshort => ?_⟩
  · rw [exec_getstream_exposed hbuf hd hf, if_neg (Nat.not_lt_of_le hroom)]
    exact ⟨_, rfl, hd.length_scState hinv hf, stores_writeBytes s.mem s.x.outp.toNat _ hwf⟩
  · rw [exec, execGetstream, getstreamOn, onSlot_of_outOfRange hc hbuf]
    rfl
  · rw [exec, execGetstream, getstreamOn, onSlot_of_free hc hbuf hfree]
    rfl
  · rw [exec_getstream_exposed hbuf hd hf, if_pos hshort]

end Sys2Proof.Machine
end

section
/-! PROOF. `SEAL` and `OPEN` on a slot of a legacy family: the block-cipher families with their padding and MAC (R214,
R219) and the stream family, whose stream state moves on (R215, R225). -/

namespace Sys2Proof.Machine

/-! ## The end of an `OPEN` whose checks pass -/

@[simp] theorem length_freeBytes (κ : Cfg) (k n : Nat) : (freeBytes κ k n).length = n := by
  induction n generalizing k with
  | zero => rfl
  | succ n ih => rw [freeBytes, List.length_cons, ih]

section
variable {s : State} {c : BitVec 8} {f : Bool} {d : Descriptor}

/-- The input of an `OPEN` that passes its checks has the shape of the family's records (R168). -/
theorem shapeOk_of_checks (h : firstFailing (openChecks std s.x (s.slot c) d f) = none) :
    shapeOk d s.x.inl.toNat = true := by
  have hshape := (firstFailing_none _).1 h
    (decide (s.x.inl.toNat < minOpen std d (s.slot c)) || !shapeOk d s.x.inl.toNat, .decrypt) (by simp [openChecks])
  obtain ⟨-, hok⟩ := Bool.or_eq_false_iff.1 hshape
  exact Bool.not_eq_false' _ |>.mp hok

/-- An `OPEN` of a good record: the plaintext stands at `OUTP` and no byte beyond the family's reach changes; the bytes
between are free (R168, UD5). -/
theorem exec_open_good {p : List Byte} (hwf : s.mem.wf = true) (hd : BoundTo s c d) (hcode : openCode s c f = .ok)
    (hsep : Separate s.x) (hplain : (opened s c f d).plain = some p) (hle : p.length ≤ (opened s c f d).reach) :
    ∃ m k, exec (.open_ c f) s = .next { (s.setSlot c (opened s c f d).slot).succeeded p.length with
        mem := m, perfCompress := (opened s c f d).perf.1, perfMemacc := (opened s c f d).perf.2, freeCount := k } ∧
      m.readBytes s.x.outp.toNat p.length = p ∧
      ∀ a, a < s.x.outp.toNat ∨ s.x.outp.toNat + (opened s c f d).reach ≤ a → m.read a = s.mem.read a := by
  obtain ⟨-, he⟩ := exec_open_of_ok hd hcode hsep
  rw [openFinish_of_some hplain] at he
  refine ⟨_, _, he, Memory.readBytes_writeBytes_append hwf s.x.outp.toNat p _, fun a ha => ?_⟩
  refine Memory.read_writeBytes_outside s.mem s.x.outp.toNat _ a hwf ?_
  rw [List.length_append, length_freeBytes]
  omega

/-- An `OPEN` of a bad record: the destination is zero (R168, R172). -/
theorem exec_open_bad (hwf : s.mem.wf = true) (hd : BoundTo s c d) (hcode : openCode s c f = .ok)
    (hsep : Separate s.x) (hplain : (opened s c f d).plain = none) :
    ∃ m, exec (.open_ c f) s = .next { (s.setSlot c (opened s c f d).slot).failed .decrypt with
        mem := m, perfCompress := (opened s c f d).perf.1, perfMemacc := (opened s c f d).perf.2 } ∧
      Stores s.mem m s.x.outp.toNat (zeros s.x.outmax.toNat) := by
  obtain ⟨-, he⟩ := exec_open_of_ok hd hcode hsep
  rw [openFinish_of_none hplain] at he
  exact ⟨_, he, stores_writeBytes s.mem s.x.outp.toNat _ hwf⟩

end

/-! ## The block-cipher families -/

/-- A block-cipher legacy family: `CBC_SSL3` or `CBC_TLS` (R30). -/
def cbcFamily (ssl3 : Bool) (bc : BcName) (m : MacName) (b : Nat) : Family :=
  if ssl3 = true then .cbcSsl3 bc m b else .cbcTls bc m b

/-- The padding of a block-cipher legacy family (R211). -/
def cbcPadding (ssl3 : Bool) (ml b n : Nat) : List Byte :=
  if ssl3 = true then padBytesSsl3 ml b n else padBytesTls ml b n

/-- The padding removal of a block-cipher legacy family (R217, R218). -/
def removePadding (ssl3 : Bool) (ml b : Nat) (d : List Byte) : Bool × Nat :=
  if ssl3 = true then padSsl3 ml b d else padTls ml d

theorem length_cbcPadding (ssl3 : Bool) (ml n : Nat) {b : Nat} (hb : 0 < b) :
    (cbcPadding ssl3 ml b n).length = padLen ml b n := by
  cases ssl3 with
  | false => exact length_padBytesTls ml b n
  | true => exact length_padBytesSsl3 ml n hb

/-- The content and the MAC fit a record long enough for the MAC, and a valid padding takes at least a byte more (R217,
R218). -/
theorem removePadding_bounds (ssl3 : Bool) {ml : Nat} (b : Nat) {d : List Byte} (hml : ml ≤ d.length) :
    (removePadding ssl3 ml b d).2 + ml ≤ d.length ∧
      ((removePadding ssl3 ml b d).1 = true → (removePadding ssl3 ml b d).2 + ml + 1 ≤ d.length) := by
  have hsnd : (removePadding ssl3 ml b d).2 = contentLen ml d (removePadding ssl3 ml b d).1 := by
    cases ssl3 with
    | false => exact padTls_snd ml d
    | true => exact padSsl3_snd ml b d
  have hfits : (removePadding ssl3 ml b d).1 = true → ml + 1 + (padByte d).toNat ≤ d.length := by
    cases ssl3 with
    | false => exact fun h => ((padTls_fst_iff ml d).1 h).left
    | true => exact fun h => ((padSsl3_fst_iff ml b d).1 h).left
  rw [hsnd, contentLen]
  split
  next hgood =>
    have hle := hfits hgood
    omega
  next hbad =>
    exact ⟨by omega, fun h => absurd h hbad⟩

/-- Chaining keeps the number of blocks. -/
@[simp] theorem length_cbcDecBlocks (D : Block → Block) (c : Block) (ys : List Block) :
    (cbcDecBlocks D c ys).length = ys.length := by
  induction ys generalizing c with
  | nil => rfl
  | cons y ys ih => rw [cbcDecBlocks, List.length_cons, List.length_cons, ih]

/-- `CBC_DEC` keeps the length of whole blocks (R213). -/
theorem length_cbcDec (D : Block → Block) (iv : Block) (z : List Byte) (h : z.length % 16 = 0) :
    (cbcDec D iv z).length = z.length := by
  rw [cbcDec, length_bytesOfBlocks, length_cbcDecBlocks, ← length_bytesOfBlocks, bytesOfBlocks_blocks z h]

/-- The open part gives the content of a record with valid padding and the right MAC, and nothing of any
other (R219). -/
theorem cbcVerify_eq (κ : Cfg) (m : MacName) (sl : Slot) (a r : List Byte) {pad : Bool × Nat}
    (hfits : pad.2 + κ.macLen m ≤ r.length) :
    cbcVerify κ m sl a r pad =
      if pad.1 = true ∧ macF κ m sl.macKey (a ++ be16 pad.2 ++ r.take pad.2) = (r.drop pad.2).take (κ.macLen m) then
        some (r.take pad.2)
      else none := by
  have hlen : (macF κ m sl.macKey (a ++ be16 pad.2 ++ r.take pad.2)).length =
      ((r.drop pad.2).take (κ.macLen m)).length := by
    rw [macF, Vector.length_toList, List.length_take, List.length_drop]
    omega
  have hheader : be16 (pad.2 % 2 ^ 16) = be16 pad.2 := be_mod 2 pad.2
  simp only [cbcVerify, macCt, hheader, Bool.and_eq_true, ctEq_iff hlen]

section
variable {s : State} {c : BitVec 8} {d : Descriptor} {bc : BcName} {mac : MacName} {b : Nat} {ssl3 : Bool}

/-- The block size and the overhead of a block-cipher legacy descriptor (R30, R212). -/
theorem BoundTo.cbc (hd : BoundTo s c d) (hf : d.family = cbcFamily ssl3 bc mac b) :
    b = 16 ∧ d.overhead = std.macLen mac + b := by
  obtain ⟨⟨-, -, -, -, hfam⟩, -⟩ := descriptor_lawful hd.2.2
  cases ssl3 <;> simp only [cbcFamily, if_true, Bool.false_eq_true, if_false] at hf <;> simp only [hf] at hfam
  all_goals
    obtain ⟨-, -, hb, hover, -⟩ := hfam
    exact ⟨hb, hover⟩

/-- What a `SEAL` on a block-cipher legacy slot writes at `OUTP` (R214). -/
def cbcOutput (s : State) (c : BitVec 8) (ssl3 : Bool) (bc : BcName) (mac : MacName) (b : Nat) : List Byte :=
  cbcSeal std bc mac (s.slot c) (s.readBuf s.x.nonp s.x.nonl) (s.readBuf s.x.adp s.x.adl) (s.readBuf s.x.inp s.x.inl)
    (cbcPadding ssl3 (std.macLen mac) b s.x.inl.toNat)

/-- The seal part of a block-cipher legacy slot leaves the slot alone (R214, R226). -/
theorem sealed_cbc (hf : d.family = cbcFamily ssl3 bc mac b) :
    sealed s c false d = (cbcOutput s c ssl3 bc mac b, s.slot c) := by
  rw [sealed, sealPart, hf, cbcOutput, ← s.length_readBuf s.x.inp s.x.inl]
  cases ssl3 <;> rfl

/-- The record that the input of an `OPEN` on a block-cipher legacy slot decrypts to (R219). -/
def cbcDecrypted (s : State) (c : BitVec 8) (bc : BcName) : List Byte :=
  cbcRecord std bc (s.slot c) (s.readBuf s.x.nonp s.x.nonl) (s.readBuf s.x.inp s.x.inl)

/-- The record has the length of the input, and room for a MAC and a byte of padding (R168, R213). -/
theorem length_cbcDecrypted (hd : BoundTo s c d) (hf : d.family = cbcFamily ssl3 bc mac b)
    (hchecks : firstFailing (openChecks std s.x (s.slot c) d false) = none) :
    (cbcDecrypted s c bc).length = s.x.inl.toNat ∧ std.macLen mac + 1 ≤ s.x.inl.toNat := by
  obtain ⟨rfl, -⟩ := hd.cbc hf
  have hmin := minOpen_le hchecks
  have hshape := shapeOk_of_checks hchecks
  obtain ⟨hminOpen, hshapeOk⟩ : minOpen std d (s.slot c) = std.macLen mac + 1 ∧
      shapeOk d s.x.inl.toNat = decide (s.x.inl.toNat % 16 = 0) := by
    rw [minOpen, shapeOk, hf]
    cases ssl3 <;> exact ⟨rfl, rfl⟩
  rw [hminOpen] at hmin
  rw [hshapeOk, decide_eq_true_iff, ← s.length_readBuf s.x.inp s.x.inl] at hshape
  exact ⟨(length_cbcDec _ _ _ hshape).trans (s.length_readBuf ..), hmin⟩

/-- The open part of a block-cipher legacy slot (R219 to R222). -/
theorem opened_cbc (hf : d.family = cbcFamily ssl3 bc mac b) :
    opened s c false d =
      { plain := cbcVerify std mac (s.slot c) (s.readBuf s.x.adp s.x.adl) (cbcDecrypted s c bc)
          (removePadding ssl3 (std.macLen mac) b (cbcDecrypted s c bc))
        slot := s.slot c
        perf := std.ctCount d s.x.inl.toNat s.x.adl.toNat
        reach := s.x.inl.toNat } := by
  rw [opened, openPart, hf, ← s.length_readBuf s.x.inp s.x.inl, ← s.length_readBuf s.x.adp s.x.adl]
  cases ssl3 <;> rfl

end

/-- Settles O43: the record, its MAC and its padding are whole blocks, which chaining keeps. -/
theorem sealOnCbc : Obligations.SealOnCbc := by
  intro s c d bc mac b ssl3 hwf hd hf hcode hsep sl p a tag q padding out
  obtain ⟨rfl, hover⟩ := hd.cbc hf
  obtain ⟨-, hle, hwhole⟩ := padLen_bounds (std.macLen mac) s.x.inl.toNat (b := 16) (by decide)
  have hlen : (cbcOutput s c ssl3 bc mac 16).length =
      s.x.inl.toNat + std.macLen mac + padLen (std.macLen mac) 16 s.x.inl.toNat := by
    have hpad := length_cbcPadding ssl3 (std.macLen mac) s.x.inl.toNat (b := 16) (by decide)
    rw [← s.length_readBuf s.x.inp s.x.inl] at hpad ⊢
    rw [cbcOutput, ← s.length_readBuf s.x.inp s.x.inl]
    exact length_cbcSeal hpad
  obtain ⟨-, he⟩ := exec_seal_of_ok hd hcode hsep nofun
  rw [sealed_cbc hf, sealFixed_false_slot] at he
  refine ⟨_, he, hlen, ?_, ?_, stores_writeBytes s.mem s.x.outp.toNat out hwf⟩
  · exact hlen ▸ hwhole
  · refine hlen.trans_le ?_
    omega

/-- Settles O44: the open part gives the content exactly when padding and MAC are both right. -/
theorem openOnCbc : Obligations.OpenOnCbc := by
  intro s c d bc mac b ssl3 hwf hd hf hcode hsep sl a rec_ pad n macok counts
  obtain ⟨hchecks, -⟩ := exec_open_of_ok hd hcode hsep
  obtain ⟨hlen, hmin⟩ : rec_.length = s.x.inl.toNat ∧ std.macLen mac + 1 ≤ s.x.inl.toNat :=
    length_cbcDecrypted hd hf hchecks
  obtain ⟨hfits, hgood⟩ : n + std.macLen mac ≤ rec_.length ∧
      (pad.1 = true → n + std.macLen mac + 1 ≤ rec_.length) :=
    removePadding_bounds ssl3 b (Nat.le_of_lt (hmin.trans_eq hlen.symm))
  have hopened := opened_cbc (s := s) (c := c) hf
  have hplain : (opened s c false d).plain = if pad.1 = true ∧ macok then some (rec_.take n) else none :=
    (congrArg Opened.plain hopened).trans (cbcVerify_eq std mac sl a rec_ hfits)
  have hslot : s.setSlot c (opened s c false d).slot = s := by
    rw [hopened]
    exact s.setSlot_slot c
  have hperf : (opened s c false d).perf = counts := congrArg Opened.perf hopened
  have hreach : (opened s c false d).reach = s.x.inl.toNat := congrArg Opened.reach hopened
  refine ⟨fun hpad hmac => ?_, fun hbad => ?_⟩
  · have hn : n + std.macLen mac + 1 ≤ s.x.inl.toNat := (hgood hpad).trans_eq hlen
    have htake : (rec_.take n).length = n := List.length_take_of_le (by omega)
    rw [if_pos ⟨hpad, hmac⟩] at hplain
    obtain ⟨m, k, he, hread, hframe⟩ := exec_open_good hwf hd hcode hsep hplain (by omega)
    rw [hslot, hperf, htake] at he
    rw [htake] at hread
    rw [hreach] at hframe
    exact ⟨_, he, rfl, hn, hread, hframe⟩
  · rw [if_neg hbad] at hplain
    obtain ⟨m, he, hzero⟩ := exec_open_bad hwf hd hcode hsep hplain
    rw [hslot, hperf] at he
    exact ⟨m, he, hzero⟩

/-! ## The stream family -/

/-- The stream cipher keeps the length (R5). -/
@[simp] theorem length_scXor (κ : Cfg) (sc : ScName) (st n z : List Byte) : (scXor κ sc st n z).length = z.length :=
  length_selfInverse ..

/-- The open part of `STREAM` gives the content when the MAC that follows it is right; the stream state moves on either
way (R225, R226). -/
theorem streamOpen_eq (κ : Cfg) (sc : ScName) (m : MacName) (sl : Slot) (n a : List Byte) {z : List Byte}
    (hml : κ.macLen m ≤ z.length) :
    let r := scXor κ sc sl.scState n z
    let k := z.length - κ.macLen m
    streamOpen κ sc m sl n a z =
      (if recMac κ m sl a (r.take k) = r.drop k then some (r.take k) else none, scNextState κ sc sl.scState n z) := by
  intro r k
  have hlen : (recMac κ m sl a (r.take k)).length = (r.drop k).length := by
    rw [length_recMac, List.length_drop, length_scXor]
    omega
  exact congrArg (·, scNextState κ sc sl.scState n z) (if_congr (ctEq_iff hlen) rfl rfl)

section
variable {s : State} {c : BitVec 8} {d : Descriptor} {sc : ScName} {mac : MacName} {x : Bool}

/-- The slot after a `SEAL` or `OPEN` that ran the stream cipher on `z` (R215, R225). -/
def streamAdvanced (s : State) (c : BitVec 8) (sc : ScName) (z : List Byte) : Slot :=
  { s.slot c with scState := scNextState std sc (s.slot c).scState (s.readBuf s.x.nonp s.x.nonl) z }

/-- The plaintext and its MAC, which a `SEAL` on a stream slot encrypts (R215). -/
def streamPlain (s : State) (c : BitVec 8) (mac : MacName) : List Byte :=
  s.readBuf s.x.inp s.x.inl ++ recMac std mac (s.slot c) (s.readBuf s.x.adp s.x.adl) (s.readBuf s.x.inp s.x.inl)

/-- The stream cipher's output on `z` under the nonce of the command (R215, R225). -/
def streamXor (s : State) (c : BitVec 8) (sc : ScName) (z : List Byte) : List Byte :=
  scXor std sc (s.slot c).scState (s.readBuf s.x.nonp s.x.nonl) z

/-- The seal part of a stream slot (R215). -/
theorem sealed_stream (hf : d.family = .stream sc mac x) :
    sealed s c false d = (streamXor s c sc (streamPlain s c mac), streamAdvanced s c sc (streamPlain s c mac)) := by
  rw [sealed, sealPart, hf]
  rfl

/-- The output of a `SEAL` on a stream slot is the MAC longer than its input (R215). -/
theorem length_streamXor_streamPlain :
    (streamXor s c sc (streamPlain s c mac)).length = s.x.inl.toNat + std.macLen mac := by
  rw [streamXor, length_scXor, streamPlain, List.length_append, length_recMac, State.length_readBuf]

/-- The MAC of the decrypted record compares equal (R225). -/
abbrev StreamMacRight (s : State) (c : BitVec 8) (sc : ScName) (mac : MacName) : Prop :=
  let r := streamXor s c sc (s.readBuf s.x.inp s.x.inl)
  let k := s.x.inl.toNat - std.macLen mac
  recMac std mac (s.slot c) (s.readBuf s.x.adp s.x.adl) (r.take k) = r.drop k

/-- The open part of a stream slot whose input is at least a MAC (R168, R225). -/
theorem opened_stream (hf : d.family = .stream sc mac x)
    (hchecks : firstFailing (openChecks std s.x (s.slot c) d false) = none) :
    opened s c false d =
      { plain :=
          if StreamMacRight s c sc mac then
            some ((streamXor s c sc (s.readBuf s.x.inp s.x.inl)).take (s.x.inl.toNat - std.macLen mac))
          else none
        slot := streamAdvanced s c sc (s.readBuf s.x.inp s.x.inl)
        perf := (0, 0)
        reach := s.x.inl.toNat } := by
  have hmin := minOpen_le hchecks
  rw [minOpen, hf, ← s.length_readBuf s.x.inp s.x.inl] at hmin
  have hopen := streamOpen_eq std sc mac (s.slot c) (s.readBuf s.x.nonp s.x.nonl) (s.readBuf s.x.adp s.x.adl) hmin
  simp only [State.length_readBuf] at hopen
  rw [opened, openPart, hf]
  simp only [openNonce, Bool.false_eq_true, if_false, hopen, State.length_readBuf]
  rfl

end

/-- Settles O45: the seal part and both ends of the open part write the slot with the cipher's next state. -/
theorem sealAndOpenOnStream : Obligations.SealAndOpenOnStream := by
  intro s c d sc mac x hwf hd hf hsep sl input a n recMac plain out rec_ k
  refine ⟨fun hcode => ?_, fun hcode hmac => ?_, fun hcode hmac => ?_⟩
  · obtain ⟨-, he⟩ := exec_seal_of_ok hd hcode hsep nofun
    rw [sealed_stream hf, length_streamXor_streamPlain] at he
    exact ⟨_, he, rfl, length_streamXor_streamPlain, stores_writeBytes s.mem s.x.outp.toNat out hwf,
      .of_setSlot (u := s) rfl rfl fun _ _ => rfl⟩
  · obtain ⟨hchecks, -⟩ := exec_open_of_ok hd hcode hsep
    have hopened := opened_stream hf hchecks
    have hplain : (opened s c false d).plain = some (rec_.take k) :=
      (congrArg Opened.plain hopened).trans (if_pos hmac)
    have hk : k ≤ s.x.inl.toNat := Nat.sub_le ..
    have hrec : rec_.length = s.x.inl.toNat := (length_scXor ..).trans (s.length_readBuf ..)
    have htake : (rec_.take k).length = k := List.length_take_of_le (hk.trans_eq hrec.symm)
    have hreach : (opened s c false d).reach = s.x.inl.toNat := congrArg Opened.reach hopened
    obtain ⟨m, j, he, hread, hframe⟩ := exec_open_good hwf hd hcode hsep hplain (by rwa [htake, hreach])
    rw [hopened, htake] at he
    rw [htake] at hread
    rw [hreach] at hframe
    exact ⟨_, he, rfl, hread, hframe, .of_setSlot (u := s) rfl rfl fun _ _ => rfl⟩
  · obtain ⟨hchecks, -⟩ := exec_open_of_ok hd hcode hsep
    have hopened := opened_stream hf hchecks
    have hplain : (opened s c false d).plain = none := (congrArg Opened.plain hopened).trans (if_neg hmac)
    obtain ⟨m, he, hzero⟩ := exec_open_bad hwf hd hcode hsep hplain
    rw [hopened] at he
    exact ⟨_, he, rfl, hzero, .of_setSlot (u := s) rfl rfl fun _ _ => rfl⟩

end Sys2Proof.Machine
end

section
/-! PROOF. `SEAL` and `OPEN` on a key-wrap slot (R242, R245, R246), and the inverse of wrapping that the spec derives
(R248). -/

namespace Sys2Proof.Machine

/-! ## The construction -/

/-- Settles O51: unwrapping a wrapped key gives the input back exactly when the initial values agree. -/
theorem unwrapInvertsWrap : Obligations.UnwrapInvertsWrap := by
  intro π iv iv' p hp
  refine ⟨length_kwWrap π iv hp, ?_, fun hne => ?_⟩
  · rw [kwUnwrap_kwWrap π iv iv hp, if_pos rfl]
  · rw [kwUnwrap_kwWrap π iv iv' hp, if_neg hne.symm]

@[simp] theorem length_kwUnwrapRound (D : Block → Block) (n j i : Nat) (a : Semiblock) (rs : List Semiblock) :
    (kwUnwrapRound D n j i a rs).2.length = rs.length := by
  induction rs generalizing i with
  | nil => rfl
  | cons r rs ih => simp only [kwUnwrapRound, List.length_cons, ih]

theorem length_kwUnwrapRounds (D : Block → Block) (n : Nat) (st : Semiblock × List Semiblock) :
    (kwUnwrapRounds D n st).2.length = st.2.length := by
  unfold kwUnwrapRounds
  induction (List.range 6).reverse generalizing st with
  | nil => rfl
  | cons j js ih => rw [List.foldl_cons, ih, length_kwUnwrapRound]

/-- What unwrapping gives is a semiblock shorter (R244). -/
theorem length_kwUnwrap {D : Block → Block} {iv : Semiblock} {z p : List Byte} (hz : z.length % 8 = 0)
    (h : kwUnwrap D iv z = some p) : p.length = z.length - 8 := by
  have hrest : (z.drop 8).length = z.length - 8 := List.length_drop
  have hlen : 8 * (semiblocks (z.drop 8)).length = z.length - 8 := by
    rw [← length_flatMap_semiBytes, flatMap_semiBytes_semiblocks (by omega), hrest]
  simp only [kwUnwrap, Option.ite_none_right_eq_some] at h
  obtain ⟨-, hp⟩ := h
  rw [← Option.some.inj hp, length_flatMap_semiBytes, length_kwUnwrapRounds, hlen]

/-! ## The command on a slot -/

section
variable {s : State} {c : BitVec 8} {d : Descriptor} {bc : BcName}

theorem isKeywrap_of_family (hf : d.family = .keywrap bc) : isKeywrap d = true := by rw [isKeywrap, hf]

/-- The common prologue admits two nonce lengths on a key-wrap slot (R165, R166). -/
theorem nonl_of_prologue {other : Dir} {e : StatusCode} {rest : List (Bool × StatusCode)} (hf : d.family = .keywrap bc)
    (h : firstFailing (prologueChecks s.x (s.slot c) d false other e ++ rest) = none) :
    s.x.nonl.toNat = 8 ∨ s.x.nonl = 0 := by
  have hnonce := (firstFailing_none _).1 h (!nonceOk d s.x.nonl.toNat false, .badNonceLength)
    (by simp [prologueChecks])
  have hok : nonceOk d s.x.nonl.toNat false = true := Bool.not_eq_false' _ |>.mp hnonce
  simp only [nonceOk, isKeywrap_of_family hf, if_true, Bool.false_eq_true, if_false, Bool.or_eq_true,
    decide_eq_true_eq] at hok
  exact hok.imp_right fun hzero => BitVec.eq_of_toNat_eq hzero

/-- The initial value of a command: the default without a nonce, otherwise the nonce (R242). -/
def kwInitial (s : State) : Semiblock :=
  if s.x.nonl = 0 then 0xA6A6A6A6A6A6A6A6 else semiOf (s.readBuf s.x.nonp s.x.nonl)

/-- `KW_IV` of the nonce buffer, at the lengths the prologue admits (R242). -/
theorem kwIv_readBuf (h : s.x.nonl.toNat = 8 ∨ s.x.nonl = 0) :
    kwIv std (s.readBuf s.x.nonp s.x.nonl) = kwInitial s := by
  rw [kwIv, State.length_readBuf, kwInitial]
  obtain height | hzero := h
  · have hne : s.x.nonl ≠ 0 := fun hzero => by simp [hzero] at height
    rw [if_pos height, if_neg hne]
  · rw [if_pos hzero, hzero]
    rfl

/-- The seal part of a key-wrap slot wraps the input and leaves the slot alone (R245). -/
theorem sealed_keywrap (hf : d.family = .keywrap bc)
    (hchecks : firstFailing (sealChecks std s.x (s.slot c) d false) = none) :
    sealed s c false d =
      (kwWrap (std.bc bc (s.slot c).encKey) (kwInitial s) (s.readBuf s.x.inp s.x.inl), s.slot c) := by
  rw [sealed, sealPart, hf, ← kwIv_readBuf (nonl_of_prologue hf hchecks)]
  rfl

/-- The open part of a key-wrap slot unwraps the input and leaves the slot alone (R246). -/
theorem opened_keywrap (hf : d.family = .keywrap bc)
    (hchecks : firstFailing (openChecks std s.x (s.slot c) d false) = none) :
    opened s c false d = .ofPlain (s.slot c)
      (kwUnwrap (std.bc bc (s.slot c).encKey).symm (kwInitial s) (s.readBuf s.x.inp s.x.inl)) := by
  rw [opened, openPart, hf, ← kwIv_readBuf (nonl_of_prologue hf hchecks)]
  rfl

/-- The input of an `OPEN` on a key-wrap slot that passes its checks is whole semiblocks (R168). -/
theorem inl_wholeSemiblocks (hf : d.family = .keywrap bc)
    (hchecks : firstFailing (openChecks std s.x (s.slot c) d false) = none) : s.x.inl.toNat % 8 = 0 := by
  have hshape := shapeOk_of_checks hchecks
  rw [shapeOk, hf] at hshape
  exact of_decide_eq_true hshape

end

/-- Settles O46: the wrapped key at `OUTP`, and the end of `OPEN` on what unwrapping gives. -/
theorem sealAndOpenOnKeywrap : Obligations.SealAndOpenOnKeywrap := by
  intro s c d bc hwf hd hf hsep E input iv
  have hinput : input.length = s.x.inl.toNat := s.length_readBuf ..
  refine ⟨fun hcode => ?_, fun hcode p hplain => ?_, fun hcode hplain => ?_⟩
  · obtain ⟨hchecks, he⟩ := exec_seal_of_ok hd hcode hsep nofun
    obtain ⟨-, -, hwhole⟩ := seal_lengths hchecks
    have hlen : (kwWrap E iv input).length = s.x.inl.toNat + 8 := by
      rw [length_kwWrap E iv (by rw [hinput, hwhole (isKeywrap_of_family hf)]), hinput]
    have hsealed : sealed s c false d = (kwWrap E iv input, s.slot c) := sealed_keywrap hf hchecks
    rw [hsealed, sealFixed_false_slot, hlen] at he
    exact ⟨_, he, hlen, stores_writeBytes s.mem s.x.outp.toNat _ hwf⟩
  · obtain ⟨hchecks, he⟩ := exec_open_of_ok hd hcode hsep
    have hlen : p.length = s.x.inl.toNat - 8 := by
      rw [length_kwUnwrap (by rw [hinput, inl_wholeSemiblocks hf hchecks]) hplain, hinput]
    have hopened : opened s c false d = .ofPlain (s.slot c) (some p) :=
      (opened_keywrap hf hchecks).trans (congrArg _ hplain)
    rw [hopened, openFinish_ofPlain_some, hlen] at he
    exact ⟨_, he, hlen, stores_writeBytes s.mem s.x.outp.toNat p hwf⟩
  · obtain ⟨hchecks, he⟩ := exec_open_of_ok hd hcode hsep
    have hopened : opened s c false d = .ofPlain (s.slot c) none :=
      (opened_keywrap hf hchecks).trans (congrArg _ hplain)
    rw [hopened, openFinish_ofPlain_none] at he
    exact ⟨_, he, stores_writeBytes s.mem s.x.outp.toNat _ hwf⟩

end Sys2Proof.Machine
end

section
/-! PROOF. What a command can make of `CAP` and of the direct multiplier and counter units, said once (`GhMove`,
`CtrMove`), and their invariants from it (R33, R40, R41, R110, R255). -/

namespace Sys2Proof.Machine

/-! ## `CAP` -/

/-- `INIT` keeps `CAP` or latches it, as its word is illegal or legal (R33, R164). -/
theorem init_cap_kept_or_latched (s : State) (c id : BitVec 8) (o : Bool) :
    Ends (fun t => t.cap = s.cap ∨ t.cap = s.latched) (exec (.init c id o) s) := by
  simp only [exec, execInit, initOn]
  split
  · exact .next (.inl rfl)
  · split
    · exact .next (.inl rfl)
    · exact checked_elim (fun _ => .next (.inr (State.latchCap_std_cap s))) fun _ =>
        .next (.inr (State.latchCap_std_cap s))

/-- A command keeps `CAP` or latches it (R33). -/
theorem exec_cap_kept_or_latched {i : Instr} {s t : State} (h : exec i s = .next t) :
    t.cap = s.cap ∨ t.cap = s.latched := by
  cases i with
  | init c id o => exact init_cap_kept_or_latched s c id o t h
  | gcmKey => exact .inr (gcmKey_cap s t h)
  | ghLoadh => exact .inr (ghLoadh_cap s t h)
  | _ => exact .inl ((exec_commandFrame h).cap rfl)

/-- The invariant of `CAP`: not latched, or as latched from the probe (R33). -/
def CapInv (cap : BitVec 32) : Prop := cap = 0 ∨ cap = (Config.probe &&& 0x3) ||| 0x80000000

/-- The latch leaves `CAP` latched from the probe (R33). -/
theorem CapInv.latched {s : State} (h : CapInv s.cap) : CapInv s.latched := by
  unfold State.latched
  split
  · exact h
  · exact .inr rfl

/-! ## The multiplier unit -/

/-- What a command can make of the multiplier unit `g`: leave it, load a subkey with its table (R110), or set the
accumulator of a loaded one (R111 to R113). -/
inductive GhMove (g : GhUnit) : GhUnit → Prop
  | kept : GhMove g g
  | loaded {h : Block} {impl : BitVec 4} (himpl : impl.toNat ≤ 3) :
      GhMove g { valid := true, h := h, htable := ghTable h, x := 0, impl := impl }
  | accumulated {x : Block} (hvalid : g.valid = true) : GhMove g { g with x := x }

/-- The invariant of the multiplier unit (R40, R110). -/
def GhUnit.Inv (g : GhUnit) : Prop :=
  if g.valid = true then g.htable = ghTable g.h ∧ g.impl.toNat ≤ 3 else g = {}

/-- What a command makes of a multiplier unit that meets the invariant meets it. -/
theorem GhMove.inv {g g' : GhUnit} (hmove : GhMove g g') (h : g.Inv) : g'.Inv := by
  cases hmove with
  | kept => exact h
  | loaded himpl => exact ⟨rfl, himpl⟩
  | accumulated hvalid =>
    unfold GhUnit.Inv at h ⊢
    rw [if_pos hvalid] at h ⊢
    exact h

/-- Everything a command can make of the multiplier unit. -/
theorem exec_ghMove (i : Instr) (s : State) : Ends (fun t => GhMove s.gh t.gh) (exec i s) := by
  cases i with
  | ghLoadh =>
    rw [exec_ghLoadh]
    exact .ite (fun _ => .next .kept) fun _ => .ite (fun _ => .next .kept) fun _ => .next (.loaded (selectImpl_le _))
  | ghMul =>
    rw [exec_ghMul]
    exact .ite (fun _ => .next .kept) fun hvalid => .next (.accumulated (Bool.eq_true_of_not_eq_false hvalid))
  | ghLoadx | ghHash =>
    simp only [exec_ghLoadx, exec_ghHash]
    exact .ite (fun _ => .next .kept) fun hvalid => .ite (fun _ => .next .kept) fun _ =>
      .ite (fun _ => .next .kept) fun _ => .next (.accumulated (Bool.eq_true_of_not_eq_false hvalid))
  | _ =>
    intro t h
    rw [(exec_commandFrame h).gh rfl]
    exact .kept

/-! ## The counter unit -/

/-- What a command can make of the counter unit `c`: leave it, clear it (R143), or load or advance it (R124, R125). -/
inductive CtrMove (c : CtrUnit) : CtrUnit → Prop
  | kept : CtrMove c c
  | cleared : CtrMove c {}
  | running {c' : CtrUnit} (hvalid : c'.valid = true) : CtrMove c c'

/-- The invariant of the counter unit (R41). -/
def CtrUnit.Inv (c : CtrUnit) : Prop := c.valid = false → c = {}

/-- What a command makes of a counter unit that meets the invariant meets it. -/
theorem CtrMove.inv {c c' : CtrUnit} (hmove : CtrMove c c') (h : c.Inv) : c'.Inv := by
  cases hmove with
  | kept => exact h
  | cleared => exact fun _ => rfl
  | running hvalid => exact fun hfree => nomatch hvalid.symm.trans hfree

/-- Everything a command can make of the counter unit. -/
theorem exec_ctrMove (i : Instr) (s : State) : Ends (fun t => CtrMove s.ctr t.ctr) (exec i s) := by
  cases i with
  | gcmClear => exact .next .cleared
  | ctrLoad =>
    rw [exec_ctrLoad]
    exact .ite (fun _ => .next .kept) fun _ => .ite (fun _ => .next .kept) fun _ => .next (.running rfl)
  | ctrXor =>
    rw [exec_ctrXor]
    refine .ite (fun _ => .next .kept) fun hready => .ite (fun _ => .next .kept) fun _ =>
      .ite (fun _ => .next .kept) fun _ => .next (.running ?_)
    exact Bool.eq_true_of_not_eq_false fun hvalid => hready (.inr hvalid)
  | _ =>
    intro t h
    rw [(exec_commandFrame h).ctr rfl]
    exact .kept

/-! ## The units together -/

/-- The invariant of the units by its parts. -/
theorem State.unitInv_iff (s : State) :
    s.UnitInv ↔ s.status.toNat ≤ 14 ∧ CapInv s.cap ∧ s.gh.Inv ∧ s.ctr.Inv := Iff.rfl

/-- Every command keeps the invariants of `STATUS`, `CAP` and the units. -/
theorem exec_unitInv {i : Instr} {s t : State} (hs : s.UnitInv) (h : exec i s = .next t) : t.UnitInv := by
  obtain ⟨-, hcap, hgh, hctr⟩ := s.unitInv_iff.1 hs
  refine t.unitInv_iff.2
    ⟨(exec_commandFrame h).status, ?_, (exec_ghMove i s t h).inv hgh, (exec_ctrMove i s t h).inv hctr⟩
  obtain hkept | hlatched := exec_cap_kept_or_latched h
  · exact hkept ▸ hcap
  · exact hlatched ▸ hcap.latched

/-- Settles O58: a command leaves a code in `STATUS`, keeps or latches `CAP` and moves the units as `GhMove` and
`CtrMove` list; an illegal word changes `STATUS` only. -/
theorem everyStepKeepsTheUnits : Obligations.EveryStepKeepsTheUnits := by
  intro s t hs hstep
  have hbad (s : State) (h : s.UnitInv) : s.badCommand.UnitInv := by
    obtain ⟨-, hrest⟩ := h
    exact ⟨StatusCode.badCommand.toNat_code_le, hrest⟩
  have hreset (s : State) : s.resetBlock.UnitInv := ⟨Nat.zero_le _, .inl rfl, rfl, fun _ => rfl⟩
  exact step_keeps (P := State.UnitInv) (fun _ _ _ _ _ h => h) hbad hreset (fun _ _ _ => exec_unitInv) hs hstep

end Sys2Proof.Machine
end

section
/-! PROOF. How a command fails, said once (`FailsFrom`, R257): it raises a code from the state that its own part has
reached, which is the state before it but for the counters, the latched `CAP`, the scrubbed slot of an `INIT`, what the
construction of an `OPEN` leaves, and the finished engine. From it: the codes each command can raise (R262). -/

namespace Sys2Proof.Machine

/-! ## The codes of a command -/

/-- The commands whose failure zero-fills a destination (R257). -/
def hasDest : Instr → Bool
  | .seal_ _ _ | .open_ _ _ => true
  | _ => false

/-- A code that a check of command `i` can raise: one that R262 lists for it, other than that of an illegal word. -/
def Listed (i : Instr) (e : StatusCode) : Prop := e ≠ .badCommand ∧ e.code.toNat ∈ codesOf i

/-- Every command lists the code of an illegal word (R83, R262). -/
theorem badCommand_mem_codesOf (i : Instr) : StatusCode.badCommand.code.toNat ∈ codesOf i := by
  cases i <;> exact .head _

/-- The code that decides, when it is not `ok`, is that of a check that fails (R163, R261). -/
theorem mem_of_code {cs : List (Bool × StatusCode)} {e : StatusCode} (h : e = (firstFailing cs).getD .ok)
    (hne : e ≠ .ok) : (true, e) ∈ cs := by
  cases hfirst : firstFailing cs with
  | none => exact absurd (h.trans (congrArg (Option.getD · .ok) hfirst)) hne
  | some e' =>
    rw [hfirst, Option.getD_some] at h
    exact h ▸ firstFailing_mem cs e' hfirst

/-- Where a code `e` of a command on slot `c` comes from: the range of the buffers, a slot that is not live, or a check
on the slot's descriptor (R163, R166). -/
inductive CodeFrom (s : State) (c : BitVec 8) (checks : Descriptor → List (Bool × StatusCode)) : StatusCode → Prop
  | address : CodeFrom s c checks .badAddress
  | free : CodeFrom s c checks .state
  | check {d : Descriptor} {e : StatusCode} (hlive : (s.slot c).live = true)
      (hd : descriptor std (s.slot c).desc = some d) (he : (true, e) ∈ checks d) : CodeFrom s c checks e

section
variable {i : Instr} {s : State} {c : BitVec 8} {f : Bool}

/-- The sources of a code, from what the code is in each of the three cases. -/
theorem CodeFrom.of_cases {checks : Descriptor → List (Bool × StatusCode)} {e : StatusCode} (hne : e ≠ .ok)
    (haddress : ¬BufsInRange s.x → e = .badAddress)
    (hunknown : BufsInRange s.x → descriptor std (s.slot c).desc = none → e = .state)
    (hfree : BufsInRange s.x → ∀ d, descriptor std (s.slot c).desc = some d → (s.slot c).live = false → e = .state)
    (hchecks : BufsInRange s.x → ∀ d, descriptor std (s.slot c).desc = some d → (s.slot c).live = true →
      e = (firstFailing (checks d)).getD .ok) : CodeFrom s c checks e := by
  by_cases hbufs : BufsInRange s.x
  · cases hd : descriptor std (s.slot c).desc with
    | none => exact hunknown hbufs hd ▸ .free
    | some d =>
      cases hlive : (s.slot c).live with
      | false => exact hfree hbufs d hd hlive ▸ .free
      | true => exact .check hlive hd (mem_of_code (hchecks hbufs d hd hlive) hne)
  · exact haddress hbufs ▸ .address

/-- Where a code of `SEAL` comes from. -/
theorem sealCode_from (h : sealCode s c f ≠ .ok) :
    CodeFrom s c (fun d => sealChecks std s.x (s.slot c) d f) (sealCode s c f) :=
  .of_cases h (fun hbufs => by rw [sealCode, if_pos hbufs])
    (fun hbufs hd => by rw [sealCode, if_neg (not_not.2 hbufs), hd])
    (fun hbufs d hd hlive => by rw [sealCode, if_neg (not_not.2 hbufs), hd]; exact if_pos hlive)
    fun hbufs d hd hlive => sealCode_eq s c f d hd hlive hbufs

/-- Where a code of `OPEN` comes from. -/
theorem openCode_from (h : openCode s c f ≠ .ok) :
    CodeFrom s c (fun d => openChecks std s.x (s.slot c) d f) (openCode s c f) :=
  .of_cases h (fun hbufs => by rw [openCode, if_pos hbufs])
    (fun hbufs hd => by rw [openCode, if_neg (not_not.2 hbufs), hd])
    (fun hbufs d hd hlive => by rw [openCode, if_neg (not_not.2 hbufs), hd]; exact if_pos hlive)
    fun hbufs d hd hlive => openCode_eq s c f d hd hlive hbufs

/-- A code from any of the three sources is listed, if those of the checks are. -/
theorem CodeFrom.listed {checks : Descriptor → List (Bool × StatusCode)} {e : StatusCode} (h : CodeFrom s c checks e)
    (haddress : Listed i .badAddress) (hstate : Listed i .state) (hchecks : ∀ d, ∀ q ∈ checks d, Listed i q.2) :
    Listed i e := by
  cases h with
  | address => exact haddress
  | free => exact hstate
  | check _ _ he => exact hchecks _ _ he

/-- R262 lists the codes of `SEAL`. -/
theorem sealCode_listed (h : sealCode s c f ≠ .ok) : Listed (.seal_ c f) (sealCode s c f) := by
  refine (sealCode_from h).listed ?_ ?_ fun d => ?_
  all_goals simp [Listed, codesOf, StatusCode.code, sealChecks, prologueChecks]

/-- R262 lists the codes of `OPEN`. -/
theorem openCode_listed (h : openCode s c f ≠ .ok) : Listed (.open_ c f) (openCode s c f) := by
  refine (openCode_from h).listed ?_ ?_ fun d => ?_
  all_goals simp [Listed, codesOf, StatusCode.code, openChecks, prologueChecks]

/-- `SEAL` refuses an input length on a key-wrap slot only (R167). -/
theorem isKeywrap_of_sealCode (h : sealCode s c f = .badInputLength) :
    ∃ d, (s.slot c).live = true ∧ descriptor std (s.slot c).desc = some d ∧ isKeywrap d = true := by
  have hfrom := sealCode_from (s := s) (c := c) (f := f) (h ▸ nofun)
  rw [h] at hfrom
  cases hfrom with
  | check hlive hd he =>
    refine ⟨_, hlive, hd, ?_⟩
    simp only [sealChecks, prologueChecks, List.cons_append, List.nil_append, List.mem_cons, Prod.mk.injEq,
      reduceCtorEq, and_false, and_true, false_or, or_false, List.not_mem_nil] at he
    obtain ⟨hkeywrap, -⟩ := (Bool.and_eq_true_iff).1 he.symm
    exact hkeywrap

/-! ## The failures of a command -/

/-- Command `i` on `s` can raise the code from the state that follows it: `s` itself for an illegal word (R83), a legal
one with the counters cleared (R32), with `CAP` latched (R33), and for `INIT` its slot scrubbed (R164); an `OPEN` that
reached the construction raises `E_DECRYPT` from what that leaves (R168, R226), and `GCM_FINISH` from the finished
engine (R142). -/
inductive FailsFrom (i : Instr) (s : State) : StatusCode → State → Prop
  | illegal : FailsFrom i s .badCommand s
  | check {e : StatusCode} (hlatch : latchesCap i = false) (he : Listed i e) : FailsFrom i s e s.clearPerf
  | latched {e : StatusCode} (hi : i = .gcmKey ∨ i = .ghLoadh) (he : Listed i e) :
      FailsFrom i s e (s.latchCap std).clearPerf
  | scrubbed {e : StatusCode} {c id : BitVec 8} {o : Bool} (hi : i = .init c id o) (he : Listed i e) :
      FailsFrom i s e ((s.latchCap std).clearPerf.setSlot c {})
  | badRecord {c : BitVec 8} {f : Bool} {d : Descriptor} (hi : i = .open_ c f) (hok : openCode s c f = .ok)
      (hd : BoundTo s c d) :
      FailsFrom i s .decrypt ((s.clearPerf.setSlot c (opened s c f d).slot).setPerf (opened s c f d).perf)
  | badTag (hi : i = .gcmFinish) : FailsFrom i s .decrypt { s.clearPerf with eng := engFinalize s.eng }

/-- `t` is a state in which command `i` on `s` has failed (R257). -/
def Fails (i : Instr) (s t : State) : Prop := ∃ e u, FailsFrom i s e u ∧ t = u.raise (hasDest i) e

/-- A result of command `i` that is a success, a failure, or no state. -/
abbrev SucceedsOrFails (i : Instr) (s : State) (r : Result) : Prop := Ends (fun t => t.status = 0 ∨ Fails i s t) r

theorem FailsFrom.ends {e : StatusCode} {u : State} (h : FailsFrom i s e u) :
    SucceedsOrFails i s (.next (u.raise (hasDest i) e)) := .next (.inr ⟨e, u, h, rfl⟩)

theorem SucceedsOrFails.done {u : State} {n : Nat} : SucceedsOrFails i s (.next (u.done n)) := .next (.inl rfl)

/-- An illegal word zero-fills nothing, whatever command it would be (R257). -/
theorem SucceedsOrFails.badCommand : SucceedsOrFails i s (.next s.badCommand) := by
  have hraise : s.raise (hasDest i) .badCommand = s.badCommand := by cases hasDest i <;> rfl
  exact hraise ▸ FailsFrom.illegal.ends

/-- A list of checks on a state from which each of their codes can be raised. -/
theorem checked_succeedsOrFails {cs : List (Bool × StatusCode)} {u : State} {go : State → Result}
    (hcs : ∀ q ∈ cs, FailsFrom i s q.2 u) (hgo : SucceedsOrFails i s (go u)) :
    SucceedsOrFails i s (checked (hasDest i) cs u go) := by
  obtain ⟨e, hfirst, he⟩ | ⟨-, he⟩ := checked_cases (hasDest i) cs u go
  · exact he ▸ (hcs _ (firstFailing_mem cs e hfirst)).ends
  · exact he ▸ hgo

/-- A list of checks after which the command only succeeds. -/
theorem checked_done_succeedsOrFails {cs : List (Bool × StatusCode)} {u : State} {g : State → State} {n : State → Nat}
    (hlisted : ∀ q ∈ cs, Listed i q.2) (hfrom : ∀ e, Listed i e → FailsFrom i s e u) :
    SucceedsOrFails i s (checked (hasDest i) cs u fun s => .next ((g s).done (n s))) :=
  checked_succeedsOrFails (fun q hq => hfrom q.2 (hlisted q hq)) .done

/-- The common part of the slot commands (R88, R166). -/
theorem onSlot_succeedsOrFails {bufs : List (Word × Word)} {go : State → Slot → Descriptor → Result}
    (hlatch : latchesCap i = false) (haddress : Listed i .badAddress) (hstate : Listed i .state)
    (hgo : ∀ d, SucceedsOrFails i s (go s.clearPerf (s.slot c) d)) :
    SucceedsOrFails i s (onSlot std (hasDest i) bufs c s go) := by
  obtain ⟨-, he⟩ | ⟨-, -, he⟩ | ⟨-, -, -, he⟩ | ⟨d, -, -, -, he⟩ := onSlot_cases std (hasDest i) bufs c s go
  · exact he ▸ .badCommand
  · exact he ▸ (FailsFrom.check hlatch haddress).ends
  · exact he ▸ (FailsFrom.check hlatch hstate).ends
  · exact he ▸ hgo d

end

/-! ## The commands that name a slot -/

section
variable (s : State) (c : BitVec 8)

theorem init_succeedsOrFails (id : BitVec 8) (o : Bool) :
    SucceedsOrFails (.init c id o) s (exec (.init c id o) s) := by
  simp only [exec, execInit, initOn]
  split
  · exact .badCommand
  · split
    · exact .badCommand
    · exact checked_done_succeedsOrFails (by simp [Listed, codesOf, StatusCode.code]) fun _ => .scrubbed rfl

/-- A slot number that is no slot makes the word of a `SEAL` or `OPEN` illegal (R88). -/
theorem exec_contract_of_ge {c : BitVec 8} (f : Bool) (hc : ¬c.toNat < 8) :
    exec (.seal_ c f) s = .next s.badCommand ∧ exec (.open_ c f) s = .next s.badCommand := by
  simp only [exec, execSeal, sealOn, execOpen, openOn]
  exact ⟨onSlot_of_ge (Nat.le_of_not_lt hc), onSlot_of_ge (Nat.le_of_not_lt hc)⟩

theorem seal_succeedsOrFails (f : Bool) : SucceedsOrFails (.seal_ c f) s (exec (.seal_ c f) s) := by
  by_cases hc : c.toNat < 8
  · obtain ⟨hne, -, he⟩ | ⟨d, -, -, -, -, he⟩ := seal_cases s c f hc
    · exact he ▸ (FailsFrom.check rfl (sealCode_listed hne)).ends
    · exact he ▸ .ite (fun _ => .refused _) fun _ => SucceedsOrFails.done
  · exact (exec_contract_of_ge s f hc).1 ▸ .badCommand

theorem open_succeedsOrFails (f : Bool) : SucceedsOrFails (.open_ c f) s (exec (.open_ c f) s) := by
  by_cases hc : c.toNat < 8
  · obtain ⟨hne, -, he⟩ | ⟨d, hok, hd, -, -, he⟩ := open_cases s c f hc
    · exact he ▸ (FailsFrom.check rfl (openCode_listed hne)).ends
    · refine he ▸ .ite (fun _ => .refused _) fun _ => ?_
      change SucceedsOrFails (.open_ c f) s (.next (openFinish std c (opened s c f d) s.clearPerf))
      cases hplain : (opened s c f d).plain with
      | none =>
        rw [openFinish_of_none hplain]
        exact (FailsFrom.badRecord rfl hok hd).ends
      | some p =>
        rw [openFinish_of_some hplain]
        exact .done
  · exact (exec_contract_of_ge s f hc).2 ▸ .badCommand

theorem cleanup_succeedsOrFails : SucceedsOrFails (.cleanup c) s (exec (.cleanup c) s) := by
  simp only [exec, execCleanup, cleanupOn]
  exact .ite (fun _ => SucceedsOrFails.done) fun _ => SucceedsOrFails.badCommand

theorem getstream_succeedsOrFails : SucceedsOrFails (.getstream c) s (exec (.getstream c) s) := by
  have hlisted : ∀ e ∈ [StatusCode.badAddress, .state, .bufferTooSmall, .unsupported], Listed (.getstream c) e := by
    simp [Listed, codesOf, StatusCode.code]
  simp only [exec, execGetstream, getstreamOn]
  refine onSlot_succeedsOrFails rfl (hlisted _ (by simp)) (hlisted _ (by simp)) fun d => ?_
  split
  · exact checked_done_succeedsOrFails (by simp [hlisted]) fun _ => .check rfl
  · exact (FailsFrom.check rfl (hlisted .unsupported (by simp))).ends

theorem setivfixed_succeedsOrFails : SucceedsOrFails (.setivfixed c) s (exec (.setivfixed c) s) := by
  have hlisted : ∀ e ∈ [StatusCode.badAddress, .state, .unsupported, .badNonceLength], Listed (.setivfixed c) e := by
    simp [Listed, codesOf, StatusCode.code]
  simp only [exec, execSetivfixed, setivfixedOn]
  refine onSlot_succeedsOrFails rfl (hlisted _ (by simp)) (hlisted _ (by simp)) fun d => ?_
  exact checked_done_succeedsOrFails (by simp [hlisted]) fun _ => .check rfl

end

/-! ## Every command -/

/-- `GCM_FINISH` fails by a check, or with a wrong tag (R142). -/
theorem gcmFinish_succeedsOrFails (s : State) : SucceedsOrFails .gcmFinish s (exec .gcmFinish s) := by
  have hlisted : ∀ e ∈ [StatusCode.state, .badTagLength, .badAddress], Listed .gcmFinish e := by
    simp [Listed, codesOf, StatusCode.code]
  simp only [exec, execGcmFinish, gcmFinishOn]
  refine checked_succeedsOrFails (fun q hq => .check rfl (hlisted q.2 ?_)) ?_
  · simpa using List.mem_map_of_mem (f := Prod.snd) hq
  · exact checked_succeedsOrFails (List.forall_mem_singleton.2 (.badTag rfl)) .done

/-- Every command succeeds or fails as `FailsFrom` lists, if it gives a next state. -/
theorem exec_succeedsOrFails (i : Instr) (s : State) : SucceedsOrFails i s (exec i s) := by
  cases i with
  | init c id o => exact init_succeedsOrFails s c id o
  | seal_ c f => exact seal_succeedsOrFails s c f
  | open_ c f => exact open_succeedsOrFails s c f
  | cleanup c => exact cleanup_succeedsOrFails s c
  | getstream c => exact getstream_succeedsOrFails s c
  | setivfixed c => exact setivfixed_succeedsOrFails s c
  | nop | gcmClear => exact .done
  | gcmFinish => exact gcmFinish_succeedsOrFails s
  | gcmKey =>
    simp only [exec, execGcmKey, gcmKeyOn]
    exact checked_done_succeedsOrFails (by simp [Listed, codesOf, StatusCode.code]) fun _ => .latched (.inl rfl)
  | ghLoadh =>
    simp only [exec, execGhLoadh, ghLoadhOn]
    exact checked_done_succeedsOrFails (by simp [Listed, codesOf, StatusCode.code]) fun _ => .latched (.inr rfl)
  | gcmSetiv | gcmAad | gcmEnc | gcmDec | gcmTag | ghLoadx | ghMul | ghHash | ghStorex | ctrLoad | ctrXor =>
    simp only [exec, execGcmSetiv, gcmSetivOn, execGcmAad, gcmAadOn, execGcmEnc, execGcmDec, gcmCryptOn, execGcmTag,
      gcmTagOn, execGhLoadx, ghLoadxOn, execGhMul, execGhHash, ghHashOn, execGhStorex, ghStorexOn, execCtrLoad,
      ctrLoadOn, execCtrXor, ctrXorOn]
    exact checked_done_succeedsOrFails (by simp [Listed, codesOf, StatusCode.code]) fun _ => .check rfl

/-- A command that gives a state with a code other than `OK` has failed (R257). -/
theorem exec_fails {i : Instr} {s t : State} (h : exec i s = .next t) (hne : t.status ≠ 0) : Fails i s t :=
  (exec_succeedsOrFails i s t h).resolve_left hne

/-- R262 lists the code of every failure. -/
theorem FailsFrom.mem_codesOf {i : Instr} {s u : State} {e : StatusCode} (h : FailsFrom i s e u) :
    e.code.toNat ∈ codesOf i := by
  cases h with
  | illegal => exact badCommand_mem_codesOf i
  | check _ he | latched _ he | scrubbed _ he => exact he.2
  | badRecord hi | badTag hi =>
    subst hi
    simp [codesOf, StatusCode.code]

/-- `SEAL` leaves `E_BAD_INPUT_LENGTH` on a key-wrap slot only (R167). -/
theorem seal_badInputLength {s : State} {c : BitVec 8} {f : Bool} :
    Ends (fun t => t.status = 8 → ∃ d, BoundTo s c d ∧ isKeywrap d = true) (exec (.seal_ c f) s) := by
  by_cases hc : c.toNat < 8
  · obtain ⟨-, -, he⟩ | ⟨d, -, -, -, -, he⟩ := seal_cases s c f hc
    · refine he ▸ .next fun h8 => ?_
      have hcode : ∀ e : StatusCode, e.code = 8 → e = .badInputLength := by rintro ⟨⟩ <;> decide
      obtain ⟨d, hlive, hd, hkeywrap⟩ := isKeywrap_of_sealCode (hcode _ h8)
      exact ⟨d, ⟨hc, hlive, hd⟩, hkeywrap⟩
    · exact he ▸ .ite (fun _ => .refused _) fun _ => .next nofun
  · exact (exec_contract_of_ge s f hc).1 ▸ .next nofun

/-- Settles O10: the code of a success is 0, and those of the failures are the ones `FailsFrom` lists. -/
theorem codesEachCommandCanRaise : Obligations.CodesEachCommandCanRaise := by
  intro i s t h
  refine ⟨?_, fun c f hi => ?_⟩
  · obtain hok | ⟨e, u, hfrom, rfl⟩ := exec_succeedsOrFails i s t h
    · exact .inl hok
    · exact .inr hfrom.mem_codesOf
  · subst hi
    exact seal_badInputLength t h

end Sys2Proof.Machine
end

section
/-! PROOF. The failure protocol (R257): what the state from which a command raises its code keeps of the state before
it (R32, R33, R142, R164, R222, R226), field by field. -/

namespace Sys2Proof.Machine

/-! ## The codes that are no command's own -/

/-- Code 1 is that of an illegal word (R255). -/
theorem StatusCode.code_eq_one_iff (e : StatusCode) : e.code = 1 ↔ e = .badCommand := by
  cases e <;> decide

/-- Code 2 is that of a buffer out of range (R255). -/
theorem StatusCode.code_eq_two_iff (e : StatusCode) : e.code = 2 ↔ e = .badAddress := by
  cases e <;> decide

/-- A listed code is not that of an illegal word. -/
theorem Listed.code_ne_one {i : Instr} {e : StatusCode} (h : Listed i e) : e.code ≠ 1 :=
  mt e.code_eq_one_iff.1 h.1

/-- The commands with a destination in the terms of the statements. -/
theorem hasDest_iff (i : Instr) : hasDest i = true ↔ ∃ c f, i = .seal_ c f ∨ i = .open_ c f := by
  cases i <;> simp [hasDest]

/-- The commands that latch `CAP` in the terms of the statements. -/
theorem latchesCap_iff (i : Instr) :
    latchesCap i = true ↔ i = .gcmKey ∨ i = .ghLoadh ∨ ∃ c d o, i = .init c d o := by
  constructor
  · intro h
    cases i with
    | init c d o => exact .inr (.inr ⟨c, d, o, rfl⟩)
    | gcmKey => exact .inl rfl
    | ghLoadh => exact .inr (.inl rfl)
    | _ => cases h
  · rintro (rfl | rfl | ⟨c, d, o, rfl⟩) <;> rfl

/-- When a failure zero-fills, in the terms of the statements (R257). -/
theorem zeroFills_hasDest_iff (i : Instr) (e : StatusCode) : zeroFills (hasDest i) e = true ↔
    (∃ c f, i = .seal_ c f ∨ i = .open_ c f) ∧ e.code ≠ 1 ∧ e.code ≠ 2 := by
  simp only [zeroFills, Bool.and_eq_true, decide_eq_true_eq, hasDest_iff, and_assoc, ne_eq, e.code_eq_one_iff,
    e.code_eq_two_iff]

/-! ## The construction of an `OPEN` -/

/-- An `OPEN` that passes its checks ends as the construction has it, if it gives a next state (R168). -/
theorem eq_openFinish_of_ok {s t : State} {c : BitVec 8} {f : Bool} {d : Descriptor} (h : exec (.open_ c f) s = .next t)
    (hok : openCode s c f = .ok) (hd : BoundTo s c d) : t = openFinish std c (opened s c f d) s.clearPerf := by
  have hsep : Separate s.x := by
    obtain ⟨hne, -⟩ | ⟨d', -, -, -, -, he⟩ := open_cases s c f hd.1
    · exact absurd hok hne
    · by_contra hover
      rw [destOverlap_eq, decide_eq_true hover, if_pos rfl] at he
      exact nomatch he.symm.trans h
  obtain ⟨-, he⟩ := exec_open_of_ok hd hok hsep
  exact Host.Outcome.next.inj (h.symm.trans he)

section
variable {s : State} {c : BitVec 8} {f : Bool} {d : Descriptor}

/-- The family's part of an `OPEN` on a slot that is no stream slot leaves the slot (R226). -/
theorem opened_slot_of_not_stream (hf : ¬∃ sc m x, d.family = .stream sc m x) :
    (opened s c f d).slot = s.slot c := by
  obtain h | ⟨sc, m, x, -, hstream, -⟩ := openPart_slot d (s.slot c) (openNonce s c f) (s.readBuf s.x.adp s.x.adl)
    (s.readBuf s.x.inp s.x.inl)
  · exact h
  · exact absurd ⟨sc, m, x, hstream⟩ hf

/-- The family's part of an `OPEN` on a stream slot, which has no `FIXEDIV`, advances the stream state (R225, R226). -/
theorem opened_slot_stream {sc : ScName} {m : MacName} {x : Bool} (hf : d.family = .stream sc m x)
    (hchecks : firstFailing (openChecks std s.x (s.slot c) d f) = none) :
    (opened s c f d).slot = streamAdvanced s c sc (s.readBuf s.x.inp s.x.inl) := by
  cases f with
  | false => exact congrArg Opened.slot (opened_stream hf hchecks)
  | true =>
    have hgcm := (firstFailing_none _).1 hchecks (true && !isGcm d, .unsupported) (by simp [openChecks, prologueChecks])
    simp [isGcm, hf] at hgcm

/-- The counters after the construction of a block-cipher legacy slot (R222). -/
theorem opened_perf_cbc {bc : BcName} {m : MacName} {b : Nat}
    (hf : d.family = .cbcTls bc m b ∨ d.family = .cbcSsl3 bc m b) :
    (opened s c f d).perf = Config.ctCount d s.x.inl.toNat s.x.adl.toNat := by
  have hcount : std.ctCount = Config.ctCount := rfl
  obtain hf | hf := hf <;> simp only [opened, openPart, hf, State.length_readBuf, hcount]

/-- The counters after any other construction (R32). -/
theorem opened_perf_of_not_cbc (hf : ¬∃ bc m b, d.family = .cbcTls bc m b ∨ d.family = .cbcSsl3 bc m b) :
    (opened s c f d).perf = (0, 0) := by
  unfold opened openPart
  cases hfam : d.family with
  | cbcTls bc m b => exact absurd ⟨bc, m, b, .inl hfam⟩ hf
  | cbcSsl3 bc m b => exact absurd ⟨bc, m, b, .inr hfam⟩ hf
  | gcm | stream | keywrap => rfl

end

/-! ## The state from which a code is raised -/

/-- `u` is `s` but for the counters, `CAP`, slots and the engine. -/
structure KeepsRest (s u : State) : Prop where
  x : u.x = s.x
  gh : u.gh = s.gh
  ctr : u.ctr = s.ctr
  mem : u.mem = s.mem
  pending : u.pending = s.pending
  readData : u.readData = s.readData
  freeCount : u.freeCount = s.freeCount

section
variable {i : Instr} {s u : State} {e : StatusCode}

theorem FailsFrom.keepsRest (h : FailsFrom i s e u) : KeepsRest s u := by
  cases h <;> exact ⟨rfl, rfl, rfl, rfl, rfl, rfl, rfl⟩

/-- A failure latches `CAP` only in a legal command that latches it (R33). -/
theorem FailsFrom.cap (h : FailsFrom i s e u) :
    u.cap = if latchesCap i = true ∧ e.code ≠ 1 then s.latched else s.cap := by
  cases h with
  | illegal => exact (if_neg fun ⟨_, hne⟩ => hne rfl).symm
  | check hlatch => exact (if_neg fun ⟨hlatches, _⟩ => nomatch hlatch.symm.trans hlatches).symm
  | badRecord hi | badTag hi =>
    subst hi
    exact (if_neg fun ⟨hlatches, _⟩ => nomatch hlatches).symm
  | latched hi he =>
    rw [if_pos ⟨(latchesCap_iff i).2 (hi.imp_right .inl), he.code_ne_one⟩]
    exact s.latchCap_std_cap
  | scrubbed hi he =>
    subst hi
    rw [if_pos ⟨rfl, he.code_ne_one⟩]
    exact s.latchCap_std_cap

/-- A failed `INIT` whose word is legal leaves its slot scrubbed (R164). -/
theorem FailsFrom.slot_of_init {c id : BitVec 8} {o : Bool} (h : FailsFrom i s e u) (hi : i = .init c id o)
    (hne : e.code ≠ 1) : u.slot c = {} := by
  subst hi
  cases h with
  | illegal => exact absurd rfl hne
  | check hlatch => exact nomatch hlatch
  | latched hi => obtain hi | hi := hi <;> exact nomatch hi
  | scrubbed hi =>
    cases hi
    exact State.slot_setSlot_same ..
  | badRecord hi | badTag hi => exact nomatch hi

/-- An `OPEN` on a stream slot that reached the construction: its failure leaves the next stream state (R226). -/
def ReachesStream (i : Instr) (s : State) (c : BitVec 8) : Prop :=
  ∃ f d sc m x, i = .open_ c f ∧ openCode s c f = .ok ∧ BoundTo s c d ∧ d.family = .stream sc m x

/-- An `OPEN` on a block-cipher legacy slot that reached the construction: its failure leaves the counts (R222). -/
def ReachesCbc (i : Instr) (s : State) : Prop :=
  ∃ c f d bc m b, i = .open_ c f ∧ openCode s c f = .ok ∧ BoundTo s c d ∧
    (d.family = .cbcTls bc m b ∨ d.family = .cbcSsl3 bc m b)

/-- Every other slot is as before (R257). -/
theorem FailsFrom.slot_eq {c : BitVec 8} (h : FailsFrom i s e u) (hinit : ¬∃ d o, i = .init c d o ∧ e.code ≠ 1)
    (hopen : ¬ReachesStream i s c) : u.slot c = s.slot c := by
  cases h with
  | illegal | check | latched | badTag => rfl
  | @scrubbed _ c' id o hi he =>
    have hc : c ≠ c' := by
      rintro rfl
      exact hinit ⟨id, o, hi, he.code_ne_one⟩
    exact State.slot_setSlot_ne _ c' c {} hc
  | @badRecord c' f d hi hok hd =>
    by_cases hc : c = c'
    · subst hc
      have hstream : ¬∃ sc m x, d.family = .stream sc m x := fun ⟨sc, m, x, hf⟩ =>
        hopen ⟨f, d, sc, m, x, hi, hok, hd, hf⟩
      rw [State.slot_setPerf, State.slot_setSlot_same, opened_slot_of_not_stream hstream]
    · exact State.slot_setSlot_ne _ c' c _ hc

/-- The engine is as before but after `GCM_FINISH` with a wrong tag (R142). -/
theorem FailsFrom.eng_eq (h : FailsFrom i s e u) (hne : ¬(i = .gcmFinish ∧ e.code = 12)) : u.eng = s.eng := by
  cases h with
  | badTag hi => exact absurd ⟨hi, rfl⟩ hne
  | illegal | check | latched | scrubbed | badRecord => rfl

/-- An illegal word leaves the counters (R83, R257). -/
theorem FailsFrom.perf_of_illegal (h : FailsFrom i s e u) (he : e.code = 1) :
    u.perfCompress = s.perfCompress ∧ u.perfMemacc = s.perfMemacc := by
  cases h with
  | illegal => exact ⟨rfl, rfl⟩
  | check _ hlisted | latched _ hlisted | scrubbed _ hlisted => exact absurd he hlisted.code_ne_one
  | badRecord | badTag => exact nomatch he

/-- A legal word leaves the counters 0, but for a block-cipher legacy `OPEN` that reached the construction (R32,
R222). -/
theorem FailsFrom.perf_eq_zero (h : FailsFrom i s e u) (hne : e.code ≠ 1) (hopen : ¬ReachesCbc i s) :
    u.perfCompress = 0 ∧ u.perfMemacc = 0 := by
  cases h with
  | illegal => exact absurd rfl hne
  | check | latched | scrubbed | badTag => exact ⟨rfl, rfl⟩
  | @badRecord c f d hi hok hd =>
    have hcbc : ¬∃ bc m b, d.family = .cbcTls bc m b ∨ d.family = .cbcSsl3 bc m b := fun ⟨bc, m, b, hf⟩ =>
      hopen ⟨c, f, d, bc, m, b, hi, hok, hd, hf⟩
    rw [opened_perf_of_not_cbc hcbc]
    exact ⟨rfl, rfl⟩

/-- Memory is zero at the destination of a `SEAL` or `OPEN`, but for codes 1 and 2, and as before elsewhere (R69,
R257). -/
theorem FailsFrom.mem_raise (h : FailsFrom i s e u) (hwf : s.mem.wf = true) :
    if (∃ c f, i = .seal_ c f ∨ i = .open_ c f) ∧ e.code ≠ 1 ∧ e.code ≠ 2
      then Stores s.mem (u.raise (hasDest i) e).mem s.x.outp.toNat (zeros s.x.outmax.toNat)
      else (u.raise (hasDest i) e).mem = s.mem := by
  have hkeep := h.keepsRest
  simp only [State.raise_mem, hkeep.x, hkeep.mem, zeroFills_hasDest_iff]
  split
  · exact stores_writeBytes s.mem s.x.outp.toNat _ hwf
  · rfl

end

/-! ## What the constructions leave -/

/-- A stream `OPEN` that reached the construction leaves the next stream state (R225, R226). -/
theorem slot_of_reachesStream {s t : State} {c : BitVec 8} {f : Bool} {d : Descriptor} {sc : ScName} {m : MacName}
    {x : Bool} (h : exec (.open_ c f) s = .next t) (hok : openCode s c f = .ok) (hd : BoundTo s c d)
    (hf : d.family = .stream sc m x) : t.slot c = streamAdvanced s c sc (s.readBuf s.x.inp s.x.inl) := by
  obtain ⟨hne, -⟩ | ⟨d', -, hd', -, hchecks, -⟩ := open_cases s c f hd.1
  · exact absurd hok hne
  · obtain rfl := hd.unique hd'
    rw [eq_openFinish_of_ok h hok hd, openFinish_slot, opened_slot_stream hf hchecks]

/-- A block-cipher legacy `OPEN` that reached the construction leaves the counts (R222). -/
theorem perf_of_reachesCbc {s t : State} {c : BitVec 8} {f : Bool} {d : Descriptor} {bc : BcName} {m : MacName}
    {b : Nat} (h : exec (.open_ c f) s = .next t) (hok : openCode s c f = .ok) (hd : BoundTo s c d)
    (hf : d.family = .cbcTls bc m b ∨ d.family = .cbcSsl3 bc m b) :
    t.perfCompress = (Config.ctCount d s.x.inl.toNat s.x.adl.toNat).1 ∧
      t.perfMemacc = (Config.ctCount d s.x.inl.toNat s.x.adl.toNat).2 := by
  have hperf := openFinish_perf (κ := std) (c := c) (r := opened s c f d) (s := s.clearPerf)
  rw [← eq_openFinish_of_ok h hok hd, opened_perf_cbc hf] at hperf
  exact Prod.mk.inj hperf

/-- `GCM_FINISH` with a wrong tag leaves the finished engine (R142). -/
theorem gcmFinish_eng_of_decrypt (s : State) :
    Ends (fun t => t.status = 12 → t.eng = engFinalize s.eng) (exec .gcmFinish s) := by
  rw [exec_gcmFinish]
  exact .ite (fun _ => .next nofun) fun _ => .ite (fun _ => .next nofun) fun _ => .ite (fun _ => .next nofun) fun _ =>
    .ite (fun _ => .next fun _ => rfl) fun _ => .next nofun

/-- Settles O11: a failure raises its code from a state that `FailsFrom` lists, which is the state before the command
but for the exceptions of R257. -/
theorem failureProtocol : Obligations.FailureProtocol := by
  intro i s t hwf h hne
  have hstream (c f d sc m x) (hi : i = .open_ c f) (hok : openCode s c f = .ok) (hd : BoundTo s c d)
      (hf : d.family = .stream sc m x) := slot_of_reachesStream (hi ▸ h) hok hd hf
  have hcbc (c f d bc m b) (hi : i = .open_ c f) (hok : openCode s c f = .ok) (hd : BoundTo s c d)
      (hf : d.family = .cbcTls bc m b ∨ d.family = .cbcSsl3 bc m b) := perf_of_reachesCbc (hi ▸ h) hok hd hf
  have hfinish (hi : i = .gcmFinish) (h12 : t.status = 12) : t.eng = engFinalize s.eng ∧ t.eng.phase = .final := by
    have heng := gcmFinish_eng_of_decrypt s t (hi ▸ h) h12
    exact ⟨heng, heng ▸ rfl⟩
  obtain ⟨e, u, hfrom, rfl⟩ := exec_fails h hne
  have hkeep := hfrom.keepsRest
  have hcap : u.cap = if (i = .gcmKey ∨ i = .ghLoadh ∨ ∃ c d o, i = .init c d o) ∧ e.code ≠ 1 then s.latched
      else s.cap := by
    rw [hfrom.cap]
    simp only [latchesCap_iff]
  exact ⟨rfl, hkeep.x, hkeep.gh, hkeep.ctr, hkeep.pending, hkeep.readData, hkeep.freeCount, hfrom.mem_raise hwf, hcap,
    fun _ _ _ => hfrom.slot_of_init, hstream, fun _ => hfrom.slot_eq, hfinish, hfrom.eng_eq, hfrom.perf_of_illegal,
    hcbc, hfrom.perf_eq_zero⟩

end Sys2Proof.Machine
end
